-- ==== Sys2Proof/Word.lean ====
section
/-! DEFINITION. The word types of the WB-24: bytes, local time, sequences. -/

namespace Sys2Proof

/-- One byte of a frame, a request, a response or the configuration block. -/
abbrev Byte := BitVec 8

/-- A value of local time (LT) or a span of ticks: it wraps after 2^32 ticks (00, "Ticks and local time"). -/
abbrev Ticks := BitVec 32

/-- An epoch number (R1): it wraps after 2^32 epochs. -/
abbrev EpochNo := BitVec 32

/-- A frame sequence: the low 16 bits of an epoch number (R1, R42). -/
abbrev SeqNo := BitVec 16

end Sys2Proof
end

