-- ==== Sys2Proof/Syntax.lean ====
section
/-! DEFINITION. The commands of the WB-24: one constructor per row of spec/opcode_table.json, with the values that the rules
say the event brings from outside (log 3, DESIGN CHOICE), and the small types of those values. -/

namespace Sys2Proof

/-- The three phases (00, 0.1). -/
inductive Phase | l1 | l2 | l3
  deriving DecidableEq, Repr

/-- The two converter channels of a phase (01, section 1.2). -/
inductive Channel | a | b
  deriving DecidableEq, Repr

/-- The two ring ports (03). -/
inductive Port | east | west
  deriving DecidableEq, Repr

/-- The four busbar sections, in the order of the conventions (00). -/
inductive Sect | a1 | a2 | b1 | b2
  deriving DecidableEq, Repr

/-- The three contact pairs (R28). -/
inductive DevPair | q1 | q2 | cb
  deriving DecidableEq, Repr

/-- A bay number 1 to 24 (R63), held as 0 to 23. -/
abbrev Bay := Fin 24

/-- The levels of the eight contact inputs: true is made, read 1 (R19). -/
structure Contacts where
  q1a : Bool
  q1b : Bool
  q2a : Bool
  q2b : Bool
  cba : Bool
  cbb : Bool
  oos : Bool
  tst : Bool
  deriving DecidableEq, Repr

/-- Where a late own sample event falls among the choices of the epoch at which it is finalised (R161, R153: either order). -/
inductive LatePlace | beforeChoice | afterChoice | afterSupervision
  deriving DecidableEq, Repr

/-- The order of what falls together at one epoch, where the rules leave it open (R161; log 4, DESIGN CHOICE): the place of a late own sample
event, and whether the peer table's and the ring's epoch counts are taken before the choice of the station state. On one side of the
choice the late event comes first, then the peer table's counts, then the ring's. -/
structure EpochOrder where
  late : LatePlace
  peersFirst : Bool
  linksFirst : Bool
  deriving DecidableEq, Repr

/-- A zone by the name of a section it contains, or the check zone (R104, R109). -/
inductive ZoneRef | zone (s : Sect) | check
  deriving DecidableEq, Repr

/-- The two alarm flags of the ring with a quiet run (R59). -/
inductive QuietFlag | transitOverflow | unexpectedBay
  deriving DecidableEq, Repr

/-- The cases in which R181 discards a request. -/
inductive DiscardCause | lineError | lengthDiffers | sizeOutside | whileResponding
  deriving DecidableEq, Repr

/-- The commands. `moment` is the epoch phase, in ticks, at which the event falls (log 1, DESIGN CHOICE). -/
inductive Instr
  | epoch (contacts : Contacts) (tcs : Bool) (order : EpochOrder)
  | conversionComplete (ph : Phase) (ch : Channel) (raw : BitVec 16) (moment : Nat)
  | retrip
  | breakerFailure
  | endZoneTimeout (bay : Bay)
  | onsetWindowEnd (z : ZoneRef) (ph : Phase)
  | stabilisationExpiry (z : ZoneRef) (ph : Phase)
  | evolveRelease (z : ZoneRef) (ph : Phase)
  | quietReturn (z : ZoneRef) (ph : Phase)
  | zoneBlocked (z : ZoneRef) (ph : Phase)
  | converterFailure
  | converterRecovery
  | isolatorDiscrepancy (pair : DevPair)
  | receiveSignalPresent (port : Port) (moment : Nat)
  | receiveSignalLost (port : Port) (moment : Nat)
  | holdEnd (port : Port)
  | echoDue (port : Port)
  | echoTimeout (port : Port)
  | echoRequestReceived (port : Port) (bytes : List Byte) (moment : Nat)
  | echoAnswerReceived (port : Port) (bytes : List Byte) (moment : Nat)
  | bayFrameReceived (port : Port) (bytes : List Byte) (moment : Nat)
  | peerStale (bay : Bay)
  | peerAbsent (bay : Bay)
  | joiningRunReset (bay : Bay)
  | transmissionEnd (port : Port)
  | quietRunEnd (flag : QuietFlag)
  | supervisionPulseDue
  | supervisionPulseEnd (tcs : Bool)
  | qualified
  | listenTimeout
  | duplicateConflictEnd
  | referenceConfirmed (contacts : Contacts)
  | referenceLoss (moment : Nat)
  | powerUpTimeout
  | confirmationWaitTimeout
  | configCheckDone (contacts : Contacts)
  | supplyLow
  | supplyNormal
  | supplyReset
  | powerOnReset
  | resetPinAsserted
  | resetEnd
  | commitDone (readBack : List Byte)
  | requestDiscarded (cause : DiscardCause)
  | unknown (code : Byte) (payload : List Byte)
  | status (payload : List Byte)
  | select (payload : List Byte) (moment : Nat)
  | read (payload : List Byte)
  | takeRecord (payload : List Byte)
  | clearAlarms (payload : List Byte)
  | clearCounters (payload : List Byte)
  | clearPeer (payload : List Byte)
  | testOn (payload : List Byte)
  | testOff (payload : List Byte)
  | stage (payload : List Byte)
  | commit (payload : List Byte) (cfgen : Bool)
  | reset (payload : List Byte)
  | responseSent
  | badReferenceCycle (count : Option Nat)
  deriving DecidableEq, Repr

end Sys2Proof
end

