-- ==== Sys2Proof/Decode.lean ====
section
/-! DEFINITION. The command a table word spells, and the command a request of the maintenance line spells. spec/opcode_table.json gives
no row any bits, so no word spells a command; the command bytes of requests are those of R188. -/

namespace Sys2Proof

/-- The command that an nbits-wide word spells by the table's bits: none, since no row of the table gives bits (98, "The
reader's counts": n_rows_with_fixed 0). -/
def decodeTableWord (_nbits _w : Nat) : Option Instr := none

/-- The command of a command byte (R188) with its payload, the CFGEN strap and the moment of its event; a byte that names no command
is UNKNOWN (R182). -/
def requestOf (code : Byte) (payload : List Byte) (cfgen : Bool) (moment : Nat) : Instr :=
  match code.toNat with
  | 1 => .status payload
  | 2 => .select payload moment
  | 3 => .read payload
  | 4 => .takeRecord payload
  | 5 => .clearAlarms payload
  | 6 => .clearCounters payload
  | 7 => .clearPeer payload
  | 8 => .testOn payload
  | 9 => .testOff payload
  | 10 => .stage payload
  | 11 => .commit payload cfgen
  | 12 => .reset payload
  | _ => .unknown code payload

/-- The command of the bytes of a request received without line error (R181): a command byte, a length byte and the payload. A request
of fewer than 2 or more than 66 bytes, and one whose length byte differs from the payload's length, is discarded. -/
def lineRequest (bytes : List Byte) (cfgen : Bool) (moment : Nat) : Instr :=
  match bytes with
  | code :: length :: payload =>
    if payload.length > 64 then .requestDiscarded .sizeOutside
    else if length.toNat ≠ payload.length then .requestDiscarded .lengthDiffers
    else requestOf code payload cfgen moment
  | _ => .requestDiscarded .sizeOutside

end Sys2Proof
end

