-- ==== Sys2Proof/Config.lean ====
section
/-! DEFINITION. What the spec leaves open as a value: the bytes a cut commit leaves in the configuration block. -/

namespace Sys2Proof

/-- The free byte drawn at number n: what a cut commit leaves in one place of the block (R180, "undetermined after a cut
commit"). It has no body, so nothing is known of it (log 9, DESIGN CHOICE). -/
opaque Config.cutByte : Nat → Byte

end Sys2Proof
end

