-- ==== Sys2Proof/Machine/State.lean ====
section
/-! DEFINITION. The state of the WB-24: one structure per block of the part (00, "The station in blocks"), the pins, and the
queue of waiting commands. Plain data throughout. The reset values are those of R18, R33, R62, R83, R97, R119, R160, R174,
R180 and R187. -/

namespace Sys2Proof.Machine

/-! ## Values kept per phase, per section, per pair and per port -/

/-- One value for each phase. -/
structure PerPhase (α : Type) where
  l1 : α
  l2 : α
  l3 : α
  deriving DecidableEq, Repr

/-- One value for each busbar section. -/
structure PerSect (α : Type) where
  a1 : α
  a2 : α
  b1 : α
  b2 : α
  deriving DecidableEq, Repr

/-- One value for each contact pair. -/
structure PerPair (α : Type) where
  q1 : α
  q2 : α
  cb : α
  deriving DecidableEq, Repr

/-- A set of busbar sections. -/
abbrev SectSet := PerSect Bool

/-! ## Named values -/

/-- The derived state of a switching device (R24). -/
inductive Switch | opened | closed | travel | invalid
  deriving DecidableEq, Repr

/-- The replica: isolator 1, isolator 2 and breaker (02, section 2.4). -/
structure Replica where
  iso1 : Switch
  iso2 : Switch
  breaker : Switch
  deriving DecidableEq, Repr

/-- The validity of a phase of a record (01, section 1.3). -/
inductive Validity | valid | disagree | missing
  deriving DecidableEq, Repr

/-- The station states in which frames are sent (R63). -/
inductive RunState | listen | service | test | isolated | blocked
  deriving DecidableEq, Repr

/-- The station state (09): START, CONFIG, FAULT, or one of the states of a station that has a configuration. -/
inductive Station | start | config | fault | running (r : RunState)
  deriving DecidableEq, Repr

/-- The bay kinds (00, 0.1). -/
inductive BayKind | feeder | tie
  deriving DecidableEq, Repr

/-- A declaration: kind, side-1 section, side-2 section; none is NONE (R63, R188). -/
structure Decl where
  kind : BayKind
  side1 : Option Sect
  side2 : Option Sect
  deriving DecidableEq, Repr

/-- The fields of a good configuration block (R175). -/
structure Settings where
  scheme : Nat
  tag : Nat
  bay : Bay
  kind : BayKind
  side1 : Sect
  side2 : Option Sect
  installed : BitVec 24
  present : SectSet
  scale : Nat
  inverted : Bool
  iMin : Nat
  k : Nat
  iChkMin : Nat
  kChk : Nat
  iOnset : Nat
  window : Nat
  nOp : Nat
  tStab : Nat
  delay : Nat
  filterTick : Nat
  isoAlarm : Nat
  endZone : Nat
  tSeal : Nat
  tRetrip : Nat
  tBf : Nat
  iBf : Nat
  breakerCheck : Bool
  alarmEnable : BitVec 19
  deriving DecidableEq, Repr

/-- The nineteen alarm flags, in the order of their bits (11, section 11.4). -/
inductive Alarm
  | clock | config | supply | linkDownE | linkDownW | ringOpen | transitOverflow | unexpectedBay | duplicateBay | peerStale
  | peerConflict | converter | isolatorDiscrepancy | isolationBreach | zoneBlocked | listenTimeout | tripCircuit
  | breakerFailure | recordOverrun
  deriving DecidableEq, Repr

/-! ## Sampling Unit -/

/-- The generator state (01, section 1.1). -/
inductive GenState | stopped | running
  deriving DecidableEq, Repr

/-- The conversion state of a channel; DONE holds the raw result as read under R6. -/
inductive Chan | idle | converting | done (raw : Int)
  deriving DecidableEq, Repr

/-- The two channels of a phase. -/
structure ChanPair where
  a : Chan
  b : Chan
  deriving DecidableEq, Repr

/-- What the SU holds with the conversions of an epoch: its number and LT (R14), the epoch replica (R26) and the station state
chosen at it (R15). -/
structure Flight where
  epoch : EpochNo
  instant : Ticks
  replica : Replica
  declared : RunState
  deriving DecidableEq, Repr

/-- An own sample record (R14). -/
structure Record where
  epoch : EpochNo
  instant : Ticks
  cur : PerPhase Int
  val : PerPhase Validity
  replica : Replica
  deriving DecidableEq, Repr

/-- What the peak window keeps of a record (R16). -/
structure Sample where
  cur : PerPhase Int
  val : PerPhase Validity
  deriving DecidableEq, Repr

/-- The Sampling Unit (01). The peak window is oldest first. -/
structure Sampling where
  gen : GenState
  lt : Ticks
  phase : Nat
  epoch : EpochNo
  chans : PerPhase ChanPair
  flight : Option Flight
  disRun : PerPhase Nat
  convFail : Bool
  clearRun : Nat
  record : Option Record
  peak : List Sample
  disagreeSamples : Nat
  missingSamples : Nat
  convFailures : Nat
  deriving DecidableEq, Repr

/-- The Sampling Unit after any reset (R18). -/
def Sampling.reset : Sampling where
  gen := .stopped
  lt := 0
  phase := 0
  epoch := 0
  chans := ⟨⟨.idle, .idle⟩, ⟨.idle, .idle⟩, ⟨.idle, .idle⟩⟩
  flight := none
  disRun := ⟨0, 0, 0⟩
  convFail := false
  clearRun := 0
  record := none
  peak := []
  disagreeSamples := 0
  missingSamples := 0
  convFailures := 0

/-! ## Contact Input Unit -/

/-- The conditions handed to the Station Controller (R30). -/
structure Conditions where
  oos : Bool
  tst : Bool
  allOpen : Bool
  deriving DecidableEq, Repr

/-- The Contact Input Unit (02). The eight inputs are accepted first at one moment (R21), so their states are none together. -/
structure ContactUnit where
  accepted : Option Contacts
  pending : Contacts
  derived : Option Replica
  discTimer : PerPair Nat
  discMark : PerPair Bool
  discDetail : PerPair Bool
  cond : Option Conditions
  changes : Nat
  bounces : Nat
  deriving DecidableEq, Repr

/-- All eight inputs clear. -/
def clearContacts : Contacts := ⟨false, false, false, false, false, false, false, false⟩

/-- The Contact Input Unit after any reset (R33). -/
def ContactUnit.reset : ContactUnit where
  accepted := none
  pending := clearContacts
  derived := none
  discTimer := ⟨0, 0, 0⟩
  discMark := ⟨false, false, false⟩
  discDetail := ⟨false, false, false⟩
  cond := none
  changes := 0
  bounces := 0

/-! ## Ring Interface -/

/-- The link state of a port (R34). -/
inductive Link | down | probing | up
  deriving DecidableEq, Repr

/-- The fields of a bay frame that its layout carries besides the kind and the checks (R42, R188). -/
structure BayFrame where
  source : Nat
  scheme : Nat
  tag : Nat
  seqNo : SeqNo
  hops : Nat
  age : Nat
  decl : Decl
  declared : RunState
  replica : Replica
  val : PerPhase Validity
  cur : PerPhase Int
  backtrip : SectSet
  deriving DecidableEq, Repr

/-- An own bay frame waiting in a port's own-frame slot, with the LT of its epoch (R42). -/
structure OwnFrame where
  frame : BayFrame
  instant : Ticks
  deriving DecidableEq, Repr

/-- A frame in a transit queue: hop count as incremented, age as received, its t_arr and the arrival port's link delay (R48). -/
structure Transit where
  frame : BayFrame
  arrival : Ticks
  delay : Nat
  deriving DecidableEq, Repr

/-- An answer in the echo-answer slot: the request's echo number and arrival start (R39). -/
structure EchoAnswer where
  number : BitVec 8
  arrival : Ticks
  deriving DecidableEq, Repr

/-- A frame on the outgoing link: its bytes, departure start and ticks on the link (R53). -/
structure Sending where
  bytes : List Byte
  start : Ticks
  ticks : Nat
  deriving DecidableEq, Repr

/-- The counters of a port, in the order of R60. -/
structure PortCounters where
  framesReceived : Nat
  checkFailures : Nat
  notUpDrops : Nat
  hopDrops : Nat
  ownReturns : Nat
  duplicateBays : Nat
  foreignFrames : Nat
  unexpectedBays : Nat
  transitOverflows : Nat
  latencyDrops : Nat
  agedDrops : Nat
  linkDownDrops : Nat
  forwarded : Nat
  ownSent : Nat
  ownOverruns : Nat
  goodEchoes : Nat
  echoLosses : Nat
  staleEchoes : Nat
  linkDownEvents : Nat
  ringOpenEvents : Nat
  deriving DecidableEq, Repr

/-- All counters of a port at 0. -/
def PortCounters.zero : PortCounters := ⟨0, 0, 0, 0, 0, 0, 0, 0, 0, 0, 0, 0, 0, 0, 0, 0, 0, 0, 0, 0⟩

/-- A ring port and the direction of own frames sent out of it (03). `echoCounter` is the value at which the counter last
stopped; while a request is outstanding the counter runs from `echoStart` (R38, log 6, DEDUCED). `departed` is oldest first.
`cutAt` is the model's own: the LT at which R34 or R35 last cut the port's receptions off (log 17, DEDUCED). -/
structure PortState where
  rx : Bool
  link : Link
  hold : Nat
  delay : Option Nat
  echoCounter : Nat
  echoStart : Ticks
  overflow : Bool
  turnaround : Nat
  echoNum : BitVec 8
  outstanding : Option (BitVec 8)
  interval : Nat
  echoDue : Bool
  losses : Nat
  answer : Option EchoAnswer
  own : Option OwnFrame
  transit : List Transit
  tx : Option Sending
  opened : Bool
  departed : List SeqNo
  cutAt : Option Ticks
  ctr : PortCounters
  deriving DecidableEq, Repr

/-- A port after any reset (R62). The receive signal is the neighbour's and no state of a reset. -/
def PortState.reset (rx : Bool) : PortState where
  rx := rx
  link := .down
  hold := 0
  delay := none
  echoCounter := 0
  echoStart := 0
  overflow := false
  turnaround := 0
  echoNum := 0
  outstanding := none
  interval := 0
  echoDue := false
  losses := 0
  answer := none
  own := none
  transit := []
  tx := none
  opened := false
  departed := []
  cutAt := none
  ctr := .zero

/-- The Ring Interface (03). -/
structure Ring where
  east : PortState
  west : PortState
  overflowQuiet : Nat
  unexpectedQuiet : Nat
  unexpectedDetail : Option Nat
  deriving DecidableEq, Repr

/-- The Ring Interface after any reset (R62). -/
def Ring.reset (rxEast rxWest : Bool) : Ring where
  east := .reset rxEast
  west := .reset rxWest
  overflowQuiet := 4000
  unexpectedQuiet := 4000
  unexpectedDetail := none

/-! ## Peer Table -/

/-- The presence of an entry (R63). -/
inductive Presence | absent | joining | live | stale | conflict
  deriving DecidableEq, Repr

/-- A history slot (R63). -/
structure Slot where
  seqNo : SeqNo
  instant : Ticks
  cur : PerPhase Int
  val : PerPhase Validity
  replica : Replica
  declared : RunState
  deriving DecidableEq, Repr

/-- Why a frame did not fit (R66). -/
inductive Misfit | tag | declaration | sections
  deriving DecidableEq, Repr

/-- The conflict detail (R75). -/
structure ConflictDetail where
  reason : Misfit
  tag : Nat
  decl : Decl
  epoch : EpochNo
  port : Port
  deriving DecidableEq, Repr

/-- An entry of the peer table (R63). The history is oldest first. -/
structure PeerEntry where
  presence : Presence
  tag : Option Nat
  decl : Option Decl
  lastSeq : Option SeqNo
  fresh : Nat
  joinRun : Nat
  declared : Option RunState
  backtrip : SectSet
  lastPort : Option Port
  conflict : Option ConflictDetail
  history : List Slot
  accepted : Nat
  duplicates : Nat
  orders : Nat
  conflicts : Nat
  stales : Nat
  deriving DecidableEq, Repr

/-- The empty set of sections. -/
def noSects : SectSet := ⟨false, false, false, false⟩

/-- An entry after any reset (R83). -/
def PeerEntry.reset : PeerEntry where
  presence := .absent
  tag := none
  decl := none
  lastSeq := none
  fresh := 4095
  joinRun := 0
  declared := none
  backtrip := noSects
  lastPort := none
  conflict := none
  history := []
  accepted := 0
  duplicates := 0
  orders := 0
  conflicts := 0
  stales := 0

/-- The Peer Table: the entries of bays 1 to 24, in order (R63). -/
structure Peers where
  entries : List PeerEntry
  deriving DecidableEq, Repr

/-- The Peer Table after any reset (R83). -/
def Peers.reset : Peers where
  entries := List.replicate 24 .reset

/-! ## Alignment Unit -/

/-- The latest computing instant (R84). -/
structure Instant where
  epoch : EpochNo
  tau : Ticks
  deriving DecidableEq, Repr

/-- The Alignment Unit (05). -/
structure Aligner where
  latest : Option Instant
  deriving DecidableEq, Repr

/-- The Alignment Unit after any reset (R97). -/
def Aligner.reset : Aligner where
  latest := none

/-! ## Zone Engine -/

/-- The class of a zone phase (R125). -/
inductive ZoneClass | quiet | onset | internal | through | external
  deriving DecidableEq, Repr

/-- The state of a zone phase (R125) with its blocked run (R115). -/
structure ZoneState where
  cls : ZoneClass
  counter : Nat
  onset : Option Nat
  stab : Nat
  quietRun : Nat
  evolve : Nat
  blockedRun : Nat
  deriving DecidableEq, Repr

/-- The set-back values (R110). -/
def ZoneState.setBack : ZoneState := ⟨.quiet, 0, none, 0, 0, 0, 0⟩

/-- The standing of an installed bay (06, section 6.2). -/
inductive Standing | undeclared | isolated | usable | unusable
  deriving DecidableEq, Repr

/-- The outcome of an alignment (R85). -/
inductive AlignOutcome | exact | interpolated | tooOld | late | gap
  deriving DecidableEq, Repr

/-- What the last topology holds of one zone phase (R116, R137). -/
structure PhaseResult where
  blocked : Bool
  id : Nat
  ir : Nat
  operate : Bool
  deriving DecidableEq, Repr

/-- What the last topology holds of one bay (R116): the zones holding it by name, and a tie's end-zone timer. -/
structure BayTopo where
  bay : Bay
  standing : Standing
  outcome : AlignOutcome
  zones : List Sect
  timer : Option Nat
  deriving DecidableEq, Repr

/-- A member of a zone with its sign (R105, R106). -/
structure Member where
  bay : Bay
  sign : Int
  deriving DecidableEq, Repr

/-- What the last topology holds of one zone (R116). -/
structure ZoneTopo where
  name : Sect
  sections : SectSet
  members : List Member
  phases : PerPhase PhaseResult
  deriving DecidableEq, Repr

/-- The last topology (R116). -/
structure Topology where
  epoch : EpochNo
  tau : Ticks
  bays : List BayTopo
  zones : List ZoneTopo
  chkMembers : List Member
  chk : PerPhase PhaseResult
  ownZones : List Sect
  ownSections : SectSet
  deriving DecidableEq, Repr

/-- The Zone Engine (06, 07). -/
structure ZoneEngine where
  sects : PerSect (PerPhase ZoneState)
  check : PerPhase ZoneState
  endZone : List Nat
  topo : Option Topology
  blockedDetail : List (ZoneRef × Phase)
  deriving DecidableEq, Repr

/-- The Zone Engine after any reset (R119). -/
def ZoneEngine.reset : ZoneEngine where
  sects := ⟨⟨.setBack, .setBack, .setBack⟩, ⟨.setBack, .setBack, .setBack⟩, ⟨.setBack, .setBack, .setBack⟩,
    ⟨.setBack, .setBack, .setBack⟩⟩
  check := ⟨.setBack, .setBack, .setBack⟩
  endZone := List.replicate 24 0
  topo := none
  blockedDetail := []

/-! ## Trip Unit -/

/-- The trip state (R140). -/
inductive TripState | idle | asserted | testAsserted
  deriving DecidableEq, Repr

/-- The drive of coil 1 (R144). -/
inductive Coil1 | off | supervision | trip
  deriving DecidableEq, Repr

/-- The drive of coil 2 (R144). -/
inductive Coil2 | off | trip
  deriving DecidableEq, Repr

/-- The breaker-failure state (R148). -/
inductive BfState | idle | timing | failed
  deriving DecidableEq, Repr

/-- How a recorded trip ended (R158). -/
inductive TripEnd | release | stateChange | reset
  deriving DecidableEq, Repr

/-- Id and Ir of one phase (R156). -/
structure Sums where
  id : Nat
  ir : Nat
  deriving DecidableEq, Repr

/-- The zone of a differential trip (R156). -/
structure TripZone where
  name : Sect
  sections : SectSet
  sums : PerPhase Sums
  chk : PerPhase Sums
  deriving DecidableEq, Repr

/-- The cause of a trip with what the record keeps of it (R156). -/
inductive TripCause
  | differential (phases : PerPhase Bool) (zone : TripZone)
  | backtrip (bay : Nat) (sections : SectSet)
  deriving DecidableEq, Repr

/-- The fields that close a record (R158). -/
structure TripClose where
  epoch : EpochNo
  how : TripEnd
  retrip : Bool
  failed : Bool
  deriving DecidableEq, Repr

/-- The trip record (R156, R158): its condition is OPEN while `closed` is none. -/
structure TripRecord where
  number : Nat
  epoch : EpochNo
  test : Bool
  cause : TripCause
  closed : Option TripClose
  deriving DecidableEq, Repr

/-- The counters of R159, in its order. -/
structure TripCounters where
  differentialTrips : Nat
  backtripTrips : Nat
  testTrips : Nat
  retrips : Nat
  breakerFailures : Nat
  backtripsReceived : Nat
  backtripsIgnored : Nat
  backtripsUnmatched : Nat
  supFailures : Nat
  supSkips : Nat
  supAbandons : Nat
  recordOverruns : Nat
  deriving DecidableEq, Repr

/-- All counters of the Trip Unit at 0. -/
def TripCounters.zero : TripCounters := ⟨0, 0, 0, 0, 0, 0, 0, 0, 0, 0, 0, 0⟩

/-- The Trip Unit (08). The latch is HELD when `held` is some (R155). `pulseNew` is the model's own mark that the pulse under
way began in the present epoch's step (log 16, DEDUCED). -/
structure TripUnit where
  trip : TripState
  coil1 : Coil1
  coil2 : Coil2
  sealIn : Nat
  retrip : Nat
  retripMade : Bool
  bfTimer : Nat
  bf : BfState
  backtrip : SectSet
  supCount : Nat
  pulse : Option Nat
  pulseNew : Bool
  supFails : Nat
  held : Option TripRecord
  recorded : Bool
  recNumber : Nat
  ctr : TripCounters
  deriving DecidableEq, Repr

/-- The Trip Unit after a reset that keeps the record `held` and the record number (R160). -/
def TripUnit.reset (held : Option TripRecord) (number : Nat) : TripUnit where
  trip := .idle
  coil1 := .off
  coil2 := .off
  sealIn := 0
  retrip := 0
  retripMade := false
  bfTimer := 0
  bf := .idle
  backtrip := noSects
  supCount := 0
  pulse := none
  pulseNew := false
  supFails := 0
  held := held
  recorded := false
  recNumber := number
  ctr := .zero

/-! ## Station Controller -/

/-- The BLOCKED causes (R161, R171). -/
structure Causes where
  converter : Bool
  duplicate : Bool
  clock : Bool
  deriving DecidableEq, Repr

/-- No cause. -/
def noCauses : Causes := ⟨false, false, false⟩

/-- The reset cause flags (R173). -/
structure ResetCauses where
  por : Bool
  supply : Bool
  pin : Bool
  command : Bool
  deriving DecidableEq, Repr

/-- The Station Controller (09). The power-up timer and the confirmation wait are held in ticks of 25 ns (log 20, DEDUCED). -/
structure Controller where
  station : Station
  causes : Causes
  reference : Bool
  confirmed : Bool
  goodRun : Nat
  lastCycle : Option Nat
  powerUp : Nat
  wait : Nat
  qualCount : Nat
  qualified : Bool
  listen : Nat
  dupQuiet : Nat
  maintTest : Bool
  supplyLow : Bool
  cause : ResetCauses
  holdSupply : Bool
  holdPin : Bool
  resetPending : Bool
  stateChanges : Nat
  deriving DecidableEq, Repr

/-- The Station Controller after any reset (R174), with the supply level as measured, the reset cause flags of R173 and the
reset conditions that still hold. -/
def Controller.reset (supplyLow : Bool) (cause : ResetCauses) (holdSupply holdPin : Bool) : Controller where
  station := .start
  causes := noCauses
  reference := false
  confirmed := false
  goodRun := 0
  lastCycle := none
  powerUp := 0
  wait := 0
  qualCount := 0
  qualified := false
  listen := 0
  dupQuiet := 4000
  maintTest := false
  supplyLow := supplyLow
  cause := cause
  holdSupply := holdSupply
  holdPin := holdPin
  resetPending := false
  stateChanges := 0

/-! ## Configuration Store -/

/-- The commit state (R178, R179). -/
inductive CommitState | idle | busy | done | failed
  deriving DecidableEq, Repr

/-- The Configuration Store (10). `cut` marks a block left undetermined by a cut commit (R180). -/
structure Store where
  block : List Byte
  cut : Bool
  inUse : Option Settings
  staging : List Byte
  commit : CommitState
  deriving DecidableEq, Repr

/-- The Configuration Store after a reset (R180): the block is kept. -/
def Store.reset (block : List Byte) (cut : Bool) : Store where
  block := block
  cut := cut
  inUse := none
  staging := List.replicate 64 0
  commit := .idle

/-! ## Maintenance Port -/

/-- The receiver state (11). -/
inductive Receiver | idle | receiving | responding
  deriving DecidableEq, Repr

/-- The readable tables (R184), in the order of their codes. -/
inductive Table | status | peer | zone | checkZone | link | counters | alarms | configInUse | configStored
  deriving DecidableEq, Repr

/-- A selection (R184). -/
structure Selection where
  table : Table
  index : Nat
  capture : List Byte
  offset : Nat
  deriving DecidableEq, Repr

/-- The Maintenance Port (11). -/
structure Maint where
  receiver : Receiver
  request : List Byte
  response : List Byte
  selection : Option Selection
  flags : BitVec 19
  portErrors : Nat
  deriving DecidableEq, Repr

/-- The Maintenance Port after any reset (R187). -/
def Maint.reset : Maint where
  receiver := .idle
  request := []
  response := []
  selection := none
  flags := 0
  portErrors := 0

/-! ## The pins, the state and the reasons to stop -/

/-- The levels last presented at the plant inputs that no block holds (R19; log 3, DESIGN CHOICE). -/
structure Pins where
  contacts : Contacts
  tcs : Bool
  cfgen : Bool
  deriving DecidableEq, Repr

/-- The whole state of the station, with the count of free values drawn (log 9, DESIGN CHOICE) and the queue of waiting commands. -/
structure State where
  su : Sampling
  ciu : ContactUnit
  ri : Ring
  pt : Peers
  au : Aligner
  ze : ZoneEngine
  tu : TripUnit
  sc : Controller
  cs : Store
  mp : Maint
  pins : Pins
  free : Nat
  pending : List Instr
  deriving DecidableEq, Repr

/-- The machine raises no fault: FAULT is a station state of R165, not a stop. -/
inductive Fault
  deriving DecidableEq, Repr

/-- The reasons to refuse a command. -/
inductive Refusal
  /-- Raised by an arm of exec whose command has no meaning yet; no arm raises it. Safe: it only stops. -/
  | notModelled (mnemonic : String)
  deriving DecidableEq, Repr

/-- The machine right after reset: a power-on reset whose reset conditions have ended, with the supply above the warning level
(R173, R174). The values the spec does not give are named in log 7, DESIGN CHOICE. -/
def State.reset : State where
  su := .reset
  ciu := .reset
  ri := .reset false false
  pt := .reset
  au := .reset
  ze := .reset
  tu := .reset none 0
  sc := .reset false ⟨true, false, false, false⟩ false false
  cs := .reset (List.replicate 64 0) false
  mp := .reset
  pins := ⟨clearContacts, false, false⟩
  free := 0
  pending := []

end Sys2Proof.Machine
end

