-- ==== Sys2Proof/Machine/Ops.lean ====
section
/-! DEFINITION. The shared operations every block uses: access to values kept per phase, section, pair, port and bay; one
update per block of State; saturating counts; and the passing of time in ticks. -/

namespace Sys2Proof.Machine

open Sys2Proof

/-! ## Values per phase, section and pair -/

/-- The value of a phase. -/
def PerPhase.get {α : Type} (p : PerPhase α) : Phase → α
  | .l1 => p.l1
  | .l2 => p.l2
  | .l3 => p.l3

/-- Apply a function of the phase to each value. -/
def PerPhase.mapWith {α β : Type} (f : Phase → α → β) (p : PerPhase α) : PerPhase β :=
  ⟨f .l1 p.l1, f .l2 p.l2, f .l3 p.l3⟩

/-- Apply a function to each value. -/
def PerPhase.map {α β : Type} (f : α → β) (p : PerPhase α) : PerPhase β := ⟨f p.l1, f p.l2, f p.l3⟩

/-- One value for each phase, computed from the phase. -/
def PerPhase.of {α : Type} (f : Phase → α) : PerPhase α := ⟨f .l1, f .l2, f .l3⟩

/-- Change the value of one phase. -/
def PerPhase.upd {α : Type} (f : α → α) (p : PerPhase α) : Phase → PerPhase α
  | .l1 => { p with l1 := f p.l1 }
  | .l2 => { p with l2 := f p.l2 }
  | .l3 => { p with l3 := f p.l3 }

/-- Some phase has the property. -/
def PerPhase.any {α : Type} (f : α → Bool) (p : PerPhase α) : Bool := f p.l1 || f p.l2 || f p.l3

/-- Every phase has the property. -/
def PerPhase.all {α : Type} (f : α → Bool) (p : PerPhase α) : Bool := f p.l1 && f p.l2 && f p.l3

/-- How many phases have the property. -/
def PerPhase.count {α : Type} (f : α → Bool) (p : PerPhase α) : Nat :=
  (f p.l1).toNat + (f p.l2).toNat + (f p.l3).toNat

/-- The three values in order. -/
def PerPhase.list {α : Type} (p : PerPhase α) : List α := [p.l1, p.l2, p.l3]

/-- The value of a section. -/
def PerSect.get {α : Type} (p : PerSect α) : Sect → α
  | .a1 => p.a1
  | .a2 => p.a2
  | .b1 => p.b1
  | .b2 => p.b2

/-- One value for each section, computed from the section. -/
def PerSect.of {α : Type} (f : Sect → α) : PerSect α := ⟨f .a1, f .a2, f .b1, f .b2⟩

/-- The sections in order (00, "Sections and zones"). -/
def allSects : List Sect := [.a1, .a2, .b1, .b2]

/-- The phases in order. -/
def allPhases : List Phase := [.l1, .l2, .l3]

/-- The sections of a set, in order. -/
def SectSet.list (s : SectSet) : List Sect := allSects.filter s.get

/-- The set holds no section. -/
def SectSet.isEmpty (s : SectSet) : Bool := !(s.a1 || s.a2 || s.b1 || s.b2)

/-- The sections in either set. -/
def SectSet.union (s t : SectSet) : SectSet := ⟨s.a1 || t.a1, s.a2 || t.a2, s.b1 || t.b1, s.b2 || t.b2⟩

/-- The sections in both sets. -/
def SectSet.inter (s t : SectSet) : SectSet := ⟨s.a1 && t.a1, s.a2 && t.a2, s.b1 && t.b1, s.b2 && t.b2⟩

/-- Every section of s is in t. -/
def SectSet.subset (s t : SectSet) : Bool :=
  (!s.a1 || t.a1) && (!s.a2 || t.a2) && (!s.b1 || t.b1) && (!s.b2 || t.b2)

/-- The set of one section. -/
def SectSet.single (x : Sect) : SectSet := PerSect.of fun y => decide (y = x)

/-- The value of a contact pair. -/
def PerPair.get {α : Type} (p : PerPair α) : DevPair → α
  | .q1 => p.q1
  | .q2 => p.q2
  | .cb => p.cb

/-- Change the value of one pair. -/
def PerPair.upd {α : Type} (f : α → α) (p : PerPair α) : DevPair → PerPair α
  | .q1 => { p with q1 := f p.q1 }
  | .q2 => { p with q2 := f p.q2 }
  | .cb => { p with cb := f p.cb }

/-- The switch state a replica gives a pair. -/
def Replica.get (r : Replica) : DevPair → Switch
  | .q1 => r.iso1
  | .q2 => r.iso2
  | .cb => r.breaker

/-! ## Updates of State, one per block -/

/-- Change the Sampling Unit. -/
def State.updSu (s : State) (f : Sampling → Sampling) : State := { s with su := f s.su }
/-- Change the Contact Input Unit. -/
def State.updCiu (s : State) (f : ContactUnit → ContactUnit) : State := { s with ciu := f s.ciu }
/-- Change the Ring Interface. -/
def State.updRi (s : State) (f : Ring → Ring) : State := { s with ri := f s.ri }
/-- Change the Peer Table. -/
def State.updPt (s : State) (f : Peers → Peers) : State := { s with pt := f s.pt }
/-- Change the Alignment Unit. -/
def State.updAu (s : State) (f : Aligner → Aligner) : State := { s with au := f s.au }
/-- Change the Zone Engine. -/
def State.updZe (s : State) (f : ZoneEngine → ZoneEngine) : State := { s with ze := f s.ze }
/-- Change the Trip Unit. -/
def State.updTu (s : State) (f : TripUnit → TripUnit) : State := { s with tu := f s.tu }
/-- Change the Station Controller. -/
def State.updSc (s : State) (f : Controller → Controller) : State := { s with sc := f s.sc }
/-- Change the Configuration Store. -/
def State.updCs (s : State) (f : Store → Store) : State := { s with cs := f s.cs }
/-- Change the Maintenance Port. -/
def State.updMp (s : State) (f : Maint → Maint) : State := { s with mp := f s.mp }
/-- Change the pins. -/
def State.updPins (s : State) (f : Pins → Pins) : State := { s with pins := f s.pins }

/-- A port of the ring. -/
def Ring.port (r : Ring) : Port → PortState
  | .east => r.east
  | .west => r.west

/-- Change one port of the ring. -/
def Ring.updPort (r : Ring) (p : Port) (f : PortState → PortState) : Ring :=
  match p with
  | .east => { r with east := f r.east }
  | .west => { r with west := f r.west }

/-- The port opposite to p (R48). -/
def otherPort : Port → Port
  | .east => .west
  | .west => .east

/-- A port of the station. -/
def State.port (s : State) (p : Port) : PortState := s.ri.port p

/-- Change one port of the station. -/
def State.updPort (s : State) (p : Port) (f : PortState → PortState) : State := s.updRi (·.updPort p f)

/-- The entry of a bay (R63). -/
def Peers.entry (t : Peers) (b : Bay) : PeerEntry := (t.entries[b.val]?).getD .reset

/-- Put an entry for a bay. -/
def Peers.set (t : Peers) (b : Bay) (e : PeerEntry) : Peers := { t with entries := t.entries.set b.val e }

/-- The entry of a bay. -/
def State.entry (s : State) (b : Bay) : PeerEntry := s.pt.entry b

/-- Put an entry for a bay. -/
def State.setEntry (s : State) (b : Bay) (e : PeerEntry) : State := s.updPt (·.set b e)

/-- The bays 1 to 24 in order. -/
def allBays : List Bay :=
  [0, 1, 2, 3, 4, 5, 6, 7, 8, 9, 10, 11, 12, 13, 14, 15, 16, 17, 18, 19, 20, 21, 22, 23]

/-- A bay's number, 1 to 24. -/
def bayNumber (b : Bay) : Nat := b.val + 1

/-- The bay of a number, if it is 1 to 24. -/
def bayOf (n : Nat) : Option Bay :=
  if h : 1 ≤ n ∧ n ≤ 24 then some ⟨n - 1, by omega⟩ else none

/-- A bay is in the configured installed bay set: bay b at bit b − 1 (R188). -/
def Settings.hasBay (c : Settings) (b : Bay) : Bool := c.installed.getLsbD b.val

/-- The configured declaration of the own bay (R42). -/
def Settings.decl (c : Settings) : Decl := ⟨c.kind, some c.side1, c.side2⟩

/-! ## Counts -/

/-- Advance a statistics counter: 16-bit, saturating at 65535 (00, "Counters and timers"). -/
def bump (n : Nat) : Nat := min (n + 1) 65535

/-- Advance a statistics counter n times. -/
def bumpBy (n k : Nat) : Nat := min (n + k) 65535

/-- Advance a count by one, stopping at its limit. -/
def upTo (limit n : Nat) : Nat := min (n + 1) limit

/-! ## Time -/

/-- Ticks between epochs (R1). -/
def epochTicks : Nat := 10000
/-- The echo counter's limit (R38). -/
def echoLimit : Nat := 40000
/-- A bay frame's ticks on the link (R53). -/
def bayTicks : Nat := 128
/-- An echo frame's ticks on the link (R53). -/
def echoTicks : Nat := 48
/-- The power-up timer's limit: 64 ms in ticks of 25 ns (R163). -/
def powerUpLimit : Nat := 2560000
/-- The confirmation wait's limit: 1 s in ticks of 25 ns (R163). -/
def waitLimit : Nat := 40000000

/-- The signed reading of a difference of two LT values (00, "Ticks and local time"; R86). -/
def since (a b : Ticks) : Int := (a - b).toInt

/-- Epochs run: the generator is RUNNING on a configuration. The configuration is then the answer. -/
def State.running (s : State) : Option Settings :=
  match s.su.gen with
  | .running => s.cs.inUse
  | .stopped => none

/-- A reset condition still holds the station in reset (R172, R173). -/
def State.held (s : State) : Bool := s.sc.holdSupply || s.sc.holdPin

/-- LT and the epoch phase advance by n ticks while the generator runs (R1); n keeps the phase below 10,000. -/
def passTicks (n : Nat) (s : State) : State :=
  s.updSu fun u => { u with lt := u.lt + BitVec.ofNat 32 n, phase := u.phase + n }

/-- The running value of a port's echo counter: from the departure start while a request is outstanding, stopping at 40,000;
otherwise the value at which it last stopped (R38, R61; log 6, DEDUCED). -/
def PortState.echoNow (p : PortState) (lt : Ticks) : Nat :=
  match p.outstanding with
  | some _ => min (lt - p.echoStart).toNat echoLimit
  | none => p.echoCounter

end Sys2Proof.Machine
end

