-- ==== Sys2Proof/Machine/Flags.lean ====
section
/-! DEFINITION. The nineteen alarm flags: their bits, their setting, their causes and the alarm line (11, section 11.4;
R185, R186). -/

namespace Sys2Proof.Machine

open Sys2Proof

/-- The bit of a flag (11, section 11.4). -/
def Alarm.bit : Alarm → Nat
  | .clock => 0
  | .config => 1
  | .supply => 2
  | .linkDownE => 3
  | .linkDownW => 4
  | .ringOpen => 5
  | .transitOverflow => 6
  | .unexpectedBay => 7
  | .duplicateBay => 8
  | .peerStale => 9
  | .peerConflict => 10
  | .converter => 11
  | .isolatorDiscrepancy => 12
  | .isolationBreach => 13
  | .zoneBlocked => 14
  | .listenTimeout => 15
  | .tripCircuit => 16
  | .breakerFailure => 17
  | .recordOverrun => 18

/-- The flags in the order of their bits. -/
def allAlarms : List Alarm :=
  [.clock, .config, .supply, .linkDownE, .linkDownW, .ringOpen, .transitOverflow, .unexpectedBay, .duplicateBay, .peerStale,
   .peerConflict, .converter, .isolatorDiscrepancy, .isolationBreach, .zoneBlocked, .listenTimeout, .tripCircuit,
   .breakerFailure, .recordOverrun]

/-- A set of flags with one flag added. -/
def withFlag (a : Alarm) (f : BitVec 19) : BitVec 19 := f ||| BitVec.twoPow 19 a.bit

/-- A flag is in a set of flags. -/
def hasFlag (a : Alarm) (f : BitVec 19) : Bool := f.getLsbD a.bit

/-- Set an alarm flag. -/
def raise (a : Alarm) (s : State) : State := s.updMp fun m => { m with flags := withFlag a m.flags }

/-- Set an alarm flag when a condition holds. -/
def raiseIf (b : Bool) (a : Alarm) (s : State) : State := if b then raise a s else s

/-- An alarm flag is set. -/
def State.alarm (s : State) (a : Alarm) : Bool := hasFlag a s.mp.flags

/-- The set of flags for which a test holds. -/
def flagSet (p : Alarm → Bool) : BitVec 19 := allAlarms.foldl (fun f a => if p a then withFlag a f else f) 0

/-! ## Causes (11, section 11.4) -/

/-- PEER STALE's cause (R79): some other entry holds a declaration, is JOINING, STALE or ABSENT, and last declared a state
other than ISOLATED. -/
def peerStaleCause (s : State) : Bool :=
  allBays.any fun b =>
    let e := s.entry b
    (match s.cs.inUse with
      | some c => decide (b ≠ c.bay)
      | none => true) &&
    e.decl.isSome &&
    (match e.presence with
      | .joining => true
      | .stale => true
      | .absent => true
      | .live => false
      | .conflict => false) &&
    (match e.declared with
      | some .isolated => false
      | some _ => true
      | none => false)

/-- Some blocked run stands at 400 (R115). -/
def anyBlockedAt400 (s : State) : Bool :=
  (allSects.any fun x => (s.ze.sects.get x).any fun z => z.blockedRun == 400) || s.ze.check.any fun z => z.blockedRun == 400

/-- The cause of each flag (11, section 11.4). ISOLATION BREACH uses the conditions last handed over (log 22, DEDUCED). -/
def alarmCause (s : State) : Alarm → Bool
  | .clock => !s.sc.confirmed
  | .config => decide (s.sc.station = .fault)
  | .supply => s.sc.supplyLow
  | .linkDownE => decide (s.ri.east.link ≠ .up)
  | .linkDownW => decide (s.ri.west.link ≠ .up)
  | .ringOpen => s.ri.east.opened || s.ri.west.opened
  | .transitOverflow => decide (s.ri.overflowQuiet < 4000)
  | .unexpectedBay => decide (s.ri.unexpectedQuiet < 4000)
  | .duplicateBay => decide (s.sc.dupQuiet < 4000)
  | .peerStale => peerStaleCause s
  | .peerConflict => allBays.any fun b => decide ((s.entry b).presence = .conflict)
  | .converter => s.su.convFail
  | .isolatorDiscrepancy => s.ciu.discMark.q1 || s.ciu.discMark.q2 || s.ciu.discMark.cb
  | .isolationBreach =>
    match s.ciu.cond with
    | some d => d.oos && !d.allOpen
    | none => false
  | .zoneBlocked => anyBlockedAt400 s
  | .listenTimeout => s.sc.listen == 40000
  | .tripCircuit => s.tu.supFails == 3
  | .breakerFailure => decide (s.tu.bf = .failed)
  | .recordOverrun => s.tu.held.isSome

/-- The flags whose cause is held. -/
def causesHeld (s : State) : BitVec 19 := flagSet (alarmCause s)

/-- The enable set (R186): that of the in-use copy, with CLOCK and CONFIG always in it. -/
def enableSet (s : State) : BitVec 19 :=
  (match s.cs.inUse with
    | some c => c.alarmEnable
    | none => 0) ||| 3

/-- The alarm line (R186), released while the station is held in reset (R187). -/
def alarmLine (s : State) : Bool := !s.held && decide (s.mp.flags &&& enableSet s ≠ 0)

/-- The ring transmitters are lit, emitting the idle signal: from the start of epochs to their stop (R164, R163, R165, R171). -/
def transmitterLit (s : State) : Bool := decide (s.su.gen = .running)

end Sys2Proof.Machine
end

