-- ==== Sys2Proof/Machine/Operands.lean ====
section
/-! DEFINITION. The byte forms: numbers in bytes, the CRC-16, the codes, the bay frame, the echo frame and the configuration
block, read and written (R43, R175, R188). -/

namespace Sys2Proof.Machine

open Sys2Proof

/-! ## Numbers in bytes, most significant byte first (R188) -/

/-- One byte. -/
def byte1 (n : Nat) : List Byte := [BitVec.ofNat 8 n]
/-- Two bytes. -/
def byte2 (n : Nat) : List Byte := [BitVec.ofNat 8 (n / 256), BitVec.ofNat 8 n]
/-- Three bytes. -/
def byte3 (n : Nat) : List Byte := [BitVec.ofNat 8 (n / 65536), BitVec.ofNat 8 (n / 256), BitVec.ofNat 8 n]
/-- Four bytes. -/
def byte4 (n : Nat) : List Byte :=
  [BitVec.ofNat 8 (n / 16777216), BitVec.ofNat 8 (n / 65536), BitVec.ofNat 8 (n / 256), BitVec.ofNat 8 n]

/-- The byte at a place, as a number. -/
def num1 (bs : List Byte) (i : Nat) : Nat := (bs.getD i 0).toNat
/-- The two-byte number at a place. -/
def num2 (bs : List Byte) (i : Nat) : Nat := num1 bs i * 256 + num1 bs (i + 1)
/-- The three-byte number at a place. -/
def num3 (bs : List Byte) (i : Nat) : Nat := num2 bs i * 256 + num1 bs (i + 2)

/-- A signed 16-bit value in two bytes, two's complement. -/
def signed2 (v : Int) : List Byte := byte2 (BitVec.ofInt 16 v).toNat

/-- The signed reading of a two-byte number. -/
def toSigned16 (n : Nat) : Int := (BitVec.ofNat 16 n).toInt

/-- A yes or no in one byte. -/
def boolByte (b : Bool) : List Byte := byte1 b.toNat

/-! ## CRC-16 (R188) -/

/-- One bit of the CRC with polynomial x^16 + x^12 + x^5 + 1. -/
def crcBit (crc : BitVec 16) (b : Bool) : BitVec 16 :=
  if (crc.msb ^^ b) then (crc <<< 1) ^^^ 0x1021#16 else crc <<< 1

/-- One byte of the CRC, most significant bit first. -/
def crcByte (crc : BitVec 16) (x : Byte) : BitVec 16 :=
  [7, 6, 5, 4, 3, 2, 1, 0].foldl (fun c i => crcBit c (x.getLsbD i)) crc

/-- The CRC-16 of a list of bytes: starting value all ones, no final inversion. -/
def crc16 (bs : List Byte) : BitVec 16 := bs.foldl crcByte 0xFFFF#16

/-- Bytes followed by their check. -/
def withCrc (bs : List Byte) : List Byte := bs ++ byte2 (crc16 bs).toNat

/-- A frame or block of n bytes ends in the check of the bytes before it. -/
def crcOk (n : Nat) (bs : List Byte) : Bool := (crc16 (bs.take (n - 2))).toNat == num2 bs (n - 2)

/-! ## Codes (R188) -/

/-- Bay kind: 1 FEEDER, 2 TIE. -/
def kindOf : Nat → Option BayKind
  | 1 => some .feeder
  | 2 => some .tie
  | _ => none
/-- The code of a bay kind. -/
def kindCode : BayKind → Nat
  | .feeder => 1
  | .tie => 2

/-- Section: 1 A1, 2 A2, 3 B1, 4 B2. -/
def sectOf : Nat → Option Sect
  | 1 => some .a1
  | 2 => some .a2
  | 3 => some .b1
  | 4 => some .b2
  | _ => none
/-- The code of a section. -/
def sectCode : Sect → Nat
  | .a1 => 1
  | .a2 => 2
  | .b1 => 3
  | .b2 => 4

/-- Section or NONE: 0 NONE. -/
def sideOf : Nat → Option (Option Sect)
  | 0 => some none
  | n => (sectOf n).map some
/-- The code of a section or NONE. -/
def sideCode : Option Sect → Nat
  | none => 0
  | some x => sectCode x

/-- Station state in a frame: 3 to 7. -/
def runOf : Nat → Option RunState
  | 3 => some .listen
  | 4 => some .service
  | 5 => some .test
  | 6 => some .isolated
  | 7 => some .blocked
  | _ => none
/-- The code of a running station state. -/
def runCode : RunState → Nat
  | .listen => 3
  | .service => 4
  | .test => 5
  | .isolated => 6
  | .blocked => 7
/-- The code of a station state. -/
def stationCode : Station → Nat
  | .start => 0
  | .config => 1
  | .fault => 2
  | .running r => runCode r

/-- Switch state in two bits. -/
def switchOf : Nat → Switch
  | 0 => .opened
  | 1 => .closed
  | 2 => .travel
  | _ => .invalid
/-- The code of a switch state. -/
def switchCode : Switch → Nat
  | .opened => 0
  | .closed => 1
  | .travel => 2
  | .invalid => 3

/-- Validity in two bits; 3 is undefined. -/
def validityOf : Nat → Option Validity
  | 0 => some .valid
  | 1 => some .disagree
  | 2 => some .missing
  | _ => none
/-- The code of a validity. -/
def validityCode : Validity → Nat
  | .valid => 0
  | .disagree => 1
  | .missing => 2

/-- A set of sections as a byte: A1 bit 3, A2 bit 2, B1 bit 1, B2 bit 0. -/
def sectsOf (n : Nat) : SectSet := ⟨n.testBit 3, n.testBit 2, n.testBit 1, n.testBit 0⟩
/-- The byte of a set of sections. -/
def sectsCode (s : SectSet) : Nat := 8 * s.a1.toNat + 4 * s.a2.toNat + 2 * s.b1.toNat + s.b2.toNat

/-! ## The bay frame (R188) -/

/-- A raw code as read: the code −32768 is read as −32767 (R3, R6). -/
def readRaw (raw : BitVec 16) : Int := if raw.toInt = -32768 then -32767 else raw.toInt

/-- A current of a frame keeps the rules of R188: not −32768, and 0 in a phase that is not VALID. -/
def currentOk (v : Validity) (x : Int) : Bool := decide (x ≠ -32768) && (decide (v = .valid) || decide (x = 0))

/-- The first 26 bytes of a bay frame. -/
def bayBody (f : BayFrame) : List Byte :=
  byte1 1 ++ byte1 f.source ++ byte2 f.scheme ++ byte2 f.tag ++ byte2 f.seqNo.toNat ++ byte1 f.hops ++ byte3 f.age
    ++ byte1 (kindCode f.decl.kind) ++ byte1 (sideCode f.decl.side1) ++ byte1 (sideCode f.decl.side2)
    ++ byte1 (runCode f.declared)
    ++ byte1 (16 * switchCode f.replica.iso1 + 4 * switchCode f.replica.iso2 + switchCode f.replica.breaker)
    ++ byte1 (16 * validityCode f.val.l1 + 4 * validityCode f.val.l2 + validityCode f.val.l3)
    ++ signed2 f.cur.l1 ++ signed2 f.cur.l2 ++ signed2 f.cur.l3
    ++ byte1 (sectsCode f.backtrip) ++ byte1 (255 - sectsCode f.backtrip)

/-- A bay frame's 28 bytes, with its frame check. -/
def bayBytes (f : BayFrame) : List Byte := withCrc (bayBody f)

/-- The fields of a bay frame, when none holds a code that R188 does not define. R188 does not count the station tag 0 among those, so
a frame that carries it passes (log 27). -/
def bayFields (bs : List Byte) : Option BayFrame :=
  match kindOf (num1 bs 12), sideOf (num1 bs 13), sideOf (num1 bs 14), runOf (num1 bs 15), validityOf (num1 bs 17 / 16 % 4),
      validityOf (num1 bs 17 / 4 % 4), validityOf (num1 bs 17 % 4) with
  | some kind, some side1, some side2, some declared, some v1, some v2, some v3 =>
    let x1 := toSigned16 (num2 bs 18)
    let x2 := toSigned16 (num2 bs 20)
    let x3 := toSigned16 (num2 bs 22)
    if num1 bs 16 < 64 ∧ num1 bs 17 < 64 ∧ num1 bs 24 < 16 ∧ num1 bs 25 = 255 - num1 bs 24 ∧ currentOk v1 x1
        ∧ currentOk v2 x2 ∧ currentOk v3 x3 then
      some { source := num1 bs 1, scheme := num2 bs 2, tag := num2 bs 4, seqNo := BitVec.ofNat 16 (num2 bs 6),
             hops := num1 bs 8, age := num3 bs 9, decl := ⟨kind, side1, side2⟩, declared := declared,
             replica := ⟨switchOf (num1 bs 16 / 16 % 4), switchOf (num1 bs 16 / 4 % 4), switchOf (num1 bs 16 % 4)⟩,
             val := ⟨v1, v2, v3⟩, cur := ⟨x1, x2, x3⟩, backtrip := sectsOf (num1 bs 24) }
    else none
  | _, _, _, _, _, _, _ => none

/-! ## Received frames (R43 step 1) -/

/-- A frame that passed step 1 of R43. -/
inductive Frame
  | bay (f : BayFrame)
  | request (number : BitVec 8)
  | answer (number : BitVec 8) (turnaround : Nat)
  deriving DecidableEq, Repr

/-- Step 1 of R43: the frame check, the kind, the length and the codes. -/
def checkFrame (bs : List Byte) : Option Frame :=
  if num1 bs 0 = 1 then
    if bs.length = 28 ∧ crcOk 28 bs then (bayFields bs).map .bay else none
  else if num1 bs 0 = 2 ∨ num1 bs 0 = 3 then
    if bs.length = 8 ∧ crcOk 8 bs ∧ 1 ≤ num1 bs 1 ∧ num1 bs 1 ≤ 24 ∧ num1 bs 3 = 255 - num1 bs 2 then
      if num1 bs 0 = 2 then
        if num2 bs 4 = 0 then some (.request (bs.getD 2 0)) else none
      else some (.answer (bs.getD 2 0) (num2 bs 4))
    else none
  else none

/-- An echo frame's 8 bytes: its kind (2 request, 3 answer), sender, echo number and turnaround (R37, R39, R188). -/
def echoBytes (kind : Nat) (bay : Bay) (number : BitVec 8) (turnaround : Nat) : List Byte :=
  withCrc (byte1 kind ++ byte1 (bayNumber bay) ++ [number, ~~~number] ++ byte2 turnaround)

/-! ## The configuration block (R175, R188) -/

/-- The ranges and relations of R175 on the fields. -/
def Settings.ok (c : Settings) : Bool :=
  decide (1 ≤ c.scheme ∧ c.scheme ≤ 65535) && decide (1 ≤ c.tag ∧ c.tag ≤ 65535)
    && decide (c.side2 ≠ some c.side1) && (c.side2.isSome || decide (c.kind = .feeder))
    && c.hasBay c.bay && c.present.get c.side1
    && (match c.side2 with
      | some y => c.present.get y
      | none => true)
    && decide (1 ≤ c.scale ∧ c.scale ≤ 65535)
    && decide (64 ≤ c.iMin ∧ c.iMin ≤ 8192) && decide (64 ≤ c.iChkMin ∧ c.iChkMin ≤ 8192)
    && decide (8 ≤ c.k ∧ c.k ≤ 56) && decide (8 ≤ c.kChk ∧ c.kChk ≤ 56)
    && decide (256 ≤ c.iOnset ∧ c.iOnset ≤ 16384) && decide (c.iMin ≤ c.iOnset)
    && decide (1 ≤ c.window ∧ c.window ≤ 8) && decide (2 ≤ c.nOp ∧ c.nOp ≤ 16) && decide (80 ≤ c.tStab ∧ c.tStab ≤ 800)
    && decide (4 ≤ c.delay ∧ c.delay ≤ 16) && decide (c.filterTick = 4 ∨ c.filterTick = 8 ∨ c.filterTick = 16)
    && decide (400 ≤ c.isoAlarm ∧ c.isoAlarm ≤ 80000) && decide (40 ≤ c.endZone ∧ c.endZone ≤ 400)
    && decide (200 ≤ c.tSeal ∧ c.tSeal ≤ 2000) && decide (40 ≤ c.tRetrip ∧ c.tRetrip ≤ 1200)
    && decide (200 ≤ c.tBf ∧ c.tBf ≤ 1600) && decide (c.tRetrip < c.tBf)
    && decide (32 ≤ c.iBf ∧ c.iBf ≤ 4096)

/-- The fields of a block, when each code names a value. -/
def blockFields (bs : List Byte) : Option Settings :=
  match bayOf (num1 bs 4), kindOf (num1 bs 5), sectOf (num1 bs 6), sideOf (num1 bs 7) with
  | some bay, some kind, some side1, some side2 =>
    if num1 bs 11 < 16 ∧ num1 bs 14 < 2 ∧ num1 bs 42 < 2 ∧ num3 bs 43 < 524288 then
      some { scheme := num2 bs 0, tag := num2 bs 2, bay := bay, kind := kind, side1 := side1, side2 := side2,
             installed := BitVec.ofNat 24 (num3 bs 8), present := sectsOf (num1 bs 11), scale := num2 bs 12,
             inverted := num1 bs 14 == 1, iMin := num2 bs 15, k := num1 bs 17, iChkMin := num2 bs 18, kChk := num1 bs 20,
             iOnset := num2 bs 21, window := num1 bs 23, nOp := num1 bs 24, tStab := num2 bs 25, delay := num1 bs 27,
             filterTick := num1 bs 28, isoAlarm := num3 bs 29, endZone := num2 bs 32, tSeal := num2 bs 34,
             tRetrip := num2 bs 36, tBf := num2 bs 38, iBf := num2 bs 40, breakerCheck := num1 bs 42 == 1,
             alarmEnable := BitVec.ofNat 19 (num3 bs 43) }
    else none
  | _, _, _, _ => none

/-- The check of a block (R175): its CRC, its zero bytes, its codes and its ranges; the fields of a good block. -/
def goodBlock (bs : List Byte) : Option Settings :=
  if bs.length = 64 ∧ crcOk 64 bs ∧ ((bs.drop 46).take 16).all (· == 0) then
    match blockFields bs with
    | some c => if c.ok then some c else none
    | none => none
  else none

/-- The 62 bytes of a configuration's fields in the block's layout (R188). -/
def blockBody (c : Settings) : List Byte :=
  byte2 c.scheme ++ byte2 c.tag ++ byte1 (bayNumber c.bay) ++ byte1 (kindCode c.kind) ++ byte1 (sectCode c.side1)
    ++ byte1 (sideCode c.side2) ++ byte3 c.installed.toNat ++ byte1 (sectsCode c.present) ++ byte2 c.scale
    ++ boolByte c.inverted ++ byte2 c.iMin ++ byte1 c.k ++ byte2 c.iChkMin ++ byte1 c.kChk ++ byte2 c.iOnset
    ++ byte1 c.window ++ byte1 c.nOp ++ byte2 c.tStab ++ byte1 c.delay ++ byte1 c.filterTick ++ byte3 c.isoAlarm
    ++ byte2 c.endZone ++ byte2 c.tSeal ++ byte2 c.tRetrip ++ byte2 c.tBf ++ byte2 c.iBf ++ boolByte c.breakerCheck
    ++ byte3 c.alarmEnable.toNat ++ List.replicate 16 0

/-- The 64 bytes of a configuration in the block's layout, with its CRC. -/
def blockBytes (c : Settings) : List Byte := withCrc (blockBody c)

end Sys2Proof.Machine
end

