-- ==== Sys2Proof/Machine/Sampling.lean ====
section
/-! DEFINITION. The Sampling Unit: testing and scaling a phase, the own sample record, the disagreement runs and converter
failure, the peak window and the current check (01). -/

namespace Sys2Proof.Machine

open Sys2Proof

/-- n / d rounded to the nearest integer, ties away from zero (00, "Rounding"). -/
def roundDiv (n : Int) (d : Nat) : Int :=
  let q : Int := ((2 * n.natAbs + d) / (2 * d) : Nat)
  if n < 0 then -q else q

/-- The largest magnitude a current or raw result has (R3, R9). -/
def fullScale : Int := 32767

/-- The channels disagree: |rawA − rawB| exceeds 64 + floor(|rawA| / 16) (R7). -/
def disagrees (rawA rawB : Int) : Bool := decide ((rawA - rawB).natAbs > 64 + rawA.natAbs / 16)

/-- Scale, clamp and apply the polarity (R8, R9). -/
def scaleRaw (c : Settings) (rawA : Int) : Int :=
  let v := max (-fullScale) (min fullScale (roundDiv (rawA * c.scale) 4096))
  if c.inverted then -v else v

/-- The validity and value of a phase at its finalisation (R5, R7, R9): MISSING unless both channels completed. -/
def testPhase (c : Settings) (ch : ChanPair) : Validity × Int :=
  match ch.a, ch.b with
  | .done rawA, .done rawB => if disagrees rawA rawB then (.disagree, 0) else (.valid, scaleRaw c rawA)
  | _, _ => (.missing, 0)

/-- The own sample record of the epoch under conversion (R14). -/
def makeRecord (c : Settings) (f : Flight) (chans : PerPhase ChanPair) : Record :=
  { epoch := f.epoch, instant := f.instant, cur := chans.map fun ch => (testPhase c ch).2,
    val := chans.map fun ch => (testPhase c ch).1, replica := f.replica }

/-- A channel is CONVERTING. -/
def Chan.isConverting : Chan → Bool
  | .converting => true
  | .idle => false
  | .done _ => false

/-- A channel is DONE. -/
def Chan.isDone : Chan → Bool
  | .done _ => true
  | .idle => false
  | .converting => false

/-- Some channel is CONVERTING. -/
def anyConverting (chans : PerPhase ChanPair) : Bool := chans.any fun ch => ch.a.isConverting || ch.b.isConverting

/-- Every channel is DONE. -/
def allDone (chans : PerPhase ChanPair) : Bool := chans.all fun ch => ch.a.isDone && ch.b.isDone

/-- All six channels CONVERTING (R3). -/
def startedChans : PerPhase ChanPair := ⟨⟨.converting, .converting⟩, ⟨.converting, .converting⟩, ⟨.converting, .converting⟩⟩

/-- A channel's completion: only a CONVERTING channel takes it (R3, R4). -/
def Chan.complete (raw : Int) : Chan → Chan
  | .converting => .done raw
  | .idle => .idle
  | .done r => .done r

/-- One channel of a pair completes. -/
def ChanPair.complete (ch : Channel) (raw : Int) (p : ChanPair) : ChanPair :=
  match ch with
  | .a => { p with a := p.a.complete raw }
  | .b => { p with b := p.b.complete raw }

/-- A channel of a pair. -/
def ChanPair.get (p : ChanPair) : Channel → Chan
  | .a => p.a
  | .b => p.b

/-- Every phase of a record is VALID. -/
def allValid (v : PerPhase Validity) : Bool := v.all fun x => decide (x = .valid)

/-- The disagreement runs after a record (R10). -/
def nextRuns (val : PerPhase Validity) (runs : PerPhase Nat) : PerPhase Nat :=
  PerPhase.of fun ph => if val.get ph = .valid then 0 else upTo 16 (runs.get ph)

/-- Converter failure (R11): a run stands at 16 while the flag is clear. -/
def converterFailureOp (s : State) : State :=
  if s.su.disRun.any (· == 16) && !s.su.convFail then
    raise .converter (s.updSu fun u => { u with convFail := true, clearRun := 0, convFailures := bump u.convFailures })
  else s

/-- Converter recovery (R12): the clear run reaches 4,000. -/
def converterRecoveryOp (s : State) : State :=
  if s.su.convFail && decide (s.su.clearRun ≥ 4000) then s.updSu fun u => { u with convFail := false, clearRun := 0 } else s

/-- The clear run after a record (R12): counted while the flag is set, held at 0 while it is clear. -/
def clearRunOp (val : PerPhase Validity) (s : State) : State :=
  s.updSu fun u => { u with clearRun := if u.convFail && allValid val then upTo 4000 u.clearRun else 0 }

/-- The last 80 samples (R16). -/
def joinPeak (x : Sample) (peak : List Sample) : List Sample := (if peak.length ≥ 80 then peak.drop 1 else peak) ++ [x]

/-- The SU's own part of the own sample event: the record, the statistics (R13), the runs and flags (R10 to R12) and the peak
window (R16). -/
def takeRecordSu (r : Record) (s : State) : State :=
  let s := s.updSu fun u =>
    { u with
      record := some r
      disagreeSamples := bumpBy u.disagreeSamples (r.val.count fun v => decide (v = .disagree))
      missingSamples := bumpBy u.missingSamples (r.val.count fun v => decide (v = .missing))
      disRun := nextRuns r.val u.disRun
      peak := joinPeak ⟨r.cur, r.val⟩ u.peak }
  converterRecoveryOp (clearRunOp r.val (converterFailureOp s))

/-- The magnitudes of the VALID phases of the peak window (R17). -/
def validMagnitudes (peak : List Sample) : List Nat :=
  peak.flatMap fun x => allPhases.filterMap fun ph => if x.val.get ph = .valid then some (x.cur.get ph).natAbs else none

/-- Current present (R17): some VALID value of the window has magnitude at least I_bf, or none is VALID. -/
def currentPresent (c : Settings) (peak : List Sample) : Bool :=
  (validMagnitudes peak).isEmpty || (validMagnitudes peak).any fun m => decide (c.iBf ≤ m)

end Sys2Proof.Machine
end

