-- ==== Sys2Proof/Machine/Trip.lean ====
section
/-! DEFINITION. The Trip Unit: trip conditions, assertion and release, retrip, breaker failure, backtrip requests, trip-circuit
supervision and the trip record (08). -/

namespace Sys2Proof.Machine

open Sys2Proof

/-! ## What the Trip Unit reads -/

/-- The zone of a name in the last topology. -/
def Topology.zoneNamed (t : Topology) (x : Sect) : Option ZoneTopo := t.zones.find? fun z => decide (z.name = x)

/-- A zone gives OPERATE in a phase. -/
def zoneOperates (t : Topology) (x : Sect) (ph : Phase) : Bool :=
  match t.zoneNamed x with
  | some z => (z.phases.get ph).operate
  | none => false

/-- The tripping phases (R141): some zone holding the own bay and the check zone both give OPERATE. -/
def trippingPhases (t : Topology) : PerPhase Bool :=
  PerPhase.of fun ph => (t.ownZones.any fun x => zoneOperates t x ph) && (t.chk.get ph).operate

/-- The differential trip condition of R141 on the last topology. -/
def differentialCondition (s : State) : Bool :=
  match s.ze.topo with
  | some t => (trippingPhases t).any id
  | none => false

/-- The sections of the zones holding the own bay in the last topology (R116). -/
def ownSections (s : State) : SectSet :=
  match s.ze.topo with
  | some t => t.ownSections
  | none => noSects

/-- The declared states whose backtrip requests are ignored (R142, R145). -/
def ignoresBacktrip : RunState → Bool
  | .test => true
  | .blocked => true
  | .isolated => true
  | .listen => false
  | .service => false

/-- An entry's latest backtrip set keeps the trip on (R145, second case). -/
def entryHolds (c : Settings) (own : SectSet) (e : PeerEntry) : Bool :=
  !SectSet.isEmpty e.backtrip &&
  (match e.declared with
    | some d => !ignoresBacktrip d
    | none => true) &&
  SectSet.subset e.backtrip c.present && !SectSet.isEmpty (SectSet.inter e.backtrip own)

/-- The trip has an active cause (R145). -/
def activeCause (c : Settings) (s : State) : Bool :=
  differentialCondition s || allBays.any fun b => decide (b ≠ c.bay) && entryHolds c (ownSections s) (s.entry b)

/-- Current present as the SU answers it (R17). -/
def currentNow (c : Settings) (s : State) : Bool := currentPresent c s.su.peak

/-- Coil 1 is in supervision mode or off; a trip has it otherwise. -/
def Coil1.afterPulse : Coil1 → Coil1
  | .supervision => .off
  | .off => .off
  | .trip => .trip

/-! ## Supervision pulses -/

/-- A pulse starts (R152, R153). -/
def startPulse (s : State) : State :=
  s.updTu fun u => { u with coil1 := .supervision, pulse := some 1, supCount := 0, pulseNew := true }

/-- A pulse under way is abandoned (R152, R153). -/
def abandonPulse (s : State) : State :=
  match s.tu.pulse with
  | some _ => s.updTu fun u =>
      { u with pulse := none, coil1 := u.coil1.afterPulse, ctr := { u.ctr with supAbandons := bump u.ctr.supAbandons } }
  | none => s

/-- A due pulse starts, or is skipped when coil 1 is at trip level (R152). -/
def pulseDueOp (s : State) : State :=
  if s.tu.supCount ≥ 1024 then
    if s.tu.coil1 = .trip then
      s.updTu fun u => { u with supCount := 0, ctr := { u.ctr with supSkips := bump u.ctr.supSkips } }
    else startPulse s
  else s

/-- A pulse that has reached 8 epochs ends (R154): TCS is read, and a failure that leaves the count at 3 sets TRIP CIRCUIT. -/
def pulseEndOp (s : State) : State :=
  match s.tu.pulse with
  | none => s
  | some n =>
    if n ≥ 8 then
      let s := s.updTu fun u => { u with pulse := none, coil1 := u.coil1.afterPulse }
      if s.pins.tcs then s.updTu fun u => { u with supFails := 0 }
      else
        let s := s.updTu fun u =>
          { u with supFails := upTo 3 u.supFails, ctr := { u.ctr with supFailures := bump u.ctr.supFailures } }
        raiseIf (s.tu.supFails == 3) .tripCircuit s
    else s

/-- The supervision at an epoch whose chosen state is r (R152): the pulse under way and the count advance, unless the pulse
began at this epoch. -/
def supervisionEpoch (r : RunState) (s : State) : State :=
  if r = .blocked ∨ s.tu.pulseNew then s
  else
    let s := s.updTu fun u => { u with pulse := u.pulse.map (upTo 8), supCount := upTo 1024 u.supCount }
    pulseDueOp (pulseEndOp s)

/-! ## The trip record -/

/-- The next record number: from 65,535 to 1 (R156). -/
def nextRecord (n : Nat) : Nat := if n ≥ 65535 then 1 else n + 1

/-- Capture a record, or count an overrun when the latch is HELD (R155, R156). -/
def captureRecord (test : Bool) (cause : TripCause) (epoch : EpochNo) (s : State) : State :=
  match s.tu.held with
  | none => s.updTu fun u =>
      { u with
        recNumber := nextRecord u.recNumber
        held := some ⟨nextRecord u.recNumber, epoch, test, cause, none⟩
        recorded := true }
  | some _ =>
    raise .recordOverrun (s.updTu fun u =>
      { u with recorded := false, ctr := { u.ctr with recordOverruns := bump u.ctr.recordOverruns } })

/-- The record of a recorded trip is closed (R158). -/
def closeRecord (how : TripEnd) (epoch : EpochNo) (u : TripUnit) : TripUnit :=
  if u.recorded then
    { u with held := u.held.map fun r => { r with closed := some ⟨epoch, how, u.retripMade, decide (u.bf = .failed)⟩ } }
  else u

/-! ## Assertion and release -/

/-- Assert a trip (R143): ASSERTED drives coil 1 and takes it from a supervision pulse; TEST ASSERTED drives nothing. -/
def assertTrip (c : Settings) (test : Bool) (cause : TripCause) (epoch : EpochNo) (s : State) : State :=
  let s := if test then s else abandonPulse s
  let s := s.updTu fun u =>
    { u with
      trip := if test then .testAsserted else .asserted
      coil1 := if test then u.coil1 else .trip
      sealIn := c.tSeal
      retrip := 0
      retripMade := false
      bfTimer := 0
      bf := .timing
      ctr :=
        if test then { u.ctr with testTrips := bump u.ctr.testTrips }
        else
          match cause with
          | .differential _ _ => { u.ctr with differentialTrips := bump u.ctr.differentialTrips }
          | .backtrip _ _ => { u.ctr with backtripTrips := bump u.ctr.backtripTrips } }
  captureRecord test cause epoch s

/-- Assert a trip when the station state allows it (R140): ASSERTED from SERVICE, TEST ASSERTED from TEST, none otherwise. -/
def assertIfAllowed (c : Settings) (cause : TripCause) (epoch : EpochNo) (s : State) : State :=
  match s.tu.trip, s.sc.station with
  | .idle, .running .service => assertTrip c false cause epoch s
  | .idle, .running .test => assertTrip c true cause epoch s
  | _, _ => s

/-- The coils, the trip state, BF, the backtrip set and the timers at a release (R149), the record closed (R158). A pulse that
runs goes on (log 15, DEDUCED). -/
def releaseTrip (how : TripEnd) (s : State) : State :=
  s.updTu fun u =>
    { closeRecord how s.su.epoch u with
      trip := .idle
      coil1 := if u.coil1 = .trip then .off else u.coil1
      coil2 := .off
      sealIn := 0
      retrip := 0
      retripMade := false
      bfTimer := 0
      bf := .idle
      backtrip := noSects
      recorded := false }

/-- The release at a change of station state to r (R150). -/
def stateRelease (r : RunState) (s : State) : State :=
  match s.tu.trip with
  | .asserted =>
    if r = .service then s
    else if r = .blocked then releaseTrip .stateChange s
    else startPulse (releaseTrip .stateChange s)
  | .testAsserted => if r = .test then s else releaseTrip .stateChange s
  | .idle => s

/-! ## The evaluation of an asserted trip (R146) -/

/-- Step 1: the timers. -/
def tripTimers (c : Settings) (s : State) : State :=
  s.updTu fun u =>
    { u with sealIn := u.sealIn - 1, retrip := upTo c.tRetrip u.retrip, bfTimer := upTo c.tBf u.bfTimer }

/-- Step 3: the retrip (R147). -/
def retripOp (c : Settings) (s : State) : State :=
  if s.tu.trip ≠ .idle ∧ s.tu.retrip = c.tRetrip ∧ !s.tu.retripMade ∧ currentNow c s then
    s.updTu fun u =>
      { u with
        retripMade := true
        coil2 := if u.trip = .asserted then .trip else u.coil2
        ctr := { u.ctr with retrips := bump u.ctr.retrips } }
  else s

/-- The breaker contact check is ON and the own bay's derived breaker state is CLOSED (R148). -/
def contactClosed (c : Settings) (s : State) : Bool :=
  c.breakerCheck && decide (s.ciu.derived.map Replica.breaker = some .closed)

/-- Step 4: breaker failure (R148). -/
def breakerFailureOp (c : Settings) (s : State) : State :=
  if s.tu.bf = .timing ∧ s.tu.bfTimer = c.tBf ∧ (currentNow c s || contactClosed c s) then
    match s.tu.trip with
    | .asserted =>
      raise .breakerFailure (s.updTu fun u =>
        { u with
          bf := .failed
          backtrip := ownSections s
          ctr := { u.ctr with breakerFailures := bump u.ctr.breakerFailures } })
    | .testAsserted => s.updTu fun u => { u with bf := .failed }
    | .idle => s
  else s

/-- Step 5: the release (R149), with a supervision pulse after a release from ASSERTED (R153). `active` is step 2's answer. -/
def releaseOp (c : Settings) (active : Bool) (s : State) : State :=
  if s.tu.sealIn = 0 ∧ !active ∧ !currentNow c s then
    match s.tu.trip with
    | .asserted => startPulse (releaseTrip .release s)
    | .testAsserted => releaseTrip .release s
    | .idle => s
  else s

/-- The sums of a zone's three phases. -/
def sumsOf (p : PerPhase PhaseResult) : PerPhase Sums := p.map fun r => ⟨r.id, r.ir⟩

/-- What the record of a differential trip takes from the last topology (R156): the tripping phases and the lowest-named zone
holding the own bay that meets R141. -/
def differentialCause (t : Topology) : Option TripCause :=
  match t.ownZones.find? fun x => allPhases.any fun ph => (trippingPhases t).get ph && zoneOperates t x ph with
  | some x => (t.zoneNamed x).map fun z =>
      .differential (trippingPhases t) ⟨z.name, z.sections, sumsOf z.phases, sumsOf t.chk⟩
  | none => none

/-- The Trip Unit at the hand-over of the verdicts of the evaluation of epoch k (R140, R141, R146). -/
def tripEvaluation (c : Settings) (k : EpochNo) (s : State) : State :=
  match s.tu.trip with
  | .idle =>
    match s.ze.topo.bind differentialCause with
    | some cause => assertIfAllowed c cause k s
    | none => s
  | _ =>
    let s := tripTimers c s
    releaseOp c (activeCause c s) (breakerFailureOp c (retripOp c s))

/-! ## Backtrip -/

/-- The set offered to the ring (R151) for an epoch at which the station state r was chosen. -/
def offeredSet (r : RunState) (s : State) : SectSet :=
  if s.tu.trip = .asserted ∧ s.tu.bf = .failed ∧ r = .service then s.tu.backtrip else noSects

/-- A backtrip request handed on by the peer table (R142). -/
def backtripRequest (c : Settings) (bay : Nat) (declared : RunState) (set : SectSet) (s : State) : State :=
  let s := s.updTu fun u => { u with ctr := { u.ctr with backtripsReceived := bump u.ctr.backtripsReceived } }
  if ignoresBacktrip declared || !SectSet.subset set c.present then
    s.updTu fun u => { u with ctr := { u.ctr with backtripsIgnored := bump u.ctr.backtripsIgnored } }
  else if SectSet.isEmpty (SectSet.inter set (ownSections s)) then
    s.updTu fun u => { u with ctr := { u.ctr with backtripsUnmatched := bump u.ctr.backtripsUnmatched } }
  else assertIfAllowed c (.backtrip bay set) s.su.epoch s

/-- The Trip Unit at a stop of the epoch generator (R150, R152, R160). -/
def tripStop (s : State) : State :=
  let s := match s.tu.trip with
    | .idle => s
    | _ => releaseTrip .stateChange s
  abandonPulse s

end Sys2Proof.Machine
end

