-- ==== Sys2Proof/Machine/Peers.lean ====
section
/-! DEFINITION. The Peer Table: taking a delivered frame, presence and freshness, the own entry, conflicts and their clearing
(04). -/

namespace Sys2Proof.Machine

open Sys2Proof

/-! ## Taking a delivered frame (R64) -/

/-- A side a declaration names is among the sections present, or NONE. -/
def sidePresent (present : SectSet) : Option Sect → Bool
  | some x => present.get x
  | none => true

/-- A declaration is malformed (R66): side 1 NONE, side 1 equal to side 2, or a TIE with side 2 NONE. -/
def Decl.malformed (d : Decl) : Bool :=
  d.side1.isNone || decide (d.side1 = d.side2) || (decide (d.kind = .tie) && d.side2.isNone)

/-- Whether a frame's identity does not fit an entry, and the first reason (R66). -/
def misfit (present : SectSet) (e : PeerEntry) (f : BayFrame) : Option Misfit :=
  if e.tag.isSome ∧ e.tag ≠ some f.tag then some .tag
  else if e.decl.isSome ∧ e.decl ≠ some f.decl then some .declaration
  else if !sidePresent present f.decl.side1 || !sidePresent present f.decl.side2 || f.decl.malformed then some .sections
  else none

/-- The sequence test (R67, R68): on a LIVE or JOINING entry q must be newer than the last sequence. -/
def sequencePasses (e : PeerEntry) (q : SeqNo) : Bool :=
  match e.presence, e.lastSeq with
  | .live, some l => decide (1 ≤ (q - l).toNat ∧ (q - l).toNat ≤ 32767)
  | .joining, some l => decide (1 ≤ (q - l).toNat ∧ (q - l).toNat ≤ 32767)
  | _, _ => true

/-- The instant test (R69): strictly later than the newest slot. -/
def instantPasses (e : PeerEntry) (t : Ticks) : Bool :=
  match e.history.getLast? with
  | some x => decide (since t x.instant > 0)
  | none => true

/-- A new slot joins a history of at most 32 (R71). -/
def joinHistory (x : Slot) (h : List Slot) : List Slot := (if h.length ≥ 32 then h.drop 1 else h) ++ [x]

/-- The presence and joining run after an acceptance (R72). -/
def acceptPresence : Presence → Nat → Presence × Nat
  | .absent, _ => (.joining, 1)
  | .stale, _ => (.joining, 1)
  | .joining, n => (if n + 1 ≥ 32 then .live else .joining, upTo 32 n)
  | .live, n => (.live, n)
  | .conflict, n => (.conflict, n)

/-- The slot of an accepted frame (R70). -/
def frameSlot (f : BayFrame) (t : Ticks) : Slot := ⟨f.seqNo, t, f.cur, f.val, f.replica, f.declared⟩

/-- The entry after it accepts a frame (R70). A frame with station tag 0 is accepted like any other, and the entry then holds tag 0,
which R63's range for a tag does not name (log 27, DESIGN CHOICE). -/
def acceptEntry (f : BayFrame) (t : Ticks) (p : Port) (e : PeerEntry) : PeerEntry :=
  { e with
    presence := (acceptPresence e.presence e.joinRun).1
    joinRun := (acceptPresence e.presence e.joinRun).2
    tag := some (e.tag.getD f.tag)
    decl := some (e.decl.getD f.decl)
    lastSeq := some f.seqNo
    fresh := 0
    declared := some f.declared
    backtrip := f.backtrip
    lastPort := some p
    history := joinHistory (frameSlot f t) e.history
    accepted := bump e.accepted }

/-- The entry after it enters CONFLICT (R75), TAG CONFLICTS counted (R66). -/
def conflictEntry (why : Misfit) (f : BayFrame) (k : EpochNo) (p : Port) (e : PeerEntry) : PeerEntry :=
  { e with
    presence := .conflict
    conflict := some ⟨why, f.tag, f.decl, k, p⟩
    history := []
    lastSeq := none
    joinRun := 0
    backtrip := noSects
    declared := none
    conflicts := bump e.conflicts }

/-- What the peer table decides about a delivered frame (R64). -/
inductive Taking
  | inConflict | conflict (why : Misfit) | duplicate | outOfOrder | accepted
  deriving DecidableEq, Repr

/-- The decisions of R64, in order. -/
def judgeFrame (present : SectSet) (e : PeerEntry) (f : BayFrame) (t : Ticks) : Taking :=
  if e.presence = .conflict then .inConflict
  else
    match misfit present e f with
    | some why => .conflict why
    | none =>
      if !sequencePasses e f.seqNo then .duplicate
      else if !instantPasses e t then .outOfOrder
      else .accepted

/-- A frame is delivered for bay b with the instant t of R51, from port p (R64). -/
def takeFrame (c : Settings) (b : Bay) (f : BayFrame) (t : Ticks) (p : Port) (s : State) : State :=
  let e := s.entry b
  match judgeFrame c.present e f t with
  | .inConflict => s.setEntry b { e with conflicts := bump e.conflicts }
  | .conflict why => raise .peerConflict (s.setEntry b (conflictEntry why f s.su.epoch p e))
  | .duplicate => s.setEntry b { e with duplicates := bump e.duplicates }
  | .outOfOrder => s.setEntry b { e with orders := bump e.orders }
  | .accepted =>
    let s := s.setEntry b (acceptEntry f t p e)
    if SectSet.isEmpty f.backtrip then s else backtripRequest c (bayNumber b) f.declared f.backtrip s

/-! ## Presence over time (R72 to R74) -/

/-- LIVE to STALE (R73). -/
def staleEntry (e : PeerEntry) : PeerEntry :=
  { e with presence := .stale, backtrip := noSects, stales := bump e.stales }

/-- A LIVE entry whose freshness has reached 24 goes STALE, and PEER STALE is set unless it last declared ISOLATED (R73). -/
def peerStaleOp (c : Settings) (b : Bay) (s : State) : State :=
  let e := s.entry b
  if b ≠ c.bay ∧ e.presence = .live ∧ e.fresh ≥ 24 then
    raiseIf (decide (e.declared ≠ some .isolated)) .peerStale (s.setEntry b (staleEntry e))
  else s

/-- An entry going ABSENT from STALE or JOINING (R74). -/
def absentEntry (e : PeerEntry) : PeerEntry :=
  { e with presence := .absent, history := [], lastSeq := none, joinRun := 0, backtrip := noSects }

/-- A STALE or JOINING entry whose freshness has reached 4,000 goes ABSENT (R74). -/
def peerAbsentOp (c : Settings) (b : Bay) (s : State) : State :=
  let e := s.entry b
  if b ≠ c.bay ∧ (e.presence = .stale ∨ e.presence = .joining) ∧ e.fresh ≥ 4000 then s.setEntry b (absentEntry e) else s

/-- A JOINING entry whose freshness has reached 4 has its joining run set to 0 (R72). -/
def joiningResetOp (c : Settings) (b : Bay) (s : State) : State :=
  let e := s.entry b
  if b ≠ c.bay ∧ e.presence = .joining ∧ e.fresh ≥ 4 then s.setEntry b { e with joinRun := 0 } else s

/-- One entry at an epoch: its freshness advances, stopping at 4,095, and reaches the marks of R72. -/
def ageEntry (c : Settings) (b : Bay) (s : State) : State :=
  let s := s.setEntry b { s.entry b with fresh := upTo 4095 (s.entry b).fresh }
  peerAbsentOp c b (peerStaleOp c b (joiningResetOp c b s))

/-- Every entry at an epoch (R72). -/
def peerEpoch (c : Settings) (s : State) : State := allBays.foldl (fun s b => ageEntry c b s) s

/-! ## The own entry (R76) -/

/-- The own entry after an own sample record whose epoch's station state was r (R76). -/
def feedEntry (c : Settings) (x : Record) (r : RunState) (e : PeerEntry) : PeerEntry :=
  let q : SeqNo := x.epoch.setWidth 16
  { e with
    presence := (acceptPresence e.presence e.joinRun).1
    joinRun := (acceptPresence e.presence e.joinRun).2
    tag := some c.tag
    decl := some c.decl
    lastSeq := some q
    fresh := 0
    declared := some r
    history := joinHistory ⟨q, x.instant, x.cur, x.val, x.replica, r⟩ e.history
    accepted := bump e.accepted }

/-- The own sample event feeds the own entry (R15, R76). -/
def feedOwn (c : Settings) (x : Record) (r : RunState) (s : State) : State :=
  s.setEntry c.bay (feedEntry c x r (s.entry c.bay))

/-! ## Restart and clearing -/

/-- An entry at the restart of epochs (R82). -/
def restartEntry (e : PeerEntry) : PeerEntry :=
  if e.presence = .conflict then e
  else
    { e with
      presence := .absent
      history := []
      lastSeq := none
      fresh := 4095
      joinRun := 0
      backtrip := noSects
      lastPort := none }

/-- The peer table at a start of epochs (R82); the own entry takes the configured tag and declaration (R76). -/
def peerRestart (c : Settings) (s : State) : State :=
  let s := s.updPt fun t => { t with entries := t.entries.map restartEntry }
  s.setEntry c.bay { s.entry c.bay with tag := some c.tag, decl := some c.decl }

/-- An entry after CLEAR PEER (R78). -/
def clearedEntry (e : PeerEntry) : PeerEntry :=
  { e with
    presence := .absent
    tag := none
    decl := none
    declared := none
    lastPort := none
    conflict := none
    fresh := 4095
    joinRun := 0 }

end Sys2Proof.Machine
end

