-- ==== Sys2Proof/Machine/Ring.lean ====
section
/-! DEFINITION. The Ring Interface: link states, the link echo, reception, stripping, forwarding, delivery, output arbitration
and ring closure (03). -/

namespace Sys2Proof.Machine

open Sys2Proof

/-! ## Output arbitration (R53) -/

/-- The answer in the echo-answer slot departs (R39): the turnaround is written at its departure start,
modulo 65,536 (log 14, DESIGN CHOICE). -/
def sendAnswer (c : Settings) (lt : Ticks) (a : EchoAnswer) (q : PortState) : PortState :=
  { q with
    answer := none
    tx := some ⟨echoBytes 3 c.bay a.number (lt - a.arrival).toNat, lt, echoTicks⟩ }

/-- An echo request departs (R38). -/
def sendRequest (c : Settings) (lt : Ticks) (q : PortState) : PortState :=
  { q with
    echoNum := q.echoNum + 1
    outstanding := some (q.echoNum + 1)
    echoCounter := 0
    echoStart := lt
    overflow := false
    interval := 0
    echoDue := false
    tx := some ⟨echoBytes 2 c.bay (q.echoNum + 1) 0, lt, echoTicks⟩ }

/-- A list entry is overdue at the departure of sequence n (R57): it is at least the eighth before it. -/
def overdue (n e : SeqNo) : Bool := decide (8 ≤ (n - e).toNat ∧ (n - e).toNat ≤ 32767)

/-- The direction's list and closure state at the departure of an own frame of sequence n (R57). -/
def departList (n : SeqNo) (q : PortState) : PortState :=
  if q.departed.any (overdue n) then
    { q with
      departed := q.departed.filter (fun e => !overdue n e) ++ [n]
      opened := true
      ctr := if q.opened then q.ctr else { q.ctr with ringOpenEvents := bump q.ctr.ringOpenEvents } }
  else { q with departed := q.departed ++ [n] }

/-- An own frame departs (R49, R56, R57): its age is written. -/
def sendOwn (lt : Ticks) (o : OwnFrame) (q : PortState) : PortState :=
  let q := { q with
    own := none
    tx := some ⟨bayBytes { o.frame with age := (lt - o.instant).toNat }, lt, bayTicks⟩
    ctr := { q.ctr with ownSent := bump q.ctr.ownSent } }
  departList o.frame.seqNo q

/-- A transit frame's outgoing age (R50). -/
def outgoingAge (lt : Ticks) (x : Transit) : Nat := x.frame.age + x.delay + (lt - x.arrival).toNat

/-- The transit queue at the arbiter (R55): heads that waited too long or are too old are dropped, the first other departs. -/
def sendTransit (lt : Ticks) (q : PortState) : List Transit → PortState
  | [] => { q with transit := [] }
  | x :: rest =>
    if since lt x.arrival > 2000 then
      sendTransit lt { q with ctr := { q.ctr with latencyDrops := bump q.ctr.latencyDrops } } rest
    else if outgoingAge lt x > 4000000 then
      sendTransit lt { q with ctr := { q.ctr with agedDrops := bump q.ctr.agedDrops } } rest
    else
      { q with
        transit := rest
        tx := some ⟨bayBytes { x.frame with age := outgoingAge lt x }, lt, bayTicks⟩
        ctr := { q.ctr with forwarded := bump q.ctr.forwarded } }

/-- The own-frame slot and then the transit queue of an UP port (R53 places 3 and 4; R49's age limit). -/
def sendBay (lt : Ticks) (q : PortState) : PortState :=
  match q.own with
  | some o =>
    if (lt - o.instant).toNat > 4000000 then
      sendTransit lt { q with own := none, ctr := { q.ctr with agedDrops := bump q.ctr.agedDrops } } q.transit
    else sendOwn lt o q
  | none => sendTransit lt q q.transit

/-- The arbiter of a port (R53): a free transmitter takes the answer, the request, the own frame or the head transit frame. Its
departure start is the present tick. -/
def arbitratePort (c : Settings) (lt : Ticks) (q : PortState) : PortState :=
  match q.tx, q.answer with
  | some _, _ => q
  | none, some a => sendAnswer c lt a q
  | none, none =>
    if q.echoDue then sendRequest c lt q
    else if q.link = .up then sendBay lt q
    else q

/-- An own frame that finds an overdue entry sets RING OPEN (R57): the arbiter is about to send that own frame. -/
def opensRing (lt : Ticks) (q : PortState) : Bool :=
  match q.tx, q.answer, q.own with
  | none, none, some o =>
    !q.echoDue && decide (q.link = .up) && decide ((lt - o.instant).toNat ≤ 4000000) && q.departed.any (overdue o.frame.seqNo)
  | _, _, _ => false

/-- The arbiter of a port of the station. -/
def arbitrate (c : Settings) (p : Port) (s : State) : State :=
  raiseIf (opensRing s.su.lt (s.port p)) .ringOpen (s.updPort p (arbitratePort c s.su.lt))

/-- Both arbiters, once all that arrives at one tick is in its place (R53). -/
def arbitrateBoth (c : Settings) (s : State) : State := arbitrate c .west (arbitrate c .east s)

/-! ## The passing of time -/

/-- The end of a tick of a station whose epochs run. Every command only puts what it brings into its place, and before LT moves on the
arbiters choose among all that arrived at the tick, by whatever command, so that the order of R53 alone decides between them. What
arrives at the tick at which a transmitter becomes free is in its place before the choice (log 4, DESIGN CHOICE). -/
def settle (s : State) : State :=
  match s.running with
  | some c => arbitrateBoth c s
  | none => s

/-- Move to the moment of an event that falls at an epoch phase: time runs on to it, never back, and never past the last tick
before the next epoch, which is EPOCH's (log 1, DESIGN CHOICE). The tick that is left ends in the arbiters' choice (R53). What falls at
the very tick of an epoch, such as a delivery that R71 and R72 let come before or after a late own sample event or the freshness advance
there, can only follow EPOCH, at moment 0 of the epoch that begins (logs 1 and 4, DESIGN CHOICE). -/
def advanceTo (moment : Nat) (s : State) : State :=
  match s.su.gen with
  | .running =>
    let n := min moment 9999 - s.su.phase
    if n = 0 then s else passTicks n (settle s)
  | .stopped => s

/-- Move on by up to n ticks, never past the last tick before the next epoch. -/
def advanceBy (n : Nat) (s : State) : State := advanceTo (s.su.phase + n) s

/-! ## Link states (R34 to R36) -/

/-- A port's LINK DOWN flag. -/
def linkDownAlarm : Port → Alarm
  | .east => .linkDownE
  | .west => .linkDownW

/-- A port entering DOWN (R35) with a hold count. -/
def downPort (hold : Nat) (lt : Ticks) (q : PortState) : PortState :=
  { q with
    link := .down
    hold := hold
    delay := none
    echoCounter := q.echoNow lt
    outstanding := none
    interval := 0
    echoDue := false
    losses := 0
    answer := none
    own := none
    transit := []
    tx := none
    departed := []
    cutAt := some lt
    ctr := { q.ctr with
      linkDownDrops := bumpBy q.ctr.linkDownDrops (q.transit.length + q.own.isSome.toNat)
      linkDownEvents := if q.link = .down then q.ctr.linkDownEvents else bump q.ctr.linkDownEvents } }

/-- A port of the station enters DOWN, with its alarm when it was PROBING or UP (R35). -/
def enterDown (p : Port) (hold : Nat) (s : State) : State :=
  raiseIf (decide ((s.port p).link ≠ .down)) (linkDownAlarm p) (s.updPort p (downPort hold s.su.lt))

/-- A port enters PROBING (R34). -/
def enterProbing (p : Port) (s : State) : State :=
  s.updPort p fun q => { q with link := .probing, hold := 0, losses := 0, echoDue := true }

/-- A DOWN port with hold count 0 and receive signal present enters PROBING (R34, R36). -/
def probeOp (p : Port) (s : State) : State :=
  let q := s.port p
  if q.link = .down ∧ q.hold = 0 ∧ q.rx then enterProbing p s else s

/-! ## The link echo (R37 to R41) -/

/-- The echo interval of a link state (R37). -/
def echoInterval : Link → Nat
  | .probing => 4
  | .up => 64
  | .down => 64

/-- Echo due is set when the interval count has reached the interval with no request outstanding (R37). -/
def echoDueOp (link : Link) (p : Port) (s : State) : State :=
  let q := s.port p
  if q.link ≠ .down ∧ q.outstanding = none ∧ q.interval ≥ echoInterval link then s.updPort p fun q => { q with echoDue := true }
  else s

/-- An echo is lost with its counter stopped at n (R41); the third loss in a row takes the port down for 256 epochs. -/
def echoLoss (n : Nat) (p : Port) (s : State) : State :=
  let s := s.updPort p fun q =>
    { q with
      echoCounter := n
      outstanding := none
      losses := upTo 3 q.losses
      ctr := { q.ctr with echoLosses := bump q.ctr.echoLosses } }
  if (s.port p).losses ≥ 3 then enterDown p 256 s else echoDueOp (s.port p).link p s

/-- The echo counter reaches 40,000 (R38): the overflow flag is set and the echo is lost. -/
def echoTimeoutOp (p : Port) (s : State) : State :=
  match (s.port p).outstanding with
  | some _ => echoLoss echoLimit p (s.updPort p fun q => { q with overflow := true })
  | none => s

/-- A received answer that matches no outstanding request (R40). -/
def staleEcho (p : Port) (s : State) : State :=
  s.updPort p fun q => { q with ctr := { q.ctr with staleEchoes := bump q.ctr.staleEchoes } }

/-- The delay of a matching answer (R40): floor((counter − turnaround) / 2), a signed difference. -/
def echoDelay (counter turnaround : Nat) : Int := ((counter : Int) - (turnaround : Int)) / 2

/-- A good echo (R40): the new link delay, and a PROBING port comes UP (log 19, DEDUCED). -/
def goodEcho (n delay : Nat) (p : Port) (s : State) : State :=
  let link := (s.port p).link
  let s := s.updPort p fun q =>
    { q with
      echoCounter := n
      outstanding := none
      delay := some delay
      losses := 0
      link := if q.link = .probing then .up else q.link
      ctr := { q.ctr with goodEchoes := bump q.ctr.goodEchoes } }
  echoDueOp link p s

/-- An echo answer is received (R40), with arrival start `arrival`. An arrival start before the request's departure start has no
counter value in R40: the difference is read modulo 2^32, so the counter counts as past its limit, the echo is lost and the answer
is stale (log 6, DESIGN CHOICE). -/
def takeAnswer (p : Port) (number : BitVec 8) (turnaround : Nat) (arrival : Ticks) (s : State) : State :=
  let q := s.port p
  if q.outstanding = some number then
    let n := (arrival - q.echoStart).toNat
    if n > echoLimit then staleEcho p (echoTimeoutOp p s)
    else
      let s := s.updPort p fun q => { q with turnaround := turnaround }
      let d := echoDelay n turnaround
      if 0 ≤ d ∧ d ≤ 4000 then goodEcho n d.toNat p s else echoLoss n p s
  else staleEcho p s

/-- An echo request is received (R39): its answer replaces any answer still in the slot. -/
def takeRequest (p : Port) (number : BitVec 8) (arrival : Ticks) (s : State) : State :=
  s.updPort p fun q => { q with answer := some ⟨number, arrival⟩ }

/-! ## Bay frames (R44 to R52) -/

/-- A returning own frame (R45, R58): it closes the direction of the opposite port. -/
def ownReturn (p : Port) (n : SeqNo) (s : State) : State :=
  let s := s.updPort p fun q => { q with ctr := { q.ctr with ownReturns := bump q.ctr.ownReturns } }
  s.updPort (otherPort p) fun q =>
    { q with opened := false, departed := q.departed.filter fun e => !decide ((n - e).toNat ≤ 32767) }

/-- A frame of the own bay with another tag (R46): the conflict is reported to the Station Controller (R170). -/
def duplicateBay (p : Port) (s : State) : State :=
  let s := s.updPort p fun q => { q with ctr := { q.ctr with duplicateBays := bump q.ctr.duplicateBays } }
  raise .duplicateBay (s.updSc fun u => { u with dupQuiet := 0 })

/-- A frame is offered to the transmitter of port o (R48). -/
def queueTransit (o : Port) (x : Transit) (s : State) : State :=
  let q := s.port o
  if q.link = .up then
    if q.transit.length < 4 then s.updPort o fun q => { q with transit := q.transit ++ [x] }
    else
      raise .transitOverflow ((s.updPort o fun q =>
        { q with ctr := { q.ctr with transitOverflows := bump q.ctr.transitOverflows } }).updRi fun r =>
          { r with overflowQuiet := 0 })
  else s

/-- The instant of a delivered frame on the station's own clock (R51). -/
def frameInstant (x : Transit) : Ticks := x.arrival - BitVec.ofNat 32 x.delay - BitVec.ofNat 32 x.frame.age

/-- The source bay of a frame, when it is in the installed bay set (R52). -/
def installedSource (c : Settings) (n : Nat) : Option Bay :=
  match bayOf n with
  | some b => if c.hasBay b then some b else none
  | none => none

/-- A frame is offered for delivery (R52). -/
def deliver (c : Settings) (p : Port) (x : Transit) (s : State) : State :=
  if x.frame.scheme ≠ c.scheme then
    s.updPort p fun q => { q with ctr := { q.ctr with foreignFrames := bump q.ctr.foreignFrames } }
  else
    match installedSource c x.frame.source with
    | some b => takeFrame c b x.frame (frameInstant x) p s
    | none =>
      raise .unexpectedBay ((s.updPort p fun q =>
        { q with ctr := { q.ctr with unexpectedBays := bump q.ctr.unexpectedBays } }).updRi fun r =>
          { r with unexpectedQuiet := 0, unexpectedDetail := some x.frame.source })

/-- A bay frame received on an UP port (R43 step 4, R44). -/
def takeBay (c : Settings) (p : Port) (f : BayFrame) (arrival : Ticks) (s : State) : State :=
  let delay := (s.port p).delay.getD 0
  let s := s.updPort p fun q => { q with ctr := { q.ctr with framesReceived := bump q.ctr.framesReceived } }
  let f := { f with hops := f.hops + 1 }
  if f.source = bayNumber c.bay then
    if f.tag = c.tag then ownReturn p f.seqNo s else duplicateBay p s
  else if f.hops > 23 then
    s.updPort p fun q => { q with ctr := { q.ctr with hopDrops := bump q.ctr.hopDrops } }
  else deliver c p ⟨f, arrival, delay⟩ (queueTransit (otherPort p) ⟨f, arrival, delay⟩ s)

/-- A port takes in frames (R34, R35, R39): PROBING or UP, or DOWN in its hold with receive signal present (log 17, DEDUCED). -/
def PortState.takesFrames (q : PortState) : Bool := decide (q.link ≠ .down) || (decide (q.hold > 0) && q.rx)

/-- The ticks of a frame on the link by its length: up to the 8 bytes of an echo frame, and longer (00; a length of neither kind is
log 17's DESIGN CHOICE). -/
def frameTicks (bytes : List Byte) : Nat := if bytes.length ≤ 8 then echoTicks else bayTicks

/-- A frame of some ticks whose reception is complete at LT lt was being received when the port's receptions were cut off (R34,
R35): its first bit came before the cut (log 17, DEDUCED). -/
def PortState.cutOff (q : PortState) (lt : Ticks) (ticks : Nat) : Bool :=
  match q.cutAt with
  | some d => decide ((lt - d).toNat < ticks)
  | none => false

/-- A cut that every frame now in reception has begun after is forgotten (log 17). -/
def forgetCut (lt : Ticks) (q : PortState) : PortState := if q.cutOff lt bayTicks then q else { q with cutAt := none }

/-- The reception of a frame is complete (R43): its t_arr lies its own ticks on the link before the present (log 5, DEDUCED). A
reception that was cut off is discarded uncounted (R34, R35). -/
def receiveFrame (c : Settings) (p : Port) (bytes : List Byte) (s : State) : State :=
  let q := s.port p
  if q.takesFrames && !q.cutOff s.su.lt (frameTicks bytes) then
    match checkFrame bytes with
    | none => s.updPort p fun q => { q with ctr := { q.ctr with checkFailures := bump q.ctr.checkFailures } }
    | some (.request n) => takeRequest p n (s.su.lt - BitVec.ofNat 32 echoTicks) s
    | some (.answer n t) => takeAnswer p n t (s.su.lt - BitVec.ofNat 32 echoTicks) s
    | some (.bay f) =>
      if q.link = .up then takeBay c p f (s.su.lt - BitVec.ofNat 32 bayTicks) s
      else s.updPort p fun q => { q with ctr := { q.ctr with notUpDrops := bump q.ctr.notUpDrops } }
  else s

/-! ## Own frames, epochs, starts and stops -/

/-- The own bay frame of a record (R42), for an epoch whose station state was r, with the offered backtrip set. -/
def makeOwnFrame (c : Settings) (x : Record) (r : RunState) (set : SectSet) : BayFrame :=
  { source := bayNumber c.bay, scheme := c.scheme, tag := c.tag, seqNo := x.epoch.setWidth 16, hops := 0, age := 0,
    decl := c.decl, declared := r, replica := x.replica, val := x.val, cur := x.cur, backtrip := set }

/-- A copy of the own frame in the own-frame slot of an UP port (R42, R56). -/
def placeCopy (o : OwnFrame) (q : PortState) : PortState :=
  if q.link = .up then
    { q with own := some o, ctr := if q.own.isSome then { q.ctr with ownOverruns := bump q.ctr.ownOverruns } else q.ctr }
  else q

/-- A copy of the own frame goes to each UP port (R42); the arbiters take it when the tick's other arrivals are in (R53). -/
def placeOwn (o : OwnFrame) (s : State) : State := (s.updPort .east (placeCopy o)).updPort .west (placeCopy o)

/-- One port at an epoch: the hold count (R36) or the echo interval count (R37). -/
def portEpoch (p : Port) (s : State) : State :=
  let s := s.updPort p (forgetCut s.su.lt)
  let q := s.port p
  if q.link = .down then
    if q.hold > 0 then probeOp p (s.updPort p fun q => { q with hold := q.hold - 1 }) else s
  else echoDueOp q.link p (s.updPort p fun q => { q with interval := upTo 64 q.interval })

/-- The quiet runs at an epoch (R59). -/
def quietEpoch (s : State) : State :=
  s.updRi fun r => { r with overflowQuiet := upTo 4000 r.overflowQuiet, unexpectedQuiet := upTo 4000 r.unexpectedQuiet }

/-- The Ring Interface at an epoch (R36, R37, R59). -/
def ringEpoch (s : State) : State := portEpoch .west (portEpoch .east (quietEpoch s))

/-- A port's receptions are cut off at LT lt: frames that began to arrive while epochs were stopped are taken in by neither port
(R34). -/
def cutReception (lt : Ticks) (q : PortState) : PortState := { q with cutAt := some lt }

/-- The ports at a start of epochs (R34). -/
def ringStart (s : State) : State :=
  probeOp .west (probeOp .east ((s.updPort .east (cutReception s.su.lt)).updPort .west (cutReception s.su.lt)))

/-- Both ports at a stop of the epoch generator (R34, R35). -/
def ringStop (s : State) : State := enterDown .west 0 (enterDown .east 0 s)

/-- A transmission ends, and the transmitter is free (R53). -/
def transmissionEndOp (p : Port) (s : State) : State := s.updPort p fun q => { q with tx := none }

end Sys2Proof.Machine
end

