-- ==== Sys2Proof/Machine/Contacts.lean ====
section
/-! DEFINITION. The Contact Input Unit: acceptance and filtering, derived states, discrepancy supervision and the conditions
handed to the Station Controller (02). -/

namespace Sys2Proof.Machine

open Sys2Proof

/-- One input at a filter tick (R22): accepted state and pending mark after, and whether a change or a bounce is counted. -/
structure FilterStep where
  accepted : Bool
  pending : Bool
  change : Bool
  bounce : Bool
  deriving DecidableEq, Repr

/-- The table of R22 for one input. -/
def filterInput (accepted pending sample : Bool) : FilterStep :=
  if sample = accepted then ⟨accepted, false, false, pending⟩
  else if pending then ⟨sample, false, true, false⟩
  else ⟨accepted, true, false, false⟩

/-- Combine the eight inputs of three sets of contacts. -/
def zipContacts {α : Type} (f : Bool → Bool → Bool → α) (x y z : Contacts) : List α :=
  [f x.q1a y.q1a z.q1a, f x.q1b y.q1b z.q1b, f x.q2a y.q2a z.q2a, f x.q2b y.q2b z.q2b, f x.cba y.cba z.cba,
   f x.cbb y.cbb z.cbb, f x.oos y.oos z.oos, f x.tst y.tst z.tst]

/-- Apply a function of the input to each of the eight inputs of three sets of contacts. -/
def mapContacts (f : Bool → Bool → Bool → Bool) (x y z : Contacts) : Contacts :=
  ⟨f x.q1a y.q1a z.q1a, f x.q1b y.q1b z.q1b, f x.q2a y.q2a z.q2a, f x.q2b y.q2b z.q2b, f x.cba y.cba z.cba,
   f x.cbb y.cbb z.cbb, f x.oos y.oos z.oos, f x.tst y.tst z.tst⟩

/-- The state of a device from its accepted contacts (R24). -/
def deriveSwitch (a b : Bool) : Switch :=
  match a, b with
  | true, false => .closed
  | false, true => .opened
  | false, false => .travel
  | true, true => .invalid

/-- The derived states (R24), with isolator 2 OPEN for a single-isolator feeder (R25). -/
def deriveReplica (c : Settings) (k : Contacts) : Replica :=
  { iso1 := deriveSwitch k.q1a k.q1b
    iso2 := if c.side2 = none ∧ c.kind = .feeder then .opened else deriveSwitch k.q2a k.q2b
    breaker := deriveSwitch k.cba k.cbb }

/-- A switch state is a known position. -/
def Switch.known : Switch → Bool
  | .opened => true
  | .closed => true
  | .travel => false
  | .invalid => false

/-- An isolator is counted closed (R27). -/
def Switch.countedClosed : Switch → Bool
  | .opened => false
  | .closed => true
  | .travel => true
  | .invalid => true

/-- The conditions of R30. -/
def makeConditions (k : Contacts) (r : Replica) : Conditions :=
  ⟨k.oos, k.tst, decide (r.iso1 = .opened) && decide (r.iso2 = .opened)⟩

/-- A pair's discrepancy mark is set (R28) and ISOLATOR DISCREPANCY named it (R29): its timer stands at the alarm time while
its derived state is TRAVEL or INVALID. -/
def discrepancyOp (c : Settings) (pair : DevPair) (s : State) : State :=
  match s.ciu.derived with
  | none => s
  | some r =>
    if (s.ciu.discTimer.get pair == c.isoAlarm) && !(r.get pair).known then
      raise .isolatorDiscrepancy (s.updCiu fun u =>
        { u with discMark := u.discMark.upd (fun _ => true) pair, discDetail := u.discDetail.upd (fun _ => true) pair })
    else s

/-- A pair's timer and mark at an epoch (R28), before its mark may be set: `old` is its derived state at the epoch before. -/
def countPair (c : Settings) (old new : Switch) (timer : Nat) (mark : Bool) : Nat × Bool :=
  if new.known then (0, false)
  else if old = new then (upTo c.isoAlarm timer, mark)
  else (0, mark)

/-- The initial acceptance (R21), with every timer 0 and every mark clear (R31), and the conditions of epoch 0 (R30). -/
def initialAcceptance (c : Settings) (k : Contacts) (s : State) : State :=
  s.updCiu fun u =>
    { u with
      accepted := some k
      pending := clearContacts
      derived := some (deriveReplica c k)
      discTimer := ⟨0, 0, 0⟩
      discMark := ⟨false, false, false⟩
      cond := some (makeConditions k (deriveReplica c k)) }

/-- The filter tick (R20, R22): accepted states, pending marks and the counters of R23. -/
def filterTick (sample : Contacts) (u : ContactUnit) : ContactUnit :=
  match u.accepted with
  | none => u
  | some k =>
    let steps := zipContacts filterInput k u.pending sample
    { u with
      accepted := some (mapContacts (fun a p x => (filterInput a p x).accepted) k u.pending sample)
      pending := mapContacts (fun a p x => (filterInput a p x).pending) k u.pending sample
      changes := bumpBy u.changes (steps.countP FilterStep.change)
      bounces := bumpBy u.bounces (steps.countP FilterStep.bounce) }

/-- The epoch of the CIU: the filter tick when the epoch number is a multiple of P (R20), the derived states (R24), the
discrepancy timers (R28, R29) and the conditions (R30). -/
def contactEpoch (c : Settings) (sample : Contacts) (n : EpochNo) (s : State) : State :=
  let s := if n.toNat % c.filterTick = 0 then s.updCiu (filterTick sample) else s
  match s.ciu.accepted, s.ciu.derived with
  | some k, some old =>
    let new := deriveReplica c k
    let q1 := countPair c old.iso1 new.iso1 s.ciu.discTimer.q1 s.ciu.discMark.q1
    let q2 := countPair c old.iso2 new.iso2 s.ciu.discTimer.q2 s.ciu.discMark.q2
    let cb := countPair c old.breaker new.breaker s.ciu.discTimer.cb s.ciu.discMark.cb
    let s := s.updCiu fun u =>
      { u with
        derived := some new
        discTimer := ⟨q1.1, q2.1, cb.1⟩
        discMark := ⟨q1.2, q2.2, cb.2⟩
        cond := some (makeConditions k new) }
    discrepancyOp c .cb (discrepancyOp c .q2 (discrepancyOp c .q1 s))
  | _, _ => s

/-- The epoch replica (R26): the derived states as they stand. -/
def epochReplica (s : State) : Replica := s.ciu.derived.getD ⟨.opened, .opened, .opened⟩

end Sys2Proof.Machine
end

