-- ==== Sys2Proof/Machine/Align.lean ====
section
/-! DEFINITION. The Alignment Unit: the computing instant, the bracketing slots and the aligned result of a bay (05). -/

namespace Sys2Proof.Machine

open Sys2Proof

/-- The computing instant of an epoch whose LT is t (R84). -/
def computingInstant (c : Settings) (t : Ticks) : Ticks := t - BitVec.ofNat 32 (c.delay * epochTicks)

/-- An aligned result (R85). -/
structure Aligned where
  outcome : AlignOutcome
  cur : PerPhase Int
  ok : PerPhase Bool
  replica : Option Replica
  declared : Option RunState
  deriving DecidableEq, Repr

/-- Instant t is at or before τ (R86). -/
def atOrBefore (t tau : Ticks) : Bool := decide (since tau t ≥ 0)

/-- Slot 1, the newest slot at or before τ, and slot 2, the slot that follows it if there is one (R87). -/
def bracket (tau : Ticks) : List Slot → Option (Slot × Option Slot)
  | [] => none
  | x :: rest =>
    match bracket tau rest with
    | some r => some r
    | none => if atOrBefore x.instant tau then some (x, rest.head?) else none

/-- The gap limit (R91). -/
def gapLimit : Int := 25000

/-- The interpolated value of a phase (R92). -/
def interpolate (v1 v2 : Int) (t1 t2 tau : Ticks) : Int := v1 + roundDiv ((v2 - v1) * since tau t1) (since t2 t1).toNat

/-- A phase is VALID in a slot. -/
def Slot.isValid (x : Slot) (ph : Phase) : Bool := decide (x.val.get ph = .valid)

/-- The result of a bay all of whose phases are NOT VALID (R88, R90, R91). -/
def notValid (o : AlignOutcome) (x : Option Slot) : Aligned :=
  ⟨o, ⟨0, 0, 0⟩, ⟨false, false, false⟩, x.map Slot.replica, x.map Slot.declared⟩

/-- The EXACT result (R89). -/
def exactResult (x : Slot) : Aligned :=
  ⟨.exact, PerPhase.of fun ph => if x.isValid ph then x.cur.get ph else 0, PerPhase.of x.isValid, some x.replica,
    some x.declared⟩

/-- The INTERPOLATED result (R92, R93). -/
def interpolatedResult (x y : Slot) (tau : Ticks) : Aligned :=
  ⟨.interpolated,
    PerPhase.of fun ph =>
      if x.isValid ph && y.isValid ph then interpolate (x.cur.get ph) (y.cur.get ph) x.instant y.instant tau else 0,
    PerPhase.of fun ph => x.isValid ph && y.isValid ph, some x.replica, some x.declared⟩

/-- The aligned result of a bay's history at τ (R87). -/
def alignHistory (tau : Ticks) (h : List Slot) : Aligned :=
  match bracket tau h with
  | none => notValid .tooOld none
  | some (x, y?) =>
    if x.instant = tau then exactResult x
    else
      match y? with
      | none => notValid .late (some x)
      | some y => if since y.instant x.instant > gapLimit then notValid .gap (some x) else interpolatedResult x y tau

end Sys2Proof.Machine
end

