-- ==== Sys2Proof/Machine/Differential.lean ====
section
/-! DEFINITION. The measurement of a zone phase: the characteristic, the onset classes, the operate counter and the verdict
(07). -/

namespace Sys2Proof.Machine

open Sys2Proof

/-- The minimum operating current and slope of a characteristic: those of the zones (R123) or of the check zone (R124). -/
structure Characteristic where
  iMin : Nat
  k : Nat
  deriving DecidableEq, Repr

/-- The characteristic of the section zones (R123). -/
def Settings.zoneChar (c : Settings) : Characteristic := ⟨c.iMin, c.k⟩
/-- The characteristic of the check zone (R124). -/
def Settings.checkChar (c : Settings) : Characteristic := ⟨c.iChkMin, c.kChk⟩

/-- An operate sample (R123, R124). -/
def isOp (h : Characteristic) (id ir : Nat) : Bool := decide (h.iMin ≤ id) && decide (h.k * ir ≤ 64 * id)

/-- The evolve condition (R132). -/
def evolves (id ir : Nat) : Bool := decide (58 * ir ≤ 64 * id)

/-- The quiet return (R134): a quiet run of 80 takes a phase that is not QUIET to QUIET, keeping its counter. -/
def quietReturnZ (z : ZoneState) : ZoneState :=
  if z.cls ≠ .quiet ∧ z.quietRun ≥ 80 then { z with cls := .quiet, onset := none, stab := 0, quietRun := 0, evolve := 0 } else z

/-- The end of the onset window (R129): the onset index has reached W without OP. -/
def windowEndZ (c : Settings) (op : Bool) (z : ZoneState) : ZoneState :=
  if z.cls = .onset ∧ !op ∧ z.onset.getD 0 ≥ c.window then { z with cls := .through, onset := none } else z

/-- The evolve release (R132): an evolve run of N_op releases EXTERNAL to INTERNAL. -/
def evolveReleaseZ (c : Settings) (z : ZoneState) : ZoneState :=
  if z.cls = .external ∧ z.evolve ≥ c.nOp then { z with cls := .internal, stab := 0, evolve := 0 } else z

/-- The stabilisation timer's expiry (R133): EXTERNAL returns to THROUGH. -/
def stabExpiryZ (z : ZoneState) : ZoneState :=
  if z.cls = .external ∧ z.stab = 0 then { z with cls := .through, evolve := 0 } else z

/-- Stage 2 of R126: the quiet run and the quiet return (R134). -/
def stage2 (c : Settings) (ir : Nat) (z : ZoneState) : ZoneState :=
  if z.cls = .quiet then { z with quietRun := 0 }
  else quietReturnZ { z with quietRun := if ir < c.iOnset / 2 then upTo 80 z.quietRun else 0 }

/-- The tests of R129 on a phase in ONSET, its index already advanced. -/
def onsetTests (c : Settings) (op : Bool) (z : ZoneState) : ZoneState :=
  if op then { z with cls := .internal, onset := none } else windowEndZ c op z

/-- Stage 3 of R126: the class (R128 to R133). -/
def stage3 (c : Settings) (op : Bool) (id ir : Nat) (z : ZoneState) : ZoneState :=
  match z.cls with
  | .quiet => if c.iOnset ≤ ir then onsetTests c op { z with cls := .onset, onset := some 1 } else z
  | .onset => onsetTests c op { z with onset := z.onset.map (· + 1) }
  | .internal => z
  | .through =>
    if op then { z with cls := .external, stab := c.tStab, evolve := if evolves id ir then 1 else 0 } else z
  | .external =>
    let z := evolveReleaseZ c { z with evolve := if evolves id ir then z.evolve + 1 else 0 }
    if z.cls = .external then stabExpiryZ { z with stab := z.stab - 1 } else z

/-- Stage 4 of R126: the operate counter (R127). A phase can be THROUGH with OP here only at the instant its stabilisation timer
expires. R127's table would advance its counter to 1 there; R131, R133 and the saturation example of 7.7 keep a counter in THROUGH
at 0, and the model takes these (log 28, DESIGN CHOICE). -/
def stage4 (op : Bool) (z : ZoneState) : ZoneState :=
  { z with
    counter :=
      if z.cls = .external then 0
      else if !op then z.counter - 1
      else if z.cls = .through then 0
      else upTo 31 z.counter }

/-- The stages of R126 on a phase that is not blocked. -/
def zoneStep (c : Settings) (h : Characteristic) (id ir : Nat) (z : ZoneState) : ZoneState :=
  stage4 (isOp h id ir) (stage3 c (isOp h id ir) id ir (stage2 c ir z))

/-- A class may operate (R135). -/
def mayOperate : ZoneClass → Bool
  | .quiet => true
  | .onset => true
  | .internal => true
  | .through => false
  | .external => false

/-- The verdict of a zone phase after stage 4 (R135, R136). -/
def operates (c : Settings) (blocked : Bool) (z : ZoneState) : Bool :=
  !blocked && decide (c.nOp ≤ z.counter) && mayOperate z.cls

/-- Set back by blocking (R114): the blocked run is kept. -/
def blockSetBack (z : ZoneState) : ZoneState := { ZoneState.setBack with blockedRun := z.blockedRun }

/-- The blocked run of a phase at an instant (R115). -/
def countBlocked (service blocked : Bool) (z : ZoneState) : ZoneState :=
  { z with blockedRun := if blocked && service then upTo 400 z.blockedRun else 0 }

end Sys2Proof.Machine
end

