-- ==== Sys2Proof/Machine/Zones.lean ====
section
/-! DEFINITION. The Zone Engine: standings, end-zone timers, feeder links and zones, members and signs, blocking, the
evaluation of one computing instant and the last topology (06). -/

namespace Sys2Proof.Machine

open Sys2Proof

/-! ## Standings (R100 to R102) -/

/-- An installed bay as the ZE sees it at one instant: its declaration (none when UNDECLARED), standing and aligned result. -/
structure BayView where
  bay : Bay
  decl : Option Decl
  standing : Standing
  al : Aligned
  deriving DecidableEq, Repr

/-- The declaration the ZE uses (R100): none when the entry holds none or is in CONFLICT. -/
def usedDecl (e : PeerEntry) : Option Decl := if e.presence = .conflict then none else e.decl

/-- A declared state that leaves a bay USABLE (R102). -/
def usableState : Option RunState → Bool
  | some .listen => true
  | some .service => true
  | some .test => true
  | some .isolated => false
  | some .blocked => false
  | none => false

/-- The standing of an installed bay (R100 to R102). -/
def standingOf (e : PeerEntry) (a : Aligned) : Standing :=
  if usedDecl e = none then .undeclared
  else if a.declared = some .isolated ∨ (a.outcome = .tooOld ∧ e.declared = some .isolated) then .isolated
  else if e.presence = .live ∧ usableState a.declared ∧ (a.outcome = .exact ∨ a.outcome = .interpolated) then .usable
  else .unusable

/-- One installed bay at τ. -/
def viewBay (tau : Ticks) (b : Bay) (e : PeerEntry) : BayView :=
  let a := alignHistory tau e.history
  ⟨b, usedDecl e, standingOf e a, a⟩

/-- The installed bays at τ, in the order of their numbers (R85, R99 stage 1). -/
def viewBays (c : Settings) (tau : Ticks) (t : Peers) : List BayView :=
  (allBays.filter c.hasBay).map fun b => viewBay tau b (t.entry b)

/-- A bay placed in the switchyard: USABLE or UNUSABLE with an aligned replica; its declaration and replica. -/
def BayView.placed (v : BayView) : Option (Decl × Replica) :=
  match v.standing, v.decl, v.al.replica with
  | .usable, some d, some r => some (d, r)
  | .unusable, some d, some r => some (d, r)
  | _, _, _ => none

/-! ## End-zone timers (R107) -/

/-- A view is of a bay declared TIE. -/
def BayView.isTie (v : BayView) : Bool := decide (v.decl.map Decl.kind = some .tie)

/-- The end-zone timer of a tie after an instant (R107). -/
def nextEndZone (c : Settings) (v : BayView) (old : Nat) : Nat :=
  if v.isTie ∧ v.al.replica.map Replica.breaker = some .opened then upTo c.endZone old else 0

/-- The end-zone timers after an instant: 0 for every bay that is not an installed bay declared TIE. -/
def nextEndZones (c : Settings) (views : List BayView) (old : List Nat) : List Nat :=
  allBays.map fun b =>
    match views.find? fun v => decide (v.bay = b) with
    | some v => nextEndZone c v (old.getD b.val 0)
    | none => 0

/-! ## Zones (R103, R104) -/

/-- A link between two sections. -/
abbrev FeederLink := Sect × Sect

/-- The feeder link of a bay (R103). -/
def feederLink (v : BayView) : Option FeederLink :=
  match v.placed with
  | some (⟨.feeder, some x, some y⟩, r) => if r.iso1.countedClosed && r.iso2.countedClosed then some (x, y) else none
  | _ => none

/-- Add to a set every present section that a link joins to a section of the set. -/
def growOnce (present : SectSet) (links : List FeederLink) (z : SectSet) : SectSet :=
  PerSect.of fun x =>
    z.get x || (present.get x && links.any fun l => (decide (l.1 = x) && z.get l.2) || (decide (l.2 = x) && z.get l.1))

/-- The zone of a present section: the present sections that a chain of links joins to it (R104). A chain over four sections
has at most three links. -/
def zoneOf (present : SectSet) (links : List FeederLink) (x : Sect) : SectSet :=
  growOnce present links (growOnce present links (growOnce present links (SectSet.single x)))

/-- The lowest section of a set: a zone's name (R104). -/
def lowest (z : SectSet) : Option Sect := allSects.find? z.get

/-- The zone sets of the present sections, each once, in the order of their names (R104). -/
def zoneSets (present : SectSet) (links : List FeederLink) : List (Sect × SectSet) :=
  allSects.filterMap fun x =>
    if present.get x ∧ lowest (zoneOf present links x) = some x then some (x, zoneOf present links x) else none

/-! ## Members (R105, R106, R109) and the zones holding a bay (R108) -/

/-- A side lies in a zone. -/
def sideIn (z : SectSet) : Option Sect → Bool
  | some x => z.get x
  | none => false

/-- A placed bay's entries in a zone, with signs: a feeder once, a tie not at all when both its sides lie in the zone or its
end-zone timer stands at the delay (R105, R106). -/
def memberSigns (c : Settings) (z : SectSet) (timer : Nat) (d : Decl) (r : Replica) : List Int :=
  match d.kind with
  | .feeder =>
    if (sideIn z d.side1 && r.iso1.countedClosed) || (sideIn z d.side2 && r.iso2.countedClosed) then [1] else []
  | .tie =>
    if (sideIn z d.side1 && sideIn z d.side2) || timer == c.endZone then []
    else if sideIn z d.side1 && r.iso1.countedClosed then [-1]
    else if sideIn z d.side2 && r.iso2.countedClosed then [1]
    else []

/-- The members of a zone (R105, R106), by bay number; the rules give no order (log 11, DESIGN CHOICE). -/
def membersOf (c : Settings) (timers : List Nat) (views : List BayView) (z : SectSet) : List Member :=
  views.flatMap fun v =>
    match v.placed with
    | some (d, r) => (memberSigns c z (timers.getD v.bay.val 0) d r).map fun sgn => ⟨v.bay, sgn⟩
    | none => []

/-- The members of the check zone (R109), by bay number; the rules give no order (log 11, DESIGN CHOICE). -/
def checkMembers (views : List BayView) : List Member :=
  views.filterMap fun v =>
    match v.standing, v.decl with
    | .usable, some d => if d.kind = .feeder then some ⟨v.bay, 1⟩ else none
    | .unusable, some d => if d.kind = .feeder then some ⟨v.bay, 1⟩ else none
    | _, _ => none

/-- The zones holding a bay (R108), by name: through isolator 1 the zone of side 1, through isolator 2 the zone of side 2. -/
def zonesHolding (zones : List (Sect × SectSet)) (v : BayView) : List Sect :=
  match v.placed with
  | some (d, r) =>
    (zones.filter fun z =>
      (sideIn z.2 d.side1 && r.iso1.countedClosed) || (sideIn z.2 d.side2 && r.iso2.countedClosed)).map Prod.fst
  | none => []

/-! ## Blocking (R111 to R113) -/

/-- A member's aligned phase is NOT VALID (R113). -/
def memberNotValid (views : List BayView) (ph : Phase) (m : Member) : Bool :=
  views.any fun v => decide (v.bay = m.bay) && !(v.al.ok.get ph)

/-- Some installed bay is UNDECLARED (R111). -/
def anyUndeclared (views : List BayView) : Bool := views.any fun v => decide (v.standing = .undeclared)

/-- A zone phase is blocked (R111 to R113). -/
def zoneBlockedAt (views : List BayView) (members : List Member) (z : SectSet) (ph : Phase) : Bool :=
  anyUndeclared views
    || (views.any fun v => decide (v.standing = .unusable) &&
          match v.decl with
          | some d => sideIn z d.side1 || sideIn z d.side2
          | none => false)
    || members.any (memberNotValid views ph)

/-- A check-zone phase is blocked (R111 to R113). -/
def checkBlockedAt (views : List BayView) (members : List Member) (ph : Phase) : Bool :=
  anyUndeclared views
    || (views.any fun v => decide (v.standing = .unusable) && decide (v.decl.map Decl.kind = some .feeder))
    || members.any (memberNotValid views ph)

/-! ## Sums (R120, R121) -/

/-- The aligned current of a bay in a phase, that of an UNUSABLE bay too (log 26, DEDUCED). -/
def alignedCurrent (views : List BayView) (ph : Phase) (b : Bay) : Int :=
  match views.find? fun v => decide (v.bay = b) with
  | some v => v.al.cur.get ph
  | none => 0

/-- The differential (R120): the magnitude of the sum of the signed currents. -/
def differential (views : List BayView) (ph : Phase) (members : List Member) : Nat :=
  ((members.map fun m => m.sign * alignedCurrent views ph m.bay).sum).natAbs

/-- The restraint (R120): the sum of the magnitudes. -/
def restraint (views : List BayView) (ph : Phase) (members : List Member) : Nat :=
  (members.map fun m => (alignedCurrent views ph m.bay).natAbs).sum

/-! ## The evaluation (R99) -/

/-- A zone as found at an instant: name, sections, members. -/
structure FoundZone where
  name : Sect
  sections : SectSet
  members : List Member
  deriving DecidableEq, Repr

/-- The zone of a section in the last topology. -/
def lastZone (t : Option Topology) (x : Sect) : Option SectSet :=
  match t with
  | some t => (t.zones.find? fun z => z.sections.get x).map ZoneTopo.sections
  | none => none

/-- A section's state is set back when its zone has changed as a set (R110). With no last topology nothing is compared. -/
def componentChange (t : Option Topology) (x : Sect) (now : SectSet) (p : PerPhase ZoneState) : PerPhase ZoneState :=
  match lastZone t x with
  | some before => if before = now then p else ⟨.setBack, .setBack, .setBack⟩
  | none => p

/-- One phase of one section in one evaluation, by its zone: blocking set-back (R114), blocked run (R115), and the stages of
R126 from the state `common` that the zone's sections hold. -/
def sectionPhase (c : Settings) (service blocked : Bool) (id ir : Nat) (common own : ZoneState) : ZoneState :=
  if blocked then countBlocked service true (blockSetBack own)
  else { zoneStep c c.zoneChar id ir common with blockedRun := 0 }

/-- One phase of the check zone in one evaluation. -/
def checkPhase (c : Settings) (service blocked : Bool) (id ir : Nat) (z : ZoneState) : ZoneState :=
  if blocked then countBlocked service true (blockSetBack z)
  else { zoneStep c c.checkChar id ir z with blockedRun := 0 }

/-- What one evaluation finds before Section 7: views, timers, zones with members and the check zone's members. -/
structure Found where
  views : List BayView
  timers : List Nat
  zones : List FoundZone
  chk : List Member
  deriving DecidableEq, Repr

/-- Stages 1, 2, 3 and 5 of R99. -/
def findTopology (c : Settings) (tau : Ticks) (t : Peers) (oldTimers : List Nat) : Found :=
  let views := viewBays c tau t
  let timers := nextEndZones c views oldTimers
  let sets := zoneSets c.present (views.filterMap feederLink)
  { views := views, timers := timers, zones := sets.map fun z => ⟨z.1, z.2, membersOf c timers views z.2⟩,
    chk := checkMembers views }

/-- The zone that holds a section at this instant. -/
def Found.zoneWith (f : Found) (x : Sect) : Option FoundZone := f.zones.find? fun z => z.sections.get x

/-- Stage 4 of R99: the section states after the component changes. -/
def afterChange (f : Found) (ze : ZoneEngine) : PerSect (PerPhase ZoneState) :=
  PerSect.of fun x =>
    match f.zoneWith x with
    | some z => componentChange ze.topo x z.sections (ze.sects.get x)
    | none => ze.sects.get x

/-- Stages 6 to 8 of R99 for the sections: a section of no zone keeps its state. -/
def evaluatedSects (c : Settings) (service : Bool) (f : Found) (p : PerSect (PerPhase ZoneState)) :
    PerSect (PerPhase ZoneState) :=
  PerSect.of fun x =>
    match f.zoneWith x with
    | some z =>
      PerPhase.of fun ph =>
        sectionPhase c service (zoneBlockedAt f.views z.members z.sections ph) (differential f.views ph z.members)
          (restraint f.views ph z.members) ((p.get z.name).get ph) ((p.get x).get ph)
    | none => p.get x

/-- Stages 6 to 8 of R99 for the check zone. -/
def evaluatedCheck (c : Settings) (service : Bool) (f : Found) (p : PerPhase ZoneState) : PerPhase ZoneState :=
  PerPhase.of fun ph =>
    checkPhase c service (checkBlockedAt f.views f.chk ph) (differential f.views ph f.chk) (restraint f.views ph f.chk) (p.get ph)

/-- The results of a zone that R116 records. -/
def zoneTopo (c : Settings) (f : Found) (p : PerSect (PerPhase ZoneState)) (z : FoundZone) : ZoneTopo :=
  { name := z.name, sections := z.sections, members := z.members,
    phases := PerPhase.of fun ph =>
      let b := zoneBlockedAt f.views z.members z.sections ph
      ⟨b, differential f.views ph z.members, restraint f.views ph z.members, operates c b ((p.get z.name).get ph)⟩ }

/-- The results of the check zone that R116 records. -/
def checkTopo (c : Settings) (f : Found) (p : PerPhase ZoneState) : PerPhase PhaseResult :=
  PerPhase.of fun ph =>
    let b := checkBlockedAt f.views f.chk ph
    ⟨b, differential f.views ph f.chk, restraint f.views ph f.chk, operates c b (p.get ph)⟩

/-- The zones holding the own bay, by name (R108, R116). -/
def ownZonesOf (c : Settings) (f : Found) : List Sect :=
  match f.views.find? fun v => decide (v.bay = c.bay) with
  | some v => zonesHolding (f.zones.map fun z => (z.name, z.sections)) v
  | none => []

/-- The sections of the zones of some names. -/
def sectionsOf (zones : List FoundZone) (names : List Sect) : SectSet :=
  (zones.filter fun z => names.contains z.name).foldl (fun a z => SectSet.union a z.sections) noSects

/-- The last topology after an evaluation (R116). -/
def makeTopology (c : Settings) (k : EpochNo) (tau : Ticks) (f : Found) (p : PerSect (PerPhase ZoneState))
    (q : PerPhase ZoneState) : Topology :=
  { epoch := k, tau := tau,
    bays := f.views.map fun v =>
      ⟨v.bay, v.standing, v.al.outcome, zonesHolding (f.zones.map fun z => (z.name, z.sections)) v,
        if v.isTie then some (f.timers.getD v.bay.val 0) else none⟩,
    zones := f.zones.map (zoneTopo c f p), chkMembers := f.chk, chk := checkTopo c f q, ownZones := ownZonesOf c f,
    ownSections := sectionsOf f.zones (ownZonesOf c f) }

/-- The Zone Engine after the evaluation of τ_k (R99), the station state at epoch k being SERVICE or not. -/
def evaluateZones (c : Settings) (k : EpochNo) (tau : Ticks) (service : Bool) (t : Peers) (ze : ZoneEngine) : ZoneEngine :=
  let f := findTopology c tau t ze.endZone
  let p := evaluatedSects c service f (afterChange f ze)
  let q := evaluatedCheck c service f ze.check
  { ze with sects := p, check := q, endZone := f.timers, topo := some (makeTopology c k tau f p q) }

/-! ## ZONE BLOCKED (R115) -/

/-- The name under which a section's zone phase appears: its zone's name in the last topology. -/
def zoneNameOf (ze : ZoneEngine) (x : Sect) : Sect :=
  match ze.topo with
  | some t =>
    match t.zones.find? fun z => z.sections.get x with
    | some z => z.name
    | none => x
  | none => x

/-- The zone phases whose blocked run stands at 400, by their zones' names. -/
def standing400 (ze : ZoneEngine) : List (ZoneRef × Phase) :=
  (allSects.flatMap fun x =>
      (allPhases.filter fun ph => ((ze.sects.get x).get ph).blockedRun == 400).map fun ph => (ZoneRef.zone (zoneNameOf ze x), ph))
    ++ (allPhases.filter fun ph => (ze.check.get ph).blockedRun == 400).map fun ph => (ZoneRef.check, ph)

/-- Add a zone phase to a detail that does not hold it yet. R115 gives a set: the order of joining is the model's (log 11, DESIGN
CHOICE). -/
def addDetail (x : ZoneRef × Phase) (d : List (ZoneRef × Phase)) : List (ZoneRef × Phase) :=
  if d.contains x then d else d ++ [x]

/-- A zone phase's blocked run stands at 400: the flag is set and the zone phase joins the detail (R115). -/
def zoneBlockedOp (z : ZoneRef) (ph : Phase) (s : State) : State :=
  if (standing400 s.ze).contains (z, ph) then
    raise .zoneBlocked (s.updZe fun e => { e with blockedDetail := addDetail (z, ph) e.blockedDetail })
  else s

/-- Every zone phase whose blocked run stands at 400 after an evaluation (R115). -/
def zoneBlockedAll (s : State) : State := (standing400 s.ze).foldl (fun s x => zoneBlockedOp x.1 x.2 s) s

/-! ## Rows that name one class change -/

/-- The sections whose zone in the last topology holds section x, or x alone when there is none. -/
def zoneMates (ze : ZoneEngine) (x : Sect) : SectSet :=
  match lastZone ze.topo x with
  | some z => z
  | none => SectSet.single x

/-- Change the state of a zone phase in every section of its zone, or of a check-zone phase (R125). -/
def updZonePhase (z : ZoneRef) (ph : Phase) (f : ZoneState → ZoneState) (ze : ZoneEngine) : ZoneEngine :=
  match z with
  | .check => { ze with check := ze.check.upd f ph }
  | .zone x =>
    { ze with sects := PerSect.of fun y =>
        if (zoneMates ze x).get y then (ze.sects.get y).upd f ph else ze.sects.get y }

/-- The last operate sample of a zone phase, from the sums of the last topology; none without a topology or a zone. -/
def lastOp (c : Settings) (z : ZoneRef) (ph : Phase) (ze : ZoneEngine) : Option Bool :=
  match ze.topo with
  | none => none
  | some t =>
    match z with
    | .check => some (isOp c.checkChar (t.chk.get ph).id (t.chk.get ph).ir)
    | .zone x => (t.zones.find? fun y => y.sections.get x).map fun y =>
        isOp c.zoneChar (y.phases.get ph).id (y.phases.get ph).ir

/-- A tie whose end-zone timer stands at the delay is a member of no zone (R106, R107). -/
def endZoneOp (c : Settings) (b : Bay) (s : State) : State :=
  if s.ze.endZone.getD b.val 0 = c.endZone then
    s.updZe fun e =>
      { e with topo := e.topo.map fun t =>
          { t with zones := t.zones.map fun z => { z with members := z.members.filter fun m => decide (m.bay ≠ b) } } }
  else s

/-- The Zone Engine at a start of epochs (R118). -/
def zoneRestart (ze : ZoneEngine) : ZoneEngine := { ZoneEngine.reset with blockedDetail := ze.blockedDetail }

end Sys2Proof.Machine
end

