-- ==== Sys2Proof/Machine/Station.lean ====
section
/-! DEFINITION. The own sample event, the choice of the station state, the epoch, the start and stop of epochs, the reference
monitor and the resets (01 R15, 09). -/

namespace Sys2Proof.Machine

open Sys2Proof

/-! ## The own sample event (R4, R15, R85, R99, R151) -/

/-- The evaluation of τ_k: alignment, zones, verdicts and the Trip Unit's action (R84, R85, R99). -/
def evaluateInstant (c : Settings) (f : Flight) (s : State) : State :=
  let tau := computingInstant c f.instant
  let s := s.updAu fun _ => { latest := some ⟨f.epoch, tau⟩ }
  let s := s.updZe (evaluateZones c f.epoch tau (decide (f.declared = .service)) s.pt)
  tripEvaluation c f.epoch (zoneBlockedAll s)

/-- The own sample event of the epoch under conversion: the record, the own entry, the own frames, the evaluation. -/
def ownSampleEvent (c : Settings) (s : State) : State :=
  match s.su.flight with
  | none => s
  | some f =>
    let x := makeRecord c f s.su.chans
    let s := feedOwn c x f.declared (takeRecordSu x s)
    let o : OwnFrame := ⟨makeOwnFrame c x f.declared (offeredSet f.declared s), f.instant⟩
    evaluateInstant c f (placeOwn o s)

/-- The late finalisation at the next epoch (R5): only while a channel is still CONVERTING. -/
def lateEvent (c : Settings) (s : State) : State := if anyConverting s.su.chans then ownSampleEvent c s else s

/-! ## The choice at each epoch (R161, R166 to R170) -/

/-- The qualification condition (R166). -/
def qualifies (c : Settings) (s : State) : Bool :=
  (allBays.all fun b =>
      !c.hasBay b || decide ((s.entry b).presence = .live) || decide ((s.entry b).declared = some .isolated))
    && (decide (s.ri.east.link = .up) || decide (s.ri.west.link = .up))

/-- The counter at 400 qualifies the station (R166). -/
def qualifiedOp (s : State) : State := if s.sc.qualCount ≥ 400 then s.updSc fun u => { u with qualified := true } else s

/-- The qualification at an epoch, before the choice (R166): held at 0 while the station is BLOCKED. -/
def testQualification (c : Settings) (s : State) : State :=
  if s.sc.station = .running .blocked then s.updSc fun u => { u with qualCount := 0 }
  else qualifiedOp (s.updSc fun u => { u with qualCount := if qualifies c s then upTo 400 u.qualCount else 0 })

/-- The BLOCKED causes of the choice (R161 case 1). -/
def blockedCauses (s : State) : Causes := ⟨s.su.convFail, decide (s.sc.dupQuiet < 4000), false⟩

/-- The state chosen at an epoch (R161). -/
def chosenState (s : State) : RunState :=
  if (blockedCauses s).converter || (blockedCauses s).duplicate then .blocked
  else
    match s.ciu.cond with
    | some d =>
      if d.oos && d.allOpen then .isolated
      else if d.tst || s.sc.maintTest then .test
      else if s.sc.qualified then .service
      else .listen
    | none => if s.sc.maintTest then .test else if s.sc.qualified then .service else .listen

/-- The listen timer at 40,000 sets LISTEN TIMEOUT (R167). -/
def listenTimeoutOp (s : State) : State := raiseIf (s.sc.listen == 40000) .listenTimeout s

/-- The chosen state taken (R161, R166, R167). -/
def enterState (r : RunState) (s : State) : State :=
  s.updSc fun u =>
    { u with
      station := .running r
      causes := if r = .blocked then blockedCauses s else noCauses
      qualified := if r = .blocked then false else u.qualified
      qualCount := if r = .blocked then 0 else u.qualCount
      listen := if r = .listen then upTo 40000 u.listen else 0
      stateChanges := if u.station = .running r then u.stateChanges else bump u.stateChanges }

/-- What the Trip Unit does at the choice of r (R150, R152). -/
def tripAtChoice (r : RunState) (s : State) : State :=
  let s := stateRelease r s
  if r = .blocked then abandonPulse s else s

/-- ISOLATION BREACH (R168): OOS active without isolators all open. -/
def breach (s : State) : State := raiseIf (alarmCause s .isolationBreach) .isolationBreach s

/-- The Station Controller at an epoch (R161). -/
def choiceStage (c : Settings) (s : State) : State :=
  let s := testQualification c (s.updSc fun u => { u with dupQuiet := upTo 4000 u.dupQuiet })
  let r := chosenState s
  tripAtChoice r (breach (listenTimeoutOp (enterState r s)))

/-- The state chosen at the latest epoch; BLOCKED outside the states of a running station. -/
def chosenAt (s : State) : RunState :=
  match s.sc.station with
  | .running r => r
  | _ => .blocked

/-! ## The epoch (R1, R3, R5, R20) -/

/-- All six conversions start, and the SU takes the epoch's replica and station state with them (R3, R14, R26). -/
def startConversions (s : State) : State :=
  s.updSu fun u =>
    { u with chans := startedChans, flight := some ⟨u.epoch, u.lt, epochReplica s, chosenAt s⟩ }

/-- The clock reaches the next epoch (R1): LT advances by the ticks that were left. The inputs are presented (log 3, DESIGN CHOICE). -/
def clockEpoch (k : Contacts) (tcs : Bool) (s : State) : State :=
  ((s.updSu fun u =>
      { u with lt := u.lt + BitVec.ofNat 32 (epochTicks - u.phase), phase := 0, epoch := u.epoch + 1 }).updPins fun p =>
    { p with contacts := k, tcs := tcs }).updTu fun u => { u with pulseNew := false }

/-- Do a stage when its place has come. -/
def stageIf (b : Bool) (f : State → State) (s : State) : State := if b then f s else s

/-- The parts of the next epoch. What the rules leave open in their order is `o`. Where a late own
sample event and the freshness advance of R72 fall on the same side of the choice, R5, R72 and R76 give them no order: the late event
comes first, as it does before the ring's counts, and the peer table's counts come before the ring's (log 4, DESIGN CHOICE). The rules
give a release of R150 and the supervision of R152 at one epoch no order either: the choice, with its release, always comes before the
supervision count. So the pulse of the release starts, the count is 0, and no SUPERVISION SKIP is counted for a pulse that would have
fallen due there; and the count and the pulse go by the state chosen at that epoch (logs 4 and 16, DESIGN CHOICE). -/
def epochParts (c : Settings) (k : Contacts) (tcs : Bool) (o : EpochOrder) (s : State) : State :=
  let s := clockEpoch k tcs s
  let s := contactEpoch c k s.su.epoch s
  let s := stageIf (decide (o.late = .beforeChoice)) (lateEvent c) s
  let s := stageIf o.peersFirst (peerEpoch c) s
  let s := stageIf o.linksFirst ringEpoch s
  let s := choiceStage c s
  let s := stageIf (decide (o.late = .afterChoice)) (lateEvent c) s
  let s := supervisionEpoch (chosenAt s) s
  let s := stageIf (decide (o.late = .afterSupervision)) (lateEvent c) s
  let s := stageIf (!o.peersFirst) (peerEpoch c) s
  let s := stageIf (!o.linksFirst) ringEpoch s
  startConversions s

/-- The next epoch fires, after the arbiters' choice at the tick that is left (R53). A late own frame and an echo request that falls
due arrive together, and together with what the next commands bring at the epoch's tick. -/
def epochEvent (c : Settings) (k : Contacts) (tcs : Bool) (o : EpochOrder) (s : State) : State :=
  epochParts c k tcs o (arbitrateBoth c s)

/-! ## Start and stop of epochs (R1, R2, R171) -/

/-- The SU at a start of epochs (R1, R2, R16). -/
def samplingStart (u : Sampling) : Sampling :=
  { u with
    gen := .running
    lt := 0
    phase := 0
    epoch := 0
    chans := Sampling.reset.chans
    flight := none
    disRun := ⟨0, 0, 0⟩
    clearRun := 0
    peak := [] }

/-- Epochs start (R1) and epoch 0 fires: the contacts are accepted (R21), the peer table, the zones and the supervision count
are set back (R82, R118, R160), the ports with a receive signal probe (R34), the state of epoch 0 is chosen (R161). -/
def startEpochs (c : Settings) (k : Contacts) (s : State) : State :=
  let s := (s.updSu samplingStart).updPins fun p => { p with contacts := k }
  let s := (peerRestart c (initialAcceptance c k s)).updZe zoneRestart
  let s := s.updAu fun _ => { latest := none }
  let s := s.updTu fun u => { u with supCount := 0, pulseNew := false }
  let s := s.updSc fun u => { u with qualified := false, qualCount := 0 }
  let s := ringStart (quietEpoch (peerEpoch c s))
  startConversions (choiceStage c s)

/-- The epoch generator stops (R2); the current own record stays (log 24, DEDUCED). -/
def samplingStop (u : Sampling) : Sampling :=
  { u with gen := .stopped, chans := Sampling.reset.chans, flight := none }

/-! ## Resets (R173 and each section's rule) -/

/-- The kinds of reset (R173). -/
inductive ResetKind | powerOn | supply | pin | command
  deriving DecidableEq, Repr

/-- The reset cause flags after a reset (R173). -/
def nextCauses (k : ResetKind) (f : ResetCauses) : ResetCauses :=
  match k with
  | .powerOn => ⟨true, false, false, false⟩
  | .supply => { f with supply := true }
  | .pin => { f with pin := true }
  | .command => { f with command := true }

/-- The kind keeps the trip record, the latch and the record number (R158, R160). -/
def ResetKind.keepsRecord : ResetKind → Bool
  | .powerOn => false
  | .supply => false
  | .pin => true
  | .command => true

/-- The kind is a fall of the supply, which then lies below the warning level (R172; log 8, DEDUCED). -/
def ResetKind.isSupply : ResetKind → Bool
  | .powerOn => true
  | .supply => true
  | .pin => false
  | .command => false

/-- The Trip Unit after a reset (R160). -/
def tripReset (k : ResetKind) (s : State) : TripUnit :=
  if k.keepsRecord then .reset (closeRecord .reset s.su.epoch s.tu).held s.tu.recNumber else .reset none 0

/-- The Configuration Store after a reset (R180): a commit that is BUSY is cut, and the block's bytes are free values. -/
def storeReset (s : State) : Store :=
  if s.cs.commit = .busy then
    .reset ((List.range 64).map fun i => Config.cutByte (s.free + i)) true
  else .reset s.cs.block s.cs.cut

/-- A reset is taken (R18, R33, R62, R83, R97, R119, R160, R173, R174, R180, R187). -/
def takeReset (k : ResetKind) (s : State) : State :=
  let low := k.isSupply || s.sc.supplyLow
  raiseIf low .supply
    { s with
      su := .reset
      ciu := .reset
      ri := .reset s.ri.east.rx s.ri.west.rx
      pt := .reset
      au := .reset
      ze := .reset
      tu := tripReset k s
      sc := .reset low (nextCauses k s.sc.cause) (k.isSupply || s.sc.holdSupply) (decide (k = .pin) || s.sc.holdPin)
      cs := storeReset s
      mp := .reset
      free := if s.cs.commit = .busy then s.free + 64 else s.free }

/-! ## The reference monitor, START and CONFIG (R162 to R165, R171) -/

/-- START is left for CONFIG when the timer has run 64 ms and the monitor is CONFIRMED (R163). -/
def leaveStart (s : State) : State :=
  if s.sc.station = .start ∧ !s.held ∧ s.sc.powerUp = powerUpLimit ∧ s.sc.confirmed then
    s.updSc fun u => { u with station := .config, reference := true }
  else s

/-- The power-up timer has run 64 ms (R163). -/
def powerUpOp (s : State) : State :=
  if s.sc.station = .start ∧ !s.held then leaveStart (s.updSc fun u => { u with powerUp := powerUpLimit }) else s

/-- The confirmation wait reaches 1 s (R163). -/
def waitOp (s : State) : State :=
  if s.sc.station = .start ∧ !s.held ∧ s.sc.powerUp = powerUpLimit ∧ !s.sc.confirmed then
    raise .clock (s.updSc fun u => { u with wait := waitLimit })
  else s

/-- The nominal count of internal cycles in a cycle of the reference (R162). -/
def nominalCycle : Nat := 16

/-- The monitor CONFIRMED (R162): its run complete, and the count of the cycle that completed it held for the next to be compared
with. A command that gives no such count leaves the last measured one, or the nominal one (log 10, DESIGN CHOICE). -/
def confirmed (u : Controller) : Controller :=
  { u with goodRun := 1024, confirmed := true, lastCycle := some (u.lastCycle.getD nominalCycle) }

/-- The reference monitor becomes CONFIRMED (R162), and the state the station is in goes on (R163, R165, R171). -/
def confirmOp (k : Contacts) (s : State) : State :=
  if s.held || s.sc.confirmed then s
  else
    let s := s.updSc confirmed
    match s.sc.station with
    | .start => leaveStart s
    | .fault => s.updSc fun u => { u with reference := true }
    | .running _ =>
      let s := s.updSc fun u => { u with reference := true, causes := { u.causes with clock := false } }
      match s.cs.inUse with
      | some c => startEpochs c k s
      | none => s
    | .config => s

/-- A response being sent is cut off (R181); when it is the response to RESET, the reset is taken at that moment.
A reset that cuts it drops that one (log 13, DESIGN CHOICE). -/
def cutResponse (s : State) : State :=
  let s' := s.updMp fun m => { m with receiver := .idle, request := [], response := [] }
  if s.sc.resetPending then takeReset .command s' else s'

/-- The monitor after a bad cycle (R162). -/
def unconfirm (u : Controller) : Controller := { u with confirmed := false, goodRun := 0, lastCycle := none }

/-- A reference loss while epochs run (R171). -/
def lossRunning (s : State) : State :=
  let s := ringStop (tripStop s)
  let s := (s.updSu samplingStop).updAu fun _ => { latest := none }
  raise .clock (s.updSc fun u =>
    { u with
      station := .running .blocked
      causes := { u.causes with clock := true }
      reference := false
      qualified := false
      qualCount := 0
      listen := 0
      stateChanges := if u.station = .running .blocked then u.stateChanges else bump u.stateChanges })

/-- A confirmed reference shows a bad cycle or a missing edge (R162): the loss in the state the station is in. While the monitor
is UNCONFIRMED the good-cycle run is set back to 0 and nothing else changes (R171). -/
def referenceLossOp (s : State) : State :=
  if s.held then s
  else if !s.sc.confirmed then s.updSc unconfirm
  else
    let s := s.updSc unconfirm
    match s.sc.station with
    | .start => s
    | .config =>
      cutResponse (raise .clock (s.updSc fun u =>
        { u with station := .start, reference := false, powerUp := powerUpLimit, wait := 0 }))
    | .fault => cutResponse (raise .clock (s.updSc fun u => { u with reference := false }))
    | .running _ => cutResponse (lossRunning s)

/-- A measured cycle is good (R162): its count differs from the count before it by at most 4. -/
def cycleGood (before count : Nat) : Bool := decide (((before : Int) - (count : Int)).natAbs ≤ 4)

/-- A measured count whose edge came within 64 internal cycles; a greater count, and none, is a missing edge (R162). -/
def edgeInTime (count : Option Nat) : Option Nat := count.filter (· ≤ 64)

/-- A cycle of the reference is measured (R162). A good cycle that completes the run confirms. Only the first cycle after a reset or
a loss has no count before it, and a CONFIRMED monitor is past it. -/
def measureCycle (k : Contacts) (count : Option Nat) (s : State) : State :=
  if s.held then s
  else
    match edgeInTime count, s.sc.lastCycle with
    | some n, some m =>
      if cycleGood m n then
        if s.sc.confirmed then s.updSc fun u => { u with lastCycle := some n }
        else
          let s := s.updSc fun u => { u with goodRun := upTo 1024 u.goodRun, lastCycle := some n }
          if s.sc.goodRun = 1024 then confirmOp k s else s
      else if s.sc.confirmed then referenceLossOp s
      else s.updSc fun u => { u with goodRun := 0, lastCycle := some n }
    | some n, none =>
      if s.sc.confirmed then referenceLossOp s
      else s.updSc fun u => { u with goodRun := 0, lastCycle := some n }
    | none, _ => referenceLossOp s

/-- The check of the configuration block is complete (R164, R165, R175, R176). -/
def configCheckOp (k : Contacts) (s : State) : State :=
  if s.sc.station = .config then
    match if s.cs.cut then none else goodBlock s.cs.block with
    | some c => startEpochs c k (s.updCs fun u => { u with inUse := some c })
    | none => raise .config (s.updSc fun u => { u with station := .fault })
  else s

end Sys2Proof.Machine
end

