-- ==== Sys2Proof/Machine/Measuring.lean ====
section
/-! DEFINITION. The meanings of the commands of sampling, contact inputs and protection: EPOCH, the conversions, and the rows
that name one threshold of sections 1, 2, 6, 7, 8 and 9. A row whose threshold EPOCH or an own sample event already acts on is
the same operation, conditioned on the level the rule names (log 2, DEDUCED). -/

namespace Sys2Proof.Machine

open Sys2Proof

/-- Do an operation of a station whose epochs run; a stopped station has no such event (log 21, DESIGN CHOICE). -/
def whileRunning (f : Settings → State → State) (s : State) : State :=
  match s.running with
  | some c => f c s
  | none => s

/-! ## Epochs and conversions -/

/-- EPOCH (R1, R161): the inputs are presented and the next epoch fires. -/
def execEpoch (k : Contacts) (tcs : Bool) (o : EpochOrder) (s : State) : Host.Outcome State Fault Refusal :=
  .next (whileRunning (fun c => epochEvent c k tcs o) s)

/-- A channel completes (R3, R4): only one that is CONVERTING; the sixth completion is the own sample event. -/
def completeOp (c : Settings) (ph : Phase) (ch : Channel) (raw : BitVec 16) (s : State) : State :=
  if ((s.su.chans.get ph).get ch).isConverting then
    let s := s.updSu fun u => { u with chans := u.chans.upd (ChanPair.complete ch (readRaw raw)) ph }
    if allDone s.su.chans then ownSampleEvent c s else s
  else s

/-- CONVERSION_COMPLETE (R4, R6). The latency is the sender's (log 25, DESIGN CHOICE). -/
def execConversionComplete (ph : Phase) (ch : Channel) (raw : BitVec 16) (moment : Nat) (s : State) :
    Host.Outcome State Fault Refusal :=
  .next (whileRunning (fun c s => completeOp c ph ch raw (advanceTo moment s)) s)

/-- CONVERTER_FAILURE (R11). -/
def execConverterFailure (s : State) : Host.Outcome State Fault Refusal := .next (whileRunning (fun _ => converterFailureOp) s)

/-- CONVERTER_RECOVERY (R12). -/
def execConverterRecovery (s : State) : Host.Outcome State Fault Refusal :=
  .next (whileRunning (fun _ => converterRecoveryOp) s)

/-- ISOLATOR_DISCREPANCY (R28, R29). -/
def execIsolatorDiscrepancy (pair : DevPair) (s : State) : Host.Outcome State Fault Refusal :=
  .next (whileRunning (fun c => discrepancyOp c pair) s)

/-! ## Zones and the measurement -/

/-- END_ZONE_TIMEOUT (R107). -/
def execEndZoneTimeout (b : Bay) (s : State) : Host.Outcome State Fault Refusal := .next (whileRunning (fun c => endZoneOp c b) s)

/-- The onset window of a zone phase ends at its last operate sample (R129). -/
def onsetEndOp (c : Settings) (z : ZoneRef) (ph : Phase) (s : State) : State :=
  match lastOp c z ph s.ze with
  | some op => s.updZe (updZonePhase z ph (windowEndZ c op))
  | none => s

/-- ONSET_WINDOW_END (R129). -/
def execOnsetWindowEnd (z : ZoneRef) (ph : Phase) (s : State) : Host.Outcome State Fault Refusal :=
  .next (whileRunning (fun c => onsetEndOp c z ph) s)

/-- STABILISATION_EXPIRY (R133). -/
def execStabilisationExpiry (z : ZoneRef) (ph : Phase) (s : State) : Host.Outcome State Fault Refusal :=
  .next (whileRunning (fun _ s => s.updZe (updZonePhase z ph stabExpiryZ)) s)

/-- EVOLVE_RELEASE (R132). -/
def execEvolveRelease (z : ZoneRef) (ph : Phase) (s : State) : Host.Outcome State Fault Refusal :=
  .next (whileRunning (fun c s => s.updZe (updZonePhase z ph (evolveReleaseZ c))) s)

/-- QUIET_RETURN (R134). -/
def execQuietReturn (z : ZoneRef) (ph : Phase) (s : State) : Host.Outcome State Fault Refusal :=
  .next (whileRunning (fun _ s => s.updZe (updZonePhase z ph quietReturnZ)) s)

/-- ZONE_BLOCKED (R115). -/
def execZoneBlocked (z : ZoneRef) (ph : Phase) (s : State) : Host.Outcome State Fault Refusal :=
  .next (whileRunning (fun _ => zoneBlockedOp z ph) s)

/-! ## Tripping -/

/-- RETRIP (R147). -/
def execRetrip (s : State) : Host.Outcome State Fault Refusal := .next (whileRunning retripOp s)

/-- BREAKER_FAILURE (R148). -/
def execBreakerFailure (s : State) : Host.Outcome State Fault Refusal := .next (whileRunning breakerFailureOp s)

/-- SUPERVISION_PULSE_DUE (R152): the schedule is held in BLOCKED. -/
def execSupervisionPulseDue (s : State) : Host.Outcome State Fault Refusal :=
  .next (whileRunning (fun _ s => if s.sc.station = .running .blocked then s else pulseDueOp s) s)

/-- SUPERVISION_PULSE_END (R154), with the level of TCS at this moment. -/
def execSupervisionPulseEnd (tcs : Bool) (s : State) : Host.Outcome State Fault Refusal :=
  .next (whileRunning (fun _ s => pulseEndOp (s.updPins fun p => { p with tcs := tcs })) s)

/-! ## The choice of the station state -/

/-- QUALIFIED (R166): the counter is held at 0 in BLOCKED. -/
def execQualified (s : State) : Host.Outcome State Fault Refusal := .next (whileRunning (fun _ => qualifiedOp) s)

/-- LISTEN_TIMEOUT (R167). -/
def execListenTimeout (s : State) : Host.Outcome State Fault Refusal := .next (whileRunning (fun _ => listenTimeoutOp) s)

/-- DUPLICATE_CONFLICT_END (R170): the conflict is held while the duplicate quiet count is below 4,000, so at 4,000 it has
ended, and nothing more is stored; the next choice reads it (log 2, DEDUCED). -/
def execDuplicateConflictEnd (s : State) : Host.Outcome State Fault Refusal := .next s

end Sys2Proof.Machine
end

