-- ==== Sys2Proof/Machine/Linking.lean ====
section
/-! DEFINITION. The meanings of the commands of the bay ring and the peer table: receive signals, holds, echoes, received
frames, ends of transmissions, and the freshness marks of the entries (03, 04). -/

namespace Sys2Proof.Machine

open Sys2Proof

/-! ## Receive signals and holds (R34 to R36) -/

/-- The receive signal of a port as its receiver reports it. -/
def setRx (p : Port) (present : Bool) (s : State) : State := s.updPort p fun q => { q with rx := present }

/-- RECEIVE_SIGNAL_PRESENT (R34). The signal is the neighbour's and is recorded whether or not epochs run. -/
def execReceiveSignalPresent (p : Port) (moment : Nat) (s : State) : Host.Outcome State Fault Refusal :=
  .next (whileRunning (fun _ => probeOp p) (setRx p true (advanceTo moment s)))

/-- A PROBING or UP port whose receive signal is lost enters DOWN with hold count 0 (R34). -/
def signalLostOp (p : Port) (s : State) : State := if (s.port p).link = .down then s else enterDown p 0 s

/-- RECEIVE_SIGNAL_LOST (R34). -/
def execReceiveSignalLost (p : Port) (moment : Nat) (s : State) : Host.Outcome State Fault Refusal :=
  .next (whileRunning (fun _ => signalLostOp p) (setRx p false (advanceTo moment s)))

/-- HOLD_END (R36). -/
def execHoldEnd (p : Port) (s : State) : Host.Outcome State Fault Refusal := .next (whileRunning (fun _ => probeOp p) s)

/-! ## The link echo (R37 to R41) -/

/-- ECHO_DUE (R37). -/
def execEchoDue (p : Port) (s : State) : Host.Outcome State Fault Refusal :=
  .next (whileRunning (fun _ s => echoDueOp (s.port p).link p s) s)

/-- Time runs on to the tick at which the outstanding request's counter reaches 40,000 (R38; log 6, DEDUCED). -/
def advanceToTimeout (p : Port) (s : State) : State := advanceBy (echoLimit - (s.port p).echoNow s.su.lt) s

/-- ECHO_TIMEOUT (R38, R41): a port with no request outstanding has no timeout. -/
def execEchoTimeout (p : Port) (s : State) : Host.Outcome State Fault Refusal :=
  .next (whileRunning (fun _ s =>
    match (s.port p).outstanding with
    | some _ => echoTimeoutOp p (advanceToTimeout p s)
    | none => s) s)

/-- ECHO_REQUEST_RECEIVED (R39): the bytes pass step 1 of R43 first. -/
def execEchoRequestReceived (p : Port) (bytes : List Byte) (moment : Nat) (s : State) : Host.Outcome State Fault Refusal :=
  .next (whileRunning (fun c s => receiveFrame c p bytes (advanceTo moment s)) s)

/-- ECHO_ANSWER_RECEIVED (R40): the bytes pass step 1 of R43 first. -/
def execEchoAnswerReceived (p : Port) (bytes : List Byte) (moment : Nat) (s : State) : Host.Outcome State Fault Refusal :=
  .next (whileRunning (fun c s => receiveFrame c p bytes (advanceTo moment s)) s)

/-! ## Bay frames, transmissions and quiet runs -/

/-- BAY_FRAME_RECEIVED (R43 to R52). -/
def execBayFrameReceived (p : Port) (bytes : List Byte) (moment : Nat) (s : State) : Host.Outcome State Fault Refusal :=
  .next (whileRunning (fun c s => receiveFrame c p bytes (advanceTo moment s)) s)

/-- Time runs on to the end of a transmission (R53). -/
def advanceToEnd (x : Sending) (s : State) : State := advanceBy (x.ticks - (s.su.lt - x.start).toNat) s

/-- TRANSMISSION_END (R53): the end of the transmission under way, or of the one that the arbiter's choice at the end of this tick begins.
A transmitter that stays free has no end. -/
def execTransmissionEnd (p : Port) (s : State) : Host.Outcome State Fault Refusal :=
  .next (whileRunning (fun c s =>
    match ((arbitrateBoth c s).port p).tx with
    | some x => transmissionEndOp p (advanceToEnd x s)
    | none => s) s)

/-- QUIET_RUN_END (R59): the cause of either flag is its quiet run standing below 4,000, so at 4,000 it is gone, and nothing
more is stored; CLEAR ALARMS reads it (log 2, DEDUCED). -/
def execQuietRunEnd (_ : QuietFlag) (s : State) : Host.Outcome State Fault Refusal := .next s

/-! ## The peer table (R72 to R74) -/

/-- PEER_STALE (R73). -/
def execPeerStale (b : Bay) (s : State) : Host.Outcome State Fault Refusal := .next (whileRunning (fun c => peerStaleOp c b) s)

/-- PEER_ABSENT (R74). -/
def execPeerAbsent (b : Bay) (s : State) : Host.Outcome State Fault Refusal := .next (whileRunning (fun c => peerAbsentOp c b) s)

/-- JOINING_RUN_RESET (R72). -/
def execJoiningRunReset (b : Bay) (s : State) : Host.Outcome State Fault Refusal :=
  .next (whileRunning (fun c => joiningResetOp c b) s)

end Sys2Proof.Machine
end

