-- ==== Sys2Proof/Machine/Tables.lean ====
section
/-! DEFINITION. What the bay computer reads: the STATUS summary, the trip record and the readable tables, byte by byte (R32,
R61, R81, R98, R117, R157, R159, R183, R188). Codings that R188 leaves open are in log 11, DEDUCED. -/

namespace Sys2Proof.Machine

open Sys2Proof

/-! ## Field codings (R188) -/

/-- A field that may be none: a presence byte, then the field's n bytes, every one 255 when it is none. -/
def maybe {α : Type} (n : Nat) (f : α → List Byte) : Option α → List Byte
  | some x => byte1 1 ++ f x
  | none => byte1 0 ++ List.replicate n 255

/-- A list: a count, then the items. -/
def listOf {α : Type} (f : α → List Byte) (l : List α) : List Byte := byte1 l.length ++ l.flatMap f

/-- The three values of a PerPhase in order. -/
def phases3 {α : Type} (f : α → List Byte) (p : PerPhase α) : List Byte := f p.l1 ++ f p.l2 ++ f p.l3

/-- A set of phases: L1 bit 2, L2 bit 1, L3 bit 0. -/
def phaseSetCode (p : PerPhase Bool) : Nat := 4 * p.l1.toNat + 2 * p.l2.toNat + p.l3.toNat

/-- Numbered from 0 in the order R63 lists them. -/
def presenceCode : Presence → Nat
  | .absent => 0
  | .joining => 1
  | .live => 2
  | .stale => 3
  | .conflict => 4

/-- Numbered from 0 among its values other than none (R63, R188). -/
def declaredCode : RunState → Nat
  | .listen => 0
  | .service => 1
  | .test => 2
  | .isolated => 3
  | .blocked => 4

/-- Numbered from 0 in the order of the table of R66. -/
def misfitCode : Misfit → Nat
  | .tag => 0
  | .declaration => 1
  | .sections => 2

/-- Numbered from 0 in the order the Ring Interface's table lists the link states. -/
def linkCode : Link → Nat
  | .down => 0
  | .probing => 1
  | .up => 2

/-- East 0, West 1 (R63). -/
def portCode : Port → Nat
  | .east => 0
  | .west => 1

/-- Numbered from 0 in the order of R125. -/
def classCode : ZoneClass → Nat
  | .quiet => 0
  | .onset => 1
  | .internal => 2
  | .through => 3
  | .external => 4

/-- 0 IDLE, 1 ASSERTED, 2 TEST ASSERTED. -/
def tripCode : TripState → Nat
  | .idle => 0
  | .asserted => 1
  | .testAsserted => 2

/-- 0 OFF, 1 SUPERVISION, 2 TRIP. -/
def coil1Code : Coil1 → Nat
  | .off => 0
  | .supervision => 1
  | .trip => 2

/-- 0 OFF, 1 TRIP. -/
def coil2Code : Coil2 → Nat
  | .off => 0
  | .trip => 1

/-- 0 IDLE, 1 TIMING, 2 FAILED. -/
def bfCode : BfState → Nat
  | .idle => 0
  | .timing => 1
  | .failed => 2

/-- 0 IDLE, 1 BUSY, 2 DONE, 3 FAILED. -/
def commitCode : CommitState → Nat
  | .idle => 0
  | .busy => 1
  | .done => 2
  | .failed => 3

/-- 0 none, 1 RELEASE, 2 STATE CHANGE, 3 RESET. -/
def endCode : TripEnd → Nat
  | .release => 1
  | .stateChange => 2
  | .reset => 3

/-- The BLOCKED causes: CONVERTER bit 2, DUPLICATE bit 1, CLOCK bit 0. -/
def causesCode (c : Causes) : Nat := 4 * c.converter.toNat + 2 * c.duplicate.toNat + c.clock.toNat

/-- The reset cause flags: POR bit 3, SUPPLY bit 2, PIN bit 1, COMMAND bit 0. -/
def resetCauseCode (c : ResetCauses) : Nat := 8 * c.por.toNat + 4 * c.supply.toNat + 2 * c.pin.toNat + c.command.toNat

/-- A declaration in three bytes. -/
def declBytes (d : Decl) : List Byte := byte1 (kindCode d.kind) ++ byte1 (sideCode d.side1) ++ byte1 (sideCode d.side2)

/-- A replica in three bytes. -/
def replicaBytes (r : Replica) : List Byte :=
  byte1 (switchCode r.iso1) ++ byte1 (switchCode r.iso2) ++ byte1 (switchCode r.breaker)

/-! ## The STATUS summary and the trip record -/

/-- The STATUS summary of 13 bytes. -/
def statusSummary (s : State) : List Byte :=
  byte1 (stationCode s.sc.station) ++ byte1 (causesCode s.sc.causes) ++ byte3 s.mp.flags.toNat
    ++ byte1 (resetCauseCode s.sc.cause) ++ byte1 (tripCode s.tu.trip) ++ boolByte s.tu.held.isSome
    ++ byte1 (commitCode s.cs.commit) ++ byte4 s.su.epoch.toNat

/-- Id and Ir in 3 bytes each. -/
def sumsBytes (x : Sums) : List Byte := byte3 x.id ++ byte3 x.ir

/-- The trip record as TAKE RECORD returns it: 58 bytes, absent fields 0. -/
def recordBytes (r : TripRecord) : List Byte :=
  byte1 1 ++ byte2 r.number ++ byte4 r.epoch.toNat
    ++ (match r.cause with
        | .differential ph z =>
          byte1 1 ++ byte1 (if r.test then 5 else 4) ++ byte1 (phaseSetCode ph) ++ byte1 (sectCode z.name)
            ++ byte1 (sectsCode z.sections) ++ phases3 sumsBytes z.sums ++ phases3 sumsBytes z.chk ++ byte1 0 ++ byte1 0
        | .backtrip b set =>
          byte1 2 ++ byte1 (if r.test then 5 else 4) ++ byte1 0 ++ byte1 0 ++ byte1 0 ++ List.replicate 36 0 ++ byte1 b
            ++ byte1 (sectsCode set))
    ++ (match r.closed with
        | some x => byte1 1 ++ byte4 x.epoch.toNat ++ byte1 (endCode x.how) ++ boolByte x.retrip ++ boolByte x.failed
        | none => List.replicate 8 0)

/-! ## The tables -/

/-- Ticks of 25 ns in microseconds. R188 does not say how a part of a microsecond is shown: it is dropped (log 11, DESIGN CHOICE). -/
def micros (n : Nat) : Nat := n / 40

/-- The Station Controller's state as section 9 lists it. -/
def controllerBytes (u : Controller) : List Byte :=
  byte1 (stationCode u.station) ++ byte1 (causesCode u.causes) ++ boolByte u.reference ++ boolByte u.confirmed ++ byte2 u.goodRun
    ++ byte4 (micros u.powerUp) ++ byte4 (micros u.wait) ++ byte2 u.qualCount ++ boolByte u.qualified ++ byte2 u.listen
    ++ byte2 u.dupQuiet ++ boolByte u.maintTest ++ boolByte u.supplyLow ++ byte1 (resetCauseCode u.cause)

/-- One input: its accepted state, which may be none, and its pending mark. -/
def inputBytes (accepted : Option Bool) (pending : Bool) : List Byte := maybe 1 boolByte accepted ++ boolByte pending

/-- The CIU's part of STATUS (R32). -/
def contactBytes (u : ContactUnit) : List Byte :=
  let a (f : Contacts → Bool) : List Byte := inputBytes (u.accepted.map f) (f u.pending)
  a Contacts.q1a ++ a Contacts.q1b ++ a Contacts.q2a ++ a Contacts.q2b ++ a Contacts.cba ++ a Contacts.cbb ++ a Contacts.oos
    ++ a Contacts.tst
    ++ maybe 1 (fun r => byte1 (switchCode r.iso1)) u.derived ++ maybe 1 (fun r => byte1 (switchCode r.iso2)) u.derived
    ++ maybe 1 (fun r => byte1 (switchCode r.breaker)) u.derived
    ++ byte4 u.discTimer.q1 ++ boolByte u.discMark.q1 ++ byte4 u.discTimer.q2 ++ boolByte u.discMark.q2
    ++ byte4 u.discTimer.cb ++ boolByte u.discMark.cb

/-- An epoch number and a computing instant, each of which may be none. -/
def instantBytes (x : Option Instant) : List Byte :=
  maybe 4 (fun y => byte4 y.epoch.toNat) x ++ maybe 4 (fun y => byte4 y.tau.toNat) x

/-- The Trip Unit's part of STATUS (R159). -/
def tripBytes (u : TripUnit) : List Byte :=
  byte1 (tripCode u.trip) ++ byte1 (coil1Code u.coil1) ++ byte1 (coil2Code u.coil2) ++ byte2 u.sealIn ++ byte2 u.retrip
    ++ byte2 u.bfTimer ++ boolByte u.retripMade ++ byte1 (bfCode u.bf) ++ byte1 (sectsCode u.backtrip) ++ byte2 u.supCount
    ++ maybe 1 byte1 u.pulse ++ byte1 u.supFails ++ boolByte u.held.isSome ++ byte2 u.recNumber

/-- The STATUS table. -/
def statusTable (s : State) : List Byte :=
  controllerBytes s.sc ++ contactBytes s.ciu ++ instantBytes s.au.latest ++ tripBytes s.tu ++ byte1 (commitCode s.cs.commit)

/-- A history slot in a PEER table. -/
def slotBytes (x : Slot) : List Byte :=
  byte2 x.seqNo.toNat ++ byte4 x.instant.toNat ++ phases3 signed2 x.cur ++ phases3 (fun v => byte1 (validityCode v)) x.val
    ++ replicaBytes x.replica ++ byte1 (runCode x.declared)

/-- The conflict detail in a PEER table. -/
def conflictBytes (x : ConflictDetail) : List Byte :=
  byte1 (misfitCode x.reason) ++ byte2 x.tag ++ declBytes x.decl ++ byte4 x.epoch.toNat ++ byte1 (portCode x.port)

/-- The PEER table of an entry (R81). -/
def peerTable (e : PeerEntry) : List Byte :=
  byte1 (presenceCode e.presence) ++ maybe 2 byte2 e.tag ++ maybe 3 declBytes e.decl
    ++ maybe 2 (fun q => byte2 q.toNat) e.lastSeq ++ byte2 e.fresh ++ byte1 e.joinRun
    ++ maybe 1 (fun r => byte1 (declaredCode r)) e.declared ++ byte1 (sectsCode e.backtrip)
    ++ maybe 1 (fun p => byte1 (portCode p)) e.lastPort ++ maybe 11 conflictBytes e.conflict ++ byte2 e.accepted
    ++ byte2 e.duplicates ++ byte2 e.orders ++ byte2 e.conflicts ++ byte2 e.stales ++ listOf slotBytes e.history

/-- The state of a zone phase (R117). -/
def zoneStateBytes (z : ZoneState) : List Byte :=
  byte1 (classCode z.cls) ++ byte1 z.counter ++ maybe 1 byte1 z.onset ++ byte2 z.stab ++ byte1 z.quietRun ++ byte1 z.evolve
    ++ byte2 z.blockedRun

/-- What the last topology holds of a phase (R117): blocking, Id, Ir, verdict. R188 has no codes for a verdict: the model writes 1
for OPERATE and 0 for NOT OPERATE (log 11, DESIGN CHOICE). -/
def phaseResultBytes (r : PhaseResult) : List Byte := boolByte r.blocked ++ byte3 r.id ++ byte3 r.ir ++ boolByte r.operate

/-- A member with its sign. -/
def memberBytes (m : Member) : List Byte := byte1 (bayNumber m.bay) ++ [BitVec.ofInt 8 m.sign]

/-- The zone that holds a section in the last topology (R117). -/
def zonePartBytes (z : ZoneTopo) : List Byte :=
  byte1 (sectCode z.name) ++ byte1 (sectsCode z.sections) ++ listOf memberBytes z.members ++ phases3 phaseResultBytes z.phases

/-- A tie's end-zone timer with the mark that it stands at the delay (R117). -/
def tieTimerBytes (limit : Nat) (x : Bay × Nat) : List Byte :=
  byte1 (bayNumber x.1) ++ byte2 x.2 ++ boolByte (x.2 == limit)

/-- The installed bays declared TIE one of whose sides is the section, with their timers (R117). A bay in CONFLICT declares nothing
(R100). That the entries are judged as they stand at the read, and not by the last topology, and that they stand by bay number, are log 11's DESIGN CHOICEs. -/
def tiesOf (c : Settings) (s : State) (x : Sect) : List (Bay × Nat) :=
  (allBays.filter fun b =>
    c.hasBay b &&
      match usedDecl (s.entry b) with
      | some d => decide (d.kind = .tie) && (decide (d.side1 = some x) || decide (d.side2 = some x))
      | none => false).map fun b => (b, s.ze.endZone.getD b.val 0)

/-- The epoch number and computing instant of the last topology (R117). -/
def topoInstant (t : Option Topology) : List Byte := instantBytes (t.map fun y => ⟨y.epoch, y.tau⟩)

/-- The ZONE table of a section (R117). -/
def zoneTable (s : State) (x : Sect) : List Byte :=
  phases3 zoneStateBytes (s.ze.sects.get x)
    ++ maybe 27 zonePartBytes (s.ze.topo.bind fun t => t.zones.find? fun z => z.sections.get x)
    ++ (match s.cs.inUse with
        | some c => listOf (tieTimerBytes c.endZone) (tiesOf c s x)
        | none => byte1 0)
    ++ topoInstant s.ze.topo

/-- The CHECK ZONE table (R117). R109 names the check zone CHECK in the tables and R117 shows its part in the same way as ZONE, but
R116 lists no name in that part: no byte of a name stands before the members (log 11, DESIGN CHOICE). -/
def checkZoneTable (s : State) : List Byte :=
  phases3 zoneStateBytes s.ze.check
    ++ maybe 25 (fun (t : Topology) => listOf memberBytes t.chkMembers ++ phases3 phaseResultBytes t.chk) s.ze.topo
    ++ topoInstant s.ze.topo

/-- The counters of a port, in the order of R60. -/
def portCounterBytes (k : PortCounters) : List Byte :=
  byte2 k.framesReceived ++ byte2 k.checkFailures ++ byte2 k.notUpDrops ++ byte2 k.hopDrops ++ byte2 k.ownReturns
    ++ byte2 k.duplicateBays ++ byte2 k.foreignFrames ++ byte2 k.unexpectedBays ++ byte2 k.transitOverflows
    ++ byte2 k.latencyDrops ++ byte2 k.agedDrops ++ byte2 k.linkDownDrops ++ byte2 k.forwarded ++ byte2 k.ownSent
    ++ byte2 k.ownOverruns ++ byte2 k.goodEchoes ++ byte2 k.echoLosses ++ byte2 k.staleEchoes ++ byte2 k.linkDownEvents
    ++ byte2 k.ringOpenEvents

/-- The LINK table of a port (R61). -/
def linkTable (lt : Ticks) (q : PortState) : List Byte :=
  byte1 (linkCode q.link) ++ byte2 q.hold ++ maybe 2 byte2 q.delay ++ byte2 (q.echoNow lt) ++ boolByte q.overflow
    ++ byte2 q.turnaround ++ byte1 q.echoNum.toNat ++ boolByte q.outstanding.isSome ++ byte1 q.losses
    ++ boolByte q.answer.isSome ++ boolByte q.own.isSome ++ byte1 q.transit.length ++ boolByte q.opened
    ++ byte1 q.departed.length ++ portCounterBytes q.ctr

/-- The counters of the Trip Unit, in the order of R159. -/
def tripCounterBytes (k : TripCounters) : List Byte :=
  byte2 k.differentialTrips ++ byte2 k.backtripTrips ++ byte2 k.testTrips ++ byte2 k.retrips ++ byte2 k.breakerFailures
    ++ byte2 k.backtripsReceived ++ byte2 k.backtripsIgnored ++ byte2 k.backtripsUnmatched ++ byte2 k.supFailures
    ++ byte2 k.supSkips ++ byte2 k.supAbandons ++ byte2 k.recordOverruns

/-- The COUNTERS table. -/
def countersTable (s : State) : List Byte :=
  byte2 s.su.disagreeSamples ++ byte2 s.su.missingSamples ++ byte2 s.su.convFailures ++ byte2 s.ciu.changes
    ++ byte2 s.ciu.bounces ++ portCounterBytes s.ri.east.ctr ++ portCounterBytes s.ri.west.ctr ++ tripCounterBytes s.tu.ctr
    ++ byte2 s.sc.stateChanges ++ byte2 s.mp.portErrors

/-- The pairs of the ISOLATOR DISCREPANCY detail as items. R29 gives a set: the order Q1, Q2, CB is the model's (log 11, DESIGN
CHOICE). -/
def pairItems (d : PerPair Bool) : List Nat :=
  (if d.q1 then [0] else []) ++ (if d.q2 then [1] else []) ++ (if d.cb then [2] else [])

/-- A zone phase as a detail item. -/
def zonePhaseBytes (x : ZoneRef × Phase) : List Byte :=
  (match x.1 with
    | .zone z => byte1 (sectCode z)
    | .check => byte1 0)
    ++ (match x.2 with
        | .l1 => byte1 0
        | .l2 => byte1 1
        | .l3 => byte1 2)

/-- The ALARMS table. -/
def alarmsTable (s : State) : List Byte :=
  byte3 s.mp.flags.toNat ++ byte3 (causesHeld s).toNat ++ byte3 (enableSet s).toNat ++ listOf byte1 (pairItems s.ciu.discDetail)
    ++ maybe 1 byte1 s.ri.unexpectedDetail ++ listOf zonePhaseBytes s.ze.blockedDetail

/-- CONFIG IN USE: the block layout, or every byte 255 while the in-use copy is none. -/
def configInUseTable (s : State) : List Byte :=
  match s.cs.inUse with
  | some c => blockBytes c
  | none => List.replicate 64 255

/-- The table of a code (R188). -/
def tableOf : Nat → Option Table
  | 1 => some .status
  | 2 => some .peer
  | 3 => some .zone
  | 4 => some .checkZone
  | 5 => some .link
  | 6 => some .counters
  | 7 => some .alarms
  | 8 => some .configInUse
  | 9 => some .configStored
  | _ => none

/-- The capture of a table at an index, none when the index is outside the table's row (R184). -/
def captureTable (s : State) : Table → Nat → Option (List Byte)
  | .status, 0 => some (statusTable s)
  | .checkZone, 0 => some (checkZoneTable s)
  | .counters, 0 => some (countersTable s)
  | .alarms, 0 => some (alarmsTable s)
  | .configInUse, 0 => some (configInUseTable s)
  | .configStored, 0 => some s.cs.block
  | .peer, n => (bayOf n).map fun b => peerTable (s.entry b)
  | .zone, n => (sectOf n).map (zoneTable s)
  | .link, 1 => some (linkTable s.su.lt s.ri.east)
  | .link, 2 => some (linkTable s.su.lt s.ri.west)
  | _, _ => none

end Sys2Proof.Machine
end

