-- ==== Sys2Proof/Machine/Maintenance.lean ====
section
/-! DEFINITION. The Maintenance Port: taking and answering a request, the twelve commands, the end of a response and of a
commit (10, 11), and one meaning for each of their rows. -/

namespace Sys2Proof.Machine

open Sys2Proof

/-! ## Taking and answering (R181, R182) -/

/-- The status codes of a response (R188). -/
inductive ReplyCode | ok | busy | notPermitted | noSelection | badIndex | badLength | unknownCommand
  deriving DecidableEq, Repr

/-- The byte of a status code (R188). -/
def replyByte : ReplyCode → Nat
  | .ok => 0
  | .busy => 1
  | .notPermitted => 2
  | .noSelection => 3
  | .badIndex => 4
  | .badLength => 5
  | .unknownCommand => 6

/-- Requests are taken (R181): in CONFIG, FAULT and the running states, but not from a reference loss until reconfirmation. -/
def mpTakes (s : State) : Bool := s.sc.reference && decide (s.sc.station ≠ .start)

/-- A response begins (R181, R182): status, length and data. -/
def respond (code : ReplyCode) (data : List Byte) (s : State) : State :=
  s.updMp fun m =>
    { m with receiver := .responding, request := [], response := byte1 (replyByte code) ++ byte1 data.length ++ data }

/-- A request is discarded without a response and counted (R181). -/
def portError (s : State) : State := s.updMp fun m => { m with request := [], portErrors := bump m.portErrors }

/-- A whole request of a command arrives (R181, R182; log 12, DEDUCED): discarded uncounted where requests are not taken, discarded and counted
while RESPONDING or over length, answered BAD LENGTH for a length the command does not allow, and otherwise acted on. -/
def takeCommand (allowed : Nat → Bool) (payload : List Byte) (act : State → State) (s : State) : State :=
  if !mpTakes s then s
  else if s.mp.receiver = .responding ∨ payload.length > 64 then portError s
  else if !allowed payload.length then respond .badLength [] s
  else act s

/-- The lengths of a command with no payload. -/
def noPayload (n : Nat) : Bool := n == 0

/-! ## The commands (R183) -/

/-- SELECT (R184): the table and index, and the capture of the table as it stands. -/
def selectAct (table index : Nat) (s : State) : State :=
  match tableOf table with
  | none => respond .badIndex [] s
  | some t =>
    match captureTable s t index with
    | none => respond .badIndex [] s
    | some capture =>
      if t = .configStored ∧ s.cs.commit = .busy then respond .busy [] s
      else respond .ok [] (s.updMp fun m => { m with selection := some ⟨t, index, capture, 0⟩ })

/-- The bytes a READ of n returns (R184). -/
def nextBytes (n : Nat) (x : Selection) : List Byte := (x.capture.drop x.offset).take n

/-- READ (R184). -/
def readAct (n : Nat) (s : State) : State :=
  if n = 0 ∨ n > 64 then respond .badLength [] s
  else
    match s.mp.selection with
    | none => respond .noSelection [] s
    | some x =>
      if x.table = .configStored ∧ s.cs.commit = .busy then respond .busy [] s
      else
        respond .ok (nextBytes n x)
          (s.updMp fun m => { m with selection := some { x with offset := x.offset + (nextBytes n x).length } })

/-- The data of TAKE RECORD (R157, R188). -/
def recordData : Option TripRecord → List Byte
  | none => byte1 0
  | some r => recordBytes r

/-- TAKE RECORD (R157): a closed record taken leaves the latch EMPTY. -/
def takeRecordAct (s : State) : State :=
  respond .ok (recordData s.tu.held)
    (s.updTu fun u => { u with held := u.held.filter fun r => r.closed.isNone })

/-- The flags a CLEAR ALARMS leaves set (R185): those whose cause is held. -/
def keptFlags (s : State) : BitVec 19 := s.mp.flags &&& causesHeld s

/-- CLEAR ALARMS (R185, R29, R115). -/
def clearAlarmsAct (s : State) : State :=
  respond .ok []
    { s with
      mp := { s.mp with flags := keptFlags s }
      ciu := { s.ciu with
        discDetail := ⟨s.ciu.discDetail.q1 && s.ciu.discMark.q1, s.ciu.discDetail.q2 && s.ciu.discMark.q2,
          s.ciu.discDetail.cb && s.ciu.discMark.cb⟩ }
      ze := { s.ze with blockedDetail := s.ze.blockedDetail.filter fun x => (standing400 s.ze).contains x }
      ri := { s.ri with
        unexpectedDetail := if hasFlag .unexpectedBay (keptFlags s) then s.ri.unexpectedDetail else none }
      sc := { s.sc with cause := ⟨false, false, false, false⟩ } }

/-- An entry's five counters at 0. -/
def zeroEntry (e : PeerEntry) : PeerEntry :=
  { e with accepted := 0, duplicates := 0, orders := 0, conflicts := 0, stales := 0 }

/-- A port's counters at 0. -/
def zeroPort (q : PortState) : PortState := { q with ctr := .zero }

/-- CLEAR COUNTERS (R183): every statistics counter of every block, and PORT ERRORS. -/
def clearCountersAct (s : State) : State :=
  respond .ok []
    { s with
      su := { s.su with disagreeSamples := 0, missingSamples := 0, convFailures := 0 }
      ciu := { s.ciu with changes := 0, bounces := 0 }
      ri := { s.ri with east := zeroPort s.ri.east, west := zeroPort s.ri.west }
      pt := { s.pt with entries := s.pt.entries.map zeroEntry }
      tu := { s.tu with ctr := .zero }
      sc := { s.sc with stateChanges := 0 }
      mp := { s.mp with portErrors := 0 } }

/-- CLEAR PEER (R78). -/
def clearPeerAct (n : Nat) (s : State) : State :=
  match bayOf n with
  | none => respond .badIndex [] s
  | some b =>
    if (s.entry b).presence = .conflict then respond .ok [] (s.setEntry b (clearedEntry (s.entry b)))
    else respond .notPermitted [] s

/-- TEST ON and TEST OFF (R169). -/
def testAct (on : Bool) (s : State) : State := respond .ok [] (s.updSc fun u => { u with maintTest := on })

/-- The staging buffer with data written from an offset on (R177). -/
def stageBytes (offset : Nat) (data staging : List Byte) : List Byte :=
  staging.take offset ++ data ++ staging.drop (offset + data.length)

/-- STAGE (R177), its tests in the order of R183. -/
def stageAct (offset : Nat) (data : List Byte) (s : State) : State :=
  if offset > 63 then respond .badIndex [] s
  else if offset + data.length > 64 then respond .badLength [] s
  else if s.cs.commit = .busy then respond .busy [] s
  else respond .ok [] (s.updCs fun u => { u with staging := stageBytes offset data u.staging })

/-- COMMIT (R178): the strap, the station state and the commit state, in that order. R179 gives the block no bytes for the time it
is being erased and programmed: while BUSY it keeps its old bytes here, which nothing can read (log 29, DESIGN CHOICE). -/
def commitAct (s : State) : State :=
  if !s.pins.cfgen then respond .notPermitted [] s
  else if s.sc.station = .running .service ∨ s.sc.station = .config then respond .notPermitted [] s
  else if s.cs.commit = .busy then respond .busy [] s
  else respond .ok [] (s.updCs fun u => { u with commit := .busy })

/-- RESET (R173): refused in SERVICE; otherwise the reset follows the response. -/
def resetAct (s : State) : State :=
  if s.sc.station = .running .service then respond .notPermitted [] s
  else respond .ok [] (s.updSc fun u => { u with resetPending := true })

/-- The last stop bit of a response has left (R181): the receiver returns to IDLE, and the reset of a RESET is taken (R173).
When it leaves is the sender's (log 25, DESIGN CHOICE). -/
def responseSentOp (s : State) : State := if s.mp.receiver = .responding then cutResponse s else s

/-- A read-back as the 64 bytes of a block (log 18, DESIGN CHOICE). -/
def fitBlock (bytes : List Byte) : List Byte := (bytes ++ List.replicate 64 0).take 64

/-- A commit ends (R179): the block holds what the read-back found, DONE when it equals the buffer and FAILED otherwise. R180 cuts a commit
that is BUSY off with a RESET, and R173 places that reset at the end of RESET's response: a commit that ends while the response is still
being sent ends here as any other, with a good block (log 30, DESIGN CHOICE). -/
def commitDoneOp (readBack : List Byte) (s : State) : State :=
  if s.cs.commit = .busy then
    s.updCs fun u =>
      { u with
        block := fitBlock readBack
        cut := false
        commit := if fitBlock readBack = u.staging then .done else .failed }
  else s

/-! ## The meanings -/

/-- REQUEST_DISCARDED (R181). -/
def execRequestDiscarded (_ : DiscardCause) (s : State) : Host.Outcome State Fault Refusal :=
  .next (if mpTakes s then portError s else s)

/-- UNKNOWN (R182). -/
def execUnknown (_ : Byte) (payload : List Byte) (s : State) : Host.Outcome State Fault Refusal :=
  .next (takeCommand (fun _ => true) payload (respond .unknownCommand []) s)

/-- STATUS (R183). -/
def execStatus (payload : List Byte) (s : State) : Host.Outcome State Fault Refusal :=
  .next (takeCommand noPayload payload (fun s => respond .ok (statusSummary s) s) s)

/-- SELECT (R184). -/
def execSelect (payload : List Byte) (moment : Nat) (s : State) : Host.Outcome State Fault Refusal :=
  .next (takeCommand (· == 2) payload (selectAct (num1 payload 0) (num1 payload 1)) (advanceTo moment s))

/-- READ (R184). -/
def execRead (payload : List Byte) (s : State) : Host.Outcome State Fault Refusal :=
  .next (takeCommand (· == 1) payload (readAct (num1 payload 0)) s)

/-- TAKE RECORD (R157). -/
def execTakeRecord (payload : List Byte) (s : State) : Host.Outcome State Fault Refusal :=
  .next (takeCommand noPayload payload takeRecordAct s)

/-- CLEAR ALARMS (R185). -/
def execClearAlarms (payload : List Byte) (s : State) : Host.Outcome State Fault Refusal :=
  .next (takeCommand noPayload payload clearAlarmsAct s)

/-- CLEAR COUNTERS (R183). -/
def execClearCounters (payload : List Byte) (s : State) : Host.Outcome State Fault Refusal :=
  .next (takeCommand noPayload payload clearCountersAct s)

/-- CLEAR PEER (R78). -/
def execClearPeer (payload : List Byte) (s : State) : Host.Outcome State Fault Refusal :=
  .next (takeCommand (· == 1) payload (clearPeerAct (num1 payload 0)) s)

/-- TEST ON (R169). -/
def execTestOn (payload : List Byte) (s : State) : Host.Outcome State Fault Refusal :=
  .next (takeCommand noPayload payload (testAct true) s)

/-- TEST OFF (R169). -/
def execTestOff (payload : List Byte) (s : State) : Host.Outcome State Fault Refusal :=
  .next (takeCommand noPayload payload (testAct false) s)

/-- STAGE (R177): 1 offset byte and 1 to 63 data bytes. -/
def execStage (payload : List Byte) (s : State) : Host.Outcome State Fault Refusal :=
  .next (takeCommand (fun n => decide (2 ≤ n)) payload (stageAct (num1 payload 0) (payload.drop 1)) s)

/-- COMMIT (R178), with the level of the CFGEN strap at this moment. -/
def execCommit (payload : List Byte) (cfgen : Bool) (s : State) : Host.Outcome State Fault Refusal :=
  .next (takeCommand noPayload payload commitAct (s.updPins fun p => { p with cfgen := cfgen }))

/-- RESET (R173). -/
def execReset (payload : List Byte) (s : State) : Host.Outcome State Fault Refusal :=
  .next (takeCommand noPayload payload resetAct s)

/-- RESPONSE_SENT (R181, R173). -/
def execResponseSent (s : State) : Host.Outcome State Fault Refusal := .next (responseSentOp s)

/-- COMMIT_DONE (R179). -/
def execCommitDone (readBack : List Byte) (s : State) : Host.Outcome State Fault Refusal := .next (commitDoneOp readBack s)

end Sys2Proof.Machine
end

