-- ==== Sys2Proof/Machine/Supplying.lean ====
section
/-! DEFINITION. The meanings of the commands of the clock, the configuration check, the supply and the resets (09). -/

namespace Sys2Proof.Machine

open Sys2Proof

/-! ## The reference (R162, R163, R171) -/

/-- REFERENCE_CONFIRMED (R162), with the contacts as an epoch 0 would find them. -/
def execReferenceConfirmed (k : Contacts) (s : State) : Host.Outcome State Fault Refusal := .next (confirmOp k s)

/-- REFERENCE_LOSS (R162, R171). -/
def execReferenceLoss (moment : Nat) (s : State) : Host.Outcome State Fault Refusal :=
  .next (referenceLossOp (advanceTo moment s))

/-- BAD_REFERENCE_CYCLE (R162): the count of the cycle, none for a missing edge. -/
def execBadReferenceCycle (count : Option Nat) (s : State) : Host.Outcome State Fault Refusal :=
  .next (measureCycle s.pins.contacts count s)

/-! ## START and CONFIG (R163 to R165) -/

/-- POWER_UP_TIMEOUT (R163). -/
def execPowerUpTimeout (s : State) : Host.Outcome State Fault Refusal := .next (powerUpOp s)

/-- CONFIRMATION_WAIT_TIMEOUT (R163). -/
def execConfirmationWaitTimeout (s : State) : Host.Outcome State Fault Refusal := .next (waitOp s)

/-- CONFIG_CHECK_DONE (R164, R165, R175, R176). -/
def execConfigCheckDone (k : Contacts) (s : State) : Host.Outcome State Fault Refusal := .next (configCheckOp k s)

/-! ## The supply and the resets (R172, R173) -/

/-- SUPPLY_LOW (R172). -/
def execSupplyLow (s : State) : Host.Outcome State Fault Refusal :=
  .next (raise .supply (s.updSc fun u => { u with supplyLow := true }))

/-- SUPPLY_NORMAL (R172). -/
def execSupplyNormal (s : State) : Host.Outcome State Fault Refusal := .next (s.updSc fun u => { u with supplyLow := false })

/-- SUPPLY_RESET (R172, R173). -/
def execSupplyReset (s : State) : Host.Outcome State Fault Refusal := .next (takeReset .supply s)

/-- POWER_ON_RESET (R172, R173). -/
def execPowerOnReset (s : State) : Host.Outcome State Fault Refusal := .next (takeReset .powerOn s)

/-- RESET_PIN_ASSERTED (R173). -/
def execResetPinAsserted (s : State) : Host.Outcome State Fault Refusal := .next (takeReset .pin s)

/-- RESET_END (R173): no reset condition holds any more, and START runs from its beginning. -/
def execResetEnd (s : State) : Host.Outcome State Fault Refusal :=
  .next (s.updSc fun u => { u with holdSupply := false, holdPin := false })

end Sys2Proof.Machine
end

