-- ==== Sys2Proof/Machine/Tick.lean ====
section
/-! DEFINITION. One tick of 25 ns with no command waiting: what the clock alone brings (00, "Ticks and local time"; log 1, DESIGN CHOICE). -/

namespace Sys2Proof.Machine

open Sys2Proof

/-- The order an idle epoch takes of what the rules leave open (log 4, DESIGN CHOICE). -/
def idleOrder : EpochOrder := ⟨.beforeChoice, true, true⟩

/-- LT and the epoch phase advance by a tick, and the next epoch fires when the phase reaches 10,000 (R1). -/
def clockTick (c : Settings) (s : State) : State :=
  if s.su.phase + 1 ≥ epochTicks then epochParts c s.pins.contacts s.pins.tcs idleOrder s else passTicks 1 s

/-- The echo of a port whose counter has reached 40,000 is lost (R38). -/
def tickEcho (p : Port) (s : State) : State :=
  if (s.port p).outstanding.isSome && (s.port p).echoNow s.su.lt == echoLimit then echoTimeoutOp p s else s

/-- A transmission that has taken its ticks on the link ends (R53). -/
def tickTransmission (p : Port) (s : State) : State :=
  match (s.port p).tx with
  | some x => if (s.su.lt - x.start).toNat ≥ x.ticks then transmissionEndOp p s else s
  | none => s

/-- A tick while epochs run: the arbiters' choice among all that arrived at the tick that is left (R53), and then the clock, the echoes
and the transmissions, East before West (log 4, DESIGN CHOICE). -/
def tickRunning (c : Settings) (s : State) : State :=
  tickTransmission .west (tickTransmission .east (tickEcho .west (tickEcho .east (clockTick c (arbitrateBoth c s)))))

/-- The internal oscillator's part of a tick in START (R163): the power-up timer, then the confirmation wait. -/
def tickStart (s : State) : State :=
  if s.sc.station = .start then
    if s.sc.powerUp < powerUpLimit then
      let s := s.updSc fun u => { u with powerUp := u.powerUp + 1 }
      if s.sc.powerUp = powerUpLimit then powerUpOp s else s
    else if !s.sc.confirmed && decide (s.sc.wait < waitLimit) then
      let s := s.updSc fun u => { u with wait := u.wait + 1 }
      if s.sc.wait = waitLimit then waitOp s else s
    else s
  else s

/-- A tick while epochs are stopped: START's timers, then one good cycle of the reference while it is UNCONFIRMED (R162;
log 10, DESIGN CHOICE). -/
def tickStopped (s : State) : State :=
  let s := tickStart s
  if s.sc.confirmed then s else measureCycle s.pins.contacts (some (s.sc.lastCycle.getD nominalCycle)) s

/-- The station on an empty queue: one tick; a station held in reset stands still (R173). -/
def tick (s : State) : State :=
  if s.held then s
  else
    match s.running with
    | some c => tickRunning c s
    | none => tickStopped s

end Sys2Proof.Machine
end

