-- ==== Sys2Proof/Machine/Dispatch.lean ====
section
/-! DEFINITION. The meaning of every command, one arm per constructor. -/

namespace Sys2Proof.Machine

open Sys2Proof

def exec (i : Instr) (s : State) : Host.Outcome State Fault Refusal :=
  match i with
  | .epoch contacts tcs order => Sys2Proof.Machine.execEpoch contacts tcs order s
  | .conversionComplete ph ch raw moment => Sys2Proof.Machine.execConversionComplete ph ch raw moment s
  | .retrip => Sys2Proof.Machine.execRetrip s
  | .breakerFailure => Sys2Proof.Machine.execBreakerFailure s
  | .endZoneTimeout bay => Sys2Proof.Machine.execEndZoneTimeout bay s
  | .onsetWindowEnd z ph => Sys2Proof.Machine.execOnsetWindowEnd z ph s
  | .stabilisationExpiry z ph => Sys2Proof.Machine.execStabilisationExpiry z ph s
  | .evolveRelease z ph => Sys2Proof.Machine.execEvolveRelease z ph s
  | .quietReturn z ph => Sys2Proof.Machine.execQuietReturn z ph s
  | .zoneBlocked z ph => Sys2Proof.Machine.execZoneBlocked z ph s
  | .converterFailure => Sys2Proof.Machine.execConverterFailure s
  | .converterRecovery => Sys2Proof.Machine.execConverterRecovery s
  | .isolatorDiscrepancy pair => Sys2Proof.Machine.execIsolatorDiscrepancy pair s
  | .receiveSignalPresent port moment => Sys2Proof.Machine.execReceiveSignalPresent port moment s
  | .receiveSignalLost port moment => Sys2Proof.Machine.execReceiveSignalLost port moment s
  | .holdEnd port => Sys2Proof.Machine.execHoldEnd port s
  | .echoDue port => Sys2Proof.Machine.execEchoDue port s
  | .echoTimeout port => Sys2Proof.Machine.execEchoTimeout port s
  | .echoRequestReceived port bytes moment => Sys2Proof.Machine.execEchoRequestReceived port bytes moment s
  | .echoAnswerReceived port bytes moment => Sys2Proof.Machine.execEchoAnswerReceived port bytes moment s
  | .bayFrameReceived port bytes moment => Sys2Proof.Machine.execBayFrameReceived port bytes moment s
  | .peerStale bay => Sys2Proof.Machine.execPeerStale bay s
  | .peerAbsent bay => Sys2Proof.Machine.execPeerAbsent bay s
  | .joiningRunReset bay => Sys2Proof.Machine.execJoiningRunReset bay s
  | .transmissionEnd port => Sys2Proof.Machine.execTransmissionEnd port s
  | .quietRunEnd flag => Sys2Proof.Machine.execQuietRunEnd flag s
  | .supervisionPulseDue => Sys2Proof.Machine.execSupervisionPulseDue s
  | .supervisionPulseEnd tcs => Sys2Proof.Machine.execSupervisionPulseEnd tcs s
  | .qualified => Sys2Proof.Machine.execQualified s
  | .listenTimeout => Sys2Proof.Machine.execListenTimeout s
  | .duplicateConflictEnd => Sys2Proof.Machine.execDuplicateConflictEnd s
  | .referenceConfirmed contacts => Sys2Proof.Machine.execReferenceConfirmed contacts s
  | .referenceLoss moment => Sys2Proof.Machine.execReferenceLoss moment s
  | .powerUpTimeout => Sys2Proof.Machine.execPowerUpTimeout s
  | .confirmationWaitTimeout => Sys2Proof.Machine.execConfirmationWaitTimeout s
  | .configCheckDone contacts => Sys2Proof.Machine.execConfigCheckDone contacts s
  | .supplyLow => Sys2Proof.Machine.execSupplyLow s
  | .supplyNormal => Sys2Proof.Machine.execSupplyNormal s
  | .supplyReset => Sys2Proof.Machine.execSupplyReset s
  | .powerOnReset => Sys2Proof.Machine.execPowerOnReset s
  | .resetPinAsserted => Sys2Proof.Machine.execResetPinAsserted s
  | .resetEnd => Sys2Proof.Machine.execResetEnd s
  | .commitDone readBack => Sys2Proof.Machine.execCommitDone readBack s
  | .requestDiscarded cause => Sys2Proof.Machine.execRequestDiscarded cause s
  | .unknown code payload => Sys2Proof.Machine.execUnknown code payload s
  | .status payload => Sys2Proof.Machine.execStatus payload s
  | .select payload moment => Sys2Proof.Machine.execSelect payload moment s
  | .read payload => Sys2Proof.Machine.execRead payload s
  | .takeRecord payload => Sys2Proof.Machine.execTakeRecord payload s
  | .clearAlarms payload => Sys2Proof.Machine.execClearAlarms payload s
  | .clearCounters payload => Sys2Proof.Machine.execClearCounters payload s
  | .clearPeer payload => Sys2Proof.Machine.execClearPeer payload s
  | .testOn payload => Sys2Proof.Machine.execTestOn payload s
  | .testOff payload => Sys2Proof.Machine.execTestOff payload s
  | .stage payload => Sys2Proof.Machine.execStage payload s
  | .commit payload cfgen => Sys2Proof.Machine.execCommit payload cfgen s
  | .reset payload => Sys2Proof.Machine.execReset payload s
  | .responseSent => Sys2Proof.Machine.execResponseSent s
  | .badReferenceCycle count => Sys2Proof.Machine.execBadReferenceCycle count s

end Sys2Proof.Machine
end

