-- ==== Sys2Proof/Safety.lean ====
section
/-! DEFINITION. What a sound state of the station is, block by block, in the terms the statements use. Each predicate names the
rules it reads; that every step keeps it is stated in Certificates/Slice0/Obligations.lean. -/

namespace Sys2Proof.Machine

open Sys2Proof

/-! ## Words the statements share -/

/-- A state at a later moment of the same epoch: the tick it stands at has ended in the arbiters' choice, of which `TransmissionEnds`
speaks (R53), and LT and the epoch phase have advanced alike (R1). At the present moment, or an earlier one, it is the state itself. -/
def atMoment (m : Nat) (s : State) : State :=
  if m ≤ s.su.phase then s
  else { settle s with su := { s.su with lt := s.su.lt + BitVec.ofNat 32 (m - s.su.phase), phase := m } }

/-- The epochs of the station run on the configuration c. -/
def Runs (c : Settings) (s : State) : Prop := s.su.gen = .running ∧ s.cs.inUse = some c

/-- The bit of a port's LINK DOWN flag (11, section 11.4). -/
def linkDownBit : Port → Nat
  | .east => 3
  | .west => 4

/-- A port whose request has just departed at LT t (R37, R38): the number after the last, the counter from 0, and the frame on the
link. -/
def requestSent (c : Settings) (t : Ticks) (q : PortState) : PortState :=
  { q with
    echoNum := q.echoNum + 1
    outstanding := some (q.echoNum + 1)
    echoCounter := 0
    echoStart := t
    overflow := false
    interval := 0
    echoDue := false
    tx := some ⟨echoBytes 2 c.bay (q.echoNum + 1) 0, t, 48⟩ }

/-- The request that is due at a port departs at the end of the present tick when its transmitter and answer slot are then free (R38,
R53). -/
def RequestDeparts (c : Settings) (p : Port) (s : State) : Prop :=
  (s.port p).tx = none → (s.port p).answer = none → (settle s).port p = requestSent c s.su.lt (s.port p)

/-- The echo interval of a link state (R37). -/
def intervalOf : Link → Nat
  | .probing => 4
  | .up => 64
  | .down => 64

/-- A port that has gone from PROBING or UP to DOWN at LT t, with a hold count and its echo counter stopped at n (R35). -/
def wentDown (hold n : Nat) (t : Ticks) (q : PortState) : PortState :=
  { q with
    link := .down
    hold := hold
    delay := none
    echoCounter := n
    outstanding := none
    interval := 0
    echoDue := false
    losses := 0
    answer := none
    own := none
    transit := []
    tx := none
    departed := []
    cutAt := some t
    ctr := { q.ctr with
      linkDownDrops := min (q.ctr.linkDownDrops + (q.transit.length + q.own.isSome.toNat)) 65535
      linkDownEvents := min (q.ctr.linkDownEvents + 1) 65535 } }

/-- A frame of some ticks whose reception is complete at LT t began to arrive no earlier than the port's receptions were last cut off
(R34, R35; log 17). -/
def Uncut (q : PortState) (t : Ticks) (ticks : Nat) : Prop := ∀ d, q.cutAt = some d → ticks ≤ (t - d).toNat

/-- A frame's identity fits an entry: its tag and declaration are those the entry holds, and the sections it names are present and
make a declaration (R66). -/
def Fits (c : Settings) (e : PeerEntry) (f : BayFrame) : Prop :=
  (∀ x, e.tag = some x → x = f.tag) ∧ (∀ x, e.decl = some x → x = f.decl) ∧
  (∀ x, f.decl.side1 = some x ∨ f.decl.side2 = some x → c.present.get x = true) ∧
  f.decl.side1 ≠ none ∧ f.decl.side1 ≠ f.decl.side2 ∧ (f.decl.kind = .tie → f.decl.side2 ≠ none)

/-- A sequence passes the test of R67 and R68 on an entry: on a LIVE or JOINING one it is newer than the last. -/
def Newer (e : PeerEntry) (q : SeqNo) : Prop :=
  e.presence = .live ∨ e.presence = .joining → ∀ l, e.lastSeq = some l → 1 ≤ (q - l).toNat ∧ (q - l).toNat ≤ 32767

/-- An instant is later than the newest slot of an entry (R69). -/
def Later (e : PeerEntry) (t : Ticks) : Prop := ∀ x, e.history.getLast? = some x → 0 < (t - x.instant).toInt

/-- CONVERSION_COMPLETE of a channel at moment m is the last of the epoch under conversion f: every other channel is DONE (R3, R4). -/
def CompletesLast (c : Settings) (ph : Phase) (ch : Channel) (m : Nat) (f : Flight) (s : State) : Prop :=
  Runs c s ∧ s.su.flight = some f ∧ (s.su.chans.get ph).get ch = .converting ∧ s.su.phase ≤ m ∧ m < 10000 ∧
  ∀ ph' ch', (ph', ch') ≠ (ph, ch) → ∃ x, (s.su.chans.get ph').get ch' = .done x

/-- An installed bay is placed in the switchyard of an evaluation at τ (R103, R105, R106, R108): it is USABLE or UNUSABLE, its entry
holds declaration d and its aligned replica is r. -/
def Placed (t : State) (tau : Ticks) (y : BayTopo) (d : Decl) (r : Replica) : Prop :=
  (y.standing = .usable ∨ y.standing = .unusable) ∧ (t.entry y.bay).decl = some d ∧
  (alignHistory tau (t.entry y.bay).history).replica = some r

/-- A side of a declaration lies in a zone. -/
def sideWithin (z : SectSet) (side : Option Sect) : Prop := ∃ x, side = some x ∧ z.get x = true

/-- A zone is reached through an isolator that is counted closed (R27): isolator 1 on side 1 or isolator 2 on side 2. -/
def reaches1 (z : SectSet) (d : Decl) (r : Replica) : Prop := sideWithin z d.side1 ∧ r.iso1 ≠ .opened
/-- The same through isolator 2. -/
def reaches2 (z : SectSet) (d : Decl) (r : Replica) : Prop := sideWithin z d.side2 ∧ r.iso2 ≠ .opened

/-- A placed bay is a member of a zone with a sign, its end-zone timer standing at a count: a feeder with +1 (R105); a tie whose sides do
not both lie in the zone and whose timer does not stand at the delay, with −1 by side 1 and +1 by side 2 (R106). -/
def MemberWith (c : Settings) (z : SectSet) (timer : Nat) (d : Decl) (r : Replica) (sign : Int) : Prop :=
  (d.kind = .feeder ∧ sign = 1 ∧ (reaches1 z d r ∨ reaches2 z d r)) ∨
  (d.kind = .tie ∧ ¬ (sideWithin z d.side1 ∧ sideWithin z d.side2) ∧ timer ≠ c.endZone ∧
    (reaches1 z d r ∧ sign = -1 ∨ reaches2 z d r ∧ sign = 1))

/-- The zone of a section in the last topology is another set than a set of this instant (R110). -/
def zoneChanged (ze : ZoneEngine) (x : Sect) (now : SectSet) : Prop := ∃ z, lastZone ze.topo x = some z ∧ z ≠ now

/-- The values to which a zone phase is set back, with a blocked run (R110, R114). -/
def freshPhase (run : Nat) : ZoneState := ⟨.quiet, 0, none, 0, 0, 0, run⟩

/-- A class in which a counter of N_op gives OPERATE (R135). -/
def OperateClass (z : ZoneState) : Prop := z.cls = .quiet ∨ z.cls = .onset ∨ z.cls = .internal

/-- The derived state of a device from its accepted contacts (R24). -/
def positionOf (a b : Bool) : Switch := if a then (if b then .invalid else .closed) else if b then .opened else .travel

/-- The state chosen at the epoch 0 of a start of epochs (R161, R164, R171), from the contacts k accepted there (R21, R24, R25, R30), the
converter-failure flag, the duplicate quiet count that this epoch advances, and the maintenance test flag. The station is not
qualified there (R166), so SERVICE is no choice. -/
def choiceAtStart (c : Settings) (k : Contacts) (s : State) : RunState :=
  if s.su.convFail = true ∨ s.sc.dupQuiet + 1 < 4000 then .blocked
  else if k.oos = true ∧ positionOf k.q1a k.q1b = .opened ∧
      ((c.kind = .feeder ∧ c.side2 = none) ∨ positionOf k.q2a k.q2b = .opened) then .isolated
  else if k.tst = true ∨ s.sc.maintTest = true then .test
  else .listen

/-- The Station Controller after a start of epochs chose the state r (R161, R164, R166, R170, R171). -/
structure StartChoice (r : RunState) (s t : State) : Prop where
  station : t.sc.station = .running r
  causes : t.sc.causes = if r = .blocked then ⟨s.su.convFail, decide (s.sc.dupQuiet + 1 < 4000), false⟩ else ⟨false, false, false⟩
  unqualified : t.sc.qualified = false
  quiet : t.sc.dupQuiet = min (s.sc.dupQuiet + 1) 4000
  changes : t.sc.stateChanges =
    if s.sc.station = .running r then s.sc.stateChanges else min (s.sc.stateChanges + 1) 65535

/-- The record of the latch with the trip that was recorded, if one was, ended now in a way (R158). -/
def endedRecord (how : TripEnd) (s : State) : Option TripRecord :=
  if s.tu.recorded then s.tu.held.map fun r =>
    { r with closed := some ⟨s.su.epoch, how, s.tu.retripMade, decide (s.tu.bf = .failed)⟩ }
  else s.tu.held

/-- The state that a command reset leaves, with no commit under way (R18, R33, R62, R83, R97, R119, R160, R173, R174, R180, R187): every
block at its reset values, the COMMAND cause added, the latch holding a record, the record number, the levels and the stored block
kept. -/
def afterCommandReset (record : Option TripRecord) (s : State) : State :=
  { s with
    su := State.reset.su, ciu := State.reset.ciu, ri := Ring.reset s.ri.east.rx s.ri.west.rx, pt := State.reset.pt
    au := State.reset.au, ze := State.reset.ze, tu := { State.reset.tu with held := record, recNumber := s.tu.recNumber }
    sc := { State.reset.sc with
      supplyLow := s.sc.supplyLow, cause := { s.sc.cause with command := true }, holdSupply := s.sc.holdSupply
      holdPin := s.sc.holdPin }
    cs := { s.cs with inUse := none, staging := List.replicate 64 0, commit := .idle }
    mp := { State.reset.mp with flags := if s.sc.supplyLow then 4#19 else 0 } }

/-- The feeder links of an evaluation at τ (R103): a placed FEEDER with a second side, both isolators counted closed (R27). -/
def LinkedBy (t : State) (tp : Topology) (x y : Sect) : Prop :=
  ∃ b ∈ tp.bays, ∃ d r, Placed t tp.tau b d r ∧ d.kind = .feeder ∧ d.side1 = some x ∧ d.side2 = some y ∧
    r.iso1 ≠ .opened ∧ r.iso2 ≠ .opened

/-- A chain of links over present sections joins two sections (R104). -/
inductive Joined (present : SectSet) (links : List FeederLink) : Sect → Sect → Prop
  | refl (x : Sect) : Joined present links x x
  | step (x y z : Sect) : Joined present links x y → present.get y = true → present.get z = true →
      (y, z) ∈ links ∨ (z, y) ∈ links → Joined present links x z

/-- The state of a phase at a place that holds one: a section, or none for the check zone (R125). -/
def stateAt (ze : ZoneEngine) (ph : Phase) : Option Sect → ZoneState
  | some x => (ze.sects.get x).get ph
  | none => ze.check.get ph

/-- A place belongs to a zone: the sections of the zone that holds a section, or the check zone alone (R104, R109, R125). -/
def inZone (ze : ZoneEngine) : ZoneRef → Option Sect → Bool
  | .zone x, some y => (zoneMates ze x).get y
  | .check, none => true
  | .zone _, none => false
  | .check, some _ => false

/-- A zone phase's blocked run stands at 400, the zone named by the name it has in the last topology (R115). -/
def standsAt400 (ze : ZoneEngine) (ph : Phase) : ZoneRef → Prop
  | .zone x => ∃ y, zoneNameOf ze y = x ∧ ((ze.sects.get y).get ph).blockedRun = 400
  | .check => (ze.check.get ph).blockedRun = 400

/-- The alarm flags in the order of their bits (11, section 11.4). -/
def alarmOrder : List Alarm :=
  [.clock, .config, .supply, .linkDownE, .linkDownW, .ringOpen, .transitOverflow, .unexpectedBay, .duplicateBay, .peerStale,
   .peerConflict, .converter, .isolatorDiscrepancy, .isolationBreach, .zoneBlocked, .listenTimeout, .tripCircuit, .breakerFailure,
   .recordOverrun]

/-- The four-byte number at a place. -/
def num4 (bs : List Byte) (i : Nat) : Nat := num2 bs i * 65536 + num2 bs (i + 2)

/-- The STATUS summary, field by field at its offset (11, section 11.5); a state is coded by its place in the list of the codes. -/
structure StatusFields (s : State) (d : List Byte) : Prop where
  size : d.length = 13
  station : num1 d 0 = [Station.start, .config, .fault, .running .listen, .running .service, .running .test, .running .isolated,
    .running .blocked].idxOf s.sc.station
  causes : num1 d 1 = 4 * s.sc.causes.converter.toNat + 2 * s.sc.causes.duplicate.toNat + s.sc.causes.clock.toNat
  flags : ∀ a, (num3 d 2).testBit (alarmOrder.idxOf a) = hasFlag a s.mp.flags
  flagsOnly : num3 d 2 < 2 ^ 19
  resets : num1 d 5 =
    8 * s.sc.cause.por.toNat + 4 * s.sc.cause.supply.toNat + 2 * s.sc.cause.pin.toNat + s.sc.cause.command.toNat
  trip : num1 d 6 = [TripState.idle, .asserted, .testAsserted].idxOf s.tu.trip
  latch : num1 d 7 = s.tu.held.isSome.toNat
  commit : num1 d 8 = [CommitState.idle, .busy, .done, .failed].idxOf s.cs.commit
  epoch : num4 d 9 = s.su.epoch.toNat

/-- Id and Ir of the three phases from a place on, 3 bytes each, in the order L1 Id, L1 Ir, L2 Id and so on. -/
def SumsAt (d : List Byte) (place : Nat) (sums : PerPhase Sums) : Prop :=
  ∀ q, let i := place + 6 * [Phase.l1, .l2, .l3].idxOf q
    ((sums.get q).id < 2 ^ 24 → num3 d i = (sums.get q).id) ∧ ((sums.get q).ir < 2 ^ 24 → num3 d (i + 3) = (sums.get q).ir)

/-- The trip record as TAKE RECORD returns it, field by field at its offset, absent fields 0 (R156, R158; 11, section 11.5). A number
is read back when it fits its field. -/
structure RecordFields (r : TripRecord) (d : List Byte) : Prop where
  size : d.length = 58
  mark : num1 d 0 = 1
  number : r.number < 2 ^ 16 → num2 d 1 = r.number
  epoch : num4 d 3 = r.epoch.toNat
  station : num1 d 8 = if r.test then 5 else 4
  differential : ∀ ph z, r.cause = .differential ph z →
    num1 d 7 = 1 ∧ num1 d 9 = 4 * ph.l1.toNat + 2 * ph.l2.toNat + ph.l3.toNat ∧
    num1 d 10 = [Sect.a1, .a2, .b1, .b2].idxOf z.name + 1 ∧
    num1 d 11 = 8 * z.sections.a1.toNat + 4 * z.sections.a2.toNat + 2 * z.sections.b1.toNat + z.sections.b2.toNat ∧
    SumsAt d 12 z.sums ∧ SumsAt d 30 z.chk ∧ num2 d 48 = 0
  backtrip : ∀ b x, r.cause = .backtrip b x →
    num1 d 7 = 2 ∧ (∀ i, 9 ≤ i → i < 48 → num1 d i = 0) ∧ (b < 2 ^ 8 → num1 d 48 = b) ∧
    num1 d 49 = 8 * x.a1.toNat + 4 * x.a2.toNat + 2 * x.b1.toNat + x.b2.toNat
  opened : r.closed = none → ∀ i, 50 ≤ i → i < 58 → num1 d i = 0
  closed : ∀ x, r.closed = some x →
    num1 d 50 = 1 ∧ num4 d 51 = x.epoch.toNat ∧ num1 d 55 = [TripEnd.release, .stateChange, .reset].idxOf x.how + 1 ∧
    num1 d 56 = x.retrip.toNat ∧ num1 d 57 = x.failed.toNat

/-- The eight contact inputs (R19). -/
def contactInputs : List (Contacts → Bool) :=
  [fun k => k.q1a, fun k => k.q1b, fun k => k.q2a, fun k => k.q2b, fun k => k.cba, fun k => k.cbb, fun k => k.oos, fun k => k.tst]

/-- The maintenance port takes the request that comes (R181): requests are taken and no response is being sent. -/
def Listens (s : State) : Prop := s.sc.reference = true ∧ s.sc.station ≠ .start ∧ s.mp.receiver = .idle

/-- The state with a response of a status code and data on its way (R181, R182). -/
def answered (code : Nat) (data : List Byte) (s : State) : State :=
  { s with
    mp := { s.mp with
      receiver := .responding, request := [], response := BitVec.ofNat 8 code :: BitVec.ofNat 8 data.length :: data } }

/-- Every request with payload p, coming at the present moment and with the CFGEN strap as it stands; code is that of a request that
names no command (R181 to R183). -/
def requests (p : List Byte) (code : Byte) (s : State) : List Instr :=
  [.unknown code p, .status p, .select p s.su.phase, .read p, .takeRecord p, .clearAlarms p, .clearCounters p, .clearPeer p,
   .testOn p, .testOff p, .stage p, .commit p s.pins.cfgen, .reset p]

/-- What the own sample event that finalises record x does to the disagreement runs, converter failure, its clear run, the CONVERTER alarm
and the statistics (R10 to R13). A run that stands at 16 before while the flag is clear, as in no run of the station, is not spoken of. -/
structure SampleCounted (x : Record) (s t : State) : Prop where
  runs : ∀ q, t.su.disRun.get q = if x.val.get q = .valid then 0 else min (s.su.disRun.get q + 1) 16
  fails : s.su.convFail = false → (∃ q, s.su.disRun.get q = 15 ∧ x.val.get q ≠ .valid) →
    t.su.convFail = true ∧ t.su.clearRun = 0 ∧ t.su.convFailures = min (s.su.convFailures + 1) 65535 ∧
    t.mp.flags.getLsbD 11 = true
  sound : s.su.convFail = false → (∀ q, t.su.disRun.get q < 16) →
    t.su.convFail = false ∧ t.su.clearRun = 0 ∧ t.su.convFailures = s.su.convFailures
  clean : s.su.convFail = true → (∀ q, x.val.get q = .valid) → t.su.convFailures = s.su.convFailures ∧
    (s.su.clearRun + 1 < 4000 → t.su.convFail = true ∧ t.su.clearRun = s.su.clearRun + 1) ∧
    (4000 ≤ s.su.clearRun + 1 → t.su.convFail = false ∧ t.su.clearRun = 0)
  dirty : s.su.convFail = true → (∃ q, x.val.get q ≠ .valid) →
    t.su.convFail = true ∧ t.su.clearRun = 0 ∧ t.su.convFailures = s.su.convFailures
  disagree : t.su.disagreeSamples =
    min (s.su.disagreeSamples + [Phase.l1, .l2, .l3].countP fun q => decide (x.val.get q = .disagree)) 65535
  missing : t.su.missingSamples =
    min (s.su.missingSamples + [Phase.l1, .l2, .l3].countP fun q => decide (x.val.get q = .missing)) 65535

/-- What the own sample event of the epoch under conversion f makes of the own entry, its record being x (R76): ABSENT becomes JOINING with
joining run 1, JOINING goes LIVE at the 32nd record, and LIVE stays. The record's slot joins the history (R71). -/
structure OwnFed (c : Settings) (f : Flight) (x : Record) (e e' : PeerEntry) : Prop where
  form : e' = { e with
    presence := e'.presence, joinRun := e'.joinRun, tag := some c.tag, decl := some ⟨c.kind, some c.side1, c.side2⟩
    lastSeq := some (f.epoch.setWidth 16), fresh := 0, declared := some f.declared
    history := (if e.history.length ≥ 32 then e.history.drop 1 else e.history) ++
      [⟨f.epoch.setWidth 16, f.instant, x.cur, x.val, f.replica, f.declared⟩]
    accepted := min (e.accepted + 1) 65535 }
  absent : e.presence = .absent → e'.presence = .joining ∧ e'.joinRun = 1
  joining : e.presence = .joining →
    e'.joinRun = min (e.joinRun + 1) 32 ∧ e'.presence = if 32 ≤ e.joinRun + 1 then .live else .joining
  live : e.presence = .live → e'.presence = .live ∧ e'.joinRun = e.joinRun

/-- What ends at the tick u that a clock alone has come to: transmissions that have their ticks (R53), and echoes whose counter runs out
(R38, R41), the third loss in a row taking its port DOWN. Where none ends, nothing else happens at the tick. -/
structure TickEnds (u t : State) : Prop where
  ended : ∀ p x, (u.port p).tx = some x → x.ticks ≤ (u.su.lt - x.start).toNat → (t.port p).tx = none
  lost : ∀ p n, let q := u.port p
    q.outstanding = some n → 40000 ≤ (u.su.lt - q.echoStart).toNat → q.link ≠ .down →
    (t.port p).outstanding = none ∧ (t.port p).echoCounter = 40000 ∧ (t.port p).overflow = true ∧
    (t.port p).ctr.echoLosses = min (q.ctr.echoLosses + 1) 65535 ∧
    (q.losses < 2 → (t.port p).link = q.link ∧ (t.port p).losses = q.losses + 1) ∧
    (q.losses = 2 → (t.port p).link = .down ∧ (t.port p).hold = 256 ∧ t.mp.flags.getLsbD (linkDownBit p) = true)
  quiet : (∀ p x, (u.port p).tx = some x → (u.su.lt - x.start).toNat < x.ticks) →
    (∀ p, (u.port p).outstanding = none ∨ (u.su.lt - (u.port p).echoStart).toNat < 40000) → t = u
  rest : t = { u with ri := t.ri, mp := { u.mp with flags := t.mp.flags } }

/-- The timers of START at an idle tick (R163): the power-up timer, and after it the confirmation wait, each as its row ends it. -/
structure StartTimed (s u : State) : Prop where
  elsewhere : s.sc.station ≠ .start → u = s
  counts : s.sc.station = .start → s.sc.powerUp + 1 < 2560000 → u = { s with sc := { s.sc with powerUp := s.sc.powerUp + 1 } }
  ends : s.sc.station = .start → s.sc.powerUp + 1 = 2560000 → exec .powerUpTimeout s = .next u
  waits : s.sc.station = .start → s.sc.powerUp = 2560000 → s.sc.confirmed = false → s.sc.wait + 1 < 40000000 →
    u = { s with sc := { s.sc with wait := s.sc.wait + 1 } }
  waitEnds : s.sc.station = .start → s.sc.powerUp = 2560000 → s.sc.confirmed = false → s.sc.wait + 1 = 40000000 →
    exec .confirmationWaitTimeout s = .next u
  stands : s.sc.station = .start → s.sc.powerUp = 2560000 → s.sc.confirmed = true ∨ s.sc.wait = 40000000 → u = s

/-- The monitor at an idle tick of a station whose epochs are stopped: while it is UNCONFIRMED, one good cycle (R162; log 10). -/
structure MonitorTicked (u t : State) : Prop where
  confirmed : u.sc.confirmed = true → t = u
  first : u.sc.confirmed = false → u.sc.lastCycle = none →
    t = { u with sc := { u.sc with goodRun := 0, lastCycle := some 16 } }
  run : u.sc.confirmed = false → ∀ n, u.sc.lastCycle = some n → n ≤ 64 → u.sc.goodRun + 1 < 1024 →
    t = { u with sc := { u.sc with goodRun := u.sc.goodRun + 1 } }
  done : u.sc.confirmed = false → ∀ n, u.sc.lastCycle = some n → n ≤ 64 → u.sc.goodRun + 1 = 1024 →
    exec (.referenceConfirmed u.pins.contacts) u = .next t

/-- The ports at a start of epochs, where LT is 0 (R34): one that is DOWN without a hold, its receive signal present, enters PROBING with
a request due, which the arbiter sends at LT 0 when its transmitter and answer slot are empty; one without a signal stays DOWN. No frame
that began to arrive before is taken in (the mark `cutAt`: log 17). Epoch 0 counts in both quiet runs (R59). -/
structure RingStarted (c : Settings) (s t : State) : Prop where
  probes : ∀ p, (s.port p).link = .down → (s.port p).hold = 0 → (s.port p).rx = true →
    t.port p = { s.port p with link := .probing, losses := 0, echoDue := true, cutAt := some 0 } ∧
    ((s.port p).tx = none → (s.port p).answer = none →
      (settle t).port p = requestSent c 0 (t.port p))
  stays : ∀ p, (s.port p).link = .down → (s.port p).rx = false → t.port p = { s.port p with cutAt := some 0 }
  quiet : t.ri.overflowQuiet = min (s.ri.overflowQuiet + 1) 4000 ∧ t.ri.unexpectedQuiet = min (s.ri.unexpectedQuiet + 1) 4000 ∧
    t.ri.unexpectedDetail = s.ri.unexpectedDetail

/-- A trip is asserted (R143, R144, R153, R159), TEST ASSERTED or ASSERTED, by a backtrip request or by the differential condition:
ASSERTED drives coil 1 and takes it from a supervision pulse; TEST ASSERTED drives nothing and leaves a pulse to run on. -/
structure TripAsserted (c : Settings) (test backtrip : Bool) (s t : State) : Prop where
  trip : t.tu.trip = if test then .testAsserted else .asserted
  coil1 : t.tu.coil1 = if test then s.tu.coil1 else .trip
  coil2 : t.tu.coil2 = s.tu.coil2
  timers : t.tu.sealIn = c.tSeal ∧ t.tu.retrip = 0 ∧ t.tu.retripMade = false ∧ t.tu.bfTimer = 0
  bf : t.tu.bf = .timing ∧ t.tu.backtrip = s.tu.backtrip
  supervision : t.tu.pulse = (if test then s.tu.pulse else none) ∧ t.tu.supCount = s.tu.supCount ∧ t.tu.supFails = s.tu.supFails
  counters : t.tu.ctr = { s.tu.ctr with
    differentialTrips := if !test && !backtrip then min (s.tu.ctr.differentialTrips + 1) 65535 else s.tu.ctr.differentialTrips
    backtripTrips := if !test && backtrip then min (s.tu.ctr.backtripTrips + 1) 65535 else s.tu.ctr.backtripTrips
    testTrips := if test then min (s.tu.ctr.testTrips + 1) 65535 else s.tu.ctr.testTrips
    supAbandons := if !test && s.tu.pulse.isSome then min (s.tu.ctr.supAbandons + 1) 65535 else s.tu.ctr.supAbandons
    recordOverruns := if s.tu.held.isSome then min (s.tu.ctr.recordOverruns + 1) 65535 else s.tu.ctr.recordOverruns }
  rest : t = { s with tu := t.tu, mp := { s.mp with flags := t.mp.flags } }

/-- The record of an assertion (R155, R156): an EMPTY latch takes it, OPEN and under the next number; a HELD latch keeps its record, and
RECORD OVERRUN is set. -/
structure RecordTaken (test : Bool) (cause : TripCause) (k : EpochNo) (s t : State) : Prop where
  captured : s.tu.held = none →
    let n := if 65535 ≤ s.tu.recNumber then 1 else s.tu.recNumber + 1
    t.tu.held = some ⟨n, k, test, cause, none⟩ ∧ t.tu.recNumber = n ∧ t.tu.recorded = true ∧ t.mp = s.mp
  overrun : s.tu.held ≠ none → t.tu.held = s.tu.held ∧ t.tu.recNumber = s.tu.recNumber ∧ t.tu.recorded = false ∧
    t.mp.flags = s.mp.flags ||| BitVec.twoPow 19 18

/-- A phase in which some zone holding the own bay and the check zone both give OPERATE (R141). -/
def TripsIn (tp : Topology) (ph : Phase) : Prop :=
  (∃ x ∈ tp.ownZones, zoneOperates tp x ph = true) ∧ (tp.chk.get ph).operate = true

/-- One section is named before another (R104). -/
def namedBefore (x y : Sect) : Prop := [Sect.a1, .a2, .b1, .b2].idxOf x < [Sect.a1, .a2, .b1, .b2].idxOf y

/-- The cause that a differential trip records (R156): its tripping phases, and the name, the sections and the sums of a zone holding the
own bay that gives OPERATE in one of them, with the check zone's sums. No other such zone is named before it, when the topology lists
the zones holding the own bay by their names. -/
def DifferentialRecord (tp : Topology) (q : TripCause) : Prop :=
  ∃ phases zone, ∃ z ∈ tp.zones, q = .differential phases zone ∧ z.name ∈ tp.ownZones ∧
    (∀ ph, phases.get ph = true ↔ TripsIn tp ph) ∧ (∃ ph, TripsIn tp ph ∧ (z.phases.get ph).operate = true) ∧
    zone.name = z.name ∧ zone.sections = z.sections ∧
    (∀ ph, zone.sums.get ph = ⟨(z.phases.get ph).id, (z.phases.get ph).ir⟩ ∧
      zone.chk.get ph = ⟨(tp.chk.get ph).id, (tp.chk.get ph).ir⟩) ∧
    (tp.ownZones.Pairwise namedBefore →
      ∀ x ∈ tp.ownZones, (∃ ph, TripsIn tp ph ∧ zoneOperates tp x ph = true) → ¬ namedBefore x z.name)

/-! ## The layouts of the readable tables (11, section 11.5; what the rules leave open there is log 11) -/

/-- Fields in order, each with its number of bytes and its value. -/
abbrev Layout := List (Nat × Nat)

/-- The value of bytes, most significant byte first. -/
def valueOf (bs : List Byte) : Nat := bs.foldl (fun n b => n * 256 + b.toNat) 0

/-- Bytes hold the fields of a layout one after the other, and nothing more. A value is read back when it fits its field. -/
def LaidOut : Layout → List Byte → Prop
  | [], d => d = []
  | (w, n) :: rest, d => w ≤ d.length ∧ (n < 256 ^ w → valueOf (d.take w) = n) ∧ LaidOut rest (d.drop w)

/-- A number whose bits are given, the most significant first. -/
def bitsOf (l : List Bool) : Nat := l.foldl (fun n b => 2 * n + b.toNat) 0

/-- A set of flags by the flags' bit numbers (11, section 11.4). -/
def flagBits (p : Alarm → Bool) : Nat := bitsOf (alarmOrder.reverse.map p)

/-- A set of sections: A1 bit 3, A2 bit 2, B1 bit 1, B2 bit 0. -/
def sectBits (x : SectSet) : Nat := bitsOf [x.a1, x.a2, x.b1, x.b2]

/-- A field that may be none: a presence byte, then the field's bytes, every one 255 when it is none. -/
def orNone {α : Type} (width : Nat) (f : α → Layout) : Option α → Layout
  | some x => (1, 1) :: f x
  | none => (1, 0) :: List.replicate width (1, 255)

/-- A list: a 1-byte count, then the items. -/
def itemsOf {α : Type} (f : α → Layout) (l : List α) : Layout := (1, l.length) :: l.flatMap f

/-- One field or more for each phase, in the order L1, L2, L3. -/
def eachPhase {α : Type} (f : α → Layout) (p : PerPhase α) : Layout := f p.l1 ++ f p.l2 ++ f p.l3

/-- The station states by their codes. -/
def stationOrder : List Station :=
  [.start, .config, .fault, .running .listen, .running .service, .running .test, .running .isolated, .running .blocked]

/-- The declared states in the order in which R63 lists them; a frame and a slot code them from 3 on. -/
def declaredOrder : List RunState := [.listen, .service, .test, .isolated, .blocked]

/-- A section or NONE by its code. -/
def sideNumber (x : Option Sect) : Nat := [none, some Sect.a1, some .a2, some .b1, some .b2].idxOf x

/-- A switch state by its code. -/
def switchNumber (x : Switch) : Nat := [Switch.opened, .closed, .travel, .invalid].idxOf x

/-- A declaration. -/
def declLayout (d : Decl) : Layout :=
  [(1, [BayKind.feeder, .tie].idxOf d.kind + 1), (1, sideNumber d.side1), (1, sideNumber d.side2)]

/-- An epoch number and a computing instant, each of which may be none. -/
def instantLayout (x : Option (EpochNo × Ticks)) : Layout :=
  orNone 4 (fun y => [(4, y.1.toNat)]) x ++ orNone 4 (fun y => [(4, y.2.toNat)]) x

/-- The state of the Station Controller, as section 9 lists it. -/
def controllerLayout (u : Controller) : Layout :=
  [(1, stationOrder.idxOf u.station), (1, bitsOf [u.causes.converter, u.causes.duplicate, u.causes.clock]), (1, u.reference.toNat),
   (1, u.confirmed.toNat), (2, u.goodRun), (4, u.powerUp / 40), (4, u.wait / 40), (2, u.qualCount), (1, u.qualified.toNat),
   (2, u.listen), (2, u.dupQuiet), (1, u.maintTest.toNat), (1, u.supplyLow.toNat),
   (1, bitsOf [u.cause.por, u.cause.supply, u.cause.pin, u.cause.command])]

/-- The state of the Contact Input Unit (R32). -/
def contactLayout (u : ContactUnit) : Layout :=
  contactInputs.flatMap (fun g => orNone 1 (fun a => [(1, (g a).toNat)]) u.accepted ++ [(1, (g u.pending).toNat)]) ++
  [Replica.iso1, Replica.iso2, Replica.breaker].flatMap (fun g => orNone 1 (fun r => [(1, switchNumber (g r))]) u.derived) ++
  [DevPair.q1, .q2, .cb].flatMap fun q => [(4, u.discTimer.get q), (1, (u.discMark.get q).toNat)]

/-- The state of the Trip Unit (R159). -/
def tripLayout (u : TripUnit) : Layout :=
  [(1, [TripState.idle, .asserted, .testAsserted].idxOf u.trip), (1, [Coil1.off, .supervision, .trip].idxOf u.coil1),
   (1, [Coil2.off, .trip].idxOf u.coil2), (2, u.sealIn), (2, u.retrip), (2, u.bfTimer), (1, u.retripMade.toNat),
   (1, [BfState.idle, .timing, .failed].idxOf u.bf), (1, sectBits u.backtrip), (2, u.supCount)] ++
  orNone 1 (fun n => [(1, n)]) u.pulse ++ [(1, u.supFails), (1, u.held.isSome.toNat), (2, u.recNumber)]

/-- STATUS: the Station Controller, R32, R98, the Trip Unit part of R159 and the commit state. -/
def statusLayout (s : State) : Layout :=
  controllerLayout s.sc ++ contactLayout s.ciu ++ instantLayout (s.au.latest.map fun x => (x.epoch, x.tau)) ++ tripLayout s.tu ++
  [(1, [CommitState.idle, .busy, .done, .failed].idxOf s.cs.commit)]

/-- A replica. -/
def replicaLayout (r : Replica) : Layout := [(1, switchNumber r.iso1), (1, switchNumber r.iso2), (1, switchNumber r.breaker)]

/-- A history slot in PEER. -/
def slotLayout (x : Slot) : Layout :=
  [(2, x.seqNo.toNat), (4, x.instant.toNat)] ++ eachPhase (fun v => [(2, (v % 65536).toNat)]) x.cur ++
  eachPhase (fun v => [(1, [Validity.valid, .disagree, .missing].idxOf v)]) x.val ++ replicaLayout x.replica ++
  [(1, declaredOrder.idxOf x.declared + 3)]

/-- PEER (R81). -/
def peerLayout (e : PeerEntry) : Layout :=
  [(1, [Presence.absent, .joining, .live, .stale, .conflict].idxOf e.presence)] ++ orNone 2 (fun n => [(2, n)]) e.tag ++
  orNone 3 declLayout e.decl ++ orNone 2 (fun q => [(2, q.toNat)]) e.lastSeq ++ [(2, e.fresh), (1, e.joinRun)] ++
  orNone 1 (fun r => [(1, declaredOrder.idxOf r)]) e.declared ++ [(1, sectBits e.backtrip)] ++
  orNone 1 (fun p => [(1, [Port.east, .west].idxOf p)]) e.lastPort ++
  orNone 11 (fun x => [(1, [Misfit.tag, .declaration, .sections].idxOf x.reason), (2, x.tag)] ++ declLayout x.decl ++
    [(4, x.epoch.toNat), (1, [Port.east, .west].idxOf x.port)]) e.conflict ++
  [(2, e.accepted), (2, e.duplicates), (2, e.orders), (2, e.conflicts), (2, e.stales)] ++ itemsOf slotLayout e.history

/-- The state of a zone phase in ZONE and CHECK ZONE. -/
def phaseLayout (z : ZoneState) : Layout :=
  [(1, [ZoneClass.quiet, .onset, .internal, .through, .external].idxOf z.cls), (1, z.counter)] ++
  orNone 1 (fun n => [(1, n)]) z.onset ++ [(2, z.stab), (1, z.quietRun), (1, z.evolve), (2, z.blockedRun)]

/-- What the last topology holds of a phase. -/
def resultLayout (r : PhaseResult) : Layout := [(1, r.blocked.toNat), (3, r.id), (3, r.ir), (1, r.operate.toNat)]

/-- A member with its sign. -/
def memberLayout (x : Member) : Layout := [(1, bayNumber x.bay), (1, (x.sign % 256).toNat)]

/-- ZONE of a section (R117), with the ties whose end-zone timers it shows. -/
def zoneLayout (s : State) (x : Sect) (ties : List Bay) : Layout :=
  eachPhase phaseLayout (s.ze.sects.get x) ++
  orNone 27 (fun z => [(1, sideNumber (some z.name)), (1, sectBits z.sections)] ++ itemsOf memberLayout z.members ++
    eachPhase resultLayout z.phases) (s.ze.topo.bind fun t => t.zones.find? fun z => z.sections.get x) ++
  itemsOf (fun b => [(1, bayNumber b), (2, s.ze.endZone.getD b.val 0),
    (1, (decide (s.cs.inUse.map Settings.endZone = some (s.ze.endZone.getD b.val 0))).toNat)]) ties ++
  instantLayout (s.ze.topo.map fun t => (t.epoch, t.tau))

/-- CHECK ZONE (R117). -/
def checkLayout (s : State) : Layout :=
  eachPhase phaseLayout s.ze.check ++
  orNone 25 (fun t : Topology => itemsOf memberLayout t.chkMembers ++ eachPhase resultLayout t.chk) s.ze.topo ++
  instantLayout (s.ze.topo.map fun t => (t.epoch, t.tau))

/-- The counters of a port, in the order of R60. -/
def portNumbers (k : PortCounters) : List Nat :=
  [k.framesReceived, k.checkFailures, k.notUpDrops, k.hopDrops, k.ownReturns, k.duplicateBays, k.foreignFrames, k.unexpectedBays,
   k.transitOverflows, k.latencyDrops, k.agedDrops, k.linkDownDrops, k.forwarded, k.ownSent, k.ownOverruns, k.goodEchoes,
   k.echoLosses, k.staleEchoes, k.linkDownEvents, k.ringOpenEvents]

/-- LINK of a port (R61). -/
def linkLayout (lt : Ticks) (q : PortState) : Layout :=
  [(1, [Link.down, .probing, .up].idxOf q.link), (2, q.hold)] ++ orNone 2 (fun n => [(2, n)]) q.delay ++
  [(2, if q.outstanding.isSome then min (lt - q.echoStart).toNat 40000 else q.echoCounter), (1, q.overflow.toNat), (2, q.turnaround),
   (1, q.echoNum.toNat), (1, q.outstanding.isSome.toNat), (1, q.losses), (1, q.answer.isSome.toNat), (1, q.own.isSome.toNat),
   (1, q.transit.length), (1, q.opened.toNat), (1, q.departed.length)] ++ (portNumbers q.ctr).map fun n => (2, n)

/-- COUNTERS: the counters of R13, R23, R60 (East, then West) and R159, then STATE CHANGES and PORT ERRORS. -/
def countersLayout (s : State) : Layout :=
  ([s.su.disagreeSamples, s.su.missingSamples, s.su.convFailures, s.ciu.changes, s.ciu.bounces] ++ portNumbers s.ri.east.ctr ++
   portNumbers s.ri.west.ctr ++
   [s.tu.ctr.differentialTrips, s.tu.ctr.backtripTrips, s.tu.ctr.testTrips, s.tu.ctr.retrips, s.tu.ctr.breakerFailures,
    s.tu.ctr.backtripsReceived, s.tu.ctr.backtripsIgnored, s.tu.ctr.backtripsUnmatched, s.tu.ctr.supFailures, s.tu.ctr.supSkips,
    s.tu.ctr.supAbandons, s.tu.ctr.recordOverruns, s.sc.stateChanges, s.mp.portErrors]).map fun n => (2, n)

/-- ALARMS: the flags, the causes held, the enable set of R186 and the three details. -/
def alarmsLayout (s : State) : Layout :=
  [(3, flagBits fun a => hasFlag a s.mp.flags), (3, flagBits (alarmCause s)),
   (3, flagBits fun a => decide (a = .clock ∨ a = .config) || s.cs.inUse.any fun c => hasFlag a c.alarmEnable)] ++
  itemsOf (fun q => [(1, [DevPair.q1, .q2, .cb].idxOf q)]) ([DevPair.q1, .q2, .cb].filter s.ciu.discDetail.get) ++
  orNone 1 (fun n => [(1, n)]) s.ri.unexpectedDetail ++
  itemsOf (fun x => [(1, [ZoneRef.check, .zone .a1, .zone .a2, .zone .b1, .zone .b2].idxOf x.1), (1, [Phase.l1, .l2, .l3].idxOf x.2)])
    s.ze.blockedDetail

/-- Bytes 0 to 61 of a configuration block (11, section 11.5). -/
def blockLayout (c : Settings) : Layout :=
  [(2, c.scheme), (2, c.tag), (1, bayNumber c.bay), (1, [BayKind.feeder, .tie].idxOf c.kind + 1), (1, sideNumber (some c.side1)),
   (1, sideNumber c.side2), (3, c.installed.toNat), (1, sectBits c.present), (2, c.scale), (1, c.inverted.toNat), (2, c.iMin), (1, c.k),
   (2, c.iChkMin), (1, c.kChk), (2, c.iOnset), (1, c.window), (1, c.nOp), (2, c.tStab), (1, c.delay), (1, c.filterTick),
   (3, c.isoAlarm), (2, c.endZone), (2, c.tSeal), (2, c.tRetrip), (2, c.tBf), (2, c.iBf), (1, c.breakerCheck.toNat),
   (3, flagBits fun a => hasFlag a c.alarmEnable)] ++ List.replicate 16 (1, 0)

/-- The ties whose end-zone timers a ZONE table shows, by bay number (R117, R100; log 11): the installed bays of the in-use copy that are
not in CONFLICT and hold a declaration TIE with the section on a side. -/
def ShownTies (s : State) (x : Sect) (ties : List Bay) : Prop :=
  ties.Pairwise (· < ·) ∧ ∀ b, b ∈ ties ↔ ∃ c d, s.cs.inUse = some c ∧ c.hasBay b = true ∧ (s.entry b).presence ≠ .conflict ∧
    (s.entry b).decl = some d ∧ d.kind = .tie ∧ (d.side1 = some x ∨ d.side2 = some x)

/-- The codes of the tables, from 1. -/
def tableOrder : List Table := [.status, .peer, .zone, .checkZone, .link, .counters, .alarms, .configInUse, .configStored]

/-- The indexes of a table (R184). -/
def tableIndexes : Table → List Nat
  | .peer => List.range' 1 24
  | .zone => [1, 2, 3, 4]
  | .link => [1, 2]
  | .status => [0]
  | .checkZone => [0]
  | .counters => [0]
  | .alarms => [0]
  | .configInUse => [0]
  | .configStored => [0]

/-- The bytes of a table at an index, as the state stands (R184, R188; 11, sections 11.3 and 11.5). -/
def TableBytes (s : State) (n : Nat) (d : List Byte) : Table → Prop
  | .status => LaidOut (statusLayout s) d
  | .peer => ∀ b, bayNumber b = n → LaidOut (peerLayout (s.entry b)) d
  | .zone => ∀ x, sideNumber (some x) = n → ∃ ties, ShownTies s x ties ∧ LaidOut (zoneLayout s x ties) d
  | .checkZone => LaidOut (checkLayout s) d
  | .link => LaidOut (linkLayout s.su.lt (s.port (if n = 1 then .east else .west))) d
  | .counters => LaidOut (countersLayout s) d
  | .alarms => LaidOut (alarmsLayout s) d
  | .configInUse => d.length = 64 ∧ (s.cs.inUse = none → ∀ i < 64, num1 d i = 255) ∧
      ∀ c, s.cs.inUse = some c → LaidOut (blockLayout c) (d.take 62) ∧ crcOk 64 d = true
  | .configStored => d = s.cs.block

/-! ## Coils and trips -/

/-- A coil is at trip level only while a trip is ASSERTED, a trip is ASSERTED only in SERVICE and TEST ASSERTED only in TEST, a
supervision pulse is under way exactly while coil 1 is in supervision mode, and BF is IDLE exactly while no trip is on
(R140, R144, R148, R152). -/
structure TripSound (s : State) : Prop where
  coil1_asserted : s.tu.coil1 = .trip ↔ s.tu.trip = .asserted
  coil2_asserted : s.tu.coil2 = .trip → s.tu.trip = .asserted
  asserted_service : s.tu.trip = .asserted → s.sc.station = .running .service
  test_test : s.tu.trip = .testAsserted → s.sc.station = .running .test
  pulse_supervision : s.tu.coil1 = .supervision ↔ s.tu.pulse.isSome
  bf_idle : s.tu.bf = .idle ↔ s.tu.trip = .idle
  backtrip_failed : s.tu.backtrip ≠ noSects → s.tu.trip = .asserted ∧ s.tu.bf = .failed

/-- The record the latch holds is open exactly while the trip that was recorded is on (R155 to R158). -/
structure RecordSound (s : State) : Prop where
  recorded_open : s.tu.recorded = true ↔ ∃ r, s.tu.held = some r ∧ r.closed = none
  recorded_on : s.tu.recorded = true → s.tu.trip ≠ .idle

/-! ## Station states -/

/-- The station states agree with the clock, the configuration and the causes (R2, R161, R163 to R166, R171, R176): epochs run
exactly in a running state without cause CLOCK, an in-use copy is held exactly in the running states, causes are held exactly in
BLOCKED, a station that is BLOCKED or stopped is not qualified, and a CONFIRMED monitor has a cycle to compare the next with (R162). -/
structure ModeSound (s : State) : Prop where
  running_iff : s.su.gen = .running ↔ (∃ r, s.sc.station = .running r) ∧ s.sc.causes.clock = false
  running_clock : s.su.gen = .running → s.sc.reference = true ∧ s.sc.confirmed = true
  config_clock : s.sc.station = .config → s.sc.reference = true ∧ s.sc.confirmed = true
  copy_iff : s.cs.inUse.isSome = true ↔ ∃ r, s.sc.station = .running r
  causes_iff : s.sc.causes ≠ noCauses ↔ s.sc.station = .running .blocked
  blocked_unqualified : s.sc.station = .running .blocked → s.sc.qualified = false ∧ s.sc.qualCount = 0
  stopped_unqualified : s.su.gen = .stopped → s.sc.qualified = false ∧ s.sc.qualCount = 0
  held_start : s.held = true → s.sc.station = .start
  confirmed_cycle : s.sc.confirmed = true → s.sc.lastCycle.isSome = true

/-- The in-use copy is one that the check of R175 passes (R176). -/
def CopyGood (s : State) : Prop := ∀ c, s.cs.inUse = some c → c.ok = true

/-- A command reset waits only while the response to RESET is being sent (R173, R181). -/
def ResetWaits (s : State) : Prop := s.sc.resetPending = true → s.mp.receiver = .responding

/-- The stored block and the staging buffer are 64 bytes each (R175, R177). -/
def StoreSized (s : State) : Prop := s.cs.block.length = 64 ∧ s.cs.staging.length = 64

/-! ## Ranges -/

/-- The Sampling Unit: LT as R1 gives it, while epochs run the epoch under conversion with its instant and no channel IDLE (R2, R3), and
the ranges (R1, R10, R12, R13, R16). -/
structure SamplingSound (u : Sampling) : Prop where
  phase : u.phase < 10000
  time : u.lt = u.epoch * 10000 + BitVec.ofNat 32 u.phase
  flight : u.gen = .running → (∀ ph ch, (u.chans.get ph).get ch ≠ .idle) ∧
    ∃ f, u.flight = some f ∧ f.epoch = u.epoch ∧ f.instant = u.lt - BitVec.ofNat 32 u.phase
  runs : ∀ ph, u.disRun.get ph ≤ 16
  clear : u.clearRun ≤ 4000
  clear_flag : u.convFail = false → u.clearRun = 0
  peak : u.peak.length ≤ 80
  counters : u.disagreeSamples ≤ 65535 ∧ u.missingSamples ≤ 65535 ∧ u.convFailures ≤ 65535

/-- The counters of the Contact Input Unit keep their range (R23). -/
def ContactsSound (u : ContactUnit) : Prop := u.changes ≤ 65535 ∧ u.bounces ≤ 65535

/-- The ranges of the Station Controller (R161, R162, R163, R166, R167, R170). -/
structure ControllerSound (u : Controller) : Prop where
  goodRun : u.goodRun ≤ 1024
  powerUp : u.powerUp ≤ powerUpLimit
  wait : u.wait ≤ waitLimit
  qualCount : u.qualCount ≤ 400
  listen : u.listen ≤ 40000
  dupQuiet : u.dupQuiet ≤ 4000
  stateChanges : u.stateChanges ≤ 65535

/-- A port: what DOWN leaves, that only an UP port has bay frames to send, what UP holds, and the ranges (R35, R36, R38, R40, R41, R48,
R53, R57, R60). -/
structure PortSound (q : PortState) : Prop where
  down : q.link = .down → q.delay = none ∧ q.outstanding = none ∧ q.echoDue = false ∧ q.losses = 0 ∧ q.departed = []
  dark : q.link ≠ .up → q.own = none ∧ q.transit = []
  hold : q.hold ≤ 256 ∧ (q.hold ≠ 0 → q.link = .down)
  up : q.link = .up → q.delay.isSome = true
  delay : ∀ d, q.delay = some d → d ≤ 4000
  echo : q.echoCounter ≤ 40000 ∧ q.interval ≤ 64 ∧ q.losses < 3
  transit : q.transit.length ≤ 4
  counters : ∀ n ∈ portNumbers q.ctr, n ≤ 65535

/-- Both ports and the quiet runs (R59). -/
structure RingSound (r : Ring) : Prop where
  ports : ∀ p, PortSound (r.port p)
  quiet : r.overflowQuiet ≤ 4000 ∧ r.unexpectedQuiet ≤ 4000

/-- While epochs are stopped both ports are DOWN (R34, R35). -/
def StopsDark (s : State) : Prop := s.su.gen = .stopped → ∀ p, (s.port p).link = .down

/-- A channel converts (R3). -/
def Converting (s : State) : Prop := ∃ ph ch, (s.su.chans.get ph).get ch = .converting

/-- The own frames of a station whose epochs run, by their sequences (R42, R56, R57). A direction's list is in the order of departure, of at
most 8 sequences, each at most 7 after any before it. A waiting own frame is that of the newest record and in no list, and the frame of
the epoch under conversion is in no list yet. -/
structure FramesInOrder (s : State) : Prop where
  lists : ∀ p, (s.port p).departed.length ≤ 8 ∧
    (s.port p).departed.Pairwise fun e f => 1 ≤ (f - e).toNat ∧ (f - e).toNat ≤ 7
  listed : s.su.gen = .running → Converting s → ∀ p, s.su.epoch.setWidth 16 ∉ (s.port p).departed
  waiting : s.su.gen = .running → ∀ p o, (s.port p).own = some o → o.frame.seqNo ∉ (s.port p).departed ∧
    (Converting s → o.frame.seqNo = s.su.epoch.setWidth 16 - 1) ∧ (¬ Converting s → o.frame.seqNo = s.su.epoch.setWidth 16)

/-- No sequence has stood in a list for 32,767 epochs. R57 tells a newer sequence from an older by their difference modulo 65,536, which
fails beyond that; only an outside that ends no transmission of a port for eight seconds leaves one standing so long. -/
def ListsRecent (s : State) : Prop := ∀ p, ∀ e ∈ (s.port p).departed, (s.su.epoch.setWidth 16 - e).toNat < 32767

/-- A peer entry: its ranges, the instants of its history from oldest to newest, each later than the one before it, what ABSENT and
CONFLICT leave, and the conflict detail (R63, R69, R71, R72, R74, R75, R80). -/
structure EntrySound (e : PeerEntry) : Prop where
  ranges : e.fresh ≤ 4095 ∧ e.joinRun ≤ 32 ∧ e.history.length ≤ 32
  ordered : e.history.IsChain fun x y => 0 < (y.instant - x.instant).toInt
  counters : ∀ n ∈ [e.accepted, e.duplicates, e.orders, e.conflicts, e.stales], n ≤ 65535
  absent : e.presence = .absent → e.history = [] ∧ e.lastSeq = none ∧ e.joinRun = 0 ∧ e.backtrip = noSects
  inConflict : e.presence = .conflict → e.history = [] ∧ e.lastSeq = none ∧ e.joinRun = 0 ∧ e.backtrip = noSects ∧ e.declared = none
  detail : e.conflict.isSome = true ↔ e.presence = .conflict
  live : e.presence = .live → e.lastSeq.isSome = true

/-- The table has 24 sound entries (R63). -/
structure PeersSound (t : Peers) : Prop where
  size : t.entries.length = 24
  entries : ∀ e ∈ t.entries, EntrySound e

/-- The own entry is never in CONFLICT (R78), and before a configuration is in use no entry is. -/
def OwnNotInConflict (s : State) : Prop :=
  ∀ b : Bay, (∀ c, s.cs.inUse = some c → b = c.bay) → (s.entry b).presence ≠ .conflict

/-- The newest slot of the own history is that of the present epoch, or of the epoch before it while a conversion is under way (R76). -/
def OwnInOrder (s : State) : Prop :=
  ∀ c x, Runs c s → (s.entry c.bay).history.getLast? = some x →
    let instant := s.su.lt - BitVec.ofNat 32 s.su.phase
    (Converting s → x.instant = instant - 10000) ∧ (¬ Converting s → x.instant = instant)

/-- A zone phase: the onset index is held in ONSET alone, the timers of EXTERNAL in EXTERNAL alone, where the counter stands at
0, and the runs keep their ranges (R115, R125, R127, R129 to R134). -/
structure ZoneStateSound (z : ZoneState) : Prop where
  onset : z.onset.isSome = true ↔ z.cls = .onset
  external : z.cls = .external → z.counter = 0
  others : z.cls ≠ .external → z.stab = 0 ∧ z.evolve = 0
  quiet : z.cls = .quiet → z.quietRun = 0
  ranges : z.counter ≤ 31 ∧ z.quietRun ≤ 80 ∧ z.blockedRun ≤ 400

/-- Every zone phase of the sections and of the check zone is sound (R125). -/
structure ZonesSound (ze : ZoneEngine) : Prop where
  sects : ∀ x ph, ZoneStateSound ((ze.sects.get x).get ph)
  check : ∀ ph, ZoneStateSound (ze.check.get ph)

/-- The sections of each zone of the last topology hold equal states; its zones have no section in common and are those of the sections
present; a section of no zone keeps its set-back values (R104, R125). -/
structure ZonesTogether (s : State) : Prop where
  together : ∀ t, s.ze.topo = some t → ∀ z ∈ t.zones, ∀ x y, z.sections.get x = true → z.sections.get y = true →
    s.ze.sects.get x = s.ze.sects.get y
  apart : ∀ t, s.ze.topo = some t → ∀ z ∈ t.zones, ∀ w ∈ t.zones, ∀ x, z.sections.get x = true → w.sections.get x = true →
    z.sections = w.sections
  covers : ∀ c t, s.cs.inUse = some c → s.ze.topo = some t → ∀ x,
    c.present.get x = true ↔ ∃ z ∈ t.zones, z.sections.get x = true
  outside : ∀ x, (∀ t, s.ze.topo = some t → ∀ z ∈ t.zones, z.sections.get x = false) →
    ∀ ph, (s.ze.sects.get x).get ph = freshPhase 0

/-- A zone phase against the settings, which R175 bounds: the onset index from 1 and below W, the most 8; the stabilisation timer up to
T_stab, the most 800; the evolve run below N_op, the most 16 (R125, R129, R131 to R133). -/
structure PhaseTimed (c : Settings) (z : ZoneState) : Prop where
  onset : ∀ n, z.onset = some n → 1 ≤ n ∧ n < c.window
  stab : z.stab ≤ c.tStab
  evolve : z.evolve < c.nOp
  settings : c.window ≤ 8 ∧ c.tStab ≤ 800 ∧ c.nOp ≤ 16

/-- Every zone phase of the sections and of the check zone keeps to the settings in use (R125). -/
def ZonesTimed (s : State) : Prop :=
  ∀ c, s.cs.inUse = some c → ∀ ph, (∀ x, PhaseTimed c ((s.ze.sects.get x).get ph)) ∧ PhaseTimed c (s.ze.check.get ph)

/-- The counters of the Trip Unit (R159). -/
def tripNumbers (k : TripCounters) : List Nat :=
  [k.differentialTrips, k.backtripTrips, k.testTrips, k.retrips, k.breakerFailures, k.backtripsReceived, k.backtripsIgnored,
   k.backtripsUnmatched, k.supFailures, k.supSkips, k.supAbandons, k.recordOverruns]

/-- The ranges of the Trip Unit (R152, R154, R156, R159). -/
structure TripRanges (u : TripUnit) : Prop where
  counters : ∀ n ∈ tripNumbers u.ctr, n ≤ 65535
  supCount : u.supCount ≤ 1024
  pulse : ∀ n, u.pulse = some n → 1 ≤ n ∧ n ≤ 8
  supFails : u.supFails ≤ 3
  recNumber : u.recNumber ≤ 65535

end Sys2Proof.Machine
end

