-- ==== Sys2Proof/Certificates/Slice0/Obligations.lean ====
section
/-! DEFINITION. The statements for the provers: what the commands do to the state, rule by rule, and the invariants that every step
keeps. Each docstring names the rules of spec/ it reads. -/

open Sys2Proof Sys2Proof.Machine

/-! ## The queue, the clock and reset -/

/-- The command at the front of the queue runs on the state with the queue's rest. -/
def Obligations.StepRunsFrontCommand : Prop :=
  ∀ (c : Instr) (s : State) (rest : List Instr), step { s with pending := c :: rest } = exec c { s with pending := rest }

/-- The model's choice (log 1): with no command waiting, a step is one tick. While epochs run and the next epoch is not due, LT and
the epoch phase advance by one, as R1 gives for a tick, and no epoch fires. The tick that is left ends in the arbiters' choice, of which
`TransmissionEnds` speaks (R53). A transmission that has its ticks at the new one ends (R53), an echo whose counter runs out there is lost
(R38, R41), and where neither comes nothing else changes. When the next epoch is due it fires as EPOCH on the inputs last presented, in
the order that an idle epoch takes (logs 1 and 4, the model's choices), and the same ends follow at its tick. While epochs are stopped the
timers of START advance (R163), and an UNCONFIRMED monitor then measures one good cycle (R162), its count the one before it or 16 (log 10,
the model's choice). A station held in reset stands still (R173; log 1). -/
def Obligations.IdleStepIsOneTick : Prop :=
  (∀ s : State, s.pending = [] → s.held = true → step s = .next s) ∧
  (∀ s : State, s.pending = [] → s.held = false → s.su.gen = .stopped →
    ∃ u t, step s = .next t ∧ StartTimed s u ∧ MonitorTicked u t) ∧
  (∀ (s : State) (c : Settings), s.pending = [] → s.held = false → Runs c s → 10000 ≤ s.su.phase + 1 →
    ∃ u t, exec (.epoch s.pins.contacts s.pins.tcs ⟨.beforeChoice, true, true⟩) s = .next u ∧ step s = .next t ∧ TickEnds u t) ∧
  ∀ (s : State) (c : Settings), s.pending = [] → s.held = false → Runs c s →
    s.su.phase + 1 < 10000 →
    ∃ t, step s = .next t ∧ TickEnds (atMoment (s.su.phase + 1) s) t ∧
      t.su = { s.su with lt := s.su.lt + 1, phase := s.su.phase + 1 } ∧
      t.ciu = s.ciu ∧ t.pt = s.pt ∧ t.au = s.au ∧ t.ze = s.ze ∧ t.tu = s.tu ∧ t.sc = s.sc ∧ t.cs = s.cs ∧ t.pins = s.pins ∧
      t.free = s.free ∧ t.pending = s.pending ∧
      (∀ p x, ((settle s).port p).tx = some x → x.ticks ≤ (s.su.lt + 1 - x.start).toNat → (t.port p).tx = none) ∧
      ((∀ p x, ((settle s).port p).tx = some x → (s.su.lt + 1 - x.start).toNat < x.ticks) →
        (∀ p, ((settle s).port p).outstanding = none ∨ (s.su.lt + 1 - ((settle s).port p).echoStart).toNat < 40000) →
        t.ri = (settle s).ri ∧ t.mp = (settle s).mp)

/-- The values every reset leaves that the spec gives, block by block, at `State.reset` (R18, R33, R62, R83, R97, R119, R160, R173, R174,
R180, R187). Left out are what the spec gives no value for, the block's bytes, the pins, the supply level, the reset conditions and the
receive signals (log 7, the model's choice), and the marks that the model keeps for itself (logs 6, 9, 10, 16, 17). -/
def Obligations.ResetValues : Prop :=
  State.reset.su =
    { gen := .stopped, lt := 0, phase := 0, epoch := 0, chans := ⟨⟨.idle, .idle⟩, ⟨.idle, .idle⟩, ⟨.idle, .idle⟩⟩, flight := none
      disRun := ⟨0, 0, 0⟩, convFail := false, clearRun := 0, record := none, peak := [], disagreeSamples := 0, missingSamples := 0
      convFailures := 0 } ∧
  State.reset.ciu =
    { accepted := none, pending := ⟨false, false, false, false, false, false, false, false⟩, derived := none
      discTimer := ⟨0, 0, 0⟩, discMark := ⟨false, false, false⟩, discDetail := ⟨false, false, false⟩, cond := none
      changes := 0, bounces := 0 } ∧
  (∀ p, State.reset.port p = { State.reset.port p with
    link := .down, hold := 0, delay := none, echoCounter := 0, overflow := false, turnaround := 0, echoNum := 0
    outstanding := none, interval := 0, echoDue := false, losses := 0, answer := none, own := none, transit := [], tx := none
    opened := false, departed := []
    ctr := ⟨0, 0, 0, 0, 0, 0, 0, 0, 0, 0, 0, 0, 0, 0, 0, 0, 0, 0, 0, 0⟩ }) ∧
  State.reset.ri.overflowQuiet = 4000 ∧ State.reset.ri.unexpectedQuiet = 4000 ∧ State.reset.ri.unexpectedDetail = none ∧
  State.reset.pt.entries.length = 24 ∧
  (∀ b : Bay, State.reset.entry b =
    { presence := .absent, tag := none, decl := none, lastSeq := none, fresh := 4095, joinRun := 0, declared := none
      backtrip := ⟨false, false, false, false⟩, lastPort := none, conflict := none, history := [], accepted := 0, duplicates := 0
      orders := 0, conflicts := 0, stales := 0 }) ∧
  State.reset.au.latest = none ∧
  (∀ x ph, (State.reset.ze.sects.get x).get ph = ⟨.quiet, 0, none, 0, 0, 0, 0⟩) ∧
  (∀ ph, State.reset.ze.check.get ph = ⟨.quiet, 0, none, 0, 0, 0, 0⟩) ∧
  (∀ b : Bay, State.reset.ze.endZone[b.val]? = some 0) ∧ State.reset.ze.topo = none ∧ State.reset.ze.blockedDetail = [] ∧
  State.reset.tu = { State.reset.tu with
    trip := .idle, coil1 := .off, coil2 := .off, sealIn := 0, retrip := 0, retripMade := false, bfTimer := 0, bf := .idle
    backtrip := ⟨false, false, false, false⟩, supCount := 0, pulse := none, supFails := 0, held := none, recorded := false
    recNumber := 0, ctr := ⟨0, 0, 0, 0, 0, 0, 0, 0, 0, 0, 0, 0⟩ } ∧
  State.reset.sc = { State.reset.sc with
    station := .start, causes := ⟨false, false, false⟩, reference := false, confirmed := false, goodRun := 0, powerUp := 0, wait := 0
    qualCount := 0, qualified := false, listen := 0, dupQuiet := 4000, maintTest := false, cause := ⟨true, false, false, false⟩
    stateChanges := 0 } ∧
  State.reset.cs.inUse = none ∧ State.reset.cs.staging = List.replicate 64 0 ∧ State.reset.cs.commit = .idle ∧
  State.reset.mp =
    { receiver := .idle, request := [], response := [], selection := none, flags := 0, portErrors := 0 }

/-! ## Sampling (section 1) -/

/-- EPOCH while epochs run: the phase returns to 0, the epoch number advances, LT is the next epoch's, all six conversions start
with the epoch's number, instant, replica and chosen state, and the configuration and the port's exchange are untouched. -/
def Obligations.EpochFires : Prop :=
  ∀ (c : Settings) (k : Contacts) (tcs : Bool) (o : EpochOrder) (s : State), Runs c s →
    ∃ t r, exec (.epoch k tcs o) s = .next t ∧
      t.su.gen = .running ∧ t.su.epoch = s.su.epoch + 1 ∧ t.su.phase = 0 ∧
      t.su.lt = s.su.lt + BitVec.ofNat 32 (10000 - s.su.phase) ∧
      t.su.chans = ⟨⟨.converting, .converting⟩, ⟨.converting, .converting⟩, ⟨.converting, .converting⟩⟩ ∧
      t.sc.station = .running r ∧
      t.su.flight = some ⟨s.su.epoch + 1, t.su.lt, epochReplica t, r⟩ ∧
      t.pins = { s.pins with contacts := k, tcs := tcs } ∧ t.cs = s.cs ∧
      t.mp = { s.mp with flags := t.mp.flags } ∧ t.free = s.free ∧ t.pending = s.pending

/-- CONVERSION_COMPLETE before the last of the six: the channel goes to DONE with its code read as R6 gives, at its moment, and
nothing else changes (R3). -/
def Obligations.ConversionHeld : Prop :=
  ∀ (c : Settings) (ph : Phase) (ch : Channel) (raw : BitVec 16) (m : Nat) (s : State), Runs c s →
    (s.su.chans.get ph).get ch = .converting → s.su.phase ≤ m → m < 10000 →
    (∃ ph' ch', (ph', ch') ≠ (ph, ch) ∧ (s.su.chans.get ph').get ch' = .converting) →
    ∃ t, exec (.conversionComplete ph ch raw m) s = .next t ∧
      t = { atMoment m s with su := { (atMoment m s).su with chans := t.su.chans } } ∧
      (t.su.chans.get ph).get ch = .done (if raw = 0x8000#16 then -32767 else raw.toInt) ∧
      ∀ ph' ch', (ph', ch') ≠ (ph, ch) → (t.su.chans.get ph').get ch' = (s.su.chans.get ph').get ch'

/-- CONVERSION_COMPLETE as the last of the six: the own sample record is finalised (R4, R14), joins the peak window (R16), is handed
to the own entry, whose presence, joining run, tag, declaration and declared state follow R76 (R15), goes as the own frame into the
slot of each UP port (R42), replacing an unsent one (R56), from which a free transmitter with no echo frame to send takes it at that
very tick with its age (R49, R53), and fixes the computing instant (R84). The evaluation then finds every installed bay's alignment
outcome and standing (R85, R100 to R102), and blocks the phases of each zone and of the check zone by R111 to R113. Last the Trip Unit
takes the verdicts: it ends as `tripEvaluation` leaves it on the state of that evaluation (R99, R137, R146), of which
`TripsAreAsserted` and `ReleaseEndsTrip` speak. EPOCH with a channel still converting finalises the record late (R5) and feeds the own
entry in the same way, but for its freshness, which the epoch may advance after it (R72, R76; log 4). A history is aligned at an
instant as R87 to R94 give. -/
def Obligations.LastConversionMakesRecord : Prop :=
  (∀ (c : Settings) (ph : Phase) (ch : Channel) (raw : BitVec 16) (m : Nat) (s : State) (f : Flight),
    CompletesLast c ph ch m f s → c.bay.val < s.pt.entries.length →
    ∃ t x tp, exec (.conversionComplete ph ch raw m) s = .next t ∧
      let tau := f.instant - BitVec.ofNat 32 (c.delay * 10000)
      let al (b : Bay) := alignHistory tau (t.entry b).history
      t.su.record = some x ∧ x.epoch = f.epoch ∧ x.instant = f.instant ∧ x.replica = f.replica ∧
      (∀ q, (x.val.get q, x.cur.get q) = testPhase c (t.su.chans.get q) ∧ x.val.get q ≠ .missing) ∧
      t.su.peak = (if s.su.peak.length ≥ 80 then s.su.peak.drop 1 else s.su.peak) ++ [⟨x.cur, x.val⟩] ∧
      OwnFed c f x (s.entry c.bay) (t.entry c.bay) ∧ (∀ b, b ≠ c.bay → t.entry b = s.entry b) ∧
      t.au.latest = some ⟨f.epoch, tau⟩ ∧ tripEvaluation c f.epoch { t with tu := s.tu } = t ∧
      t.cs = s.cs ∧ t.ciu = s.ciu ∧ t.pins = s.pins ∧ t.free = s.free ∧ t.pending = s.pending ∧
      (∀ p, let q := (atMoment m s).port p
        let own : BayFrame :=
          { source := bayNumber c.bay, scheme := c.scheme, tag := c.tag, seqNo := f.epoch.setWidth 16, hops := 0, age := 0
            decl := ⟨c.kind, some c.side1, c.side2⟩, declared := f.declared, replica := f.replica, val := x.val, cur := x.cur
            backtrip := if s.tu.trip = .asserted ∧ s.tu.bf = .failed ∧ f.declared = .service then s.tu.backtrip else noSects }
        (q.link = .up → t.port p = { q with
          own := some ⟨own, f.instant⟩
          ctr := { q.ctr with ownOverruns := if q.own.isSome then min (q.ctr.ownOverruns + 1) 65535 else q.ctr.ownOverruns } }) ∧
        (q.link = .up → q.tx = none → q.answer = none → q.echoDue = false → (t.su.lt - f.instant).toNat ≤ 4000000 →
          ((settle t).port p).own = none ∧
          ((settle t).port p).tx = some ⟨bayBytes { own with age := (t.su.lt - f.instant).toNat }, t.su.lt, 128⟩ ∧
          ((settle t).port p).ctr.ownSent = min (q.ctr.ownSent + 1) 65535) ∧
        (q.link ≠ .up → t.port p = q)) ∧
      t.ze.topo = some tp ∧ tp.epoch = f.epoch ∧ tp.tau = tau ∧ tp.bays.map BayTopo.bay = allBays.filter c.hasBay ∧
      (∀ y ∈ tp.bays,
        let e := t.entry y.bay
        let isolated := (al y.bay).declared = some .isolated ∨ ((al y.bay).outcome = .tooOld ∧ e.declared = some .isolated)
        y.outcome = (al y.bay).outcome ∧
        (y.standing = .undeclared ↔ e.decl = none ∨ e.presence = .conflict) ∧
        (e.decl ≠ none → e.presence ≠ .conflict → (y.standing = .isolated ↔ isolated) ∧
          (¬ isolated → (y.standing = .usable ↔ e.presence = .live ∧
            ((al y.bay).declared = some .listen ∨ (al y.bay).declared = some .service ∨ (al y.bay).declared = some .test) ∧
            ((al y.bay).outcome = .exact ∨ (al y.bay).outcome = .interpolated))))) ∧
      (∀ z ∈ tp.zones, ∀ q, ((z.phases.get q).blocked = true → (z.phases.get q).operate = false) ∧
        ((z.phases.get q).blocked = true ↔ (∃ y ∈ tp.bays, y.standing = .undeclared) ∨
          (∃ y ∈ tp.bays, y.standing = .unusable ∧ ∃ d side, (t.entry y.bay).decl = some d ∧
            (d.side1 = some side ∨ d.side2 = some side) ∧ z.sections.get side = true) ∨
          ∃ y ∈ z.members, (al y.bay).ok.get q = false)) ∧
      ∀ q, ((tp.chk.get q).blocked = true → (tp.chk.get q).operate = false) ∧
        ((tp.chk.get q).blocked = true ↔ (∃ y ∈ tp.bays, y.standing = .undeclared) ∨
          (∃ y ∈ tp.bays, y.standing = .unusable ∧ ∃ d, (t.entry y.bay).decl = some d ∧ d.kind = .feeder) ∨
          ∃ y ∈ tp.chkMembers, (al y.bay).ok.get q = false)) ∧
  (∀ (c : Settings) (k : Contacts) (tcs : Bool) (o : EpochOrder) (s : State) (f : Flight), Runs c s → s.su.flight = some f →
    Converting s → s.pt.entries.length = 24 →
    ∃ t x, exec (.epoch k tcs o) s = .next t ∧ t.su.record = some x ∧ x.epoch = f.epoch ∧
      OwnFed c f x (s.entry c.bay) { t.entry c.bay with fresh := 0 }) ∧
  (∀ (tau : Ticks) (h : List Slot), (∀ y ∈ h, (tau - y.instant).toInt < 0) →
    alignHistory tau h = ⟨.tooOld, ⟨0, 0, 0⟩, ⟨false, false, false⟩, none, none⟩) ∧
  ∀ (tau : Ticks) (older newer : List Slot) (x : Slot), 0 ≤ (tau - x.instant).toInt →
    (∀ y ∈ newer, (tau - y.instant).toInt < 0) →
    let r := alignHistory tau (older ++ x :: newer)
    r.replica = some x.replica ∧ r.declared = some x.declared ∧
    (x.instant = tau → r.outcome = .exact ∧
      ∀ q, r.ok.get q = decide (x.val.get q = .valid) ∧ r.cur.get q = if x.val.get q = .valid then x.cur.get q else 0) ∧
    (x.instant ≠ tau → newer = [] → r.outcome = .late ∧ ∀ q, r.ok.get q = false ∧ r.cur.get q = 0) ∧
    ∀ y rest, x.instant ≠ tau → newer = y :: rest →
      let span := (y.instant - x.instant).toInt
      (25000 < span → r.outcome = .gap ∧ ∀ q, r.ok.get q = false ∧ r.cur.get q = 0) ∧
      (0 < span → span ≤ 25000 → r.outcome = .interpolated ∧ ∀ q,
        (r.ok.get q = true ↔ x.val.get q = .valid ∧ y.val.get q = .valid) ∧ (r.ok.get q = false → r.cur.get q = 0) ∧
        (r.ok.get q = true → ∃ d : Int, r.cur.get q = x.cur.get q + d ∧
          let num := (y.cur.get q - x.cur.get q) * (tau - x.instant).toInt
          2 * (span * d - num).natAbs ≤ span.natAbs ∧
          (2 * (span * d - num).natAbs = span.natAbs → num.natAbs < (span * d).natAbs)))

/-- R6: a raw result is read as a signed number in −32767..+32767, the code −32768 as −32767; a completion holds it so read, and the
agreement test and the scaling take what is held. -/
def Obligations.RawResultReading : Prop :=
  (∀ raw : BitVec 16, -32767 ≤ readRaw raw ∧ readRaw raw ≤ 32767 ∧ (raw = 0x8000#16 → readRaw raw = -32767) ∧
    (raw ≠ 0x8000#16 → readRaw raw = raw.toInt)) ∧
  (∀ (ph : Phase) (ch : Channel) (raw : BitVec 16) (m : Nat) (c : Settings) (s : State), Runs c s →
    (s.su.chans.get ph).get ch = .converting →
    ∃ t, exec (.conversionComplete ph ch raw m) s = .next t ∧ (t.su.chans.get ph).get ch = .done (readRaw raw)) ∧
  ∀ (c : Settings) (rawA rawB : BitVec 16), testPhase c ⟨.done (readRaw rawA), .done (readRaw rawB)⟩ =
    if (readRaw rawA - readRaw rawB).natAbs > 64 + (readRaw rawA).natAbs / 16 then (.disagree, 0)
    else (.valid, scaleRaw c (readRaw rawA))

/-- R10: at each own sample event, whether by the last completion (R4) or late at the next epoch (R5), a DISAGREE or MISSING phase of
the record adds one to its disagreement run, which saturates at 16, and a VALID phase sets its run to 0, each phase alone. -/
def Obligations.DisagreementRuns : Prop :=
  (∀ (c : Settings) (ph : Phase) (ch : Channel) (raw : BitVec 16) (m : Nat) (s : State) (f : Flight), Runs c s →
    s.su.flight = some f → (s.su.chans.get ph).get ch = .converting →
    (∀ ph' ch', (ph', ch') ≠ (ph, ch) → ∃ x, (s.su.chans.get ph').get ch' = .done x) →
    ∃ t x, exec (.conversionComplete ph ch raw m) s = .next t ∧ t.su.record = some x ∧ x.epoch = f.epoch ∧
      ∀ q, t.su.disRun.get q = if x.val.get q = .valid then 0 else min (s.su.disRun.get q + 1) 16) ∧
  ∀ (c : Settings) (k : Contacts) (tcs : Bool) (o : EpochOrder) (s : State) (f : Flight), Runs c s → s.su.flight = some f →
    (∃ ph ch, (s.su.chans.get ph).get ch = .converting) →
    ∃ t x, exec (.epoch k tcs o) s = .next t ∧ t.su.record = some x ∧ x.epoch = f.epoch ∧
      (∀ q, x.val.get q = .missing ↔ ¬ ∃ a b, s.su.chans.get q = ⟨.done a, .done b⟩) ∧
      ∀ q, t.su.disRun.get q = if x.val.get q = .valid then 0 else min (s.su.disRun.get q + 1) 16

/-- R7, R8 and R9: a phase whose two channels are DONE is DISAGREE with 0 when they differ by more than 64 + floor(|rawA| / 16), and
otherwise VALID with rawA × F / 4096 rounded to the nearest integer, ties away from zero, clamped, and given its polarity. -/
def Obligations.PhaseTestAndScale : Prop :=
  ∀ (c : Settings) (rawA rawB : Int),
    testPhase c ⟨.done rawA, .done rawB⟩ =
      (if (rawA - rawB).natAbs > 64 + rawA.natAbs / 16 then (.disagree, 0) else (.valid, scaleRaw c rawA)) ∧
    ∃ q : Int, 2 * (4096 * q - rawA * c.scale).natAbs ≤ 4096 ∧
      (2 * (4096 * q - rawA * c.scale).natAbs = 4096 → (rawA * c.scale).natAbs < (4096 * q).natAbs) ∧
      scaleRaw c rawA =
        (if c.inverted then -1 else 1) * (if q > 32767 then 32767 else if q < -32767 then -32767 else q)

/-- R17: current is present exactly when some VALID value of the peak window has a magnitude of at least I_bf, or the window holds
no VALID phase at all. -/
def Obligations.CurrentPresentExactly : Prop :=
  ∀ (c : Settings) (w : List Sample),
    currentPresent c w = true ↔
      (∃ x ∈ w, ∃ ph, x.val.get ph = .valid ∧ c.iBf ≤ (x.cur.get ph).natAbs) ∨ ∀ x ∈ w, ∀ ph, x.val.get ph ≠ .valid

/-- CONVERTER_FAILURE: a disagreement run at 16 with the flag clear sets the converter-failure flag and CONVERTER, sets the clear run
to 0 and counts one failure (R11), and nothing else changes. CONVERTER_RECOVERY: a clear run of 4,000 with the flag set clears the
flag and the run (R12). The own sample event does both at its place, whether by the last CONVERSION_COMPLETE of an epoch (R4) or late at
EPOCH (R5): a run that reaches 16 fails the converter, a clean sample with the flag set counts in the clear run, which at 4,000 recovers
it, another sets the clear run to 0, and the statistics count the DISAGREE and MISSING phases (R10 to R13). An EPOCH with no late sample
changes none of these. -/
def Obligations.ConverterFailureAndRecovery : Prop :=
  (∀ (c : Settings) (s : State), Runs c s → (∃ ph, s.su.disRun.get ph = 16) →
    s.su.convFail = false →
    exec .converterFailure s = .next { s with
      su := { s.su with convFail := true, clearRun := 0, convFailures := min (s.su.convFailures + 1) 65535 }
      mp := { s.mp with flags := s.mp.flags ||| BitVec.twoPow 19 11 } }) ∧
  (∀ (c : Settings) (s : State), Runs c s → s.su.clearRun = 4000 → s.su.convFail = true →
    exec .converterRecovery s = .next { s with su := { s.su with convFail := false, clearRun := 0 } }) ∧
  (∀ (c : Settings) (ph : Phase) (ch : Channel) (raw : BitVec 16) (m : Nat) (s : State) (f : Flight), CompletesLast c ph ch m f s →
    ∃ t x, exec (.conversionComplete ph ch raw m) s = .next t ∧ t.su.record = some x ∧ x.epoch = f.epoch ∧ SampleCounted x s t) ∧
  ∀ (c : Settings) (k : Contacts) (tcs : Bool) (o : EpochOrder) (s : State) (f : Flight), Runs c s → s.su.flight = some f →
    ((∃ ph ch, (s.su.chans.get ph).get ch = .converting) →
      ∃ t x, exec (.epoch k tcs o) s = .next t ∧ t.su.record = some x ∧ x.epoch = f.epoch ∧ SampleCounted x s t) ∧
    ((∀ ph ch, (s.su.chans.get ph).get ch ≠ .converting) →
      ∃ t, exec (.epoch k tcs o) s = .next t ∧ t.su = { s.su with
        lt := t.su.lt, phase := t.su.phase, epoch := t.su.epoch, chans := t.su.chans, flight := t.su.flight })

/-! ## Contacts (section 2) -/

/-- EPOCH: at an epoch whose number is a multiple of the filter tick interval every input is filtered alone by the table of R22,
with CONTACT CHANGES and CONTACT BOUNCES counted (R20, R22, R23); at every other epoch the accepted states and pending marks stay. At
every epoch the accepted states then give the derived state of each device (R24), isolator 2 of a single-isolator feeder OPEN (R25), and
the conditions OOS, TST and isolators all open (R30). The discrepancy timer of each pair counts the epochs in TRAVEL or INVALID without
a change, up to the isolator alarm time; there the mark is set, which joins the detail and sets ISOLATOR DISCREPANCY, and a known
position clears timer and mark (R28, R29). -/
def Obligations.FilterTickAtEpoch : Prop :=
  ∀ (c : Settings) (k a : Contacts) (tcs : Bool) (o : EpochOrder) (s : State), Runs c s → s.ciu.accepted = some a →
    ∃ t a', exec (.epoch k tcs o) s = .next t ∧ t.ciu.accepted = some a' ∧
      ((s.su.epoch + 1).toNat % c.filterTick ≠ 0 →
        a' = a ∧ t.ciu.pending = s.ciu.pending ∧ t.ciu.changes = s.ciu.changes ∧ t.ciu.bounces = s.ciu.bounces) ∧
      ((s.su.epoch + 1).toNat % c.filterTick = 0 →
        (∀ g ∈ contactInputs,
          (g k = g a → g a' = g a ∧ g t.ciu.pending = false) ∧
          (g k ≠ g a → g s.ciu.pending = false → g a' = g a ∧ g t.ciu.pending = true) ∧
          (g k ≠ g a → g s.ciu.pending = true → g a' = g k ∧ g t.ciu.pending = false)) ∧
        t.ciu.changes = min (s.ciu.changes + contactInputs.countP fun g => decide (g k ≠ g a) && g s.ciu.pending) 65535 ∧
        t.ciu.bounces = min (s.ciu.bounces + contactInputs.countP fun g => decide (g k = g a) && g s.ciu.pending) 65535) ∧
      ∀ old, s.ciu.derived = some old → ∃ r, t.ciu.derived = some r ∧ r.iso1 = positionOf a'.q1a a'.q1b ∧
        r.iso2 = (if c.kind = .feeder ∧ c.side2 = none then .opened else positionOf a'.q2a a'.q2b) ∧
        r.breaker = positionOf a'.cba a'.cbb ∧
        (∃ d, t.ciu.cond = some d ∧ d.oos = a'.oos ∧ d.tst = a'.tst ∧ (d.allOpen = true ↔ r.iso1 = .opened ∧ r.iso2 = .opened)) ∧
        ∀ pr, let n := t.ciu.discTimer.get pr
          (r.get pr = .opened ∨ r.get pr = .closed →
            n = 0 ∧ t.ciu.discMark.get pr = false ∧ t.ciu.discDetail.get pr = s.ciu.discDetail.get pr) ∧
          (r.get pr = .travel ∨ r.get pr = .invalid →
            n = (if old.get pr = r.get pr then min (s.ciu.discTimer.get pr + 1) c.isoAlarm else 0) ∧
            (n ≠ c.isoAlarm → t.ciu.discMark.get pr = s.ciu.discMark.get pr ∧
              t.ciu.discDetail.get pr = s.ciu.discDetail.get pr) ∧
            (n = c.isoAlarm → t.ciu.discMark.get pr = true ∧ t.ciu.discDetail.get pr = true ∧ t.mp.flags.getLsbD 12 = true))

/-- ISOLATOR_DISCREPANCY: a pair in TRAVEL or INVALID whose timer stands at the isolator alarm time has its mark set (R28), sets the
alarm flag and joins its detail (R29); nothing else changes. -/
def Obligations.DiscrepancyMarksPair : Prop :=
  ∀ (c : Settings) (pr : DevPair) (s : State) (r : Replica), Runs c s → s.ciu.derived = some r →
    r.get pr ≠ .opened → r.get pr ≠ .closed → s.ciu.discTimer.get pr = c.isoAlarm →
    ∃ t, exec (.isolatorDiscrepancy pr) s = .next t ∧
      t = { s with
        ciu := { s.ciu with discMark := t.ciu.discMark, discDetail := t.ciu.discDetail }
        mp := { s.mp with flags := s.mp.flags ||| BitVec.twoPow 19 12 } } ∧
      ∀ q, t.ciu.discMark.get q = (decide (q = pr) || s.ciu.discMark.get q) ∧
        t.ciu.discDetail.get q = (decide (q = pr) || s.ciu.discDetail.get q)

/-! ## The bay ring (section 3) -/

/-- RECEIVE_SIGNAL_PRESENT: the signal is recorded, and a DOWN port with hold count 0 enters PROBING (R34) with a request due, which
departs at that very tick when its transmitter and answer slot are free (R37, R38, R53); a port in its hold only records the signal (R36).
HOLD_END: the same entry for a port whose hold has ended with its signal present. EPOCH: the hold count of a DOWN port goes down by
one, and at 0 the port enters PROBING if its signal is present and otherwise stays DOWN (R36). -/
def Obligations.PortEntersProbing : Prop :=
  (∀ (c : Settings) (p : Port) (m : Nat) (s : State), Runs c s → s.su.phase ≤ m → m < 10000 → (s.port p).link = .down →
    (s.port p).hold = 0 →
    let t := (atMoment m s).updPort p fun q => { q with rx := true, link := .probing, losses := 0, echoDue := true }
    exec (.receiveSignalPresent p m) s = .next t ∧ RequestDeparts c p t) ∧
  (∀ (c : Settings) (p : Port) (m : Nat) (s : State), Runs c s → s.su.phase ≤ m → m < 10000 → (s.port p).hold ≠ 0 →
    exec (.receiveSignalPresent p m) s = .next ((atMoment m s).updPort p fun q => { q with rx := true })) ∧
  (∀ (c : Settings) (p : Port) (s : State), Runs c s → (s.port p).link = .down → (s.port p).hold = 0 → (s.port p).rx = true →
    let t := s.updPort p fun q => { q with link := .probing, losses := 0, echoDue := true }
    exec (.holdEnd p) s = .next t ∧ RequestDeparts c p t) ∧
  ∀ (c : Settings) (k : Contacts) (tcs : Bool) (o : EpochOrder) (p : Port) (s : State), Runs c s → (s.port p).link = .down →
    ∃ t, exec (.epoch k tcs o) s = .next t ∧ (t.port p).rx = (s.port p).rx ∧ (t.port p).hold = (s.port p).hold - 1 ∧
      ((s.port p).hold ≠ 1 ∨ (s.port p).rx = false → (t.port p).link = .down) ∧
      ((s.port p).hold = 1 → (s.port p).rx = true → (t.port p).link = .probing ∧ (t.port p).losses = 0 ∧
        (t.port p).echoDue = true ∧ RequestDeparts c p t)

/-- RECEIVE_SIGNAL_LOST on a PROBING or UP port: it enters DOWN with hold count 0 (R34), with all that R35 empties, stops and counts
and its LINK DOWN flag; the other port and every other block are as they were. -/
def Obligations.SignalLossTakesPortDown : Prop :=
  ∀ (c : Settings) (p : Port) (m : Nat) (s : State), Runs c s → s.su.phase ≤ m → m < 10000 → (s.port p).link ≠ .down →
    ∃ t, exec (.receiveSignalLost p m) s = .next t ∧
      let s' := atMoment m s
      let q := s'.port p
      t = { s' with ri := t.ri, mp := { s'.mp with flags := s'.mp.flags ||| BitVec.twoPow 19 (linkDownBit p) } } ∧
      t.port (otherPort p) = s'.port (otherPort p) ∧ t.ri.overflowQuiet = s.ri.overflowQuiet ∧
      t.ri.unexpectedQuiet = s.ri.unexpectedQuiet ∧ t.ri.unexpectedDetail = s.ri.unexpectedDetail ∧
      t.port p = { wentDown 0
        (if q.outstanding.isSome then min (s'.su.lt - q.echoStart).toNat 40000 else q.echoCounter) s'.su.lt q with rx := false }

/-- ECHO_DUE: with the interval count at the interval of the link state, 4 in PROBING and 64 in UP, and no request outstanding, echo due
is set, and the request departs at that very tick with the next echo number when the transmitter and the answer slot are free (R37, R38,
R53). EPOCH: the interval count of a PROBING or UP port goes up by one, stopping at 64, and at the interval echo due is set if no request
is outstanding; the request departs at the tick of that epoch when the transmitter and the answer slot are free (R37, R38).
ECHO_TIMEOUT: time runs on to the tick at which the counter reaches 40,000, but no further than the last tick before the next epoch, and
however far the counter still is there, the timeout is taken with the counter at 40,000: log 6, the model's choice for a command sent
before its tick. The overflow flag is set (R38) and the loss is counted; below three losses in a row the port keeps its link state, and
its next request is due at once when the interval count stands at the interval (R37); the third loss enters DOWN with hold count 256 (R41,
R34). -/
def Obligations.EchoDueAndTimeout : Prop :=
  (∀ (c : Settings) (p : Port) (s : State), Runs c s →
    ((s.port p).link = .probing ∧ 4 ≤ (s.port p).interval ∨ (s.port p).link = .up ∧ 64 ≤ (s.port p).interval) →
    (s.port p).outstanding = none →
    let t := s.updPort p fun q => { q with echoDue := true }
    exec (.echoDue p) s = .next t ∧ RequestDeparts c p t) ∧
  (∀ (c : Settings) (k : Contacts) (tcs : Bool) (o : EpochOrder) (p : Port) (s : State), Runs c s → (s.port p).link ≠ .down →
    ∃ t, exec (.epoch k tcs o) s = .next t ∧
      let q := (settle s).port p
      let n := min (q.interval + 1) 64
      let due := q.echoDue = true ∨ (q.outstanding = none ∧ intervalOf q.link ≤ n)
      (t.port p).link = q.link ∧ (t.port p).losses = q.losses ∧ (t.port p).tx = q.tx ∧ (t.port p).answer = q.answer ∧
      (¬ due → (t.port p).interval = n ∧ (t.port p).echoDue = false ∧ (t.port p).outstanding = q.outstanding) ∧
      (due → (t.port p).interval = n ∧ (t.port p).echoDue = true ∧ (t.port p).outstanding = q.outstanding ∧
        RequestDeparts c p t)) ∧
  ∀ (c : Settings) (p : Port) (s : State) (n : BitVec 8), Runs c s → (s.port p).outstanding = some n → (s.port p).link ≠ .down →
    let s' := atMoment (min (s.su.phase + (40000 - min (s.su.lt - (s.port p).echoStart).toNat 40000)) 9999) s
    ∃ t, exec (.echoTimeout p) s = .next t ∧ t.port (otherPort p) = s'.port (otherPort p) ∧
      t = { s' with ri := t.ri, mp := t.mp } ∧
      let q := s'.port p
      let lost : PortState := { q with
        echoCounter := 40000, overflow := true, outstanding := none, losses := q.losses + 1
        ctr := { q.ctr with echoLosses := min (q.ctr.echoLosses + 1) 65535 } }
      (q.losses < 2 → q.interval < intervalOf q.link → t.port p = lost ∧ t.mp = s'.mp) ∧
      (q.losses < 2 → intervalOf q.link ≤ q.interval →
        t.port p = { lost with echoDue := true } ∧ t.mp = s'.mp ∧ RequestDeparts c p t) ∧
      (q.losses = 2 → t.port p = wentDown 256 40000 t.su.lt lost ∧
        t.mp = { s'.mp with flags := s'.mp.flags ||| BitVec.twoPow 19 (linkDownBit p) })

/-- ECHO_REQUEST_RECEIVED on a PROBING or UP port, or a DOWN one in its hold with its signal present: a good request with number n,
not cut off by an entry to DOWN, is answered with n and the own bay number, the answer replacing an older one that has not begun to depart
(R39). With the transmitter free it departs at that very tick, whatever else is there to send (R53), its turnaround the 48 ticks of its
reception (log 5, the model's reading); with a frame on the link it waits in the slot. -/
def Obligations.EchoRequestIsAnswered : Prop :=
  ∀ (c : Settings) (p : Port) (bytes : List Byte) (n : BitVec 8) (m : Nat) (s : State), Runs c s → s.su.phase ≤ m → m < 10000 →
    checkFrame bytes = some (.request n) →
    ((s.port p).link ≠ .down ∨ ((s.port p).hold ≠ 0 ∧ (s.port p).rx = true)) → Uncut (s.port p) (atMoment m s).su.lt 48 →
    let t := (atMoment m s).updPort p fun q => { q with answer := some ⟨n, (atMoment m s).su.lt - 48⟩ }
    exec (.echoRequestReceived p bytes m) s = .next t ∧
    ((t.port p).tx = none →
      (settle t).port p = { t.port p with answer := none, tx := some ⟨echoBytes 3 c.bay n 48, t.su.lt, 48⟩ }) ∧
    ((t.port p).tx.isSome = true → (settle t).port p = t.port p)

/-- ECHO_ANSWER_RECEIVED with the outstanding number and a delay of 0 to 4,000: the link delay becomes half of the counter less the
turnaround, rounded down, the losses end, and a PROBING port comes UP (R40); its next request is due at once when the interval count
stands at the interval (R37); that the echo that brings a PROBING port UP is tested against the interval of PROBING is the model's reading
(log 19). A delay below 0 or above 4,000 is a loss with the counter stopped and the turnaround taken (R40): below three losses in a row
the port keeps its link state and its old delay, and its next request is due at once when the interval count stands at the interval
(R37); the third loss enters DOWN with hold count 256 (R41, R34). An arrival start more than 40,000 ticks after the departure start, or
before it, finds the counter past its limit: the overflow flag is set, the echo is lost, and the answer counts as stale, which for an
arrival start before the departure start is the model's choice (log 6). The arrival start, 48 ticks before the present, is the model's
reading (log 5). Any other number is only counted as stale (R40), also on a port DOWN in its hold with its signal present, which has no
request outstanding (R35). -/
def Obligations.EchoAnswerMeasuresLink : Prop :=
  (∀ (c : Settings) (p : Port) (bytes : List Byte) (n : BitVec 8) (turn count d : Nat) (m : Nat) (s : State), Runs c s →
    s.su.phase ≤ m → m < 10000 → checkFrame bytes = some (.answer n turn) → (s.port p).link ≠ .down →
    let s' := atMoment m s
    let q := s'.port p
    Uncut q s'.su.lt 48 → q.outstanding = some n → count = (s'.su.lt - 48 - q.echoStart).toNat → count ≤ 40000 →
    (2 * d = count - turn ∨ 2 * d + 1 = count - turn) → turn ≤ count → d ≤ 4000 →
    let t := s'.updPort p fun q => { q with
      delay := some d, link := .up, losses := 0, turnaround := turn, echoCounter := count, outstanding := none
      echoDue := q.echoDue || decide (intervalOf q.link ≤ q.interval)
      ctr := { q.ctr with goodEchoes := min (q.ctr.goodEchoes + 1) 65535 } }
    exec (.echoAnswerReceived p bytes m) s = .next t ∧ ((t.port p).echoDue = true → RequestDeparts c p t)) ∧
  (∀ (c : Settings) (p : Port) (bytes : List Byte) (n : BitVec 8) (turn count : Nat) (m : Nat) (s : State), Runs c s →
    s.su.phase ≤ m → m < 10000 → checkFrame bytes = some (.answer n turn) → (s.port p).link ≠ .down →
    let s' := atMoment m s
    let q := s'.port p
    Uncut q s'.su.lt 48 → q.outstanding = some n → count = (s'.su.lt - 48 - q.echoStart).toNat → count ≤ 40000 →
    (count < turn ∨ 2 * 4001 ≤ count - turn) →
    ∃ t, exec (.echoAnswerReceived p bytes m) s = .next t ∧ t.port (otherPort p) = s'.port (otherPort p) ∧
      t = { s' with ri := t.ri, mp := t.mp } ∧
      let lost : PortState := { q with
        turnaround := turn, echoCounter := count, outstanding := none, losses := q.losses + 1
        ctr := { q.ctr with echoLosses := min (q.ctr.echoLosses + 1) 65535 } }
      (q.losses < 2 → q.interval < intervalOf q.link → t.port p = lost ∧ t.mp = s'.mp) ∧
      (q.losses < 2 → intervalOf q.link ≤ q.interval →
        t.port p = { lost with echoDue := true } ∧ t.mp = s'.mp ∧ RequestDeparts c p t) ∧
      (q.losses = 2 → t.port p = wentDown 256 count s'.su.lt lost ∧
        t.mp = { s'.mp with flags := s'.mp.flags ||| BitVec.twoPow 19 (linkDownBit p) })) ∧
  (∀ (c : Settings) (p : Port) (bytes : List Byte) (n : BitVec 8) (turn : Nat) (m : Nat) (s : State), Runs c s →
    s.su.phase ≤ m → m < 10000 → checkFrame bytes = some (.answer n turn) → (s.port p).link ≠ .down →
    let s' := atMoment m s
    let q := s'.port p
    Uncut q s'.su.lt 48 → q.outstanding = some n → 40000 < (s'.su.lt - 48 - q.echoStart).toNat →
    ∃ t, exec (.echoAnswerReceived p bytes m) s = .next t ∧ t.port (otherPort p) = s'.port (otherPort p) ∧
      t = { s' with ri := t.ri, mp := t.mp } ∧
      let lost : PortState := { q with
        echoCounter := 40000, overflow := true, outstanding := none, losses := q.losses + 1
        ctr := { q.ctr with
          echoLosses := min (q.ctr.echoLosses + 1) 65535, staleEchoes := min (q.ctr.staleEchoes + 1) 65535 } }
      (q.losses < 2 → q.interval < intervalOf q.link → t.port p = lost ∧ t.mp = s'.mp) ∧
      (q.losses < 2 → intervalOf q.link ≤ q.interval →
        t.port p = { lost with echoDue := true } ∧ t.mp = s'.mp ∧ RequestDeparts c p t) ∧
      (q.losses = 2 → t.port p = wentDown 256 40000 s'.su.lt lost ∧
        t.mp = { s'.mp with flags := s'.mp.flags ||| BitVec.twoPow 19 (linkDownBit p) })) ∧
  ∀ (c : Settings) (p : Port) (bytes : List Byte) (n : BitVec 8) (turn : Nat) (m : Nat) (s : State), Runs c s →
    s.su.phase ≤ m → m < 10000 → checkFrame bytes = some (.answer n turn) →
    ((s.port p).link ≠ .down ∨ ((s.port p).hold ≠ 0 ∧ (s.port p).rx = true)) →
    Uncut (s.port p) (atMoment m s).su.lt 48 → ((atMoment m s).port p).outstanding ≠ some n →
    exec (.echoAnswerReceived p bytes m) s = .next ((atMoment m s).updPort p fun q =>
      { q with ctr := { q.ctr with staleEchoes := min (q.ctr.staleEchoes + 1) 65535 } })

/-- BAY_FRAME_RECEIVED on an UP port, with the frame of another bay (R43, R44): it is counted, and it is forwarded whatever the peer
table does with it (R47): an UP other port queues it behind at most three others or counts an overflow, one that is not UP takes
nothing (R48), and an idle one with nothing else to send sends it at that very tick with its outgoing age (R50, R53). It is delivered
past the filters of R52, and the peer table takes it by R64: in CONFLICT it is only counted (R65), a frame that does not fit puts the
entry into CONFLICT (R66, R75), one not newer is a duplicate (R67, R68), one not later is out of order (R69). Otherwise the entry
takes the frame (R70) as its newest slot (R71) at the instant of R51, and its presence and joining run follow R72. A backtrip set that
is not empty is handed to the Trip Unit with the bay number and declared state (R70), which ends as `backtripRequest` leaves it (R142;
`TripsAreAsserted`). That t_arr lies 128 ticks before is the model's reading (log 5), and that a frame with station tag 0 is taken
like any other is its choice (log 27). -/
def Obligations.PeerFrameIsTaken : Prop :=
  ∀ (c : Settings) (p : Port) (bytes : List Byte) (f : BayFrame) (d m : Nat) (s : State), Runs c s → s.su.phase ≤ m →
    m < 10000 → checkFrame bytes = some (.bay f) → (s.port p).link = .up → (s.port p).delay = some d →
    Uncut (s.port p) (atMoment m s).su.lt 128 → f.source ≠ bayNumber c.bay →
    let lt := (atMoment m s).su.lt
    let q := (atMoment m s).port p
    let o := (atMoment m s).port (otherPort p)
    let moved : Transit := ⟨{ f with hops := f.hops + 1 }, lt - 128, d⟩
    let counted : PortCounters := { q.ctr with framesReceived := min (q.ctr.framesReceived + 1) 65535 }
    (23 ≤ f.hops → exec (.bayFrameReceived p bytes m) s = .next ((atMoment m s).updPort p fun q =>
      { q with ctr := { counted with hopDrops := min (q.ctr.hopDrops + 1) 65535 } })) ∧
    (f.hops < 23 → ∃ t, exec (.bayFrameReceived p bytes m) s = .next t ∧
      (o.link ≠ .up → t.port (otherPort p) = o) ∧
      (o.link = .up → o.transit.length < 4 →
        t.port (otherPort p) = { o with transit := o.transit ++ [moved] }) ∧
      (o.link = .up → 4 ≤ o.transit.length →
        t.port (otherPort p) = { o with ctr := { o.ctr with transitOverflows := min (o.ctr.transitOverflows + 1) 65535 } } ∧
        t.ri.overflowQuiet = 0 ∧ t.mp.flags.getLsbD 6 = true) ∧
      (o.link = .up → o.tx = none → o.answer = none → o.echoDue = false → o.own = none → o.transit = [] →
        f.age + d + 128 ≤ 4000000 →
        (settle t).port (otherPort p) = { o with
          tx := some ⟨bayBytes { f with hops := f.hops + 1, age := f.age + d + 128 }, lt, 128⟩
          ctr := { o.ctr with forwarded := min (o.ctr.forwarded + 1) 65535 } }) ∧
      (f.scheme ≠ c.scheme → t = { atMoment m s with ri := t.ri, mp := { s.mp with flags := t.mp.flags } } ∧
        t.port p = { q with ctr := { counted with foreignFrames := min (q.ctr.foreignFrames + 1) 65535 } }) ∧
      (f.scheme = c.scheme → (∀ b, bayNumber b = f.source → c.hasBay b = false) →
        t = { atMoment m s with ri := t.ri, mp := { s.mp with flags := t.mp.flags } } ∧
        t.port p = { q with ctr := { counted with unexpectedBays := min (q.ctr.unexpectedBays + 1) 65535 } } ∧
        t.ri.unexpectedQuiet = 0 ∧ t.ri.unexpectedDetail = some f.source ∧ t.mp.flags.getLsbD 7 = true) ∧
      ∀ b, bayNumber b = f.source → f.scheme = c.scheme → c.hasBay b = true → b.val < s.pt.entries.length →
        let e := s.entry b
        let instant := lt - 128 - BitVec.ofNat 32 d - BitVec.ofNat 32 f.age
        let only := t = { atMoment m s with ri := t.ri, pt := t.pt, mp := { s.mp with flags := t.mp.flags } } ∧
          t.port p = { q with ctr := counted } ∧ t.ri.unexpectedQuiet = s.ri.unexpectedQuiet ∧
          t.ri.unexpectedDetail = s.ri.unexpectedDetail ∧ ∀ b', b' ≠ b → t.entry b' = s.entry b'
        (e.presence = .conflict → only ∧ t.entry b = { e with conflicts := min (e.conflicts + 1) 65535 }) ∧
        (e.presence ≠ .conflict → ¬ Fits c e f → only ∧ t.mp.flags.getLsbD 10 = true ∧
          ∃ why : Misfit, t.entry b = { e with
            presence := .conflict, conflict := some ⟨why, f.tag, f.decl, s.su.epoch, p⟩, history := [], lastSeq := none
            joinRun := 0, backtrip := noSects, declared := none, conflicts := min (e.conflicts + 1) 65535 } ∧
          (why = .tag ↔ e.tag ≠ none ∧ e.tag ≠ some f.tag) ∧
          (why = .declaration ↔ (e.tag = none ∨ e.tag = some f.tag) ∧ e.decl ≠ none ∧ e.decl ≠ some f.decl)) ∧
        (e.presence ≠ .conflict → Fits c e f → ¬ Newer e f.seqNo →
          only ∧ t.entry b = { e with duplicates := min (e.duplicates + 1) 65535 }) ∧
        (e.presence ≠ .conflict → Fits c e f → Newer e f.seqNo → ¬ Later e instant →
          only ∧ t.entry b = { e with orders := min (e.orders + 1) 65535 }) ∧
        (e.presence ≠ .conflict → Fits c e f → Newer e f.seqNo → Later e instant →
          (f.backtrip = noSects → only) ∧
          (f.backtrip ≠ noSects →
            t = { atMoment m s with ri := t.ri, pt := t.pt, tu := t.tu, mp := { s.mp with flags := t.mp.flags } } ∧
            t.port p = { q with ctr := counted } ∧ (∀ b', b' ≠ b → t.entry b' = s.entry b') ∧
            backtripRequest c f.source f.declared f.backtrip { t with tu := s.tu } = t) ∧
          ∃ pres run, t.entry b = { e with
            presence := pres, joinRun := run, tag := some f.tag, decl := some f.decl, lastSeq := some f.seqNo, fresh := 0
            declared := some f.declared, backtrip := f.backtrip, lastPort := some p
            history := (if e.history.length ≥ 32 then e.history.drop 1 else e.history) ++
              [⟨f.seqNo, instant, f.cur, f.val, f.replica, f.declared⟩]
            accepted := min (e.accepted + 1) 65535 } ∧
          (e.presence = .absent ∨ e.presence = .stale → pres = .joining ∧ run = 1) ∧
          (e.presence = .joining → run = min (e.joinRun + 1) 32 ∧ pres = if 32 ≤ e.joinRun + 1 then .live else .joining) ∧
          (e.presence = .live → pres = .live ∧ run = e.joinRun)))

/-- BAY_FRAME_RECEIVED with a frame of the own bay number. With the own tag it is an own frame: it is removed from the ring and counted
(R45), and the direction of the opposite port becomes CLOSED and loses every list entry that is the returned sequence or older (R58).
With another tag it is removed and counted as a duplicate-bay frame, DUPLICATE BAY is set, and the duplicate quiet count is set to 0
(R46, R170). -/
def Obligations.OwnFrameReturns : Prop :=
  ∀ (c : Settings) (p : Port) (bytes : List Byte) (f : BayFrame) (m : Nat) (s : State), Runs c s → s.su.phase ≤ m → m < 10000 →
    checkFrame bytes = some (.bay f) → (s.port p).link = .up → Uncut (s.port p) (atMoment m s).su.lt 128 →
    f.source = bayNumber c.bay →
    let s' := atMoment m s
    let q := s'.port p
    let o := s'.port (otherPort p)
    (f.tag = c.tag → ∃ t, exec (.bayFrameReceived p bytes m) s = .next t ∧
      t = { s' with ri := t.ri } ∧
      t.port p = { q with ctr := { q.ctr with
        framesReceived := min (q.ctr.framesReceived + 1) 65535
        ownReturns := min (q.ctr.ownReturns + 1) 65535 } } ∧
      t.port (otherPort p) = { o with opened := false, departed := (t.port (otherPort p)).departed } ∧
      ∀ e, e ∈ (t.port (otherPort p)).departed ↔ e ∈ o.departed ∧ 32767 < (f.seqNo - e).toNat) ∧
    (f.tag ≠ c.tag → ∃ t, exec (.bayFrameReceived p bytes m) s = .next t ∧
      t = { s'.updPort p fun q => { q with ctr := { q.ctr with
              framesReceived := min (q.ctr.framesReceived + 1) 65535
              duplicateBays := min (q.ctr.duplicateBays + 1) 65535 } } with
        sc := { s.sc with dupQuiet := 0 }, mp := { s'.mp with flags := s'.mp.flags ||| BitVec.twoPow 19 8 } })

/-- BAY_FRAME_RECEIVED, ECHO_REQUEST_RECEIVED or ECHO_ANSWER_RECEIVED with bytes that fail step 1 of R43, on a port PROBING or UP or
DOWN in its hold with its signal present: only the check failure is counted (R35, R43); that a row is judged by its bytes alone is the
model's choice (log 18). A bay frame on a PROBING port, or on one in its hold with its signal present, is only counted as not UP (R43
step 3). A reception of any kind that was cut off when the port went DOWN or when epochs were stopped, and any that comes to a port
DOWN outside such a hold, is discarded and nothing is counted (R34, R35); that State keeps the time of the cut is the model's way to
tell it (log 17). -/
def Obligations.BadFrameIsDropped : Prop :=
  ∀ (c : Settings) (p : Port) (bytes : List Byte) (m : Nat) (s : State), Runs c s → s.su.phase ≤ m → m < 10000 →
    let lt := (atMoment m s).su.lt
    let ticks := if bytes.length ≤ 8 then 48 else 128
    (checkFrame bytes = none → ((s.port p).link ≠ .down ∨ ((s.port p).hold ≠ 0 ∧ (s.port p).rx = true)) →
      Uncut (s.port p) lt ticks →
      ∀ i ∈ [Instr.bayFrameReceived p bytes m, .echoRequestReceived p bytes m, .echoAnswerReceived p bytes m],
        exec i s = .next ((atMoment m s).updPort p fun q =>
          { q with ctr := { q.ctr with checkFailures := min (q.ctr.checkFailures + 1) 65535 } })) ∧
    (∀ f, checkFrame bytes = some (.bay f) →
      ((s.port p).link = .probing ∨ ((s.port p).link = .down ∧ (s.port p).hold ≠ 0 ∧ (s.port p).rx = true)) →
      Uncut (s.port p) lt 128 →
      exec (.bayFrameReceived p bytes m) s = .next ((atMoment m s).updPort p fun q =>
        { q with ctr := { q.ctr with notUpDrops := min (q.ctr.notUpDrops + 1) 65535 } })) ∧
    (¬ Uncut (s.port p) lt ticks ∨ ((s.port p).link = .down ∧ ((s.port p).hold = 0 ∨ (s.port p).rx = false)) →
      ∀ i ∈ [Instr.bayFrameReceived p bytes m, .echoRequestReceived p bytes m, .echoAnswerReceived p bytes m],
        exec i s = .next (atMoment m s))

/-- TRANSMISSION_END: time runs on to the end of the frame on the link, or of the one that departs at the present tick, and the
transmitter is free; with neither nothing changes. That it runs no further than the last tick before the next epoch is the model's
choice (log 1). Whenever LT moves on, by an idle tick, at EPOCH or to the moment of a command, the arbiter of each port has chosen at
the tick that is left, so that among all that arrived there, by whatever commands, the order of R53 decides (log 4, the model's form;
that what arrives at the tick at which a transmitter becomes free is in its place before the choice is the model's choice). A
transmitter that is sending is left alone, and a free one takes the first of what is at the port: an answer, with its turnaround
(R39); a request that is due (R38); on an UP port the own frame, with its age (R49), its departure listed and the direction OPEN with
RING OPEN when an entry is overdue (R57), an own frame too old being dropped first (R49); then the head of the transit queue with its
outgoing age (R50), a head that waited too long or is too old being dropped first (R55). With nothing there the port stays idle. -/
def Obligations.TransmissionEnds : Prop :=
  (∀ (c : Settings) (p : Port) (s : State), Runs c s →
    (∀ x, ((settle s).port p).tx = some x →
      exec (.transmissionEnd p) s = .next ((atMoment (min (s.su.phase + (x.ticks - (s.su.lt - x.start).toNat)) 9999) s).updPort p fun q =>
        { q with tx := none })) ∧
    (((settle s).port p).tx = none → exec (.transmissionEnd p) s = .next s)) ∧
  (∀ (c : Settings) (k : Contacts) (tcs : Bool) (o : EpochOrder) (s : State), Runs c s →
    exec (.epoch k tcs o) s = exec (.epoch k tcs o) (settle s)) ∧
  (∀ (c : Settings) (s : State), Runs c s →
    let t := settle s
    let opens (q : PortState) : Prop := q.tx = none ∧ q.answer = none ∧ q.echoDue = false ∧ q.link = .up ∧ ∃ o, q.own = some o ∧
      (s.su.lt - o.instant).toNat ≤ 4000000 ∧ ∃ e ∈ q.departed, 8 ≤ (o.frame.seqNo - e).toNat ∧ (o.frame.seqNo - e).toNat ≤ 32767
    t = { s with ri := { s.ri with east := t.port .east, west := t.port .west }, mp := t.mp } ∧
    ((∃ p, opens (s.port p)) → t.mp = { s.mp with flags := s.mp.flags ||| BitVec.twoPow 19 5 }) ∧
    ((∀ p, ¬ opens (s.port p)) → t.mp = s.mp)) ∧
  ∀ (c : Settings) (p : Port) (s : State), Runs c s →
    let lt := s.su.lt
    let q := s.port p
    let taken := (settle s).port p
    let after (f : PortState → PortState) := (settle (s.updPort p f)).port p
    (q.tx.isSome = true → taken = q) ∧
    (∀ a, q.tx = none → q.answer = some a →
      taken = { q with answer := none, tx := some ⟨echoBytes 3 c.bay a.number (lt - a.arrival).toNat, lt, 48⟩ }) ∧
    (q.tx = none → q.answer = none → q.echoDue = true → taken = requestSent c lt q) ∧
    (q.tx = none → q.answer = none → q.echoDue = false →
      (q.link ≠ .up ∨ (q.own = none ∧ q.transit = []) → taken = q) ∧
      (∀ o, q.link = .up → q.own = some o →
        let age := (lt - o.instant).toNat
        let late (e : SeqNo) : Bool := decide (8 ≤ (o.frame.seqNo - e).toNat ∧ (o.frame.seqNo - e).toNat ≤ 32767)
        (age ≤ 4000000 → taken = { q with
          own := none
          tx := some ⟨bayBytes { o.frame with age := age }, lt, 128⟩
          departed := q.departed.filter (fun e => !late e) ++ [o.frame.seqNo]
          opened := q.opened || q.departed.any late
          ctr := { q.ctr with
            ownSent := min (q.ctr.ownSent + 1) 65535
            ringOpenEvents := if q.departed.any late && !q.opened then min (q.ctr.ringOpenEvents + 1) 65535
              else q.ctr.ringOpenEvents } }) ∧
        (4000000 < age → taken = after fun q =>
          { q with own := none, ctr := { q.ctr with agedDrops := min (q.ctr.agedDrops + 1) 65535 } })) ∧
      ∀ y rest, q.link = .up → q.own = none → q.transit = y :: rest →
        let age := y.frame.age + y.delay + (lt - y.arrival).toNat
        (2000 < (lt - y.arrival).toInt → taken = after fun q =>
          { q with transit := rest, ctr := { q.ctr with latencyDrops := min (q.ctr.latencyDrops + 1) 65535 } }) ∧
        ((lt - y.arrival).toInt ≤ 2000 → 4000000 < age → taken = after fun q =>
          { q with transit := rest, ctr := { q.ctr with agedDrops := min (q.ctr.agedDrops + 1) 65535 } }) ∧
        ((lt - y.arrival).toInt ≤ 2000 → age ≤ 4000000 → taken = { q with
          transit := rest
          tx := some ⟨bayBytes { y.frame with age := age }, lt, 128⟩
          ctr := { q.ctr with forwarded := min (q.ctr.forwarded + 1) 65535 } }))

/-! ## The peer table (section 4) -/

/-- PEER_STALE: a LIVE peer entry whose freshness has reached 24 goes STALE with its backtrip set emptied (R73), and PEER STALE is set
unless it last declared ISOLATED. PEER_ABSENT: a STALE or JOINING one at 4,000 goes ABSENT (R74). JOINING_RUN_RESET: a JOINING one at 4
has its joining run set to 0 (R72). EPOCH: the freshness of every entry goes up by one, stopping at 4,095, and a peer entry that so
reaches one of these marks does the same (R72 to R74); the own entry reaches none. -/
def Obligations.FreshnessMarks : Prop :=
  (∀ (c : Settings) (b : Bay) (s : State), Runs c s → b ≠ c.bay → (s.entry b).presence = .live → 24 ≤ (s.entry b).fresh →
    ∃ t, exec (.peerStale b) s = .next t ∧
      t = { s.setEntry b { s.entry b with
              presence := .stale, backtrip := noSects, stales := min ((s.entry b).stales + 1) 65535 } with mp := t.mp } ∧
      t.mp = (if (s.entry b).declared = some .isolated then s.mp
              else { s.mp with flags := s.mp.flags ||| BitVec.twoPow 19 9 })) ∧
  (∀ (c : Settings) (b : Bay) (s : State), Runs c s → b ≠ c.bay →
    ((s.entry b).presence = .stale ∨ (s.entry b).presence = .joining) → 4000 ≤ (s.entry b).fresh →
    exec (.peerAbsent b) s = .next (s.setEntry b { s.entry b with
      presence := .absent, history := [], lastSeq := none, joinRun := 0, backtrip := noSects })) ∧
  (∀ (c : Settings) (b : Bay) (s : State), Runs c s → b ≠ c.bay → (s.entry b).presence = .joining → 4 ≤ (s.entry b).fresh →
    exec (.joiningRunReset b) s = .next (s.setEntry b { s.entry b with joinRun := 0 })) ∧
  ∀ (c : Settings) (k : Contacts) (tcs : Bool) (o : EpochOrder) (s : State), Runs c s → s.pt.entries.length = 24 →
    ∃ t, exec (.epoch k tcs o) s = .next t ∧ ∀ b : Bay,
      let e := s.entry b
      let n := min (e.fresh + 1) 4095
      (b = c.bay → (∀ ph ch, (s.su.chans.get ph).get ch ≠ .converting) → t.entry b = { e with fresh := n }) ∧
      (b ≠ c.bay →
        (e.presence = .absent ∨ e.presence = .conflict ∨ (e.presence = .live ∧ n < 24) ∨ (e.presence = .joining ∧ n < 4) ∨
          (e.presence = .stale ∧ n < 4000) → t.entry b = { e with fresh := n }) ∧
        (e.presence = .live → 24 ≤ n → n < 4000 →
          t.entry b = { e with fresh := n, presence := .stale, backtrip := noSects, stales := min (e.stales + 1) 65535 } ∧
          (e.declared ≠ some .isolated → t.mp.flags.getLsbD 9 = true)) ∧
        (e.presence = .joining → 4 ≤ n → n < 4000 → t.entry b = { e with fresh := n, joinRun := 0 }) ∧
        (e.presence = .stale ∨ e.presence = .joining → 4000 ≤ n → t.entry b = { e with
          fresh := n, presence := .absent, history := [], lastSeq := none, joinRun := 0, backtrip := noSects }))

/-! ## Byte forms (section 11.5) -/

/-- The bytes of every frame the station can send pass step 1 of R43 and give back all that the frame carries: a bay frame whose
fields its 28 bytes can hold, and an echo request or answer of 8 bytes with its number and turnaround (11.5). -/
def Obligations.FramesRoundTrip : Prop :=
  (∀ f : BayFrame, f.source < 256 → f.scheme < 65536 → f.tag < 65536 → f.hops < 256 → f.age < 16777216 →
    (∀ ph, (f.cur.get ph).natAbs ≤ 32767 ∧ (f.val.get ph ≠ .valid → f.cur.get ph = 0)) →
    (bayBytes f).length = 28 ∧ checkFrame (bayBytes f) = some (.bay f)) ∧
  ∀ (b : Bay) (n : BitVec 8) (turn : Nat), turn < 65536 →
    checkFrame (echoBytes 2 b n 0) = some (.request n) ∧ checkFrame (echoBytes 3 b n turn) = some (.answer n turn) ∧
    (echoBytes 2 b n 0).length = 8 ∧ (echoBytes 3 b n turn).length = 8

/-- A configuration that the check of R175 passes is what its block's 64 bytes read back as. -/
def Obligations.ConfigBlockRoundTrip : Prop :=
  ∀ c : Settings, c.ok = true → (blockBytes c).length = 64 ∧ goodBlock (blockBytes c) = some c

/-! ## Zones and measurement (sections 6 and 7) -/

/-- STABILISATION_EXPIRY, EVOLVE_RELEASE, QUIET_RETURN and ONSET_WINDOW_END on a zone phase: in every section of the zone, or in the
check zone, a phase that meets the rule's condition changes class as the rule gives, and no other phase or place changes (R125, R129,
R132, R133, R134). ONSET_WINDOW_END reads the last evaluation's sample as not OP. -/
def Obligations.ZonePhaseRows : Prop :=
  (∀ (c : Settings) (z : ZoneRef) (ph : Phase) (s : State), Runs c s →
    ∃ t, exec (.stabilisationExpiry z ph) s = .next t ∧
      t = { s with ze := { s.ze with sects := t.ze.sects, check := t.ze.check } } ∧
      ∀ ph' y, stateAt t.ze ph' y =
        let st := stateAt s.ze ph' y
        if ph' = ph ∧ inZone s.ze z y = true ∧ st.cls = .external ∧ st.stab = 0 then { st with cls := .through, evolve := 0 }
        else st) ∧
  (∀ (c : Settings) (z : ZoneRef) (ph : Phase) (s : State), Runs c s →
    ∃ t, exec (.evolveRelease z ph) s = .next t ∧
      t = { s with ze := { s.ze with sects := t.ze.sects, check := t.ze.check } } ∧
      ∀ ph' y, stateAt t.ze ph' y =
        let st := stateAt s.ze ph' y
        if ph' = ph ∧ inZone s.ze z y = true ∧ st.cls = .external ∧ c.nOp ≤ st.evolve then
          { st with cls := .internal, stab := 0, evolve := 0 }
        else st) ∧
  (∀ (c : Settings) (z : ZoneRef) (ph : Phase) (s : State), Runs c s →
    ∃ t, exec (.quietReturn z ph) s = .next t ∧
      t = { s with ze := { s.ze with sects := t.ze.sects, check := t.ze.check } } ∧
      ∀ ph' y, stateAt t.ze ph' y =
        let st := stateAt s.ze ph' y
        if ph' = ph ∧ inZone s.ze z y = true ∧ st.cls ≠ .quiet ∧ 80 ≤ st.quietRun then
          { st with cls := .quiet, onset := none, stab := 0, quietRun := 0, evolve := 0 }
        else st) ∧
  ∀ (c : Settings) (z : ZoneRef) (ph : Phase) (s : State), Runs c s → lastOp c z ph s.ze = some false →
    ∃ t, exec (.onsetWindowEnd z ph) s = .next t ∧
      t = { s with ze := { s.ze with sects := t.ze.sects, check := t.ze.check } } ∧
      ∀ ph' y, stateAt t.ze ph' y =
        let st := stateAt s.ze ph' y
        if ph' = ph ∧ inZone s.ze z y = true ∧ st.cls = .onset ∧ c.window ≤ st.onset.getD 0 then
          { st with cls := .through, onset := none }
        else st

/-- ZONE_BLOCKED: a zone phase whose blocked run stands at 400 sets the flag and joins the detail once, and nothing else changes
(R115). A zone phase whose run does not stand at 400 changes nothing. R115 makes the detail a set: that a zone phase joins at its end,
so that the detail stands in the order of joining, is the model's choice (log 11). At an evaluation, by the last CONVERSION_COMPLETE of
an epoch, every zone phase whose run then stands at 400 is in the detail, with the flag set, and no other joins (R115). -/
def Obligations.ZoneBlockedRaises : Prop :=
  (∀ (c : Settings) (z : ZoneRef) (ph : Phase) (s : State), Runs c s → standsAt400 s.ze ph z →
    exec (.zoneBlocked z ph) s = .next { s with
      ze := { s.ze with
        blockedDetail := if s.ze.blockedDetail.contains (z, ph) then s.ze.blockedDetail else s.ze.blockedDetail ++ [(z, ph)] }
      mp := { s.mp with flags := s.mp.flags ||| BitVec.twoPow 19 14 } }) ∧
  (∀ (c : Settings) (z : ZoneRef) (ph : Phase) (s : State), Runs c s → ¬ standsAt400 s.ze ph z →
    exec (.zoneBlocked z ph) s = .next s) ∧
  ∀ (c : Settings) (ph : Phase) (ch : Channel) (raw : BitVec 16) (m : Nat) (s : State) (f : Flight), CompletesLast c ph ch m f s →
    ∃ t, exec (.conversionComplete ph ch raw m) s = .next t ∧
      (∀ z q, (z, q) ∈ t.ze.blockedDetail ↔ (z, q) ∈ s.ze.blockedDetail ∨ standsAt400 t.ze q z) ∧
      ∀ z q, standsAt400 t.ze q z → t.mp.flags.getLsbD 14 = true

/-- END_ZONE_TIMEOUT: a bay whose end-zone timer stands at the end-zone delay is a member of no zone of the last topology, whose
zones, sections and results are otherwise as they were (R106, R107). At an evaluation, by the last CONVERSION_COMPLETE of an epoch, the
end-zone timer of an installed bay declared TIE advances by one, stopping at the delay, when its aligned breaker reads OPEN; any other
timer is 0, and the last topology records those of the ties (R107, R116). -/
def Obligations.EndZoneRemovesTie : Prop :=
  (∀ (c : Settings) (b : Bay) (s : State) (tp : Topology), Runs c s → s.ze.endZone.getD b.val 0 = c.endZone →
    s.ze.topo = some tp →
    ∃ tp', exec (.endZoneTimeout b) s = .next { s with ze := { s.ze with topo := some tp' } } ∧
      tp' = { tp with zones := tp'.zones } ∧
      tp'.zones.map (fun z => (z.name, z.sections, z.phases)) = tp.zones.map (fun z => (z.name, z.sections, z.phases)) ∧
      (∀ z' ∈ tp'.zones, ∀ m ∈ z'.members, m.bay ≠ b) ∧
      ∀ z ∈ tp.zones, ∀ m ∈ z.members, m.bay ≠ b → ∃ z' ∈ tp'.zones, z'.name = z.name ∧ m ∈ z'.members) ∧
  ∀ (c : Settings) (ph : Phase) (ch : Channel) (raw : BitVec 16) (m : Nat) (s : State) (f : Flight), CompletesLast c ph ch m f s →
    ∃ t tp, exec (.conversionComplete ph ch raw m) s = .next t ∧ t.ze.topo = some tp ∧
      let timer (b : Bay) := t.ze.endZone.getD b.val 0
      (∀ b : Bay, c.hasBay b = false → timer b = 0) ∧
      ∀ y ∈ tp.bays,
        let tie := y.standing ≠ .undeclared ∧ ∃ d, (t.entry y.bay).decl = some d ∧ d.kind = .tie
        let opened := ∃ r, (alignHistory tp.tau (t.entry y.bay).history).replica = some r ∧ r.breaker = .opened
        (tie → y.timer = some (timer y.bay)) ∧ (¬ tie → y.timer = none) ∧
        (tie → opened → timer y.bay = min (s.ze.endZone.getD y.bay.val 0 + 1) c.endZone) ∧
        (¬ (tie ∧ opened) → timer y.bay = 0)

/-- The differential of a zone never exceeds its restraint: every member enters both sums once, the differential with its sign (R120).
At an evaluation, by the last CONVERSION_COMPLETE of an epoch, the last topology records as the members of each zone exactly the placed
bays that R105 and R106 make members, each once with its sign, and as those of the check zone the USABLE and UNUSABLE feeders with sign
+1 (R109); its Id and Ir are the sums of its members' aligned currents (R120, R121); a bay is held by the zones that its isolators counted
closed reach (R108), and those holding the own bay are recorded with their sections (R116). That the current of an UNUSABLE bay enters
these sums as R93 leaves it is the model's reading (log 26). -/
def Obligations.DifferentialWithinRestraint : Prop :=
  (∀ (c : Settings) (views : List BayView) (timers : List Nat) (z : SectSet) (ph : Phase),
    differential views ph (membersOf c timers views z) ≤ restraint views ph (membersOf c timers views z) ∧
    differential views ph (checkMembers views) ≤ restraint views ph (checkMembers views)) ∧
  ∀ (c : Settings) (ph : Phase) (ch : Channel) (raw : BitVec 16) (m : Nat) (s : State) (f : Flight), CompletesLast c ph ch m f s →
    ∃ t tp, exec (.conversionComplete ph ch raw m) s = .next t ∧ t.ze.topo = some tp ∧
      let current (x : Member) (q : Phase) : Int := (alignHistory tp.tau (t.entry x.bay).history).cur.get q
      let sums (l : List Member) (r : PhaseResult) (q : Phase) : Prop :=
        r.id = ((l.map fun x => x.sign * current x q).sum).natAbs ∧ r.ir = (l.map fun x => (current x q).natAbs).sum
      (∀ z ∈ tp.zones, (z.members.map Member.bay).Nodup ∧ (∀ q, sums z.members (z.phases.get q) q) ∧
        ∀ b sign, ⟨b, sign⟩ ∈ z.members ↔ ∃ y ∈ tp.bays, y.bay = b ∧ ∃ d r, Placed t tp.tau y d r ∧
          MemberWith c z.sections (t.ze.endZone.getD b.val 0) d r sign) ∧
      (tp.chkMembers.map Member.bay).Nodup ∧ (∀ q, sums tp.chkMembers (tp.chk.get q) q) ∧
      (∀ b sign, ⟨b, sign⟩ ∈ tp.chkMembers ↔ sign = 1 ∧ ∃ y ∈ tp.bays, y.bay = b ∧
        (y.standing = .usable ∨ y.standing = .unusable) ∧ ∃ d, (t.entry b).decl = some d ∧ d.kind = .feeder) ∧
      (∀ y ∈ tp.bays, ∀ x, x ∈ y.zones ↔ ∃ z ∈ tp.zones, z.name = x ∧ ∃ d r, Placed t tp.tau y d r ∧
        (reaches1 z.sections d r ∨ reaches2 z.sections d r)) ∧
      (∀ x, x ∈ tp.ownZones ↔ ∃ y ∈ tp.bays, y.bay = c.bay ∧ x ∈ y.zones) ∧
      ∀ x, tp.ownSections.get x = true ↔ ∃ z ∈ tp.zones, z.name ∈ tp.ownZones ∧ z.sections.get x = true

/-- The zones of one instant part the present sections: every present section lies in exactly one of them, a zone is named by its
lowest section and holds present sections alone, and two present sections lie in one zone exactly when a chain of feeder links joins
them (R104). At an evaluation, by the last CONVERSION_COMPLETE of an epoch, the zones that the last topology records are those of the
present sections of the in-use copy and of the feeder links of that instant (R99, R103): those of the placed FEEDERS with two sides whose
isolators are both counted closed, a TIE making none. It records them in the order of their names (R116), and in that order those that
hold the own bay. -/
def Obligations.ZonesPartSections : Prop :=
  (∀ (present : SectSet) (links : List FeederLink),
    (∀ x, present.get x = true → ∃ z ∈ zoneSets present links, z.2.get x = true ∧
      ∀ z' ∈ zoneSets present links, z'.2.get x = true → z' = z) ∧
    (∀ z ∈ zoneSets present links, lowest z.2 = some z.1 ∧ ∀ x, z.2.get x = true → present.get x = true) ∧
    ∀ x y, present.get x = true → present.get y = true →
      ((∃ z ∈ zoneSets present links, z.2.get x = true ∧ z.2.get y = true) ↔ Joined present links x y)) ∧
  ∀ (c : Settings) (ph : Phase) (ch : Channel) (raw : BitVec 16) (m : Nat) (s : State) (f : Flight), CompletesLast c ph ch m f s →
    ∃ t tp links, exec (.conversionComplete ph ch raw m) s = .next t ∧ t.ze.topo = some tp ∧
      (∀ x y, (x, y) ∈ links ↔ LinkedBy t tp x y) ∧
      (tp.zones.map fun z => (z.name, z.sections)) = zoneSets c.present links ∧
      (tp.zones.map ZoneTopo.name).Pairwise namedBefore ∧ tp.ownZones.Pairwise namedBefore

/-- One evaluation of a phase that is not blocked, by its class before (R126 to R134), op telling whether the sample is OP, and unless
the quiet run reaches 80 where it is not QUIET. From QUIET: a restraint below the onset level leaves it QUIET; otherwise OP gives
INTERNAL, and without OP the window of length 1 ends in THROUGH and a longer one begins in ONSET (R128, R129). From ONSET: OP gives
INTERNAL, and without OP the index goes up and reaches W in THROUGH (R129). INTERNAL stays (R130). THROUGH becomes EXTERNAL at OP
(R131). EXTERNAL is released to INTERNAL at N_op evolving samples (R132), returns to THROUGH when its timer runs out (R133), and
otherwise stays, its counter at 0 (R127). Any class but QUIET returns to QUIET at a quiet run of 80 (R134). With OP at the very
instant the timer runs out, R127's table counts 1 where R131 and R133 keep 0: that the counter is 0 there is the model's choice (log
28). At an evaluation, by the last CONVERSION_COMPLETE of an epoch, each section of a zone starts from its state, set back when its
zone has changed as a set (R110). A blocked phase is set back and its blocked run advances in SERVICE alone (R114, R115); one that is
not blocked takes this evaluation from its zone's state and sums (R120 to R126), and the verdict is OPERATE exactly when it is not
blocked, its counter is at least N_op and its class is QUIET, ONSET or INTERNAL (R135, R136). The check zone goes likewise, never set
back by a change of zones. A section in no zone keeps its state (R125). -/
def Obligations.ClassMoves : Prop :=
  (∀ (c : Settings) (h : Characteristic) (id ir : Nat) (z : ZoneState),
    let op := decide (h.iMin ≤ id ∧ h.k * ir ≤ 64 * id)
    let t := zoneStep c h id ir z
    let loaded := c.iOnset / 2 ≤ ir ∨ z.quietRun + 1 < 80
    (z.cls = .quiet → ir < c.iOnset → t.cls = .quiet) ∧
    (z.cls = .quiet → c.iOnset ≤ ir → op = true → t.cls = .internal) ∧
    (z.cls = .quiet → c.iOnset ≤ ir → op = false → 1 < c.window → t.cls = .onset ∧ t.onset = some 1) ∧
    (z.cls = .quiet → c.iOnset ≤ ir → op = false → c.window ≤ 1 → t.cls = .through ∧ t.onset = none) ∧
    (loaded → z.cls = .onset → op = true → t.cls = .internal ∧ t.onset = none) ∧
    (∀ n, loaded → z.cls = .onset → z.onset = some n → op = false →
      (n + 1 < c.window → t.cls = .onset ∧ t.onset = some (n + 1)) ∧
      (c.window ≤ n + 1 → t.cls = .through ∧ t.onset = none)) ∧
    (loaded → z.cls = .internal → t.cls = .internal) ∧
    (loaded → z.cls = .through → op = false → t.cls = .through) ∧
    (loaded → z.cls = .through → op = true →
      t.cls = .external ∧ t.stab = c.tStab ∧ t.evolve = if 58 * ir ≤ 64 * id then 1 else 0) ∧
    (loaded → z.cls = .external →
      let run := if 58 * ir ≤ 64 * id then z.evolve + 1 else 0
      (c.nOp ≤ run → t.cls = .internal ∧ t.stab = 0 ∧ t.evolve = 0) ∧
      (run < c.nOp → z.stab ≤ 1 → t.cls = .through ∧ t.evolve = 0) ∧
      (run < c.nOp → 1 < z.stab → t.cls = .external ∧ t.stab = z.stab - 1 ∧ t.evolve = run)) ∧
    (ir < c.iOnset / 2 → z.cls ≠ .quiet →
      (80 ≤ z.quietRun + 1 → t.cls = .quiet ∧ t.onset = none ∧ t.stab = 0 ∧ t.quietRun = 0 ∧ t.evolve = 0) ∧
      (z.quietRun + 1 < 80 → t.quietRun = z.quietRun + 1)) ∧
    (c.iOnset / 2 ≤ ir ∨ z.cls = .quiet → t.quietRun = 0) ∧
    (t.cls = .external → t.counter = 0) ∧ (t.cls = .through → op = true → t.counter = 0) ∧
    (t.cls ≠ .external → op = false → t.counter = z.counter - 1) ∧
    (t.cls = .quiet ∨ t.cls = .onset ∨ t.cls = .internal → op = true → t.counter = min (z.counter + 1) 31)) ∧
  ∀ (c : Settings) (ph : Phase) (ch : Channel) (raw : BitVec 16) (m : Nat) (s : State) (f : Flight), CompletesLast c ph ch m f s →
    ∃ t tp, exec (.conversionComplete ph ch raw m) s = .next t ∧ t.ze.topo = some tp ∧
      let run (z : ZoneState) : Nat := if f.declared = .service then min (z.blockedRun + 1) 400 else 0
      let evaluated (h : Characteristic) (r : PhaseResult) (own common after : ZoneState) : Prop :=
        (r.blocked = true → after = freshPhase (run own)) ∧
        (r.blocked = false → after = { zoneStep c h r.id r.ir common with blockedRun := 0 }) ∧
        (r.operate = true ↔ r.blocked = false ∧ c.nOp ≤ after.counter ∧ OperateClass after)
      (∀ z ∈ tp.zones, ∀ x, z.sections.get x = true → ∀ q,
        ∃ before : Sect → ZoneState,
          (∀ y, (zoneChanged s.ze y z.sections → before y = freshPhase 0) ∧
            (¬ zoneChanged s.ze y z.sections → before y = stateAt s.ze q (some y))) ∧
          evaluated ⟨c.iMin, c.k⟩ (z.phases.get q) (before x) (before z.name) (stateAt t.ze q (some x))) ∧
      (∀ q, evaluated ⟨c.iChkMin, c.kChk⟩ (tp.chk.get q) (stateAt s.ze q none) (stateAt s.ze q none) (stateAt t.ze q none)) ∧
      ∀ x, (∀ z ∈ tp.zones, z.sections.get x = false) → ∀ q, stateAt t.ze q (some x) = stateAt s.ze q (some x)

/-! ## Tripping (section 8) -/

/-- RETRIP: with the retrip timer at T_retrip, no retrip made and current present, coil 2 goes to trip level in ASSERTED and is only
recorded in TEST ASSERTED (R147). -/
def Obligations.RetripDrivesCoil2 : Prop :=
  ∀ (c : Settings) (s : State), Runs c s → s.tu.trip ≠ .idle → s.tu.retrip = c.tRetrip → s.tu.retripMade = false →
    currentPresent c s.su.peak = true →
    exec .retrip s = .next { s with tu := { s.tu with
      retripMade := true
      coil2 := if s.tu.trip = .asserted then .trip else s.tu.coil2
      ctr := { s.tu.ctr with retrips := min (s.tu.ctr.retrips + 1) 65535 } } }

/-- BREAKER_FAILURE: with the BF timer at T_bf in TIMING while current flows, or with the breaker contact check on while the own
breaker reads CLOSED, BF becomes FAILED; in ASSERTED the backtrip set is that of the zones holding the own bay, the failure is counted
and BREAKER FAILURE is set (R148). -/
def Obligations.BreakerFailureFixesBacktrip : Prop :=
  (∀ (c : Settings) (s : State) (tp : Topology), Runs c s → s.tu.trip = .asserted → s.tu.bf = .timing → s.tu.bfTimer = c.tBf →
    (currentPresent c s.su.peak = true ∨ (c.breakerCheck = true ∧ ∃ r, s.ciu.derived = some r ∧ r.breaker = .closed)) →
    s.ze.topo = some tp →
    exec .breakerFailure s = .next { s with
      tu := { s.tu with bf := .failed, backtrip := tp.ownSections
                        ctr := { s.tu.ctr with breakerFailures := min (s.tu.ctr.breakerFailures + 1) 65535 } }
      mp := { s.mp with flags := s.mp.flags ||| BitVec.twoPow 19 17 } }) ∧
  (∀ (c : Settings) (s : State), Runs c s → s.tu.trip = .testAsserted → s.tu.bf = .timing → s.tu.bfTimer = c.tBf →
    currentPresent c s.su.peak = true →
    exec .breakerFailure s = .next { s with tu := { s.tu with bf := .failed } }) ∧
  ∀ (c : Settings) (s : State), Runs c s → currentPresent c s.su.peak = false → c.breakerCheck = false →
    exec .breakerFailure s = .next s

/-- SUPERVISION_PULSE_DUE at a count of 1,024 outside BLOCKED: a pulse starts on coil 1, or is skipped and counted when coil 1 is at
trip level (R152). SUPERVISION_PULSE_END at 8 epochs: TCS active passes; TCS inactive counts a failure, and the third in a row sets
TRIP CIRCUIT (R154). EPOCH with no late own sample: while the trip state stays, IDLE, ASSERTED in SERVICE or TEST ASSERTED in TEST,
and the state chosen is not BLOCKED, the supervision count goes up by one, and at 1,024 a pulse starts and the count is 0, or it is
skipped and counted when coil 1 is at trip level (R152, R153); a pulse under way counts its epochs, and at 8 it ends with the TCS of
that epoch (R154). When BLOCKED is chosen with no trip on, the count is held and a pulse under way is abandoned (R152). That the count
and the pulse go by the state chosen at that very epoch is the model's choice (log 4). -/
def Obligations.SupervisionPulses : Prop :=
  (∀ (c : Settings) (s : State), Runs c s → s.sc.station ≠ .running .blocked → s.tu.supCount = 1024 →
    exec .supervisionPulseDue s = .next { s with tu :=
      if s.tu.coil1 = .trip then
        { s.tu with supCount := 0, ctr := { s.tu.ctr with supSkips := min (s.tu.ctr.supSkips + 1) 65535 } }
      else { s.tu with coil1 := .supervision, pulse := some 1, supCount := 0, pulseNew := true } }) ∧
  (∀ (c : Settings) (s : State), Runs c s → s.tu.pulse = some 8 → s.tu.coil1 = .supervision →
    exec (.supervisionPulseEnd true) s = .next { s with
      tu := { s.tu with pulse := none, coil1 := .off, supFails := 0 }, pins := { s.pins with tcs := true } }) ∧
  (∀ (c : Settings) (s : State), Runs c s → s.tu.pulse = some 8 → s.tu.coil1 = .supervision →
    exec (.supervisionPulseEnd false) s = .next { s with
      tu := { s.tu with
        pulse := none, coil1 := .off, supFails := min (s.tu.supFails + 1) 3
        ctr := { s.tu.ctr with supFailures := min (s.tu.ctr.supFailures + 1) 65535 } }
      mp := if 2 ≤ s.tu.supFails then { s.mp with flags := s.mp.flags ||| BitVec.twoPow 19 16 } else s.mp
      pins := { s.pins with tcs := false } }) ∧
  ∀ (c : Settings) (k : Contacts) (tcs : Bool) (o : EpochOrder) (s : State), Runs c s →
    (∀ ph ch, (s.su.chans.get ph).get ch ≠ .converting) →
    ∃ t, exec (.epoch k tcs o) s = .next t ∧
      let stays := s.tu.trip = .idle ∨ (s.tu.trip = .asserted ∧ t.sc.station = .running .service) ∨
        (s.tu.trip = .testAsserted ∧ t.sc.station = .running .test)
      (s.tu.trip = .idle → t.sc.station = .running .blocked → t.tu = { s.tu with
        pulseNew := false, pulse := none, coil1 := if s.tu.pulse.isSome ∧ s.tu.coil1 = .supervision then .off else s.tu.coil1
        ctr := { s.tu.ctr with
          supAbandons := if s.tu.pulse.isSome then min (s.tu.ctr.supAbandons + 1) 65535 else s.tu.ctr.supAbandons } }) ∧
      (stays → t.sc.station ≠ .running .blocked →
        (s.tu.supCount + 1 < 1024 →
          let counts : TripUnit := { s.tu with pulseNew := false, supCount := s.tu.supCount + 1 }
          (s.tu.pulse = none → t.tu = counts) ∧
          ∀ n, s.tu.pulse = some n →
            (n + 1 < 8 → t.tu = { counts with pulse := some (n + 1) }) ∧
            (8 ≤ n + 1 →
              let ends : TripUnit := { counts with pulse := none, coil1 := if s.tu.coil1 = .supervision then .off else s.tu.coil1 }
              (tcs = true → t.tu = { ends with supFails := 0 }) ∧
              (tcs = false → t.tu = { ends with
                  supFails := min (s.tu.supFails + 1) 3
                  ctr := { s.tu.ctr with supFailures := min (s.tu.ctr.supFailures + 1) 65535 } } ∧
                (2 ≤ s.tu.supFails → t.mp.flags.getLsbD 16 = true)))) ∧
        (1024 ≤ s.tu.supCount + 1 → s.tu.pulse = none →
          (s.tu.coil1 ≠ .trip → t.tu = { s.tu with pulseNew := true, supCount := 0, coil1 := .supervision, pulse := some 1 }) ∧
          (s.tu.coil1 = .trip → t.tu = { s.tu with
            pulseNew := false, supCount := 0
            ctr := { s.tu.ctr with supSkips := min (s.tu.ctr.supSkips + 1) 65535 } })))

/-- A backtrip request handed on from bay n (R142): counted as received; ignored from TEST, BLOCKED or ISOLATED, or when it names a
section not present; unmatched when it names no section of the zones holding the own bay; otherwise, with no trip on, it asserts a trip
in SERVICE, which drives coil 1, and in TEST, which drives nothing (R140, R143), and with a trip on, or in any other state, it does no
more. At the hand-over of the verdicts with no trip on, a phase in which a zone holding the own bay and the check zone both give OPERATE
asserts a trip likewise (R140, R141), and no such phase asserts nothing. Each assertion captures its record in an EMPTY latch, with the
number, the epoch and the fields of its cause, and counts an overrun at a HELD one (R155, R156). A request that comes with a trip on
keeps that trip's cause active under R145, as `ReleaseEndsTrip` says. -/
def Obligations.TripsAreAsserted : Prop :=
  (∀ (c : Settings) (n : Nat) (r : RunState) (set : SectSet) (s : State),
    let t := backtripRequest c n r set s
    let handed : State := { s with tu := { s.tu with ctr := { s.tu.ctr with
      backtripsReceived := min (s.tu.ctr.backtripsReceived + 1) 65535 } } }
    (r = .test ∨ r = .blocked ∨ r = .isolated ∨ (∃ x, set.get x = true ∧ c.present.get x = false) →
      t = { handed with tu := { handed.tu with ctr := { handed.tu.ctr with
        backtripsIgnored := min (s.tu.ctr.backtripsIgnored + 1) 65535 } } }) ∧
    ((r = .listen ∨ r = .service) → (∀ x, set.get x = true → c.present.get x = true) →
      (∀ x, ¬ (set.get x = true ∧ (ownSections s).get x = true)) →
      t = { handed with tu := { handed.tu with ctr := { handed.tu.ctr with
        backtripsUnmatched := min (s.tu.ctr.backtripsUnmatched + 1) 65535 } } }) ∧
    ((r = .listen ∨ r = .service) → (∀ x, set.get x = true → c.present.get x = true) →
      (∃ x, set.get x = true ∧ (ownSections s).get x = true) →
      (s.tu.trip = .idle → s.sc.station = .running .service →
        TripAsserted c false true handed t ∧ RecordTaken false (.backtrip n set) s.su.epoch handed t) ∧
      (s.tu.trip = .idle → s.sc.station = .running .test →
        TripAsserted c true true handed t ∧ RecordTaken true (.backtrip n set) s.su.epoch handed t) ∧
      (s.tu.trip ≠ .idle ∨ (s.sc.station ≠ .running .service ∧ s.sc.station ≠ .running .test) → t = handed))) ∧
  ∀ (c : Settings) (k : EpochNo) (s : State) (tp : Topology), s.tu.trip = .idle → s.ze.topo = some tp →
    let t := tripEvaluation c k s
    (∀ ph, TripsIn tp ph →
      (s.sc.station = .running .service → TripAsserted c false false s t ∧
        ∃ q, DifferentialRecord tp q ∧ RecordTaken false q k s t) ∧
      (s.sc.station = .running .test → TripAsserted c true false s t ∧ ∃ q, DifferentialRecord tp q ∧ RecordTaken true q k s t)) ∧
    ((s.sc.station ≠ .running .service ∧ s.sc.station ≠ .running .test) ∨ (∀ ph, ¬ TripsIn tp ph) → t = s)

/-- Step 5 of the evaluation of an asserted trip: with the seal-in run out, no active cause and no current, the trip is released, both
coils leave trip level, a supervision pulse starts, and a recorded trip's record is closed with the end RELEASE (R149, R153, R158). At
an evaluation with a trip on, ASSERTED or TEST ASSERTED, the timers advance (R146); with the retrip timer at its end and current the
retrip is made once, which in ASSERTED drives coil 2 (R147); with the BF timer at its end and current, or the contact check on and the
breaker CLOSED, BF becomes FAILED, and in ASSERTED the backtrip set becomes the sections of the zones holding the own bay, the failure
is counted and BREAKER FAILURE is set (R148); an active cause, which is the differential condition or a peer's backtrip request
(R145), current, or seal-in left keeps the trip, and otherwise it is released (R149), from ASSERTED with a supervision pulse and from
TEST ASSERTED with none, the record saying whether breaker failure stood or came in its step 4 (R148). That CONVERSION_COMPLETE makes
this evaluation is said by `LastConversionMakesRecord`. EPOCH with a trip on and no late own sample: the trip stays when the state
chosen is the one it was asserted in, and otherwise is released with the end STATE CHANGE, from ASSERTED with a supervision pulse
unless BLOCKED is chosen (R150, R153, R158). That the pulse stands at 1 after that epoch, with the supervision count at 0 and no skip,
rests on the order of the release before the supervision of R152 at one epoch, the model's choice, and on the epoch at which a pulse
begins not advancing it, the model's reading (logs 4 and 16). The model's reading (log 15): R149 reads that both coil drives become
OFF at a release, and here a release from TEST ASSERTED leaves a supervision pulse that is running, with coil 1 in SUPERVISION, as
R153 lets pulses run during a test trip; a release also ends the seal-in count and the record mark. -/
def Obligations.ReleaseEndsTrip : Prop :=
  (∀ (c : Settings) (s : State), s.tu.trip = .asserted → s.tu.sealIn = 0 → currentPresent c s.su.peak = false →
    let t := releaseOp c false s
    t = { s with tu := t.tu } ∧ t.tu.trip = .idle ∧ t.tu.coil1 = .supervision ∧ t.tu.pulse = some 1 ∧ t.tu.coil2 = .off ∧
    t.tu.bf = .idle ∧ t.tu.backtrip = noSects ∧ t.tu.bfTimer = 0 ∧ t.tu.retrip = 0 ∧ t.tu.recNumber = s.tu.recNumber ∧
    ∀ r, s.tu.held = some r → t.tu.held = some (if s.tu.recorded then
      { r with closed := some ⟨s.su.epoch, .release, s.tu.retripMade, decide (s.tu.bf = .failed)⟩ } else r)) ∧
  (∀ (c : Settings) (k : EpochNo) (s : State), s.tu.trip ≠ .idle →
    let t := tripEvaluation c k s
    let differential := ∃ tp ph, s.ze.topo = some tp ∧ (∃ x ∈ tp.ownZones, zoneOperates tp x ph = true) ∧
      (tp.chk.get ph).operate = true
    let requested := ∃ b : Bay, b ≠ c.bay ∧
      let e := s.entry b
      e.declared ≠ some .test ∧ e.declared ≠ some .blocked ∧ e.declared ≠ some .isolated ∧
      (∀ x, e.backtrip.get x = true → c.present.get x = true) ∧ ∃ x, e.backtrip.get x = true ∧ (ownSections s).get x = true
    let current := currentPresent c s.su.peak = true
    let kept := differential ∨ requested ∨ current ∨ 1 < s.tu.sealIn
    ∃ made came : Bool,
      (made = true ↔ c.tRetrip ≤ s.tu.retrip + 1 ∧ s.tu.retripMade = false ∧ current) ∧
      (came = true ↔ s.tu.bf = .timing ∧ c.tBf ≤ s.tu.bfTimer + 1 ∧
        (current ∨ (c.breakerCheck = true ∧ ∃ r, s.ciu.derived = some r ∧ r.breaker = .closed))) ∧
      let failed := decide (s.tu.bf = .failed) || came
      let alarmed := came && decide (s.tu.trip = .asserted)
      let ctr : TripCounters := { s.tu.ctr with
        retrips := if made then min (s.tu.ctr.retrips + 1) 65535 else s.tu.ctr.retrips
        breakerFailures := if alarmed then min (s.tu.ctr.breakerFailures + 1) 65535 else s.tu.ctr.breakerFailures }
      t = { s with
        tu := t.tu, mp := if alarmed then { s.mp with flags := s.mp.flags ||| BitVec.twoPow 19 17 } else s.mp } ∧
      t.tu.ctr = ctr ∧
      (kept → t.tu = { s.tu with
        sealIn := s.tu.sealIn - 1, retrip := min (s.tu.retrip + 1) c.tRetrip, bfTimer := min (s.tu.bfTimer + 1) c.tBf
        retripMade := s.tu.retripMade || made
        coil2 := if made = true ∧ s.tu.trip = .asserted then .trip else s.tu.coil2
        bf := if came then .failed else s.tu.bf
        backtrip := if alarmed then ownSections s else s.tu.backtrip
        ctr := ctr }) ∧
      (¬ kept →
        t.tu.trip = .idle ∧ t.tu.coil2 = .off ∧ t.tu.bf = .idle ∧ t.tu.backtrip = noSects ∧ t.tu.sealIn = 0 ∧ t.tu.bfTimer = 0 ∧
        t.tu.retrip = 0 ∧ t.tu.recorded = false ∧ t.tu.recNumber = s.tu.recNumber ∧
        (s.tu.trip = .asserted → t.tu.coil1 = .supervision ∧ t.tu.pulse = some 1 ∧ t.tu.supCount = 0) ∧
        (s.tu.trip = .testAsserted →
          t.tu.coil1 = (if s.tu.coil1 = .trip then .off else s.tu.coil1) ∧ t.tu.pulse = s.tu.pulse ∧
          t.tu.supCount = s.tu.supCount) ∧
        t.tu.held = if s.tu.recorded then s.tu.held.map fun r =>
          { r with closed := some ⟨s.su.epoch, .release, s.tu.retripMade, failed⟩ } else s.tu.held)) ∧
  ∀ (c : Settings) (k : Contacts) (tcs : Bool) (o : EpochOrder) (s : State), Runs c s → TripSound s → s.tu.trip ≠ .idle →
    (∀ ph ch, (s.su.chans.get ph).get ch ≠ .converting) →
    ∃ t r, exec (.epoch k tcs o) s = .next t ∧ t.sc.station = .running r ∧
      let stays := (s.tu.trip = .asserted ∧ r = .service) ∨ (s.tu.trip = .testAsserted ∧ r = .test)
      (stays → t.tu.trip = s.tu.trip ∧ t.tu.held = s.tu.held ∧ t.tu.recorded = s.tu.recorded ∧ t.tu.sealIn = s.tu.sealIn ∧
        t.tu.coil2 = s.tu.coil2 ∧ t.tu.bf = s.tu.bf ∧ t.tu.backtrip = s.tu.backtrip ∧
        (s.tu.trip = .asserted → t.tu.coil1 = .trip)) ∧
      (¬ stays → t.tu.trip = .idle ∧ t.tu.coil2 = .off ∧ t.tu.bf = .idle ∧ t.tu.backtrip = noSects ∧ t.tu.recorded = false ∧
        (s.tu.trip = .asserted → r = .blocked → t.tu.coil1 = .off ∧ t.tu.pulse = none) ∧
        (s.tu.trip = .asserted → r ≠ .blocked → t.tu.coil1 = .supervision ∧ t.tu.pulse = some 1 ∧ t.tu.supCount = 0) ∧
        t.tu.held = if s.tu.recorded then s.tu.held.map fun x =>
          { x with closed := some ⟨s.su.epoch + 1, .stateChange, s.tu.retripMade, decide (s.tu.bf = .failed)⟩ } else s.tu.held)

/-! ## Station states, clock and resets (section 9) -/

/-- The choice of R161 at an epoch whose conditions are d, with the duplicate quiet count and the qualification of R166 and R170 taken
before it and the listen timer of R167 after it; a choice that differs from the state before counts one state change. EPOCH makes this
choice: the Station Controller ends as it leaves it on the conditions of that epoch, with the entries and links before or after their
epoch counts and a late own sample before or after the choice, as the operand of EPOCH orders them (log 4, the model's choice). With it
come the two flags of the Station Controller: ISOLATION BREACH is set when OOS is active and isolators all open does not hold, whatever
state is chosen (R168), LISTEN TIMEOUT when the listen timer stands at 40,000 (R167), and neither otherwise. -/
def Obligations.StationStateChoice : Prop :=
  (∀ (c : Settings) (s : State) (d : Conditions), s.ciu.cond = some d →
    let t := choiceStage c s
    let quiet := min (s.sc.dupQuiet + 1) 4000
    let steady := (∀ b : Bay, c.hasBay b = true → (s.entry b).presence = .live ∨ (s.entry b).declared = some .isolated) ∧
      ((s.port .east).link = .up ∨ (s.port .west).link = .up)
    ∃ count qualified r,
      (s.sc.station = .running .blocked → count = 0 ∧ qualified = s.sc.qualified) ∧
      (s.sc.station ≠ .running .blocked → (steady → count = min (s.sc.qualCount + 1) 400) ∧ (¬ steady → count = 0) ∧
        (qualified = true ↔ s.sc.qualified = true ∨ 400 ≤ count)) ∧
      r = (if s.su.convFail = true ∨ quiet < 4000 then RunState.blocked
        else if d.oos = true ∧ d.allOpen = true then .isolated
        else if d.tst = true ∨ s.sc.maintTest = true then .test
        else if qualified = true then .service else .listen) ∧
      t.sc = { s.sc with
        station := .running r
        causes := if r = .blocked then ⟨s.su.convFail, decide (quiet < 4000), false⟩ else ⟨false, false, false⟩
        dupQuiet := quiet
        qualified := if r = .blocked then false else qualified
        qualCount := if r = .blocked then 0 else count
        listen := if r = .listen then min (s.sc.listen + 1) 40000 else 0
        stateChanges := if s.sc.station = .running r then s.sc.stateChanges else min (s.sc.stateChanges + 1) 65535 } ∧
      t.mp = { s.mp with flags := s.mp.flags ||| (if t.sc.listen = 40000 then BitVec.twoPow 19 15 else 0) |||
        (if d.oos = true ∧ d.allOpen = false then BitVec.twoPow 19 13 else 0) } ∧
      t.su = s.su ∧ t.ciu = s.ciu ∧ t.ri = s.ri ∧ t.pt = s.pt ∧ t.ze = s.ze ∧ t.cs = s.cs) ∧
  ∀ (c : Settings) (k : Contacts) (tcs : Bool) (o : EpochOrder) (s : State), Runs c s →
    ∃ t, exec (.epoch k tcs o) s = .next t ∧
      let sampled := o.late = .beforeChoice
      t.sc = (choiceStage c { t with
        sc := s.sc
        su := if sampled then t.su else s.su
        ri := if o.linksFirst then t.ri else s.ri
        pt := (if o.peersFirst then t.pt else s.pt).set c.bay (if sampled then t.entry c.bay else s.entry c.bay) }).sc ∧
      t.mp.flags.getLsbD 15 = (s.mp.flags.getLsbD 15 || decide (t.sc.listen = 40000)) ∧
      ∀ d, t.ciu.cond = some d → t.mp.flags.getLsbD 13 = (s.mp.flags.getLsbD 13 || (d.oos && !d.allOpen))

/-- QUALIFIED: the qualification counter at 400 qualifies the station (R166). LISTEN_TIMEOUT: the listen timer at 40,000 sets its flag,
and a timer below it sets nothing (R167). QUIET_RUN_END and DUPLICATE_CONFLICT_END: a quiet run or the duplicate quiet count at 4,000
ends the cause of its alarm, and below 4,000 the cause is held (R59, R170). The model computes the cause, so these two commands store
nothing (log 2, the model's reading). EPOCH: both quiet runs go up by one, stopping at 4,000 (R59). -/
def Obligations.MarksOfTheController : Prop :=
  (∀ (c : Settings) (s : State), Runs c s → s.sc.qualCount = 400 →
    exec .qualified s = .next { s with sc := { s.sc with qualified := true } }) ∧
  (∀ (c : Settings) (s : State), Runs c s → s.sc.listen = 40000 →
    exec .listenTimeout s = .next { s with mp := { s.mp with flags := s.mp.flags ||| BitVec.twoPow 19 15 } }) ∧
  (∀ (c : Settings) (s : State), Runs c s → s.sc.listen ≠ 40000 → exec .listenTimeout s = .next s) ∧
  (∀ s : State, exec (.quietRunEnd .transitOverflow) s = .next s ∧
    (alarmCause s .transitOverflow = true ↔ s.ri.overflowQuiet < 4000)) ∧
  (∀ s : State, exec (.quietRunEnd .unexpectedBay) s = .next s ∧
    (alarmCause s .unexpectedBay = true ↔ s.ri.unexpectedQuiet < 4000)) ∧
  (∀ s : State, exec .duplicateConflictEnd s = .next s ∧ (alarmCause s .duplicateBay = true ↔ s.sc.dupQuiet < 4000) ∧
    ((blockedCauses s).duplicate = true ↔ s.sc.dupQuiet < 4000)) ∧
  ∀ (c : Settings) (k : Contacts) (tcs : Bool) (o : EpochOrder) (s : State), Runs c s →
    ∃ t, exec (.epoch k tcs o) s = .next t ∧ t.ri.overflowQuiet = min (s.ri.overflowQuiet + 1) 4000 ∧
      t.ri.unexpectedQuiet = min (s.ri.unexpectedQuiet + 1) 4000 ∧ t.ri.unexpectedDetail = s.ri.unexpectedDetail

/-- START is left for CONFIG, on the reference, when the power-up timer has run and the monitor is CONFIRMED, in either order
(R163): POWER_UP_TIMEOUT and REFERENCE_CONFIRMED. With the timer run and the monitor UNCONFIRMED, CONFIRMATION_WAIT_TIMEOUT sets CLOCK
and the station stays in START. That a confirmation given by REFERENCE_CONFIRMED leaves the last measured count, or 16, to compare the
next cycle with is the model's choice (log 10). -/
def Obligations.StartLeadsToConfig : Prop :=
  (∀ s : State, s.held = false → s.sc.station = .start → s.sc.confirmed = true →
    exec .powerUpTimeout s = .next { s with sc := { s.sc with powerUp := 2560000, station := .config, reference := true } }) ∧
  (∀ s : State, s.held = false → s.sc.station = .start → s.sc.confirmed = false →
    exec .powerUpTimeout s = .next { s with sc := { s.sc with powerUp := 2560000 } }) ∧
  (∀ (k : Contacts) (s : State), s.held = false → s.sc.station = .start → s.sc.confirmed = false → s.sc.powerUp = 2560000 →
    exec (.referenceConfirmed k) s = .next { s with sc := { s.sc with
      goodRun := 1024, confirmed := true, lastCycle := some (s.sc.lastCycle.getD 16), station := .config, reference := true } }) ∧
  (∀ (k : Contacts) (s : State), s.held = false → s.sc.station = .start → s.sc.confirmed = false → s.sc.powerUp ≠ 2560000 →
    exec (.referenceConfirmed k) s = .next { s with sc := { s.sc with
      goodRun := 1024, confirmed := true, lastCycle := some (s.sc.lastCycle.getD 16) } }) ∧
  ∀ s : State, s.held = false → s.sc.station = .start → s.sc.confirmed = false → s.sc.powerUp = 2560000 →
    exec .confirmationWaitTimeout s = .next { s with
      sc := { s.sc with wait := 40000000 }, mp := { s.mp with flags := s.mp.flags ||| BitVec.twoPow 19 0 } }

/-- CONFIG_CHECK_DONE: a good block becomes the in-use copy and epochs start at LT 0 and epoch 0 (R1, R164, R176), with the contacts
of that moment accepted (R21), all six conversions started (R3) and the state of epoch 0 chosen (R161, R164): BLOCKED for the
converter or a duplicate, then ISOLATED, then TEST, and otherwise LISTEN, as the station is not qualified (R166); a bad block, or one
a cut commit left, leads to FAULT with CONFIG set and no in-use copy (R164, R165, R175). At the start each port whose receive signal
is present enters PROBING and sends its first echo request at LT 0, when no other frame keeps its transmitter, and one without a
signal stays DOWN (R34); the time of the cut that State keeps then is the model's mark (log 17). -/
def Obligations.ConfigCheckOutcomes : Prop :=
  (∀ (c : Settings) (k : Contacts) (s : State), s.sc.station = .config → s.cs.cut = false → goodBlock s.cs.block = some c →
    let r := choiceAtStart c k s
    ∃ t, exec (.configCheckDone k) s = .next t ∧ t.cs = { s.cs with inUse := some c } ∧ StartChoice r s t ∧
      t.su.gen = .running ∧ t.su.lt = 0 ∧ t.su.phase = 0 ∧ t.su.epoch = 0 ∧ t.su.peak = [] ∧
      t.su.chans = ⟨⟨.converting, .converting⟩, ⟨.converting, .converting⟩, ⟨.converting, .converting⟩⟩ ∧
      t.ciu.accepted = some k ∧ t.ciu.derived = some (deriveReplica c k) ∧
      t.su.flight = some ⟨0, 0, deriveReplica c k, r⟩ ∧ t.su.convFail = s.su.convFail ∧ t.ze.topo = none ∧ t.au.latest = none ∧
      RingStarted c s t ∧ t.tu.supCount = 0 ∧ t.pins = { s.pins with contacts := k } ∧ t.free = s.free ∧ t.pending = s.pending) ∧
  ∀ (k : Contacts) (s : State), s.sc.station = .config → (s.cs.cut = true ∨ goodBlock s.cs.block = none) →
    exec (.configCheckDone k) s = .next { s with
      sc := { s.sc with station := .fault }, mp := { s.mp with flags := s.mp.flags ||| BitVec.twoPow 19 1 } }

/-- REFERENCE_LOSS while epochs run, in a sound state: epochs stop with the conversions abandoned (R2), the station is BLOCKED with
cause CLOCK on the internal clock and not qualified (R171), both ports are DOWN and dark: one that was PROBING or UP has gone DOWN
with all that R35 empties, stops and counts and its LINK DOWN flag, one that was DOWN is held there without hold, event or flag, and
the closure states, the other counters, the quiet runs, the echo numbers and the last turnarounds are kept (R35, R62). No coil is
driven and no pulse is under way (R150, R152), a trip that was on is released with its open record closed with the end STATE CHANGE
and an abandoned pulse counted (R150, R152, R158), while the supervision count and failures, the counters, the latch and the record
number are kept (R160), CLOCK is set, and the in-use copy and the converter-failure flag are kept. That the current own sample record
stays too is the model's reading, which no rule states (log 24). While the response to RESET is being sent, the loss cuts it off and
the reset is taken at that moment (R173, R181): every block takes its reset values, and a record that the stop closes with the end
STATE CHANGE is kept (R150, R158). -/
def Obligations.ReferenceLossStopsEpochs : Prop :=
  (∀ (c : Settings) (m : Nat) (r : RunState) (s : State), Runs c s → TripSound s → s.held = false → s.sc.confirmed = true →
    s.sc.station = .running r → s.sc.resetPending = false → s.su.phase ≤ m → m < 10000 →
    ∃ t, exec (.referenceLoss m) s = .next t ∧
      t.su = { (atMoment m s).su with
        gen := .stopped, chans := ⟨⟨.idle, .idle⟩, ⟨.idle, .idle⟩, ⟨.idle, .idle⟩⟩, flight := none } ∧
      t.sc = { s.sc with
        station := .running .blocked, causes := { s.sc.causes with clock := true }, reference := false, confirmed := false
        goodRun := 0, lastCycle := none, qualified := false, qualCount := 0, listen := 0
        stateChanges := if r = .blocked then s.sc.stateChanges else min (s.sc.stateChanges + 1) 65535 } ∧
      (∀ p, let q := (atMoment m s).port p
        let dark := wentDown 0 (if q.outstanding.isSome then min (t.su.lt - q.echoStart).toNat 40000 else q.echoCounter) t.su.lt q
        (q.link ≠ .down → t.port p = dark) ∧
        (q.link = .down → t.port p = { dark with ctr := { dark.ctr with linkDownEvents := q.ctr.linkDownEvents } }) ∧
        t.mp.flags.getLsbD (linkDownBit p) = ((atMoment m s).mp.flags.getLsbD (linkDownBit p) || decide (q.link ≠ .down))) ∧
      t.ri.overflowQuiet = s.ri.overflowQuiet ∧ t.ri.unexpectedQuiet = s.ri.unexpectedQuiet ∧
      t.ri.unexpectedDetail = s.ri.unexpectedDetail ∧
      t.tu.trip = .idle ∧ t.tu.coil1 = .off ∧ t.tu.coil2 = .off ∧ t.tu.pulse = none ∧
      t.tu.bf = .idle ∧ t.tu.backtrip = noSects ∧
      t.tu.held = (if s.tu.trip = .idle then s.tu.held else endedRecord .stateChange s) ∧ t.tu.recNumber = s.tu.recNumber ∧
      t.tu.supCount = s.tu.supCount ∧ t.tu.supFails = s.tu.supFails ∧
      t.tu.ctr = { s.tu.ctr with
        supAbandons := if s.tu.pulse = none then s.tu.ctr.supAbandons else min (s.tu.ctr.supAbandons + 1) 65535 } ∧
      t.mp.flags.getLsbD 0 = true ∧ t.mp.receiver = .idle ∧ t.mp.response = [] ∧ t.au.latest = none ∧
      t.cs = s.cs ∧ t.ciu = s.ciu ∧ t.pt = s.pt ∧ t.ze = s.ze ∧ t.pins = s.pins) ∧
  ∀ (c : Settings) (m : Nat) (r : RunState) (s : State), Runs c s → RecordSound s → s.held = false → s.sc.confirmed = true →
    s.sc.station = .running r → s.sc.resetPending = true → s.cs.commit ≠ .busy → s.su.phase ≤ m → m < 10000 →
    exec (.referenceLoss m) s = .next (afterCommandReset (endedRecord .stateChange s) s)

/-- REFERENCE_LOSS in CONFIG abandons the read and returns to START with the timer counted as run and the wait at 0 (R164); in FAULT
the station stays in FAULT on the internal clock (R165); both set CLOCK and cut a response off (R181), and when it is the response to
RESET the reset is taken at that moment (R173, R181). In START it sets the run back (R162). BAD_REFERENCE_CYCLE while the monitor is
CONFIRMED is that loss, by a count that differs by more than 4 or by an edge that does not come within 64 cycles (R162).
BAD_REFERENCE_CYCLE while the monitor is UNCONFIRMED sets the run back to 0, by a count that differs by more than 4 or by an edge that
does not come within 64 cycles (R162, R171). That a missing edge leaves no count to compare the next cycle with is the model's choice
(log 10). -/
def Obligations.ReferenceLossElsewhere : Prop :=
  (∀ (m : Nat) (s : State), s.su.gen = .stopped → s.held = false → s.sc.confirmed = true → s.sc.resetPending = false →
    s.sc.station = .config →
    exec (.referenceLoss m) s = .next { s with
      sc := { s.sc with station := .start, reference := false, confirmed := false, goodRun := 0, lastCycle := none
                        powerUp := 2560000, wait := 0 }
      mp := { s.mp with flags := s.mp.flags ||| BitVec.twoPow 19 0, receiver := .idle, request := [], response := [] } }) ∧
  (∀ (m : Nat) (s : State), s.su.gen = .stopped → s.held = false → s.sc.confirmed = true → s.sc.resetPending = false →
    s.sc.station = .fault →
    exec (.referenceLoss m) s = .next { s with
      sc := { s.sc with reference := false, confirmed := false, goodRun := 0, lastCycle := none }
      mp := { s.mp with flags := s.mp.flags ||| BitVec.twoPow 19 0, receiver := .idle, request := [], response := [] } }) ∧
  (∀ (m : Nat) (s : State), s.su.gen = .stopped → s.held = false → s.sc.confirmed = true → s.sc.station = .start →
    exec (.referenceLoss m) s = .next { s with sc := { s.sc with confirmed := false, goodRun := 0, lastCycle := none } }) ∧
  (∀ (m : Nat) (s : State), s.su.gen = .stopped → s.held = false → s.sc.confirmed = true → s.sc.resetPending = true →
    s.sc.station = .config ∨ s.sc.station = .fault → s.cs.commit ≠ .busy →
    exec (.referenceLoss m) s = .next (afterCommandReset (endedRecord .reset s) s)) ∧
  (∀ (count : Option Nat) (k : Nat) (s : State), s.held = false → s.sc.confirmed = true → s.sc.lastCycle = some k →
    (∀ n, count = some n → 64 < n ∨ n + 4 < k ∨ k + 4 < n) → s.su.phase < 10000 →
    exec (.badReferenceCycle count) s = exec (.referenceLoss s.su.phase) s) ∧
  (∀ (n k : Nat) (s : State), s.held = false → s.sc.confirmed = false → s.sc.lastCycle = some k → n ≤ 64 →
    (n + 4 < k ∨ k + 4 < n) →
    exec (.badReferenceCycle (some n)) s = .next { s with sc := { s.sc with goodRun := 0, lastCycle := some n } }) ∧
  ∀ (count : Option Nat) (s : State), (∀ n, count = some n → 64 < n) → s.held = false → s.sc.confirmed = false →
    exec (.badReferenceCycle count) s = .next { s with sc := { s.sc with goodRun := 0, confirmed := false, lastCycle := none } }

/-- REFERENCE_CONFIRMED after a loss (R171): in FAULT the clock source becomes REFERENCE (R165); a station BLOCKED with cause CLOCK
restarts epochs from LT 0 and epoch 0 without it (R1), keeping its in-use copy, converter-failure flag, trip record, supervision failures
and every entry in CONFLICT, with the peak window, the runs, the supervision count and every other history emptied (R2, R82, R160). The
state of epoch 0 is chosen (R161): BLOCKED for the converter or a duplicate, then ISOLATED, then TEST, and otherwise LISTEN, as the
station must qualify again (R171). Each port whose receive signal is present enters PROBING (R34); the time of the
cut that State keeps then is the model's mark (log 17). The count that REFERENCE_CONFIRMED leaves to compare the next cycle with is the
model's choice (log 10). -/
def Obligations.ReconfirmationRestartsEpochs : Prop :=
  (∀ (k : Contacts) (s : State), s.held = false → s.sc.confirmed = false → s.sc.station = .fault →
    exec (.referenceConfirmed k) s = .next { s with sc := { s.sc with
      goodRun := 1024, confirmed := true, lastCycle := some (s.sc.lastCycle.getD 16), reference := true } }) ∧
  ∀ (c : Settings) (k : Contacts) (r : RunState) (s : State), s.held = false → s.sc.confirmed = false →
    s.sc.station = .running r → s.cs.inUse = some c → s.tu.trip = .idle →
    let r' := choiceAtStart c k s
    ∃ t, exec (.referenceConfirmed k) s = .next t ∧ StartChoice r' s t ∧ (t.su.flight.map Flight.declared = some r') ∧
      t.su.gen = .running ∧ t.su.lt = 0 ∧ t.su.phase = 0 ∧ t.su.epoch = 0 ∧ t.su.peak = [] ∧ t.su.clearRun = 0 ∧
      RingStarted c s t ∧ t.su.convFail = s.su.convFail ∧ (∀ ph, t.su.disRun.get ph = 0) ∧
      t.sc.reference = true ∧ t.sc.confirmed = true ∧ t.sc.causes.clock = false ∧
      t.sc.maintTest = s.sc.maintTest ∧ t.ciu.accepted = some k ∧ t.cs = s.cs ∧ t.tu.held = s.tu.held ∧
      t.tu.supCount = 0 ∧ t.tu.supFails = s.tu.supFails ∧
      (∀ b : Bay, b ≠ c.bay → (s.entry b).presence = .conflict → (t.entry b).presence = .conflict) ∧
      ∀ b : Bay, (s.entry b).presence ≠ .conflict → (t.entry b).history = [] ∧ (t.entry b).lastSeq = none ∧
        (t.entry b).presence = .absent

/-- SUPPLY_LOW sets the supply level and the SUPPLY flag, SUPPLY_NORMAL returns the level alone (R172); RESET_END ends the reset
condition and changes nothing else (R173). That it ends every condition that still holds, of the supply and of the pin, at once is the
model's reading (log 8). -/
def Obligations.SupplyAndResetEnd : Prop :=
  ∀ s : State,
    exec .supplyLow s = .next { s with
      sc := { s.sc with supplyLow := true }, mp := { s.mp with flags := s.mp.flags ||| BitVec.twoPow 19 2 } } ∧
    exec .supplyNormal s = .next { s with sc := { s.sc with supplyLow := false } } ∧
    exec .resetEnd s = .next { s with sc := { s.sc with holdSupply := false, holdPin := false } }

/-- POWER_ON_RESET, SUPPLY_RESET and RESET_PIN_ASSERTED with no commit under way: every block takes its reset values; the cause flags are
those of R173; a pin reset keeps the record, closed with the end RESET if it was open, and the record number, and the others clear them
(R158, R160); the stored block is kept (R180). That a supply or power-on reset leaves the level LOW with SUPPLY set at once is the
model's reading (log 8). That a reset which comes while the response to RESET is being sent cuts it off and drops the pending command
reset is the model's choice (log 13). -/
def Obligations.ResetsTaken : Prop :=
  ∀ s : State, s.cs.commit ≠ .busy →
    let at0 (tu : TripUnit) (sc : Controller) (flags : BitVec 19) : State :=
      { s with
        su := State.reset.su, ciu := State.reset.ciu, ri := Ring.reset s.ri.east.rx s.ri.west.rx, pt := State.reset.pt
        au := State.reset.au, ze := State.reset.ze, tu := tu, sc := sc
        cs := { s.cs with inUse := none, staging := List.replicate 64 0, commit := .idle }
        mp := { State.reset.mp with flags := flags } }
    exec .powerOnReset s = .next (at0 State.reset.tu
      { State.reset.sc with
        supplyLow := true, cause := ⟨true, false, false, false⟩, holdSupply := true, holdPin := s.sc.holdPin } 4#19) ∧
    exec .supplyReset s = .next (at0 State.reset.tu
      { State.reset.sc with
        supplyLow := true, cause := { s.sc.cause with supply := true }, holdSupply := true, holdPin := s.sc.holdPin } 4#19) ∧
    exec .resetPinAsserted s = .next (at0
      { State.reset.tu with
        held := if s.tu.recorded then s.tu.held.map fun r =>
          { r with closed := some ⟨s.su.epoch, .reset, s.tu.retripMade, decide (s.tu.bf = .failed)⟩ } else s.tu.held
        recNumber := s.tu.recNumber }
      { State.reset.sc with
        supplyLow := s.sc.supplyLow, cause := { s.sc.cause with pin := true }, holdSupply := s.sc.holdSupply, holdPin := true }
      (if s.sc.supplyLow then 4#19 else 0))

/-- A reset of any kind that comes while a commit is BUSY leaves a block that the next CONFIG finds bad, whatever its bytes, and the
station enters FAULT (R180): the power-on, the supply and the pin reset, and the reset that follows the response to RESET or comes with
the reference loss that cuts it off (R181). -/
def Obligations.CutCommitLeadsToFault : Prop :=
  ∀ (s : State) (k : Contacts) (i : Instr), s.cs.commit = .busy →
    (i ∈ [Instr.powerOnReset, .supplyReset, .resetPinAsserted] ∨
      (i = .responseSent ∧ s.mp.receiver = .responding ∧ s.sc.resetPending = true) ∨
      (s.held = false ∧ s.sc.confirmed = true ∧ s.sc.station ≠ .start ∧ s.sc.resetPending = true ∧ ∃ m, i = .referenceLoss m)) →
      ∃ t, exec i s = .next t ∧ t.cs.commit = .idle ∧ t.cs.inUse = none ∧ t.sc.station = .start ∧
        ∀ t' : State, t'.cs = t.cs → t'.sc.station = .config →
          ∃ u, exec (.configCheckDone k) t' = .next u ∧ u.sc.station = .fault ∧ u.mp.flags.getLsbD 1 = true

/-! ## The maintenance port, the store and the alarms (sections 10 and 11) -/

/-- The gate of every request (R181, R182). In START, and from a reference loss until reconfirmation, a request is discarded and
nothing changes. While a response is being sent, or with a payload over 64 bytes, it is discarded and counted (log 12, the model's
reading). A payload length its command does not allow is answered BAD LENGTH, and a request that names no command UNKNOWN.
REQUEST_DISCARDED counts. The bytes of a request are read as R181 says, its command byte by the codes of R188. -/
def Obligations.RequestGate : Prop :=
  (∀ (p : List Byte) (b : Byte) (s : State), s.sc.reference = false ∨ s.sc.station = .start →
    (∀ i ∈ requests p b s, exec i s = .next s) ∧ ∀ d, exec (.requestDiscarded d) s = .next s) ∧
  (∀ (p : List Byte) (b : Byte) (s : State), s.sc.reference = true → s.sc.station ≠ .start →
    let counted : State := { s with mp := { s.mp with request := [], portErrors := min (s.mp.portErrors + 1) 65535 } }
    (∀ d, exec (.requestDiscarded d) s = .next counted) ∧
    (s.mp.receiver = .responding ∨ 64 < p.length → ∀ i ∈ requests p b s, exec i s = .next counted)) ∧
  (∀ (p : List Byte) (b : Byte) (s : State), Listens s → p.length ≤ 64 →
    exec (.unknown b p) s = .next (answered 6 [] s) ∧
    (p.length ≠ 0 → ∀ i ∈ [Instr.status p, .takeRecord p, .clearAlarms p, .clearCounters p, .testOn p, .testOff p,
      .commit p s.pins.cfgen, .reset p], exec i s = .next (answered 5 [] s)) ∧
    (p.length ≠ 1 → ∀ i ∈ [Instr.read p, .clearPeer p], exec i s = .next (answered 5 [] s)) ∧
    (p.length ≠ 2 → exec (.select p s.su.phase) s = .next (answered 5 [] s)) ∧
    (p.length < 2 → exec (.stage p) s = .next (answered 5 [] s))) ∧
  ∀ (g : Bool) (m : Nat),
    (∀ bytes : List Byte, bytes.length < 2 ∨ 66 < bytes.length → lineRequest bytes g m = .requestDiscarded .sizeOutside) ∧
    ∀ (code len : Byte) (p : List Byte), p.length ≤ 64 →
      (len.toNat ≠ p.length → lineRequest (code :: len :: p) g m = .requestDiscarded .lengthDiffers) ∧
      (len.toNat = p.length →
        (∀ i, (code.toNat, i) ∈ [(1, Instr.status p), (2, .select p m), (3, .read p), (4, .takeRecord p), (5, .clearAlarms p),
          (6, .clearCounters p), (7, .clearPeer p), (8, .testOn p), (9, .testOff p), (10, .stage p), (11, .commit p g),
          (12, .reset p)] → lineRequest (code :: len :: p) g m = i) ∧
        (code = 0 ∨ 12 < code.toNat → lineRequest (code :: len :: p) g m = .unknown code p))

/-- STATUS answers the summary of 13 bytes, each byte as 11.5 lays it out (R183). SELECT captures the table whole at its moment, with the
read offset at 0, or answers BAD INDEX, or BUSY for CONFIG STORED during a commit. The capture of each of the nine tables holds its fields
in the order of its rule, coded as 11.5 gives (R32, R61, R81, R98, R117, R159, R184, R188); where the rules leave a field's coding, its
extent or an order open, the bytes are the model's reading or choice (log 11). READ returns the next bytes of the capture and advances the
offset by their number (R184). -/
def Obligations.SelectThenReadReturnsCapture : Prop :=
  (∀ s : State, Listens s → ∃ d, exec (.status []) s = .next (answered 0 d s) ∧ StatusFields s d) ∧
  (∀ (t x : Byte) (m : Nat) (s : State), Listens s →
    (∀ tb : Table, t.toNat = tableOrder.idxOf tb + 1 → x.toNat ∈ tableIndexes tb → (tb = .configStored → s.cs.commit ≠ .busy) →
      ∃ d, TableBytes (advanceTo m s) x.toNat d tb ∧ exec (.select [t, x] m) s = .next (answered 0 []
        { advanceTo m s with mp := { (advanceTo m s).mp with selection := some ⟨tb, x.toNat, d, 0⟩ } })) ∧
    (t = 9 → x = 0 → s.cs.commit = .busy → exec (.select [t, x] m) s = .next (answered 1 [] (advanceTo m s))) ∧
    ((t = 0 ∨ 9 < t.toNat ∨ ((t = 1 ∨ t = 4 ∨ (6 ≤ t.toNat ∧ t.toNat ≤ 9)) ∧ x ≠ 0) ∨ (t = 2 ∧ (x = 0 ∨ 24 < x.toNat)) ∨
        (t = 3 ∧ (x = 0 ∨ 4 < x.toNat)) ∨ (t = 5 ∧ x ≠ 1 ∧ x ≠ 2)) →
      exec (.select [t, x] m) s = .next (answered 4 [] (advanceTo m s)))) ∧
  ∀ (n : Byte) (s : State), Listens s →
    (n = 0 ∨ 64 < n.toNat → exec (.read [n]) s = .next (answered 5 [] s)) ∧
    (1 ≤ n.toNat → n.toNat ≤ 64 →
      (s.mp.selection = none → exec (.read [n]) s = .next (answered 3 [] s)) ∧
      ∀ x, s.mp.selection = some x →
        (x.table = .configStored → s.cs.commit = .busy → exec (.read [n]) s = .next (answered 1 [] s)) ∧
        ((x.table = .configStored → s.cs.commit ≠ .busy) → exec (.read [n]) s = .next
          (let moved : Selection := { x with offset := x.offset + min n.toNat (x.capture.length - x.offset) }
          answered 0 ((x.capture.drop x.offset).take n.toNat) { s with mp := { s.mp with selection := some moved } })))

/-- TAKE RECORD: an EMPTY latch answers the mark of no record; an open record is returned and stays; a closed one is returned and the
latch becomes EMPTY, the record number kept (R157). A returned record is 58 bytes, each field of R156 and R158 at its place in 11.5. -/
def Obligations.TakeRecordEmptiesOnlyClosed : Prop :=
  ∀ s : State, Listens s →
    (s.tu.held = none → exec (.takeRecord []) s = .next (answered 0 [0] s)) ∧
    (∀ r, s.tu.held = some r → ∃ d, RecordFields r d ∧
      (r.closed = none → exec (.takeRecord []) s = .next (answered 0 d s)) ∧
      (r.closed ≠ none → exec (.takeRecord []) s = .next (answered 0 d { s with tu := { s.tu with held := none } })))

/-- CLEAR ALARMS: each flag is cleared exactly when its cause is gone (R185), the nineteen causes as 11.4 gives them (R59, R79, R168); the
details and the reset cause flags follow R185; nothing else changes but the response. That the cause of ISOLATION BREACH reads the
conditions last handed over, also while epochs are stopped, is the model's reading (log 22). -/
def Obligations.ClearAlarmsKeepsHeldCauses : Prop :=
  ∀ s : State, Listens s → ∃ t, exec (.clearAlarms []) s = .next t ∧
    (∀ a : Alarm, hasFlag a t.mp.flags = (hasFlag a s.mp.flags && alarmCause s a)) ∧
    alarmCause s .clock = !s.sc.confirmed ∧ (alarmCause s .config = true ↔ s.sc.station = .fault) ∧
    alarmCause s .supply = s.sc.supplyLow ∧ (alarmCause s .linkDownE = true ↔ s.ri.east.link ≠ .up) ∧
    (alarmCause s .linkDownW = true ↔ s.ri.west.link ≠ .up) ∧
    (alarmCause s .ringOpen = true ↔ s.ri.east.opened = true ∨ s.ri.west.opened = true) ∧
    (alarmCause s .transitOverflow = true ↔ s.ri.overflowQuiet < 4000) ∧
    (alarmCause s .unexpectedBay = true ↔ s.ri.unexpectedQuiet < 4000) ∧ (alarmCause s .duplicateBay = true ↔ s.sc.dupQuiet < 4000) ∧
    (alarmCause s .peerStale = true ↔ ∃ b : Bay, (∀ c, s.cs.inUse = some c → b ≠ c.bay) ∧ (s.entry b).decl ≠ none ∧
      ((s.entry b).presence = .joining ∨ (s.entry b).presence = .stale ∨ (s.entry b).presence = .absent) ∧
      ∃ r, (s.entry b).declared = some r ∧ r ≠ .isolated) ∧
    (alarmCause s .peerConflict = true ↔ ∃ b : Bay, (s.entry b).presence = .conflict) ∧
    alarmCause s .converter = s.su.convFail ∧ (alarmCause s .isolatorDiscrepancy = true ↔ ∃ q, s.ciu.discMark.get q = true) ∧
    (alarmCause s .isolationBreach = true ↔ ∃ d, s.ciu.cond = some d ∧ d.oos = true ∧ d.allOpen = false) ∧
    (alarmCause s .listenTimeout = true ↔ s.sc.listen = 40000) ∧ (alarmCause s .tripCircuit = true ↔ s.tu.supFails = 3) ∧
    (alarmCause s .zoneBlocked = true ↔ ∃ ph r, standsAt400 s.ze ph r) ∧
    (alarmCause s .breakerFailure = true ↔ s.tu.bf = .failed) ∧ alarmCause s .recordOverrun = s.tu.held.isSome ∧
    t.sc = { s.sc with cause := ⟨false, false, false, false⟩ } ∧
    t.ri = { s.ri with unexpectedDetail := if hasFlag .unexpectedBay t.mp.flags then s.ri.unexpectedDetail else none } ∧
    (∀ q, t.ciu.discDetail.get q = (s.ciu.discDetail.get q && s.ciu.discMark.get q)) ∧
    t.ciu = { s.ciu with discDetail := t.ciu.discDetail } ∧
    (∀ z ph, (z, ph) ∈ t.ze.blockedDetail ↔ (z, ph) ∈ s.ze.blockedDetail ∧ standsAt400 s.ze ph z) ∧
    t.ze = { s.ze with blockedDetail := t.ze.blockedDetail } ∧
    t = answered 0 [] { s with
      sc := t.sc, ri := t.ri, ciu := t.ciu, ze := t.ze, mp := { s.mp with flags := t.mp.flags } }

/-- CLEAR COUNTERS sets every statistics counter to 0 and nothing else (R183); CLEAR PEER clears an entry in CONFLICT alone (R78);
TEST ON and TEST OFF set and clear the maintenance test flag (R169). -/
def Obligations.ClearCountersPeerAndTest : Prop :=
  (∀ s : State, Listens s → exec (.clearCounters []) s = .next (answered 0 []
    { s with
      su := { s.su with disagreeSamples := 0, missingSamples := 0, convFailures := 0 }
      ciu := { s.ciu with changes := 0, bounces := 0 }
      ri := { s.ri with
        east := { s.ri.east with ctr := State.reset.ri.east.ctr }, west := { s.ri.west with ctr := State.reset.ri.east.ctr } }
      pt := { s.pt with entries := s.pt.entries.map fun e =>
        { e with accepted := 0, duplicates := 0, orders := 0, conflicts := 0, stales := 0 } }
      tu := { s.tu with ctr := State.reset.tu.ctr }
      sc := { s.sc with stateChanges := 0 }
      mp := { s.mp with portErrors := 0 } })) ∧
  (∀ (x : Byte) (s : State), Listens s →
    (x = 0 ∨ 24 < x.toNat → exec (.clearPeer [x]) s = .next (answered 4 [] s)) ∧
    ∀ b : Bay, bayNumber b = x.toNat →
      ((s.entry b).presence ≠ .conflict → exec (.clearPeer [x]) s = .next (answered 2 [] s)) ∧
      ((s.entry b).presence = .conflict → exec (.clearPeer [x]) s = .next (answered 0 [] (s.setEntry b
        { s.entry b with
          presence := .absent, tag := none, decl := none, declared := none, lastPort := none, conflict := none
          fresh := 4095, joinRun := 0 })))) ∧
  ∀ s : State, Listens s →
    exec (.testOn []) s = .next (answered 0 [] { s with sc := { s.sc with maintTest := true } }) ∧
    exec (.testOff []) s = .next (answered 0 [] { s with sc := { s.sc with maintTest := false } })

/-- STAGE writes its bytes into the buffer from its offset on (R177), with the refusals of R177 in the order of R183. COMMIT tests the
strap, the station state and the commit state in this order, and then begins (R178). COMMIT_DONE ends it: the block holds the
read-back, DONE when it equals the buffer (R179). -/
def Obligations.StageCommitAndEnd : Prop :=
  (∀ (o d : Byte) (ds : List Byte) (s : State), Listens s → StoreSized s → ds.length ≤ 62 →
    let refused (code : Nat) := exec (.stage (o :: d :: ds)) s = .next (answered code [] s)
    (63 < o.toNat → refused 4) ∧
    (o.toNat ≤ 63 → 64 < o.toNat + (ds.length + 1) → refused 5) ∧
    (o.toNat + (ds.length + 1) ≤ 64 → s.cs.commit = .busy → refused 1) ∧
    (o.toNat + (ds.length + 1) ≤ 64 → s.cs.commit ≠ .busy →
      ∃ buf : List Byte, buf.length = 64 ∧
        (∀ i < 64, buf[i]? = if o.toNat ≤ i ∧ i < o.toNat + (ds.length + 1) then (d :: ds)[i - o.toNat]? else s.cs.staging[i]?) ∧
        exec (.stage (o :: d :: ds)) s = .next (answered 0 [] { s with cs := { s.cs with staging := buf } }))) ∧
  (∀ (g : Bool) (s : State), Listens s →
    exec (.commit [] g) s = .next (
      let s : State := { s with pins := { s.pins with cfgen := g } }
      if g = false then answered 2 [] s
      else if s.sc.station = .running .service ∨ s.sc.station = .config then answered 2 [] s
      else if s.cs.commit = .busy then answered 1 [] s
      else answered 0 [] { s with cs := { s.cs with commit := .busy } })) ∧
  ∀ (bytes : List Byte) (s : State), s.cs.commit = .busy → bytes.length = 64 →
    exec (.commitDone bytes) s = .next
      { s with cs := { s.cs with block := bytes, cut := false, commit := if bytes = s.cs.staging then .done else .failed } }

/-- RESET is refused in SERVICE, and otherwise answered OK with the reset to follow (R173). RESPONSE_SENT returns the receiver to IDLE
(R181), and when the response is that to RESET, with no commit under way, the reset is taken: every block takes its reset values, the
COMMAND cause is added to the flags that stand, the holds and the supply level stay, with SUPPLY set at once while the level is LOW
(log 8, the model's reading), the record is kept, closed with the end RESET if it was open, with the record number, and the stored
block is kept (R158, R160, R173, R174, R180, R187). -/
def Obligations.ResetFollowsItsResponse : Prop :=
  (∀ s : State, Listens s →
    (s.sc.station = .running .service → exec (.reset []) s = .next (answered 2 [] s)) ∧
    (s.sc.station ≠ .running .service →
      exec (.reset []) s = .next (answered 0 [] { s with sc := { s.sc with resetPending := true } }))) ∧
  (∀ s : State, s.mp.receiver = .responding → s.sc.resetPending = false →
    exec .responseSent s = .next { s with mp := { s.mp with receiver := .idle, request := [], response := [] } }) ∧
  ∀ s : State, s.mp.receiver = .responding → s.sc.resetPending = true → s.cs.commit ≠ .busy →
    exec .responseSent s = .next (afterCommandReset (endedRecord .reset s) s)

/-- The alarm line is asserted exactly while a flag of the enable set is set and the station is not held in reset; the enable set is that
of the in-use copy with CLOCK and CONFIG always in it, and these two alone while there is no in-use copy (R186, R187). -/
def Obligations.AlarmLineFollowsFlags : Prop :=
  ∀ s : State, alarmLine s = true ↔ s.held = false ∧ ∃ a : Alarm, hasFlag a s.mp.flags = true ∧
    (a = .clock ∨ a = .config ∨ ∃ c, s.cs.inUse = some c ∧ hasFlag a c.alarmEnable = true)

/-! ## Invariants that every step keeps -/

/-- The state after reset is sound in every respect that the invariants below name. -/
def Obligations.ResetIsSound : Prop :=
  TripSound State.reset ∧ RecordSound State.reset ∧ ModeSound State.reset ∧ CopyGood State.reset ∧ ResetWaits State.reset ∧
  StoreSized State.reset ∧ SamplingSound State.reset.su ∧ ControllerSound State.reset.sc ∧ RingSound State.reset.ri ∧
  PeersSound State.reset.pt ∧ OwnNotInConflict State.reset ∧ ZonesSound State.reset.ze ∧ TripRanges State.reset.tu ∧
  ContactsSound State.reset.ciu ∧ State.reset.mp.portErrors ≤ 65535 ∧ StopsDark State.reset ∧ FramesInOrder State.reset ∧
  ListsRecent State.reset ∧ OwnInOrder State.reset ∧ ZonesTogether State.reset ∧ ZonesTimed State.reset

/-- Every step keeps the coils, the trip state, breaker failure and the station state in agreement (R140, R144, R148, R150, R152), and
keeps the latch's record open exactly while its trip is on (R155 to R158). -/
def Obligations.TripsStaySound : Prop :=
  (∀ s t : State, TripSound s → step s = .next t → TripSound t) ∧
  ∀ s t : State, RecordSound s → step s = .next t → RecordSound t

/-- Every step keeps the station state, the clock, the in-use copy and the causes in agreement (R2, R161 to R166, R171, R176),
the in-use copy one that R175 passes, and a command reset waiting only behind its response (R173, R181). -/
def Obligations.ModesStaySound : Prop :=
  (∀ s t : State, ModeSound s → step s = .next t → ModeSound t) ∧
  (∀ s t : State, CopyGood s → step s = .next t → CopyGood t) ∧
  ∀ s t : State, ResetWaits s → step s = .next t → ResetWaits t

/-- Every step keeps both ports sound: what DOWN leaves, bay frames to send only in UP, a link delay in UP, and the ranges of the
echo, the hold count, the transit queue and the counters (R34 to R41, R48, R53, R59, R60). Every step keeps both ports DOWN while
epochs are stopped (R34, R35). Every step keeps the own frames in order: each direction's list of departed frames holds at most 8
sequences, each at most 7 after any before it (R57). That no sequence stands in a list for 32,767 epochs is a premise here and not an
invariant: the commands that end a port's transmissions are the outside's, and R57's order of sequences, modulo 65,536, needs them to
come in time. -/
def Obligations.RingStaysSound : Prop :=
  (∀ s t : State, RingSound s.ri → step s = .next t → RingSound t.ri) ∧
  (∀ s t : State, StopsDark s → step s = .next t → StopsDark t) ∧
  ∀ s t : State, ModeSound s → SamplingSound s.su → RingSound s.ri → StopsDark s → ListsRecent s → FramesInOrder s →
    step s = .next t → FramesInOrder t

/-- Every step keeps the peer table sound, the instants of every history rising among it, keeps the own entry out of CONFLICT, and keeps
its newest slot that of the newest record (R63, R69, R71 to R78, R80). -/
def Obligations.PeersStaySound : Prop :=
  ∀ s t : State, ModeSound s → SamplingSound s.su → PeersSound s.pt → OwnNotInConflict s → OwnInOrder s → step s = .next t →
    PeersSound t.pt ∧ OwnNotInConflict t ∧ OwnInOrder t

/-- Every step keeps the Sampling Unit sound, LT as R1 gives it among it; the zone phases in their ranges, those of the settings too, and
equal in all sections of a zone (R125); and the ranges and counters of the Contact Input Unit, the Trip Unit, the Station Controller,
the Maintenance Port and the Configuration Store. -/
def Obligations.RangesAreKept : Prop :=
  (∀ s t : State, SamplingSound s.su → step s = .next t → SamplingSound t.su) ∧
  (∀ s t : State, ContactsSound s.ciu → step s = .next t → ContactsSound t.ciu) ∧
  (∀ s t : State, ZonesTogether s → step s = .next t → ZonesTogether t) ∧
  (∀ s t : State, CopyGood s → ZonesTimed s → step s = .next t → ZonesTimed t) ∧
  (∀ s t : State, s.mp.portErrors ≤ 65535 → step s = .next t → t.mp.portErrors ≤ 65535) ∧
  (∀ s t : State, ZonesSound s.ze → step s = .next t → ZonesSound t.ze) ∧
  (∀ s t : State, TripRanges s.tu → step s = .next t → TripRanges t.tu) ∧
  (∀ s t : State, ControllerSound s.sc → step s = .next t → ControllerSound t.sc) ∧
  ∀ s t : State, StoreSized s → step s = .next t → StoreSized t
end

