-- ==== Sys2Proof/Laws/State.lean ====
section
/-! SUPPORT. What each update of State leaves in each field, true by rfl. -/

namespace Sys2Proof.Machine

open Sys2Proof

section
variable (s : State) (f : Sampling → Sampling)
@[simp] theorem State.updSu_su : (s.updSu f).su = f s.su := rfl
@[simp] theorem State.updSu_ciu : (s.updSu f).ciu = s.ciu := rfl
@[simp] theorem State.updSu_ri : (s.updSu f).ri = s.ri := rfl
@[simp] theorem State.updSu_pt : (s.updSu f).pt = s.pt := rfl
@[simp] theorem State.updSu_au : (s.updSu f).au = s.au := rfl
@[simp] theorem State.updSu_ze : (s.updSu f).ze = s.ze := rfl
@[simp] theorem State.updSu_tu : (s.updSu f).tu = s.tu := rfl
@[simp] theorem State.updSu_sc : (s.updSu f).sc = s.sc := rfl
@[simp] theorem State.updSu_cs : (s.updSu f).cs = s.cs := rfl
@[simp] theorem State.updSu_mp : (s.updSu f).mp = s.mp := rfl
@[simp] theorem State.updSu_pins : (s.updSu f).pins = s.pins := rfl
@[simp] theorem State.updSu_free : (s.updSu f).free = s.free := rfl
@[simp] theorem State.updSu_pending : (s.updSu f).pending = s.pending := rfl
end

section
variable (s : State) (f : ContactUnit → ContactUnit)
@[simp] theorem State.updCiu_su : (s.updCiu f).su = s.su := rfl
@[simp] theorem State.updCiu_ciu : (s.updCiu f).ciu = f s.ciu := rfl
@[simp] theorem State.updCiu_ri : (s.updCiu f).ri = s.ri := rfl
@[simp] theorem State.updCiu_pt : (s.updCiu f).pt = s.pt := rfl
@[simp] theorem State.updCiu_au : (s.updCiu f).au = s.au := rfl
@[simp] theorem State.updCiu_ze : (s.updCiu f).ze = s.ze := rfl
@[simp] theorem State.updCiu_tu : (s.updCiu f).tu = s.tu := rfl
@[simp] theorem State.updCiu_sc : (s.updCiu f).sc = s.sc := rfl
@[simp] theorem State.updCiu_cs : (s.updCiu f).cs = s.cs := rfl
@[simp] theorem State.updCiu_mp : (s.updCiu f).mp = s.mp := rfl
@[simp] theorem State.updCiu_pins : (s.updCiu f).pins = s.pins := rfl
@[simp] theorem State.updCiu_free : (s.updCiu f).free = s.free := rfl
@[simp] theorem State.updCiu_pending : (s.updCiu f).pending = s.pending := rfl
end

section
variable (s : State) (f : Ring → Ring)
@[simp] theorem State.updRi_su : (s.updRi f).su = s.su := rfl
@[simp] theorem State.updRi_ciu : (s.updRi f).ciu = s.ciu := rfl
@[simp] theorem State.updRi_ri : (s.updRi f).ri = f s.ri := rfl
@[simp] theorem State.updRi_pt : (s.updRi f).pt = s.pt := rfl
@[simp] theorem State.updRi_au : (s.updRi f).au = s.au := rfl
@[simp] theorem State.updRi_ze : (s.updRi f).ze = s.ze := rfl
@[simp] theorem State.updRi_tu : (s.updRi f).tu = s.tu := rfl
@[simp] theorem State.updRi_sc : (s.updRi f).sc = s.sc := rfl
@[simp] theorem State.updRi_cs : (s.updRi f).cs = s.cs := rfl
@[simp] theorem State.updRi_mp : (s.updRi f).mp = s.mp := rfl
@[simp] theorem State.updRi_pins : (s.updRi f).pins = s.pins := rfl
@[simp] theorem State.updRi_free : (s.updRi f).free = s.free := rfl
@[simp] theorem State.updRi_pending : (s.updRi f).pending = s.pending := rfl
end

section
variable (s : State) (f : Peers → Peers)
@[simp] theorem State.updPt_su : (s.updPt f).su = s.su := rfl
@[simp] theorem State.updPt_ciu : (s.updPt f).ciu = s.ciu := rfl
@[simp] theorem State.updPt_ri : (s.updPt f).ri = s.ri := rfl
@[simp] theorem State.updPt_pt : (s.updPt f).pt = f s.pt := rfl
@[simp] theorem State.updPt_au : (s.updPt f).au = s.au := rfl
@[simp] theorem State.updPt_ze : (s.updPt f).ze = s.ze := rfl
@[simp] theorem State.updPt_tu : (s.updPt f).tu = s.tu := rfl
@[simp] theorem State.updPt_sc : (s.updPt f).sc = s.sc := rfl
@[simp] theorem State.updPt_cs : (s.updPt f).cs = s.cs := rfl
@[simp] theorem State.updPt_mp : (s.updPt f).mp = s.mp := rfl
@[simp] theorem State.updPt_pins : (s.updPt f).pins = s.pins := rfl
@[simp] theorem State.updPt_free : (s.updPt f).free = s.free := rfl
@[simp] theorem State.updPt_pending : (s.updPt f).pending = s.pending := rfl
end

section
variable (s : State) (f : Aligner → Aligner)
@[simp] theorem State.updAu_su : (s.updAu f).su = s.su := rfl
@[simp] theorem State.updAu_ciu : (s.updAu f).ciu = s.ciu := rfl
@[simp] theorem State.updAu_ri : (s.updAu f).ri = s.ri := rfl
@[simp] theorem State.updAu_pt : (s.updAu f).pt = s.pt := rfl
@[simp] theorem State.updAu_au : (s.updAu f).au = f s.au := rfl
@[simp] theorem State.updAu_ze : (s.updAu f).ze = s.ze := rfl
@[simp] theorem State.updAu_tu : (s.updAu f).tu = s.tu := rfl
@[simp] theorem State.updAu_sc : (s.updAu f).sc = s.sc := rfl
@[simp] theorem State.updAu_cs : (s.updAu f).cs = s.cs := rfl
@[simp] theorem State.updAu_mp : (s.updAu f).mp = s.mp := rfl
@[simp] theorem State.updAu_pins : (s.updAu f).pins = s.pins := rfl
@[simp] theorem State.updAu_free : (s.updAu f).free = s.free := rfl
@[simp] theorem State.updAu_pending : (s.updAu f).pending = s.pending := rfl
end

section
variable (s : State) (f : ZoneEngine → ZoneEngine)
@[simp] theorem State.updZe_su : (s.updZe f).su = s.su := rfl
@[simp] theorem State.updZe_ciu : (s.updZe f).ciu = s.ciu := rfl
@[simp] theorem State.updZe_ri : (s.updZe f).ri = s.ri := rfl
@[simp] theorem State.updZe_pt : (s.updZe f).pt = s.pt := rfl
@[simp] theorem State.updZe_au : (s.updZe f).au = s.au := rfl
@[simp] theorem State.updZe_ze : (s.updZe f).ze = f s.ze := rfl
@[simp] theorem State.updZe_tu : (s.updZe f).tu = s.tu := rfl
@[simp] theorem State.updZe_sc : (s.updZe f).sc = s.sc := rfl
@[simp] theorem State.updZe_cs : (s.updZe f).cs = s.cs := rfl
@[simp] theorem State.updZe_mp : (s.updZe f).mp = s.mp := rfl
@[simp] theorem State.updZe_pins : (s.updZe f).pins = s.pins := rfl
@[simp] theorem State.updZe_free : (s.updZe f).free = s.free := rfl
@[simp] theorem State.updZe_pending : (s.updZe f).pending = s.pending := rfl
end

section
variable (s : State) (f : TripUnit → TripUnit)
@[simp] theorem State.updTu_su : (s.updTu f).su = s.su := rfl
@[simp] theorem State.updTu_ciu : (s.updTu f).ciu = s.ciu := rfl
@[simp] theorem State.updTu_ri : (s.updTu f).ri = s.ri := rfl
@[simp] theorem State.updTu_pt : (s.updTu f).pt = s.pt := rfl
@[simp] theorem State.updTu_au : (s.updTu f).au = s.au := rfl
@[simp] theorem State.updTu_ze : (s.updTu f).ze = s.ze := rfl
@[simp] theorem State.updTu_tu : (s.updTu f).tu = f s.tu := rfl
@[simp] theorem State.updTu_sc : (s.updTu f).sc = s.sc := rfl
@[simp] theorem State.updTu_cs : (s.updTu f).cs = s.cs := rfl
@[simp] theorem State.updTu_mp : (s.updTu f).mp = s.mp := rfl
@[simp] theorem State.updTu_pins : (s.updTu f).pins = s.pins := rfl
@[simp] theorem State.updTu_free : (s.updTu f).free = s.free := rfl
@[simp] theorem State.updTu_pending : (s.updTu f).pending = s.pending := rfl
end

section
variable (s : State) (f : Controller → Controller)
@[simp] theorem State.updSc_su : (s.updSc f).su = s.su := rfl
@[simp] theorem State.updSc_ciu : (s.updSc f).ciu = s.ciu := rfl
@[simp] theorem State.updSc_ri : (s.updSc f).ri = s.ri := rfl
@[simp] theorem State.updSc_pt : (s.updSc f).pt = s.pt := rfl
@[simp] theorem State.updSc_au : (s.updSc f).au = s.au := rfl
@[simp] theorem State.updSc_ze : (s.updSc f).ze = s.ze := rfl
@[simp] theorem State.updSc_tu : (s.updSc f).tu = s.tu := rfl
@[simp] theorem State.updSc_sc : (s.updSc f).sc = f s.sc := rfl
@[simp] theorem State.updSc_cs : (s.updSc f).cs = s.cs := rfl
@[simp] theorem State.updSc_mp : (s.updSc f).mp = s.mp := rfl
@[simp] theorem State.updSc_pins : (s.updSc f).pins = s.pins := rfl
@[simp] theorem State.updSc_free : (s.updSc f).free = s.free := rfl
@[simp] theorem State.updSc_pending : (s.updSc f).pending = s.pending := rfl
end

section
variable (s : State) (f : Store → Store)
@[simp] theorem State.updCs_su : (s.updCs f).su = s.su := rfl
@[simp] theorem State.updCs_ciu : (s.updCs f).ciu = s.ciu := rfl
@[simp] theorem State.updCs_ri : (s.updCs f).ri = s.ri := rfl
@[simp] theorem State.updCs_pt : (s.updCs f).pt = s.pt := rfl
@[simp] theorem State.updCs_au : (s.updCs f).au = s.au := rfl
@[simp] theorem State.updCs_ze : (s.updCs f).ze = s.ze := rfl
@[simp] theorem State.updCs_tu : (s.updCs f).tu = s.tu := rfl
@[simp] theorem State.updCs_sc : (s.updCs f).sc = s.sc := rfl
@[simp] theorem State.updCs_cs : (s.updCs f).cs = f s.cs := rfl
@[simp] theorem State.updCs_mp : (s.updCs f).mp = s.mp := rfl
@[simp] theorem State.updCs_pins : (s.updCs f).pins = s.pins := rfl
@[simp] theorem State.updCs_free : (s.updCs f).free = s.free := rfl
@[simp] theorem State.updCs_pending : (s.updCs f).pending = s.pending := rfl
end

section
variable (s : State) (f : Maint → Maint)
@[simp] theorem State.updMp_su : (s.updMp f).su = s.su := rfl
@[simp] theorem State.updMp_ciu : (s.updMp f).ciu = s.ciu := rfl
@[simp] theorem State.updMp_ri : (s.updMp f).ri = s.ri := rfl
@[simp] theorem State.updMp_pt : (s.updMp f).pt = s.pt := rfl
@[simp] theorem State.updMp_au : (s.updMp f).au = s.au := rfl
@[simp] theorem State.updMp_ze : (s.updMp f).ze = s.ze := rfl
@[simp] theorem State.updMp_tu : (s.updMp f).tu = s.tu := rfl
@[simp] theorem State.updMp_sc : (s.updMp f).sc = s.sc := rfl
@[simp] theorem State.updMp_cs : (s.updMp f).cs = s.cs := rfl
@[simp] theorem State.updMp_mp : (s.updMp f).mp = f s.mp := rfl
@[simp] theorem State.updMp_pins : (s.updMp f).pins = s.pins := rfl
@[simp] theorem State.updMp_free : (s.updMp f).free = s.free := rfl
@[simp] theorem State.updMp_pending : (s.updMp f).pending = s.pending := rfl
end

section
variable (s : State) (f : Pins → Pins)
@[simp] theorem State.updPins_su : (s.updPins f).su = s.su := rfl
@[simp] theorem State.updPins_ciu : (s.updPins f).ciu = s.ciu := rfl
@[simp] theorem State.updPins_ri : (s.updPins f).ri = s.ri := rfl
@[simp] theorem State.updPins_pt : (s.updPins f).pt = s.pt := rfl
@[simp] theorem State.updPins_au : (s.updPins f).au = s.au := rfl
@[simp] theorem State.updPins_ze : (s.updPins f).ze = s.ze := rfl
@[simp] theorem State.updPins_tu : (s.updPins f).tu = s.tu := rfl
@[simp] theorem State.updPins_sc : (s.updPins f).sc = s.sc := rfl
@[simp] theorem State.updPins_cs : (s.updPins f).cs = s.cs := rfl
@[simp] theorem State.updPins_mp : (s.updPins f).mp = s.mp := rfl
@[simp] theorem State.updPins_pins : (s.updPins f).pins = f s.pins := rfl
@[simp] theorem State.updPins_free : (s.updPins f).free = s.free := rfl
@[simp] theorem State.updPins_pending : (s.updPins f).pending = s.pending := rfl
end

section
variable (s : State) (p : Port) (f : PortState → PortState)
@[simp] theorem State.updPort_su : (s.updPort p f).su = s.su := rfl
@[simp] theorem State.updPort_ciu : (s.updPort p f).ciu = s.ciu := rfl
@[simp] theorem State.updPort_ri : (s.updPort p f).ri = s.ri.updPort p f := rfl
@[simp] theorem State.updPort_pt : (s.updPort p f).pt = s.pt := rfl
@[simp] theorem State.updPort_au : (s.updPort p f).au = s.au := rfl
@[simp] theorem State.updPort_ze : (s.updPort p f).ze = s.ze := rfl
@[simp] theorem State.updPort_tu : (s.updPort p f).tu = s.tu := rfl
@[simp] theorem State.updPort_sc : (s.updPort p f).sc = s.sc := rfl
@[simp] theorem State.updPort_cs : (s.updPort p f).cs = s.cs := rfl
@[simp] theorem State.updPort_mp : (s.updPort p f).mp = s.mp := rfl
@[simp] theorem State.updPort_pins : (s.updPort p f).pins = s.pins := rfl
@[simp] theorem State.updPort_free : (s.updPort p f).free = s.free := rfl
@[simp] theorem State.updPort_pending : (s.updPort p f).pending = s.pending := rfl
end

section
variable (s : State) (b : Bay) (e : PeerEntry)
@[simp] theorem State.setEntry_su : (s.setEntry b e).su = s.su := rfl
@[simp] theorem State.setEntry_ciu : (s.setEntry b e).ciu = s.ciu := rfl
@[simp] theorem State.setEntry_ri : (s.setEntry b e).ri = s.ri := rfl
@[simp] theorem State.setEntry_pt : (s.setEntry b e).pt = s.pt.set b e := rfl
@[simp] theorem State.setEntry_au : (s.setEntry b e).au = s.au := rfl
@[simp] theorem State.setEntry_ze : (s.setEntry b e).ze = s.ze := rfl
@[simp] theorem State.setEntry_tu : (s.setEntry b e).tu = s.tu := rfl
@[simp] theorem State.setEntry_sc : (s.setEntry b e).sc = s.sc := rfl
@[simp] theorem State.setEntry_cs : (s.setEntry b e).cs = s.cs := rfl
@[simp] theorem State.setEntry_mp : (s.setEntry b e).mp = s.mp := rfl
@[simp] theorem State.setEntry_pins : (s.setEntry b e).pins = s.pins := rfl
@[simp] theorem State.setEntry_free : (s.setEntry b e).free = s.free := rfl
@[simp] theorem State.setEntry_pending : (s.setEntry b e).pending = s.pending := rfl
end

section
variable (a : Alarm) (s : State)
@[simp] theorem raise_su : (raise a s).su = s.su := rfl
@[simp] theorem raise_ciu : (raise a s).ciu = s.ciu := rfl
@[simp] theorem raise_ri : (raise a s).ri = s.ri := rfl
@[simp] theorem raise_pt : (raise a s).pt = s.pt := rfl
@[simp] theorem raise_au : (raise a s).au = s.au := rfl
@[simp] theorem raise_ze : (raise a s).ze = s.ze := rfl
@[simp] theorem raise_tu : (raise a s).tu = s.tu := rfl
@[simp] theorem raise_sc : (raise a s).sc = s.sc := rfl
@[simp] theorem raise_cs : (raise a s).cs = s.cs := rfl
@[simp] theorem raise_mp : (raise a s).mp = { s.mp with flags := withFlag a s.mp.flags } := rfl
@[simp] theorem raise_pins : (raise a s).pins = s.pins := rfl
@[simp] theorem raise_free : (raise a s).free = s.free := rfl
@[simp] theorem raise_pending : (raise a s).pending = s.pending := rfl
end

section
variable (b : Bool) (a : Alarm) (s : State)
@[simp] theorem raiseIf_su : (raiseIf b a s).su = s.su := by cases b <;> rfl
@[simp] theorem raiseIf_ciu : (raiseIf b a s).ciu = s.ciu := by cases b <;> rfl
@[simp] theorem raiseIf_ri : (raiseIf b a s).ri = s.ri := by cases b <;> rfl
@[simp] theorem raiseIf_pt : (raiseIf b a s).pt = s.pt := by cases b <;> rfl
@[simp] theorem raiseIf_au : (raiseIf b a s).au = s.au := by cases b <;> rfl
@[simp] theorem raiseIf_ze : (raiseIf b a s).ze = s.ze := by cases b <;> rfl
@[simp] theorem raiseIf_tu : (raiseIf b a s).tu = s.tu := by cases b <;> rfl
@[simp] theorem raiseIf_sc : (raiseIf b a s).sc = s.sc := by cases b <;> rfl
@[simp] theorem raiseIf_cs : (raiseIf b a s).cs = s.cs := by cases b <;> rfl
theorem raiseIf_mp : (raiseIf b a s).mp = if b then { s.mp with flags := withFlag a s.mp.flags } else s.mp := by
  cases b <;> rfl
@[simp] theorem raiseIf_pins : (raiseIf b a s).pins = s.pins := by cases b <;> rfl
@[simp] theorem raiseIf_free : (raiseIf b a s).free = s.free := by cases b <;> rfl
@[simp] theorem raiseIf_pending : (raiseIf b a s).pending = s.pending := by cases b <;> rfl
end

section
variable (n : Nat) (s : State)
@[simp] theorem passTicks_su : (passTicks n s).su = { s.su with lt := s.su.lt + BitVec.ofNat 32 n, phase := s.su.phase + n } := rfl
@[simp] theorem passTicks_ciu : (passTicks n s).ciu = s.ciu := rfl
@[simp] theorem passTicks_ri : (passTicks n s).ri = s.ri := rfl
@[simp] theorem passTicks_pt : (passTicks n s).pt = s.pt := rfl
@[simp] theorem passTicks_au : (passTicks n s).au = s.au := rfl
@[simp] theorem passTicks_ze : (passTicks n s).ze = s.ze := rfl
@[simp] theorem passTicks_tu : (passTicks n s).tu = s.tu := rfl
@[simp] theorem passTicks_sc : (passTicks n s).sc = s.sc := rfl
@[simp] theorem passTicks_cs : (passTicks n s).cs = s.cs := rfl
@[simp] theorem passTicks_mp : (passTicks n s).mp = s.mp := rfl
@[simp] theorem passTicks_pins : (passTicks n s).pins = s.pins := rfl
@[simp] theorem passTicks_free : (passTicks n s).free = s.free := rfl
@[simp] theorem passTicks_pending : (passTicks n s).pending = s.pending := rfl
end

end Sys2Proof.Machine
end

