-- ==== Sys2Proof/Laws/Frames.lean ====
section
/-! SUPPORT. Which blocks each shared operation leaves alone: one lemma per operation and block, so that no later proof unfolds an
operation to see that a block is untouched. Of the Maintenance Port the operations set alarm flags only. -/

namespace Sys2Proof.Machine

open Sys2Proof

/-- A fold of operations that each keep a reading of the state keeps it. -/
theorem foldl_keeps {α β : Type} (g : State → β) (f : State → α → State) (h : ∀ s a, g (f s a) = g s) (l : List α) (s : State) :
    g (l.foldl f s) = g s := by
  induction l generalizing s with
  | nil => rfl
  | cons a l ih => simp [List.foldl_cons, ih, h]

theorem stageIf_keeps {β : Type} (g : State → β) (b : Bool) (f : State → State) (h : ∀ s, g (f s) = g s) (s : State) :
    g (stageIf b f s) = g s := by
  cases b <;> simp [stageIf, h]

theorem raiseIf_keeps_mp {β : Type} (g : Maint → β) (h : ∀ m f, g { m with flags := f } = g m) (b : Bool) (a : Alarm) (s : State) :
    g (raiseIf b a s).mp = g s.mp := by
  cases b <;> simp [raiseIf, h]

@[simp] theorem raiseIf_receiver (b : Bool) (a : Alarm) (s : State) : (raiseIf b a s).mp.receiver = s.mp.receiver := raiseIf_keeps_mp (·.receiver) (fun _ _ => rfl) b a s
@[simp] theorem raiseIf_request (b : Bool) (a : Alarm) (s : State) : (raiseIf b a s).mp.request = s.mp.request := raiseIf_keeps_mp (·.request) (fun _ _ => rfl) b a s
@[simp] theorem raiseIf_response (b : Bool) (a : Alarm) (s : State) : (raiseIf b a s).mp.response = s.mp.response := raiseIf_keeps_mp (·.response) (fun _ _ => rfl) b a s
@[simp] theorem raiseIf_selection (b : Bool) (a : Alarm) (s : State) : (raiseIf b a s).mp.selection = s.mp.selection := raiseIf_keeps_mp (·.selection) (fun _ _ => rfl) b a s
@[simp] theorem raiseIf_portErrors (b : Bool) (a : Alarm) (s : State) : (raiseIf b a s).mp.portErrors = s.mp.portErrors := raiseIf_keeps_mp (·.portErrors) (fun _ _ => rfl) b a s

section
variable (s : State)
@[simp] theorem converterFailureOp_ciu : (converterFailureOp s).ciu = s.ciu := by simp only [converterFailureOp]; (repeat' split) <;> simp
@[simp] theorem converterFailureOp_ri : (converterFailureOp s).ri = s.ri := by simp only [converterFailureOp]; (repeat' split) <;> simp
@[simp] theorem converterFailureOp_pt : (converterFailureOp s).pt = s.pt := by simp only [converterFailureOp]; (repeat' split) <;> simp
@[simp] theorem converterFailureOp_au : (converterFailureOp s).au = s.au := by simp only [converterFailureOp]; (repeat' split) <;> simp
@[simp] theorem converterFailureOp_ze : (converterFailureOp s).ze = s.ze := by simp only [converterFailureOp]; (repeat' split) <;> simp
@[simp] theorem converterFailureOp_tu : (converterFailureOp s).tu = s.tu := by simp only [converterFailureOp]; (repeat' split) <;> simp
@[simp] theorem converterFailureOp_sc : (converterFailureOp s).sc = s.sc := by simp only [converterFailureOp]; (repeat' split) <;> simp
@[simp] theorem converterFailureOp_cs : (converterFailureOp s).cs = s.cs := by simp only [converterFailureOp]; (repeat' split) <;> simp
@[simp] theorem converterFailureOp_pins : (converterFailureOp s).pins = s.pins := by simp only [converterFailureOp]; (repeat' split) <;> simp
@[simp] theorem converterFailureOp_free : (converterFailureOp s).free = s.free := by simp only [converterFailureOp]; (repeat' split) <;> simp
@[simp] theorem converterFailureOp_pending : (converterFailureOp s).pending = s.pending := by simp only [converterFailureOp]; (repeat' split) <;> simp
@[simp] theorem converterFailureOp_receiver : (converterFailureOp s).mp.receiver = s.mp.receiver := by simp only [converterFailureOp]; (repeat' split) <;> simp
@[simp] theorem converterFailureOp_request : (converterFailureOp s).mp.request = s.mp.request := by simp only [converterFailureOp]; (repeat' split) <;> simp
@[simp] theorem converterFailureOp_response : (converterFailureOp s).mp.response = s.mp.response := by simp only [converterFailureOp]; (repeat' split) <;> simp
@[simp] theorem converterFailureOp_selection : (converterFailureOp s).mp.selection = s.mp.selection := by simp only [converterFailureOp]; (repeat' split) <;> simp
@[simp] theorem converterFailureOp_portErrors : (converterFailureOp s).mp.portErrors = s.mp.portErrors := by simp only [converterFailureOp]; (repeat' split) <;> simp
end

section
variable (s : State)
@[simp] theorem converterRecoveryOp_ciu : (converterRecoveryOp s).ciu = s.ciu := by simp only [converterRecoveryOp]; (repeat' split) <;> simp
@[simp] theorem converterRecoveryOp_ri : (converterRecoveryOp s).ri = s.ri := by simp only [converterRecoveryOp]; (repeat' split) <;> simp
@[simp] theorem converterRecoveryOp_pt : (converterRecoveryOp s).pt = s.pt := by simp only [converterRecoveryOp]; (repeat' split) <;> simp
@[simp] theorem converterRecoveryOp_au : (converterRecoveryOp s).au = s.au := by simp only [converterRecoveryOp]; (repeat' split) <;> simp
@[simp] theorem converterRecoveryOp_ze : (converterRecoveryOp s).ze = s.ze := by simp only [converterRecoveryOp]; (repeat' split) <;> simp
@[simp] theorem converterRecoveryOp_tu : (converterRecoveryOp s).tu = s.tu := by simp only [converterRecoveryOp]; (repeat' split) <;> simp
@[simp] theorem converterRecoveryOp_sc : (converterRecoveryOp s).sc = s.sc := by simp only [converterRecoveryOp]; (repeat' split) <;> simp
@[simp] theorem converterRecoveryOp_cs : (converterRecoveryOp s).cs = s.cs := by simp only [converterRecoveryOp]; (repeat' split) <;> simp
@[simp] theorem converterRecoveryOp_pins : (converterRecoveryOp s).pins = s.pins := by simp only [converterRecoveryOp]; (repeat' split) <;> simp
@[simp] theorem converterRecoveryOp_free : (converterRecoveryOp s).free = s.free := by simp only [converterRecoveryOp]; (repeat' split) <;> simp
@[simp] theorem converterRecoveryOp_pending : (converterRecoveryOp s).pending = s.pending := by simp only [converterRecoveryOp]; (repeat' split) <;> simp
@[simp] theorem converterRecoveryOp_mp : (converterRecoveryOp s).mp = s.mp := by simp only [converterRecoveryOp]; (repeat' split) <;> simp
end

section
variable (v : PerPhase Validity) (s : State)
@[simp] theorem clearRunOp_ciu : (clearRunOp v s).ciu = s.ciu := by simp [clearRunOp]
@[simp] theorem clearRunOp_ri : (clearRunOp v s).ri = s.ri := by simp [clearRunOp]
@[simp] theorem clearRunOp_pt : (clearRunOp v s).pt = s.pt := by simp [clearRunOp]
@[simp] theorem clearRunOp_au : (clearRunOp v s).au = s.au := by simp [clearRunOp]
@[simp] theorem clearRunOp_ze : (clearRunOp v s).ze = s.ze := by simp [clearRunOp]
@[simp] theorem clearRunOp_tu : (clearRunOp v s).tu = s.tu := by simp [clearRunOp]
@[simp] theorem clearRunOp_sc : (clearRunOp v s).sc = s.sc := by simp [clearRunOp]
@[simp] theorem clearRunOp_cs : (clearRunOp v s).cs = s.cs := by simp [clearRunOp]
@[simp] theorem clearRunOp_pins : (clearRunOp v s).pins = s.pins := by simp [clearRunOp]
@[simp] theorem clearRunOp_free : (clearRunOp v s).free = s.free := by simp [clearRunOp]
@[simp] theorem clearRunOp_pending : (clearRunOp v s).pending = s.pending := by simp [clearRunOp]
@[simp] theorem clearRunOp_mp : (clearRunOp v s).mp = s.mp := by simp [clearRunOp]
end

section
variable (r : Record) (s : State)
@[simp] theorem takeRecordSu_ciu : (takeRecordSu r s).ciu = s.ciu := by simp [takeRecordSu]
@[simp] theorem takeRecordSu_ri : (takeRecordSu r s).ri = s.ri := by simp [takeRecordSu]
@[simp] theorem takeRecordSu_pt : (takeRecordSu r s).pt = s.pt := by simp [takeRecordSu]
@[simp] theorem takeRecordSu_au : (takeRecordSu r s).au = s.au := by simp [takeRecordSu]
@[simp] theorem takeRecordSu_ze : (takeRecordSu r s).ze = s.ze := by simp [takeRecordSu]
@[simp] theorem takeRecordSu_tu : (takeRecordSu r s).tu = s.tu := by simp [takeRecordSu]
@[simp] theorem takeRecordSu_sc : (takeRecordSu r s).sc = s.sc := by simp [takeRecordSu]
@[simp] theorem takeRecordSu_cs : (takeRecordSu r s).cs = s.cs := by simp [takeRecordSu]
@[simp] theorem takeRecordSu_pins : (takeRecordSu r s).pins = s.pins := by simp [takeRecordSu]
@[simp] theorem takeRecordSu_free : (takeRecordSu r s).free = s.free := by simp [takeRecordSu]
@[simp] theorem takeRecordSu_pending : (takeRecordSu r s).pending = s.pending := by simp [takeRecordSu]
@[simp] theorem takeRecordSu_receiver : (takeRecordSu r s).mp.receiver = s.mp.receiver := by simp [takeRecordSu]
@[simp] theorem takeRecordSu_request : (takeRecordSu r s).mp.request = s.mp.request := by simp [takeRecordSu]
@[simp] theorem takeRecordSu_response : (takeRecordSu r s).mp.response = s.mp.response := by simp [takeRecordSu]
@[simp] theorem takeRecordSu_selection : (takeRecordSu r s).mp.selection = s.mp.selection := by simp [takeRecordSu]
@[simp] theorem takeRecordSu_portErrors : (takeRecordSu r s).mp.portErrors = s.mp.portErrors := by simp [takeRecordSu]
end

section
variable (c : Settings) (q : DevPair) (s : State)
@[simp] theorem discrepancyOp_su : (discrepancyOp c q s).su = s.su := by simp only [discrepancyOp]; (repeat' split) <;> simp
@[simp] theorem discrepancyOp_ri : (discrepancyOp c q s).ri = s.ri := by simp only [discrepancyOp]; (repeat' split) <;> simp
@[simp] theorem discrepancyOp_pt : (discrepancyOp c q s).pt = s.pt := by simp only [discrepancyOp]; (repeat' split) <;> simp
@[simp] theorem discrepancyOp_au : (discrepancyOp c q s).au = s.au := by simp only [discrepancyOp]; (repeat' split) <;> simp
@[simp] theorem discrepancyOp_ze : (discrepancyOp c q s).ze = s.ze := by simp only [discrepancyOp]; (repeat' split) <;> simp
@[simp] theorem discrepancyOp_tu : (discrepancyOp c q s).tu = s.tu := by simp only [discrepancyOp]; (repeat' split) <;> simp
@[simp] theorem discrepancyOp_sc : (discrepancyOp c q s).sc = s.sc := by simp only [discrepancyOp]; (repeat' split) <;> simp
@[simp] theorem discrepancyOp_cs : (discrepancyOp c q s).cs = s.cs := by simp only [discrepancyOp]; (repeat' split) <;> simp
@[simp] theorem discrepancyOp_pins : (discrepancyOp c q s).pins = s.pins := by simp only [discrepancyOp]; (repeat' split) <;> simp
@[simp] theorem discrepancyOp_free : (discrepancyOp c q s).free = s.free := by simp only [discrepancyOp]; (repeat' split) <;> simp
@[simp] theorem discrepancyOp_pending : (discrepancyOp c q s).pending = s.pending := by simp only [discrepancyOp]; (repeat' split) <;> simp
@[simp] theorem discrepancyOp_receiver : (discrepancyOp c q s).mp.receiver = s.mp.receiver := by simp only [discrepancyOp]; (repeat' split) <;> simp
@[simp] theorem discrepancyOp_request : (discrepancyOp c q s).mp.request = s.mp.request := by simp only [discrepancyOp]; (repeat' split) <;> simp
@[simp] theorem discrepancyOp_response : (discrepancyOp c q s).mp.response = s.mp.response := by simp only [discrepancyOp]; (repeat' split) <;> simp
@[simp] theorem discrepancyOp_selection : (discrepancyOp c q s).mp.selection = s.mp.selection := by simp only [discrepancyOp]; (repeat' split) <;> simp
@[simp] theorem discrepancyOp_portErrors : (discrepancyOp c q s).mp.portErrors = s.mp.portErrors := by simp only [discrepancyOp]; (repeat' split) <;> simp
end

section
variable (c : Settings) (k : Contacts) (s : State)
@[simp] theorem initialAcceptance_su : (initialAcceptance c k s).su = s.su := by simp [initialAcceptance]
@[simp] theorem initialAcceptance_ri : (initialAcceptance c k s).ri = s.ri := by simp [initialAcceptance]
@[simp] theorem initialAcceptance_pt : (initialAcceptance c k s).pt = s.pt := by simp [initialAcceptance]
@[simp] theorem initialAcceptance_au : (initialAcceptance c k s).au = s.au := by simp [initialAcceptance]
@[simp] theorem initialAcceptance_ze : (initialAcceptance c k s).ze = s.ze := by simp [initialAcceptance]
@[simp] theorem initialAcceptance_tu : (initialAcceptance c k s).tu = s.tu := by simp [initialAcceptance]
@[simp] theorem initialAcceptance_sc : (initialAcceptance c k s).sc = s.sc := by simp [initialAcceptance]
@[simp] theorem initialAcceptance_cs : (initialAcceptance c k s).cs = s.cs := by simp [initialAcceptance]
@[simp] theorem initialAcceptance_pins : (initialAcceptance c k s).pins = s.pins := by simp [initialAcceptance]
@[simp] theorem initialAcceptance_free : (initialAcceptance c k s).free = s.free := by simp [initialAcceptance]
@[simp] theorem initialAcceptance_pending : (initialAcceptance c k s).pending = s.pending := by simp [initialAcceptance]
@[simp] theorem initialAcceptance_mp : (initialAcceptance c k s).mp = s.mp := by simp [initialAcceptance]
end

section
variable (c : Settings) (k : Contacts) (n : EpochNo) (s : State)
@[simp] theorem contactEpoch_su : (contactEpoch c k n s).su = s.su := by simp only [contactEpoch]; (repeat' split) <;> simp
@[simp] theorem contactEpoch_ri : (contactEpoch c k n s).ri = s.ri := by simp only [contactEpoch]; (repeat' split) <;> simp
@[simp] theorem contactEpoch_pt : (contactEpoch c k n s).pt = s.pt := by simp only [contactEpoch]; (repeat' split) <;> simp
@[simp] theorem contactEpoch_au : (contactEpoch c k n s).au = s.au := by simp only [contactEpoch]; (repeat' split) <;> simp
@[simp] theorem contactEpoch_ze : (contactEpoch c k n s).ze = s.ze := by simp only [contactEpoch]; (repeat' split) <;> simp
@[simp] theorem contactEpoch_tu : (contactEpoch c k n s).tu = s.tu := by simp only [contactEpoch]; (repeat' split) <;> simp
@[simp] theorem contactEpoch_sc : (contactEpoch c k n s).sc = s.sc := by simp only [contactEpoch]; (repeat' split) <;> simp
@[simp] theorem contactEpoch_cs : (contactEpoch c k n s).cs = s.cs := by simp only [contactEpoch]; (repeat' split) <;> simp
@[simp] theorem contactEpoch_pins : (contactEpoch c k n s).pins = s.pins := by simp only [contactEpoch]; (repeat' split) <;> simp
@[simp] theorem contactEpoch_free : (contactEpoch c k n s).free = s.free := by simp only [contactEpoch]; (repeat' split) <;> simp
@[simp] theorem contactEpoch_pending : (contactEpoch c k n s).pending = s.pending := by simp only [contactEpoch]; (repeat' split) <;> simp
@[simp] theorem contactEpoch_receiver : (contactEpoch c k n s).mp.receiver = s.mp.receiver := by simp only [contactEpoch]; (repeat' split) <;> simp
@[simp] theorem contactEpoch_request : (contactEpoch c k n s).mp.request = s.mp.request := by simp only [contactEpoch]; (repeat' split) <;> simp
@[simp] theorem contactEpoch_response : (contactEpoch c k n s).mp.response = s.mp.response := by simp only [contactEpoch]; (repeat' split) <;> simp
@[simp] theorem contactEpoch_selection : (contactEpoch c k n s).mp.selection = s.mp.selection := by simp only [contactEpoch]; (repeat' split) <;> simp
@[simp] theorem contactEpoch_portErrors : (contactEpoch c k n s).mp.portErrors = s.mp.portErrors := by simp only [contactEpoch]; (repeat' split) <;> simp
end

section
variable (s : State)
@[simp] theorem startPulse_su : (startPulse s).su = s.su := by simp [startPulse]
@[simp] theorem startPulse_ciu : (startPulse s).ciu = s.ciu := by simp [startPulse]
@[simp] theorem startPulse_ri : (startPulse s).ri = s.ri := by simp [startPulse]
@[simp] theorem startPulse_pt : (startPulse s).pt = s.pt := by simp [startPulse]
@[simp] theorem startPulse_au : (startPulse s).au = s.au := by simp [startPulse]
@[simp] theorem startPulse_ze : (startPulse s).ze = s.ze := by simp [startPulse]
@[simp] theorem startPulse_sc : (startPulse s).sc = s.sc := by simp [startPulse]
@[simp] theorem startPulse_cs : (startPulse s).cs = s.cs := by simp [startPulse]
@[simp] theorem startPulse_pins : (startPulse s).pins = s.pins := by simp [startPulse]
@[simp] theorem startPulse_free : (startPulse s).free = s.free := by simp [startPulse]
@[simp] theorem startPulse_pending : (startPulse s).pending = s.pending := by simp [startPulse]
@[simp] theorem startPulse_mp : (startPulse s).mp = s.mp := by simp [startPulse]
end

section
variable (s : State)
@[simp] theorem abandonPulse_su : (abandonPulse s).su = s.su := by simp only [abandonPulse]; (repeat' split) <;> simp
@[simp] theorem abandonPulse_ciu : (abandonPulse s).ciu = s.ciu := by simp only [abandonPulse]; (repeat' split) <;> simp
@[simp] theorem abandonPulse_ri : (abandonPulse s).ri = s.ri := by simp only [abandonPulse]; (repeat' split) <;> simp
@[simp] theorem abandonPulse_pt : (abandonPulse s).pt = s.pt := by simp only [abandonPulse]; (repeat' split) <;> simp
@[simp] theorem abandonPulse_au : (abandonPulse s).au = s.au := by simp only [abandonPulse]; (repeat' split) <;> simp
@[simp] theorem abandonPulse_ze : (abandonPulse s).ze = s.ze := by simp only [abandonPulse]; (repeat' split) <;> simp
@[simp] theorem abandonPulse_sc : (abandonPulse s).sc = s.sc := by simp only [abandonPulse]; (repeat' split) <;> simp
@[simp] theorem abandonPulse_cs : (abandonPulse s).cs = s.cs := by simp only [abandonPulse]; (repeat' split) <;> simp
@[simp] theorem abandonPulse_pins : (abandonPulse s).pins = s.pins := by simp only [abandonPulse]; (repeat' split) <;> simp
@[simp] theorem abandonPulse_free : (abandonPulse s).free = s.free := by simp only [abandonPulse]; (repeat' split) <;> simp
@[simp] theorem abandonPulse_pending : (abandonPulse s).pending = s.pending := by simp only [abandonPulse]; (repeat' split) <;> simp
@[simp] theorem abandonPulse_mp : (abandonPulse s).mp = s.mp := by simp only [abandonPulse]; (repeat' split) <;> simp
end

section
variable (s : State)
@[simp] theorem pulseDueOp_su : (pulseDueOp s).su = s.su := by simp only [pulseDueOp]; (repeat' split) <;> simp
@[simp] theorem pulseDueOp_ciu : (pulseDueOp s).ciu = s.ciu := by simp only [pulseDueOp]; (repeat' split) <;> simp
@[simp] theorem pulseDueOp_ri : (pulseDueOp s).ri = s.ri := by simp only [pulseDueOp]; (repeat' split) <;> simp
@[simp] theorem pulseDueOp_pt : (pulseDueOp s).pt = s.pt := by simp only [pulseDueOp]; (repeat' split) <;> simp
@[simp] theorem pulseDueOp_au : (pulseDueOp s).au = s.au := by simp only [pulseDueOp]; (repeat' split) <;> simp
@[simp] theorem pulseDueOp_ze : (pulseDueOp s).ze = s.ze := by simp only [pulseDueOp]; (repeat' split) <;> simp
@[simp] theorem pulseDueOp_sc : (pulseDueOp s).sc = s.sc := by simp only [pulseDueOp]; (repeat' split) <;> simp
@[simp] theorem pulseDueOp_cs : (pulseDueOp s).cs = s.cs := by simp only [pulseDueOp]; (repeat' split) <;> simp
@[simp] theorem pulseDueOp_pins : (pulseDueOp s).pins = s.pins := by simp only [pulseDueOp]; (repeat' split) <;> simp
@[simp] theorem pulseDueOp_free : (pulseDueOp s).free = s.free := by simp only [pulseDueOp]; (repeat' split) <;> simp
@[simp] theorem pulseDueOp_pending : (pulseDueOp s).pending = s.pending := by simp only [pulseDueOp]; (repeat' split) <;> simp
@[simp] theorem pulseDueOp_mp : (pulseDueOp s).mp = s.mp := by simp only [pulseDueOp]; (repeat' split) <;> simp
end

section
variable (s : State)
@[simp] theorem pulseEndOp_su : (pulseEndOp s).su = s.su := by simp only [pulseEndOp]; (repeat' split) <;> simp
@[simp] theorem pulseEndOp_ciu : (pulseEndOp s).ciu = s.ciu := by simp only [pulseEndOp]; (repeat' split) <;> simp
@[simp] theorem pulseEndOp_ri : (pulseEndOp s).ri = s.ri := by simp only [pulseEndOp]; (repeat' split) <;> simp
@[simp] theorem pulseEndOp_pt : (pulseEndOp s).pt = s.pt := by simp only [pulseEndOp]; (repeat' split) <;> simp
@[simp] theorem pulseEndOp_au : (pulseEndOp s).au = s.au := by simp only [pulseEndOp]; (repeat' split) <;> simp
@[simp] theorem pulseEndOp_ze : (pulseEndOp s).ze = s.ze := by simp only [pulseEndOp]; (repeat' split) <;> simp
@[simp] theorem pulseEndOp_sc : (pulseEndOp s).sc = s.sc := by simp only [pulseEndOp]; (repeat' split) <;> simp
@[simp] theorem pulseEndOp_cs : (pulseEndOp s).cs = s.cs := by simp only [pulseEndOp]; (repeat' split) <;> simp
@[simp] theorem pulseEndOp_pins : (pulseEndOp s).pins = s.pins := by simp only [pulseEndOp]; (repeat' split) <;> simp
@[simp] theorem pulseEndOp_free : (pulseEndOp s).free = s.free := by simp only [pulseEndOp]; (repeat' split) <;> simp
@[simp] theorem pulseEndOp_pending : (pulseEndOp s).pending = s.pending := by simp only [pulseEndOp]; (repeat' split) <;> simp
@[simp] theorem pulseEndOp_receiver : (pulseEndOp s).mp.receiver = s.mp.receiver := by simp only [pulseEndOp]; (repeat' split) <;> simp
@[simp] theorem pulseEndOp_request : (pulseEndOp s).mp.request = s.mp.request := by simp only [pulseEndOp]; (repeat' split) <;> simp
@[simp] theorem pulseEndOp_response : (pulseEndOp s).mp.response = s.mp.response := by simp only [pulseEndOp]; (repeat' split) <;> simp
@[simp] theorem pulseEndOp_selection : (pulseEndOp s).mp.selection = s.mp.selection := by simp only [pulseEndOp]; (repeat' split) <;> simp
@[simp] theorem pulseEndOp_portErrors : (pulseEndOp s).mp.portErrors = s.mp.portErrors := by simp only [pulseEndOp]; (repeat' split) <;> simp
end

section
variable (r : RunState) (s : State)
@[simp] theorem supervisionEpoch_su : (supervisionEpoch r s).su = s.su := by simp only [supervisionEpoch]; (repeat' split) <;> simp
@[simp] theorem supervisionEpoch_ciu : (supervisionEpoch r s).ciu = s.ciu := by simp only [supervisionEpoch]; (repeat' split) <;> simp
@[simp] theorem supervisionEpoch_ri : (supervisionEpoch r s).ri = s.ri := by simp only [supervisionEpoch]; (repeat' split) <;> simp
@[simp] theorem supervisionEpoch_pt : (supervisionEpoch r s).pt = s.pt := by simp only [supervisionEpoch]; (repeat' split) <;> simp
@[simp] theorem supervisionEpoch_au : (supervisionEpoch r s).au = s.au := by simp only [supervisionEpoch]; (repeat' split) <;> simp
@[simp] theorem supervisionEpoch_ze : (supervisionEpoch r s).ze = s.ze := by simp only [supervisionEpoch]; (repeat' split) <;> simp
@[simp] theorem supervisionEpoch_sc : (supervisionEpoch r s).sc = s.sc := by simp only [supervisionEpoch]; (repeat' split) <;> simp
@[simp] theorem supervisionEpoch_cs : (supervisionEpoch r s).cs = s.cs := by simp only [supervisionEpoch]; (repeat' split) <;> simp
@[simp] theorem supervisionEpoch_pins : (supervisionEpoch r s).pins = s.pins := by simp only [supervisionEpoch]; (repeat' split) <;> simp
@[simp] theorem supervisionEpoch_free : (supervisionEpoch r s).free = s.free := by simp only [supervisionEpoch]; (repeat' split) <;> simp
@[simp] theorem supervisionEpoch_pending : (supervisionEpoch r s).pending = s.pending := by simp only [supervisionEpoch]; (repeat' split) <;> simp
@[simp] theorem supervisionEpoch_receiver : (supervisionEpoch r s).mp.receiver = s.mp.receiver := by simp only [supervisionEpoch]; (repeat' split) <;> simp
@[simp] theorem supervisionEpoch_request : (supervisionEpoch r s).mp.request = s.mp.request := by simp only [supervisionEpoch]; (repeat' split) <;> simp
@[simp] theorem supervisionEpoch_response : (supervisionEpoch r s).mp.response = s.mp.response := by simp only [supervisionEpoch]; (repeat' split) <;> simp
@[simp] theorem supervisionEpoch_selection : (supervisionEpoch r s).mp.selection = s.mp.selection := by simp only [supervisionEpoch]; (repeat' split) <;> simp
@[simp] theorem supervisionEpoch_portErrors : (supervisionEpoch r s).mp.portErrors = s.mp.portErrors := by simp only [supervisionEpoch]; (repeat' split) <;> simp
end

section
variable (x : Bool) (q : TripCause) (k : EpochNo) (s : State)
@[simp] theorem captureRecord_su : (captureRecord x q k s).su = s.su := by simp only [captureRecord]; (repeat' split) <;> simp
@[simp] theorem captureRecord_ciu : (captureRecord x q k s).ciu = s.ciu := by simp only [captureRecord]; (repeat' split) <;> simp
@[simp] theorem captureRecord_ri : (captureRecord x q k s).ri = s.ri := by simp only [captureRecord]; (repeat' split) <;> simp
@[simp] theorem captureRecord_pt : (captureRecord x q k s).pt = s.pt := by simp only [captureRecord]; (repeat' split) <;> simp
@[simp] theorem captureRecord_au : (captureRecord x q k s).au = s.au := by simp only [captureRecord]; (repeat' split) <;> simp
@[simp] theorem captureRecord_ze : (captureRecord x q k s).ze = s.ze := by simp only [captureRecord]; (repeat' split) <;> simp
@[simp] theorem captureRecord_sc : (captureRecord x q k s).sc = s.sc := by simp only [captureRecord]; (repeat' split) <;> simp
@[simp] theorem captureRecord_cs : (captureRecord x q k s).cs = s.cs := by simp only [captureRecord]; (repeat' split) <;> simp
@[simp] theorem captureRecord_pins : (captureRecord x q k s).pins = s.pins := by simp only [captureRecord]; (repeat' split) <;> simp
@[simp] theorem captureRecord_free : (captureRecord x q k s).free = s.free := by simp only [captureRecord]; (repeat' split) <;> simp
@[simp] theorem captureRecord_pending : (captureRecord x q k s).pending = s.pending := by simp only [captureRecord]; (repeat' split) <;> simp
@[simp] theorem captureRecord_receiver : (captureRecord x q k s).mp.receiver = s.mp.receiver := by simp only [captureRecord]; (repeat' split) <;> simp
@[simp] theorem captureRecord_request : (captureRecord x q k s).mp.request = s.mp.request := by simp only [captureRecord]; (repeat' split) <;> simp
@[simp] theorem captureRecord_response : (captureRecord x q k s).mp.response = s.mp.response := by simp only [captureRecord]; (repeat' split) <;> simp
@[simp] theorem captureRecord_selection : (captureRecord x q k s).mp.selection = s.mp.selection := by simp only [captureRecord]; (repeat' split) <;> simp
@[simp] theorem captureRecord_portErrors : (captureRecord x q k s).mp.portErrors = s.mp.portErrors := by simp only [captureRecord]; (repeat' split) <;> simp
end

section
variable (c : Settings) (x : Bool) (q : TripCause) (k : EpochNo) (s : State)
@[simp] theorem assertTrip_su : (assertTrip c x q k s).su = s.su := by simp only [assertTrip]; (repeat' split) <;> simp
@[simp] theorem assertTrip_ciu : (assertTrip c x q k s).ciu = s.ciu := by simp only [assertTrip]; (repeat' split) <;> simp
@[simp] theorem assertTrip_ri : (assertTrip c x q k s).ri = s.ri := by simp only [assertTrip]; (repeat' split) <;> simp
@[simp] theorem assertTrip_pt : (assertTrip c x q k s).pt = s.pt := by simp only [assertTrip]; (repeat' split) <;> simp
@[simp] theorem assertTrip_au : (assertTrip c x q k s).au = s.au := by simp only [assertTrip]; (repeat' split) <;> simp
@[simp] theorem assertTrip_ze : (assertTrip c x q k s).ze = s.ze := by simp only [assertTrip]; (repeat' split) <;> simp
@[simp] theorem assertTrip_sc : (assertTrip c x q k s).sc = s.sc := by simp only [assertTrip]; (repeat' split) <;> simp
@[simp] theorem assertTrip_cs : (assertTrip c x q k s).cs = s.cs := by simp only [assertTrip]; (repeat' split) <;> simp
@[simp] theorem assertTrip_pins : (assertTrip c x q k s).pins = s.pins := by simp only [assertTrip]; (repeat' split) <;> simp
@[simp] theorem assertTrip_free : (assertTrip c x q k s).free = s.free := by simp only [assertTrip]; (repeat' split) <;> simp
@[simp] theorem assertTrip_pending : (assertTrip c x q k s).pending = s.pending := by simp only [assertTrip]; (repeat' split) <;> simp
@[simp] theorem assertTrip_receiver : (assertTrip c x q k s).mp.receiver = s.mp.receiver := by simp only [assertTrip]; (repeat' split) <;> simp
@[simp] theorem assertTrip_request : (assertTrip c x q k s).mp.request = s.mp.request := by simp only [assertTrip]; (repeat' split) <;> simp
@[simp] theorem assertTrip_response : (assertTrip c x q k s).mp.response = s.mp.response := by simp only [assertTrip]; (repeat' split) <;> simp
@[simp] theorem assertTrip_selection : (assertTrip c x q k s).mp.selection = s.mp.selection := by simp only [assertTrip]; (repeat' split) <;> simp
@[simp] theorem assertTrip_portErrors : (assertTrip c x q k s).mp.portErrors = s.mp.portErrors := by simp only [assertTrip]; (repeat' split) <;> simp
end

section
variable (c : Settings) (q : TripCause) (k : EpochNo) (s : State)
@[simp] theorem assertIfAllowed_su : (assertIfAllowed c q k s).su = s.su := by simp only [assertIfAllowed]; (repeat' split) <;> simp
@[simp] theorem assertIfAllowed_ciu : (assertIfAllowed c q k s).ciu = s.ciu := by simp only [assertIfAllowed]; (repeat' split) <;> simp
@[simp] theorem assertIfAllowed_ri : (assertIfAllowed c q k s).ri = s.ri := by simp only [assertIfAllowed]; (repeat' split) <;> simp
@[simp] theorem assertIfAllowed_pt : (assertIfAllowed c q k s).pt = s.pt := by simp only [assertIfAllowed]; (repeat' split) <;> simp
@[simp] theorem assertIfAllowed_au : (assertIfAllowed c q k s).au = s.au := by simp only [assertIfAllowed]; (repeat' split) <;> simp
@[simp] theorem assertIfAllowed_ze : (assertIfAllowed c q k s).ze = s.ze := by simp only [assertIfAllowed]; (repeat' split) <;> simp
@[simp] theorem assertIfAllowed_sc : (assertIfAllowed c q k s).sc = s.sc := by simp only [assertIfAllowed]; (repeat' split) <;> simp
@[simp] theorem assertIfAllowed_cs : (assertIfAllowed c q k s).cs = s.cs := by simp only [assertIfAllowed]; (repeat' split) <;> simp
@[simp] theorem assertIfAllowed_pins : (assertIfAllowed c q k s).pins = s.pins := by simp only [assertIfAllowed]; (repeat' split) <;> simp
@[simp] theorem assertIfAllowed_free : (assertIfAllowed c q k s).free = s.free := by simp only [assertIfAllowed]; (repeat' split) <;> simp
@[simp] theorem assertIfAllowed_pending : (assertIfAllowed c q k s).pending = s.pending := by simp only [assertIfAllowed]; (repeat' split) <;> simp
@[simp] theorem assertIfAllowed_receiver : (assertIfAllowed c q k s).mp.receiver = s.mp.receiver := by simp only [assertIfAllowed]; (repeat' split) <;> simp
@[simp] theorem assertIfAllowed_request : (assertIfAllowed c q k s).mp.request = s.mp.request := by simp only [assertIfAllowed]; (repeat' split) <;> simp
@[simp] theorem assertIfAllowed_response : (assertIfAllowed c q k s).mp.response = s.mp.response := by simp only [assertIfAllowed]; (repeat' split) <;> simp
@[simp] theorem assertIfAllowed_selection : (assertIfAllowed c q k s).mp.selection = s.mp.selection := by simp only [assertIfAllowed]; (repeat' split) <;> simp
@[simp] theorem assertIfAllowed_portErrors : (assertIfAllowed c q k s).mp.portErrors = s.mp.portErrors := by simp only [assertIfAllowed]; (repeat' split) <;> simp
end

section
variable (h : TripEnd) (s : State)
@[simp] theorem releaseTrip_su : (releaseTrip h s).su = s.su := by simp [releaseTrip]
@[simp] theorem releaseTrip_ciu : (releaseTrip h s).ciu = s.ciu := by simp [releaseTrip]
@[simp] theorem releaseTrip_ri : (releaseTrip h s).ri = s.ri := by simp [releaseTrip]
@[simp] theorem releaseTrip_pt : (releaseTrip h s).pt = s.pt := by simp [releaseTrip]
@[simp] theorem releaseTrip_au : (releaseTrip h s).au = s.au := by simp [releaseTrip]
@[simp] theorem releaseTrip_ze : (releaseTrip h s).ze = s.ze := by simp [releaseTrip]
@[simp] theorem releaseTrip_sc : (releaseTrip h s).sc = s.sc := by simp [releaseTrip]
@[simp] theorem releaseTrip_cs : (releaseTrip h s).cs = s.cs := by simp [releaseTrip]
@[simp] theorem releaseTrip_pins : (releaseTrip h s).pins = s.pins := by simp [releaseTrip]
@[simp] theorem releaseTrip_free : (releaseTrip h s).free = s.free := by simp [releaseTrip]
@[simp] theorem releaseTrip_pending : (releaseTrip h s).pending = s.pending := by simp [releaseTrip]
@[simp] theorem releaseTrip_mp : (releaseTrip h s).mp = s.mp := by simp [releaseTrip]
end

section
variable (r : RunState) (s : State)
@[simp] theorem stateRelease_su : (stateRelease r s).su = s.su := by simp only [stateRelease]; (repeat' split) <;> simp
@[simp] theorem stateRelease_ciu : (stateRelease r s).ciu = s.ciu := by simp only [stateRelease]; (repeat' split) <;> simp
@[simp] theorem stateRelease_ri : (stateRelease r s).ri = s.ri := by simp only [stateRelease]; (repeat' split) <;> simp
@[simp] theorem stateRelease_pt : (stateRelease r s).pt = s.pt := by simp only [stateRelease]; (repeat' split) <;> simp
@[simp] theorem stateRelease_au : (stateRelease r s).au = s.au := by simp only [stateRelease]; (repeat' split) <;> simp
@[simp] theorem stateRelease_ze : (stateRelease r s).ze = s.ze := by simp only [stateRelease]; (repeat' split) <;> simp
@[simp] theorem stateRelease_sc : (stateRelease r s).sc = s.sc := by simp only [stateRelease]; (repeat' split) <;> simp
@[simp] theorem stateRelease_cs : (stateRelease r s).cs = s.cs := by simp only [stateRelease]; (repeat' split) <;> simp
@[simp] theorem stateRelease_pins : (stateRelease r s).pins = s.pins := by simp only [stateRelease]; (repeat' split) <;> simp
@[simp] theorem stateRelease_free : (stateRelease r s).free = s.free := by simp only [stateRelease]; (repeat' split) <;> simp
@[simp] theorem stateRelease_pending : (stateRelease r s).pending = s.pending := by simp only [stateRelease]; (repeat' split) <;> simp
@[simp] theorem stateRelease_mp : (stateRelease r s).mp = s.mp := by simp only [stateRelease]; (repeat' split) <;> simp
end

section
variable (c : Settings) (s : State)
@[simp] theorem tripTimers_su : (tripTimers c s).su = s.su := by simp [tripTimers]
@[simp] theorem tripTimers_ciu : (tripTimers c s).ciu = s.ciu := by simp [tripTimers]
@[simp] theorem tripTimers_ri : (tripTimers c s).ri = s.ri := by simp [tripTimers]
@[simp] theorem tripTimers_pt : (tripTimers c s).pt = s.pt := by simp [tripTimers]
@[simp] theorem tripTimers_au : (tripTimers c s).au = s.au := by simp [tripTimers]
@[simp] theorem tripTimers_ze : (tripTimers c s).ze = s.ze := by simp [tripTimers]
@[simp] theorem tripTimers_sc : (tripTimers c s).sc = s.sc := by simp [tripTimers]
@[simp] theorem tripTimers_cs : (tripTimers c s).cs = s.cs := by simp [tripTimers]
@[simp] theorem tripTimers_pins : (tripTimers c s).pins = s.pins := by simp [tripTimers]
@[simp] theorem tripTimers_free : (tripTimers c s).free = s.free := by simp [tripTimers]
@[simp] theorem tripTimers_pending : (tripTimers c s).pending = s.pending := by simp [tripTimers]
@[simp] theorem tripTimers_mp : (tripTimers c s).mp = s.mp := by simp [tripTimers]
end

section
variable (c : Settings) (s : State)
@[simp] theorem retripOp_su : (retripOp c s).su = s.su := by simp only [retripOp]; (repeat' split) <;> simp
@[simp] theorem retripOp_ciu : (retripOp c s).ciu = s.ciu := by simp only [retripOp]; (repeat' split) <;> simp
@[simp] theorem retripOp_ri : (retripOp c s).ri = s.ri := by simp only [retripOp]; (repeat' split) <;> simp
@[simp] theorem retripOp_pt : (retripOp c s).pt = s.pt := by simp only [retripOp]; (repeat' split) <;> simp
@[simp] theorem retripOp_au : (retripOp c s).au = s.au := by simp only [retripOp]; (repeat' split) <;> simp
@[simp] theorem retripOp_ze : (retripOp c s).ze = s.ze := by simp only [retripOp]; (repeat' split) <;> simp
@[simp] theorem retripOp_sc : (retripOp c s).sc = s.sc := by simp only [retripOp]; (repeat' split) <;> simp
@[simp] theorem retripOp_cs : (retripOp c s).cs = s.cs := by simp only [retripOp]; (repeat' split) <;> simp
@[simp] theorem retripOp_pins : (retripOp c s).pins = s.pins := by simp only [retripOp]; (repeat' split) <;> simp
@[simp] theorem retripOp_free : (retripOp c s).free = s.free := by simp only [retripOp]; (repeat' split) <;> simp
@[simp] theorem retripOp_pending : (retripOp c s).pending = s.pending := by simp only [retripOp]; (repeat' split) <;> simp
@[simp] theorem retripOp_mp : (retripOp c s).mp = s.mp := by simp only [retripOp]; (repeat' split) <;> simp
end

section
variable (c : Settings) (s : State)
@[simp] theorem breakerFailureOp_su : (breakerFailureOp c s).su = s.su := by simp only [breakerFailureOp]; (repeat' split) <;> simp
@[simp] theorem breakerFailureOp_ciu : (breakerFailureOp c s).ciu = s.ciu := by simp only [breakerFailureOp]; (repeat' split) <;> simp
@[simp] theorem breakerFailureOp_ri : (breakerFailureOp c s).ri = s.ri := by simp only [breakerFailureOp]; (repeat' split) <;> simp
@[simp] theorem breakerFailureOp_pt : (breakerFailureOp c s).pt = s.pt := by simp only [breakerFailureOp]; (repeat' split) <;> simp
@[simp] theorem breakerFailureOp_au : (breakerFailureOp c s).au = s.au := by simp only [breakerFailureOp]; (repeat' split) <;> simp
@[simp] theorem breakerFailureOp_ze : (breakerFailureOp c s).ze = s.ze := by simp only [breakerFailureOp]; (repeat' split) <;> simp
@[simp] theorem breakerFailureOp_sc : (breakerFailureOp c s).sc = s.sc := by simp only [breakerFailureOp]; (repeat' split) <;> simp
@[simp] theorem breakerFailureOp_cs : (breakerFailureOp c s).cs = s.cs := by simp only [breakerFailureOp]; (repeat' split) <;> simp
@[simp] theorem breakerFailureOp_pins : (breakerFailureOp c s).pins = s.pins := by simp only [breakerFailureOp]; (repeat' split) <;> simp
@[simp] theorem breakerFailureOp_free : (breakerFailureOp c s).free = s.free := by simp only [breakerFailureOp]; (repeat' split) <;> simp
@[simp] theorem breakerFailureOp_pending : (breakerFailureOp c s).pending = s.pending := by simp only [breakerFailureOp]; (repeat' split) <;> simp
@[simp] theorem breakerFailureOp_receiver : (breakerFailureOp c s).mp.receiver = s.mp.receiver := by simp only [breakerFailureOp]; (repeat' split) <;> simp
@[simp] theorem breakerFailureOp_request : (breakerFailureOp c s).mp.request = s.mp.request := by simp only [breakerFailureOp]; (repeat' split) <;> simp
@[simp] theorem breakerFailureOp_response : (breakerFailureOp c s).mp.response = s.mp.response := by simp only [breakerFailureOp]; (repeat' split) <;> simp
@[simp] theorem breakerFailureOp_selection : (breakerFailureOp c s).mp.selection = s.mp.selection := by simp only [breakerFailureOp]; (repeat' split) <;> simp
@[simp] theorem breakerFailureOp_portErrors : (breakerFailureOp c s).mp.portErrors = s.mp.portErrors := by simp only [breakerFailureOp]; (repeat' split) <;> simp
end

section
variable (c : Settings) (x : Bool) (s : State)
@[simp] theorem releaseOp_su : (releaseOp c x s).su = s.su := by simp only [releaseOp]; (repeat' split) <;> simp
@[simp] theorem releaseOp_ciu : (releaseOp c x s).ciu = s.ciu := by simp only [releaseOp]; (repeat' split) <;> simp
@[simp] theorem releaseOp_ri : (releaseOp c x s).ri = s.ri := by simp only [releaseOp]; (repeat' split) <;> simp
@[simp] theorem releaseOp_pt : (releaseOp c x s).pt = s.pt := by simp only [releaseOp]; (repeat' split) <;> simp
@[simp] theorem releaseOp_au : (releaseOp c x s).au = s.au := by simp only [releaseOp]; (repeat' split) <;> simp
@[simp] theorem releaseOp_ze : (releaseOp c x s).ze = s.ze := by simp only [releaseOp]; (repeat' split) <;> simp
@[simp] theorem releaseOp_sc : (releaseOp c x s).sc = s.sc := by simp only [releaseOp]; (repeat' split) <;> simp
@[simp] theorem releaseOp_cs : (releaseOp c x s).cs = s.cs := by simp only [releaseOp]; (repeat' split) <;> simp
@[simp] theorem releaseOp_pins : (releaseOp c x s).pins = s.pins := by simp only [releaseOp]; (repeat' split) <;> simp
@[simp] theorem releaseOp_free : (releaseOp c x s).free = s.free := by simp only [releaseOp]; (repeat' split) <;> simp
@[simp] theorem releaseOp_pending : (releaseOp c x s).pending = s.pending := by simp only [releaseOp]; (repeat' split) <;> simp
@[simp] theorem releaseOp_mp : (releaseOp c x s).mp = s.mp := by simp only [releaseOp]; (repeat' split) <;> simp
end

section
variable (c : Settings) (k : EpochNo) (s : State)
@[simp] theorem tripEvaluation_su : (tripEvaluation c k s).su = s.su := by simp only [tripEvaluation]; (repeat' split) <;> simp
@[simp] theorem tripEvaluation_ciu : (tripEvaluation c k s).ciu = s.ciu := by simp only [tripEvaluation]; (repeat' split) <;> simp
@[simp] theorem tripEvaluation_ri : (tripEvaluation c k s).ri = s.ri := by simp only [tripEvaluation]; (repeat' split) <;> simp
@[simp] theorem tripEvaluation_pt : (tripEvaluation c k s).pt = s.pt := by simp only [tripEvaluation]; (repeat' split) <;> simp
@[simp] theorem tripEvaluation_au : (tripEvaluation c k s).au = s.au := by simp only [tripEvaluation]; (repeat' split) <;> simp
@[simp] theorem tripEvaluation_ze : (tripEvaluation c k s).ze = s.ze := by simp only [tripEvaluation]; (repeat' split) <;> simp
@[simp] theorem tripEvaluation_sc : (tripEvaluation c k s).sc = s.sc := by simp only [tripEvaluation]; (repeat' split) <;> simp
@[simp] theorem tripEvaluation_cs : (tripEvaluation c k s).cs = s.cs := by simp only [tripEvaluation]; (repeat' split) <;> simp
@[simp] theorem tripEvaluation_pins : (tripEvaluation c k s).pins = s.pins := by simp only [tripEvaluation]; (repeat' split) <;> simp
@[simp] theorem tripEvaluation_free : (tripEvaluation c k s).free = s.free := by simp only [tripEvaluation]; (repeat' split) <;> simp
@[simp] theorem tripEvaluation_pending : (tripEvaluation c k s).pending = s.pending := by simp only [tripEvaluation]; (repeat' split) <;> simp
@[simp] theorem tripEvaluation_receiver : (tripEvaluation c k s).mp.receiver = s.mp.receiver := by simp only [tripEvaluation]; (repeat' split) <;> simp
@[simp] theorem tripEvaluation_request : (tripEvaluation c k s).mp.request = s.mp.request := by simp only [tripEvaluation]; (repeat' split) <;> simp
@[simp] theorem tripEvaluation_response : (tripEvaluation c k s).mp.response = s.mp.response := by simp only [tripEvaluation]; (repeat' split) <;> simp
@[simp] theorem tripEvaluation_selection : (tripEvaluation c k s).mp.selection = s.mp.selection := by simp only [tripEvaluation]; (repeat' split) <;> simp
@[simp] theorem tripEvaluation_portErrors : (tripEvaluation c k s).mp.portErrors = s.mp.portErrors := by simp only [tripEvaluation]; (repeat' split) <;> simp
end

section
variable (c : Settings) (n : Nat) (r : RunState) (x : SectSet) (s : State)
@[simp] theorem backtripRequest_su : (backtripRequest c n r x s).su = s.su := by simp only [backtripRequest]; (repeat' split) <;> simp
@[simp] theorem backtripRequest_ciu : (backtripRequest c n r x s).ciu = s.ciu := by simp only [backtripRequest]; (repeat' split) <;> simp
@[simp] theorem backtripRequest_ri : (backtripRequest c n r x s).ri = s.ri := by simp only [backtripRequest]; (repeat' split) <;> simp
@[simp] theorem backtripRequest_pt : (backtripRequest c n r x s).pt = s.pt := by simp only [backtripRequest]; (repeat' split) <;> simp
@[simp] theorem backtripRequest_au : (backtripRequest c n r x s).au = s.au := by simp only [backtripRequest]; (repeat' split) <;> simp
@[simp] theorem backtripRequest_ze : (backtripRequest c n r x s).ze = s.ze := by simp only [backtripRequest]; (repeat' split) <;> simp
@[simp] theorem backtripRequest_sc : (backtripRequest c n r x s).sc = s.sc := by simp only [backtripRequest]; (repeat' split) <;> simp
@[simp] theorem backtripRequest_cs : (backtripRequest c n r x s).cs = s.cs := by simp only [backtripRequest]; (repeat' split) <;> simp
@[simp] theorem backtripRequest_pins : (backtripRequest c n r x s).pins = s.pins := by simp only [backtripRequest]; (repeat' split) <;> simp
@[simp] theorem backtripRequest_free : (backtripRequest c n r x s).free = s.free := by simp only [backtripRequest]; (repeat' split) <;> simp
@[simp] theorem backtripRequest_pending : (backtripRequest c n r x s).pending = s.pending := by simp only [backtripRequest]; (repeat' split) <;> simp
@[simp] theorem backtripRequest_receiver : (backtripRequest c n r x s).mp.receiver = s.mp.receiver := by simp only [backtripRequest]; (repeat' split) <;> simp
@[simp] theorem backtripRequest_request : (backtripRequest c n r x s).mp.request = s.mp.request := by simp only [backtripRequest]; (repeat' split) <;> simp
@[simp] theorem backtripRequest_response : (backtripRequest c n r x s).mp.response = s.mp.response := by simp only [backtripRequest]; (repeat' split) <;> simp
@[simp] theorem backtripRequest_selection : (backtripRequest c n r x s).mp.selection = s.mp.selection := by simp only [backtripRequest]; (repeat' split) <;> simp
@[simp] theorem backtripRequest_portErrors : (backtripRequest c n r x s).mp.portErrors = s.mp.portErrors := by simp only [backtripRequest]; (repeat' split) <;> simp
end

section
variable (s : State)
@[simp] theorem tripStop_su : (tripStop s).su = s.su := by simp only [tripStop]; (repeat' split) <;> simp
@[simp] theorem tripStop_ciu : (tripStop s).ciu = s.ciu := by simp only [tripStop]; (repeat' split) <;> simp
@[simp] theorem tripStop_ri : (tripStop s).ri = s.ri := by simp only [tripStop]; (repeat' split) <;> simp
@[simp] theorem tripStop_pt : (tripStop s).pt = s.pt := by simp only [tripStop]; (repeat' split) <;> simp
@[simp] theorem tripStop_au : (tripStop s).au = s.au := by simp only [tripStop]; (repeat' split) <;> simp
@[simp] theorem tripStop_ze : (tripStop s).ze = s.ze := by simp only [tripStop]; (repeat' split) <;> simp
@[simp] theorem tripStop_sc : (tripStop s).sc = s.sc := by simp only [tripStop]; (repeat' split) <;> simp
@[simp] theorem tripStop_cs : (tripStop s).cs = s.cs := by simp only [tripStop]; (repeat' split) <;> simp
@[simp] theorem tripStop_pins : (tripStop s).pins = s.pins := by simp only [tripStop]; (repeat' split) <;> simp
@[simp] theorem tripStop_free : (tripStop s).free = s.free := by simp only [tripStop]; (repeat' split) <;> simp
@[simp] theorem tripStop_pending : (tripStop s).pending = s.pending := by simp only [tripStop]; (repeat' split) <;> simp
@[simp] theorem tripStop_mp : (tripStop s).mp = s.mp := by simp only [tripStop]; (repeat' split) <;> simp
end

section
variable (c : Settings) (b : Bay) (f : BayFrame) (t : Ticks) (p : Port) (s : State)
@[simp] theorem takeFrame_su : (takeFrame c b f t p s).su = s.su := by simp only [takeFrame]; (repeat' split) <;> simp
@[simp] theorem takeFrame_ciu : (takeFrame c b f t p s).ciu = s.ciu := by simp only [takeFrame]; (repeat' split) <;> simp
@[simp] theorem takeFrame_ri : (takeFrame c b f t p s).ri = s.ri := by simp only [takeFrame]; (repeat' split) <;> simp
@[simp] theorem takeFrame_au : (takeFrame c b f t p s).au = s.au := by simp only [takeFrame]; (repeat' split) <;> simp
@[simp] theorem takeFrame_ze : (takeFrame c b f t p s).ze = s.ze := by simp only [takeFrame]; (repeat' split) <;> simp
@[simp] theorem takeFrame_sc : (takeFrame c b f t p s).sc = s.sc := by simp only [takeFrame]; (repeat' split) <;> simp
@[simp] theorem takeFrame_cs : (takeFrame c b f t p s).cs = s.cs := by simp only [takeFrame]; (repeat' split) <;> simp
@[simp] theorem takeFrame_pins : (takeFrame c b f t p s).pins = s.pins := by simp only [takeFrame]; (repeat' split) <;> simp
@[simp] theorem takeFrame_free : (takeFrame c b f t p s).free = s.free := by simp only [takeFrame]; (repeat' split) <;> simp
@[simp] theorem takeFrame_pending : (takeFrame c b f t p s).pending = s.pending := by simp only [takeFrame]; (repeat' split) <;> simp
@[simp] theorem takeFrame_receiver : (takeFrame c b f t p s).mp.receiver = s.mp.receiver := by simp only [takeFrame]; (repeat' split) <;> simp
@[simp] theorem takeFrame_request : (takeFrame c b f t p s).mp.request = s.mp.request := by simp only [takeFrame]; (repeat' split) <;> simp
@[simp] theorem takeFrame_response : (takeFrame c b f t p s).mp.response = s.mp.response := by simp only [takeFrame]; (repeat' split) <;> simp
@[simp] theorem takeFrame_selection : (takeFrame c b f t p s).mp.selection = s.mp.selection := by simp only [takeFrame]; (repeat' split) <;> simp
@[simp] theorem takeFrame_portErrors : (takeFrame c b f t p s).mp.portErrors = s.mp.portErrors := by simp only [takeFrame]; (repeat' split) <;> simp
end

section
variable (c : Settings) (b : Bay) (s : State)
@[simp] theorem peerStaleOp_su : (peerStaleOp c b s).su = s.su := by simp only [peerStaleOp]; (repeat' split) <;> simp
@[simp] theorem peerStaleOp_ciu : (peerStaleOp c b s).ciu = s.ciu := by simp only [peerStaleOp]; (repeat' split) <;> simp
@[simp] theorem peerStaleOp_ri : (peerStaleOp c b s).ri = s.ri := by simp only [peerStaleOp]; (repeat' split) <;> simp
@[simp] theorem peerStaleOp_au : (peerStaleOp c b s).au = s.au := by simp only [peerStaleOp]; (repeat' split) <;> simp
@[simp] theorem peerStaleOp_ze : (peerStaleOp c b s).ze = s.ze := by simp only [peerStaleOp]; (repeat' split) <;> simp
@[simp] theorem peerStaleOp_tu : (peerStaleOp c b s).tu = s.tu := by simp only [peerStaleOp]; (repeat' split) <;> simp
@[simp] theorem peerStaleOp_sc : (peerStaleOp c b s).sc = s.sc := by simp only [peerStaleOp]; (repeat' split) <;> simp
@[simp] theorem peerStaleOp_cs : (peerStaleOp c b s).cs = s.cs := by simp only [peerStaleOp]; (repeat' split) <;> simp
@[simp] theorem peerStaleOp_pins : (peerStaleOp c b s).pins = s.pins := by simp only [peerStaleOp]; (repeat' split) <;> simp
@[simp] theorem peerStaleOp_free : (peerStaleOp c b s).free = s.free := by simp only [peerStaleOp]; (repeat' split) <;> simp
@[simp] theorem peerStaleOp_pending : (peerStaleOp c b s).pending = s.pending := by simp only [peerStaleOp]; (repeat' split) <;> simp
@[simp] theorem peerStaleOp_receiver : (peerStaleOp c b s).mp.receiver = s.mp.receiver := by simp only [peerStaleOp]; (repeat' split) <;> simp
@[simp] theorem peerStaleOp_request : (peerStaleOp c b s).mp.request = s.mp.request := by simp only [peerStaleOp]; (repeat' split) <;> simp
@[simp] theorem peerStaleOp_response : (peerStaleOp c b s).mp.response = s.mp.response := by simp only [peerStaleOp]; (repeat' split) <;> simp
@[simp] theorem peerStaleOp_selection : (peerStaleOp c b s).mp.selection = s.mp.selection := by simp only [peerStaleOp]; (repeat' split) <;> simp
@[simp] theorem peerStaleOp_portErrors : (peerStaleOp c b s).mp.portErrors = s.mp.portErrors := by simp only [peerStaleOp]; (repeat' split) <;> simp
end

section
variable (c : Settings) (b : Bay) (s : State)
@[simp] theorem peerAbsentOp_su : (peerAbsentOp c b s).su = s.su := by simp only [peerAbsentOp]; (repeat' split) <;> simp
@[simp] theorem peerAbsentOp_ciu : (peerAbsentOp c b s).ciu = s.ciu := by simp only [peerAbsentOp]; (repeat' split) <;> simp
@[simp] theorem peerAbsentOp_ri : (peerAbsentOp c b s).ri = s.ri := by simp only [peerAbsentOp]; (repeat' split) <;> simp
@[simp] theorem peerAbsentOp_au : (peerAbsentOp c b s).au = s.au := by simp only [peerAbsentOp]; (repeat' split) <;> simp
@[simp] theorem peerAbsentOp_ze : (peerAbsentOp c b s).ze = s.ze := by simp only [peerAbsentOp]; (repeat' split) <;> simp
@[simp] theorem peerAbsentOp_tu : (peerAbsentOp c b s).tu = s.tu := by simp only [peerAbsentOp]; (repeat' split) <;> simp
@[simp] theorem peerAbsentOp_sc : (peerAbsentOp c b s).sc = s.sc := by simp only [peerAbsentOp]; (repeat' split) <;> simp
@[simp] theorem peerAbsentOp_cs : (peerAbsentOp c b s).cs = s.cs := by simp only [peerAbsentOp]; (repeat' split) <;> simp
@[simp] theorem peerAbsentOp_pins : (peerAbsentOp c b s).pins = s.pins := by simp only [peerAbsentOp]; (repeat' split) <;> simp
@[simp] theorem peerAbsentOp_free : (peerAbsentOp c b s).free = s.free := by simp only [peerAbsentOp]; (repeat' split) <;> simp
@[simp] theorem peerAbsentOp_pending : (peerAbsentOp c b s).pending = s.pending := by simp only [peerAbsentOp]; (repeat' split) <;> simp
@[simp] theorem peerAbsentOp_mp : (peerAbsentOp c b s).mp = s.mp := by simp only [peerAbsentOp]; (repeat' split) <;> simp
end

section
variable (c : Settings) (b : Bay) (s : State)
@[simp] theorem joiningResetOp_su : (joiningResetOp c b s).su = s.su := by simp only [joiningResetOp]; (repeat' split) <;> simp
@[simp] theorem joiningResetOp_ciu : (joiningResetOp c b s).ciu = s.ciu := by simp only [joiningResetOp]; (repeat' split) <;> simp
@[simp] theorem joiningResetOp_ri : (joiningResetOp c b s).ri = s.ri := by simp only [joiningResetOp]; (repeat' split) <;> simp
@[simp] theorem joiningResetOp_au : (joiningResetOp c b s).au = s.au := by simp only [joiningResetOp]; (repeat' split) <;> simp
@[simp] theorem joiningResetOp_ze : (joiningResetOp c b s).ze = s.ze := by simp only [joiningResetOp]; (repeat' split) <;> simp
@[simp] theorem joiningResetOp_tu : (joiningResetOp c b s).tu = s.tu := by simp only [joiningResetOp]; (repeat' split) <;> simp
@[simp] theorem joiningResetOp_sc : (joiningResetOp c b s).sc = s.sc := by simp only [joiningResetOp]; (repeat' split) <;> simp
@[simp] theorem joiningResetOp_cs : (joiningResetOp c b s).cs = s.cs := by simp only [joiningResetOp]; (repeat' split) <;> simp
@[simp] theorem joiningResetOp_pins : (joiningResetOp c b s).pins = s.pins := by simp only [joiningResetOp]; (repeat' split) <;> simp
@[simp] theorem joiningResetOp_free : (joiningResetOp c b s).free = s.free := by simp only [joiningResetOp]; (repeat' split) <;> simp
@[simp] theorem joiningResetOp_pending : (joiningResetOp c b s).pending = s.pending := by simp only [joiningResetOp]; (repeat' split) <;> simp
@[simp] theorem joiningResetOp_mp : (joiningResetOp c b s).mp = s.mp := by simp only [joiningResetOp]; (repeat' split) <;> simp
end

section
variable (c : Settings) (b : Bay) (s : State)
@[simp] theorem ageEntry_su : (ageEntry c b s).su = s.su := by simp [ageEntry]
@[simp] theorem ageEntry_ciu : (ageEntry c b s).ciu = s.ciu := by simp [ageEntry]
@[simp] theorem ageEntry_ri : (ageEntry c b s).ri = s.ri := by simp [ageEntry]
@[simp] theorem ageEntry_au : (ageEntry c b s).au = s.au := by simp [ageEntry]
@[simp] theorem ageEntry_ze : (ageEntry c b s).ze = s.ze := by simp [ageEntry]
@[simp] theorem ageEntry_tu : (ageEntry c b s).tu = s.tu := by simp [ageEntry]
@[simp] theorem ageEntry_sc : (ageEntry c b s).sc = s.sc := by simp [ageEntry]
@[simp] theorem ageEntry_cs : (ageEntry c b s).cs = s.cs := by simp [ageEntry]
@[simp] theorem ageEntry_pins : (ageEntry c b s).pins = s.pins := by simp [ageEntry]
@[simp] theorem ageEntry_free : (ageEntry c b s).free = s.free := by simp [ageEntry]
@[simp] theorem ageEntry_pending : (ageEntry c b s).pending = s.pending := by simp [ageEntry]
@[simp] theorem ageEntry_receiver : (ageEntry c b s).mp.receiver = s.mp.receiver := by simp [ageEntry]
@[simp] theorem ageEntry_request : (ageEntry c b s).mp.request = s.mp.request := by simp [ageEntry]
@[simp] theorem ageEntry_response : (ageEntry c b s).mp.response = s.mp.response := by simp [ageEntry]
@[simp] theorem ageEntry_selection : (ageEntry c b s).mp.selection = s.mp.selection := by simp [ageEntry]
@[simp] theorem ageEntry_portErrors : (ageEntry c b s).mp.portErrors = s.mp.portErrors := by simp [ageEntry]
end

section
variable (c : Settings) (s : State)
@[simp] theorem peerEpoch_su : (peerEpoch c s).su = s.su := foldl_keeps (fun s => s.su) _ (fun s b => ageEntry_su c b s) allBays s
@[simp] theorem peerEpoch_ciu : (peerEpoch c s).ciu = s.ciu := foldl_keeps (fun s => s.ciu) _ (fun s b => ageEntry_ciu c b s) allBays s
@[simp] theorem peerEpoch_ri : (peerEpoch c s).ri = s.ri := foldl_keeps (fun s => s.ri) _ (fun s b => ageEntry_ri c b s) allBays s
@[simp] theorem peerEpoch_au : (peerEpoch c s).au = s.au := foldl_keeps (fun s => s.au) _ (fun s b => ageEntry_au c b s) allBays s
@[simp] theorem peerEpoch_ze : (peerEpoch c s).ze = s.ze := foldl_keeps (fun s => s.ze) _ (fun s b => ageEntry_ze c b s) allBays s
@[simp] theorem peerEpoch_tu : (peerEpoch c s).tu = s.tu := foldl_keeps (fun s => s.tu) _ (fun s b => ageEntry_tu c b s) allBays s
@[simp] theorem peerEpoch_sc : (peerEpoch c s).sc = s.sc := foldl_keeps (fun s => s.sc) _ (fun s b => ageEntry_sc c b s) allBays s
@[simp] theorem peerEpoch_cs : (peerEpoch c s).cs = s.cs := foldl_keeps (fun s => s.cs) _ (fun s b => ageEntry_cs c b s) allBays s
@[simp] theorem peerEpoch_pins : (peerEpoch c s).pins = s.pins := foldl_keeps (fun s => s.pins) _ (fun s b => ageEntry_pins c b s) allBays s
@[simp] theorem peerEpoch_free : (peerEpoch c s).free = s.free := foldl_keeps (fun s => s.free) _ (fun s b => ageEntry_free c b s) allBays s
@[simp] theorem peerEpoch_pending : (peerEpoch c s).pending = s.pending := foldl_keeps (fun s => s.pending) _ (fun s b => ageEntry_pending c b s) allBays s
@[simp] theorem peerEpoch_receiver : (peerEpoch c s).mp.receiver = s.mp.receiver := foldl_keeps (fun s => s.mp.receiver) _ (fun s b => ageEntry_receiver c b s) allBays s
@[simp] theorem peerEpoch_request : (peerEpoch c s).mp.request = s.mp.request := foldl_keeps (fun s => s.mp.request) _ (fun s b => ageEntry_request c b s) allBays s
@[simp] theorem peerEpoch_response : (peerEpoch c s).mp.response = s.mp.response := foldl_keeps (fun s => s.mp.response) _ (fun s b => ageEntry_response c b s) allBays s
@[simp] theorem peerEpoch_selection : (peerEpoch c s).mp.selection = s.mp.selection := foldl_keeps (fun s => s.mp.selection) _ (fun s b => ageEntry_selection c b s) allBays s
@[simp] theorem peerEpoch_portErrors : (peerEpoch c s).mp.portErrors = s.mp.portErrors := foldl_keeps (fun s => s.mp.portErrors) _ (fun s b => ageEntry_portErrors c b s) allBays s
end

section
variable (c : Settings) (x : Record) (r : RunState) (s : State)
@[simp] theorem feedOwn_su : (feedOwn c x r s).su = s.su := by simp [feedOwn]
@[simp] theorem feedOwn_ciu : (feedOwn c x r s).ciu = s.ciu := by simp [feedOwn]
@[simp] theorem feedOwn_ri : (feedOwn c x r s).ri = s.ri := by simp [feedOwn]
@[simp] theorem feedOwn_au : (feedOwn c x r s).au = s.au := by simp [feedOwn]
@[simp] theorem feedOwn_ze : (feedOwn c x r s).ze = s.ze := by simp [feedOwn]
@[simp] theorem feedOwn_tu : (feedOwn c x r s).tu = s.tu := by simp [feedOwn]
@[simp] theorem feedOwn_sc : (feedOwn c x r s).sc = s.sc := by simp [feedOwn]
@[simp] theorem feedOwn_cs : (feedOwn c x r s).cs = s.cs := by simp [feedOwn]
@[simp] theorem feedOwn_pins : (feedOwn c x r s).pins = s.pins := by simp [feedOwn]
@[simp] theorem feedOwn_free : (feedOwn c x r s).free = s.free := by simp [feedOwn]
@[simp] theorem feedOwn_pending : (feedOwn c x r s).pending = s.pending := by simp [feedOwn]
@[simp] theorem feedOwn_mp : (feedOwn c x r s).mp = s.mp := by simp [feedOwn]
end

section
variable (c : Settings) (s : State)
@[simp] theorem peerRestart_su : (peerRestart c s).su = s.su := by simp [peerRestart]
@[simp] theorem peerRestart_ciu : (peerRestart c s).ciu = s.ciu := by simp [peerRestart]
@[simp] theorem peerRestart_ri : (peerRestart c s).ri = s.ri := by simp [peerRestart]
@[simp] theorem peerRestart_au : (peerRestart c s).au = s.au := by simp [peerRestart]
@[simp] theorem peerRestart_ze : (peerRestart c s).ze = s.ze := by simp [peerRestart]
@[simp] theorem peerRestart_tu : (peerRestart c s).tu = s.tu := by simp [peerRestart]
@[simp] theorem peerRestart_sc : (peerRestart c s).sc = s.sc := by simp [peerRestart]
@[simp] theorem peerRestart_cs : (peerRestart c s).cs = s.cs := by simp [peerRestart]
@[simp] theorem peerRestart_pins : (peerRestart c s).pins = s.pins := by simp [peerRestart]
@[simp] theorem peerRestart_free : (peerRestart c s).free = s.free := by simp [peerRestart]
@[simp] theorem peerRestart_pending : (peerRestart c s).pending = s.pending := by simp [peerRestart]
@[simp] theorem peerRestart_mp : (peerRestart c s).mp = s.mp := by simp [peerRestart]
end

section
variable (c : Settings) (p : Port) (s : State)
@[simp] theorem arbitrate_su : (arbitrate c p s).su = s.su := by simp [arbitrate]
@[simp] theorem arbitrate_ciu : (arbitrate c p s).ciu = s.ciu := by simp [arbitrate]
@[simp] theorem arbitrate_pt : (arbitrate c p s).pt = s.pt := by simp [arbitrate]
@[simp] theorem arbitrate_au : (arbitrate c p s).au = s.au := by simp [arbitrate]
@[simp] theorem arbitrate_ze : (arbitrate c p s).ze = s.ze := by simp [arbitrate]
@[simp] theorem arbitrate_tu : (arbitrate c p s).tu = s.tu := by simp [arbitrate]
@[simp] theorem arbitrate_sc : (arbitrate c p s).sc = s.sc := by simp [arbitrate]
@[simp] theorem arbitrate_cs : (arbitrate c p s).cs = s.cs := by simp [arbitrate]
@[simp] theorem arbitrate_pins : (arbitrate c p s).pins = s.pins := by simp [arbitrate]
@[simp] theorem arbitrate_free : (arbitrate c p s).free = s.free := by simp [arbitrate]
@[simp] theorem arbitrate_pending : (arbitrate c p s).pending = s.pending := by simp [arbitrate]
@[simp] theorem arbitrate_receiver : (arbitrate c p s).mp.receiver = s.mp.receiver := by simp [arbitrate]
@[simp] theorem arbitrate_request : (arbitrate c p s).mp.request = s.mp.request := by simp [arbitrate]
@[simp] theorem arbitrate_response : (arbitrate c p s).mp.response = s.mp.response := by simp [arbitrate]
@[simp] theorem arbitrate_selection : (arbitrate c p s).mp.selection = s.mp.selection := by simp [arbitrate]
@[simp] theorem arbitrate_portErrors : (arbitrate c p s).mp.portErrors = s.mp.portErrors := by simp [arbitrate]
end

section
variable (c : Settings) (s : State)
@[simp] theorem arbitrateBoth_su : (arbitrateBoth c s).su = s.su := by simp [arbitrateBoth]
@[simp] theorem arbitrateBoth_ciu : (arbitrateBoth c s).ciu = s.ciu := by simp [arbitrateBoth]
@[simp] theorem arbitrateBoth_pt : (arbitrateBoth c s).pt = s.pt := by simp [arbitrateBoth]
@[simp] theorem arbitrateBoth_au : (arbitrateBoth c s).au = s.au := by simp [arbitrateBoth]
@[simp] theorem arbitrateBoth_ze : (arbitrateBoth c s).ze = s.ze := by simp [arbitrateBoth]
@[simp] theorem arbitrateBoth_tu : (arbitrateBoth c s).tu = s.tu := by simp [arbitrateBoth]
@[simp] theorem arbitrateBoth_sc : (arbitrateBoth c s).sc = s.sc := by simp [arbitrateBoth]
@[simp] theorem arbitrateBoth_cs : (arbitrateBoth c s).cs = s.cs := by simp [arbitrateBoth]
@[simp] theorem arbitrateBoth_pins : (arbitrateBoth c s).pins = s.pins := by simp [arbitrateBoth]
@[simp] theorem arbitrateBoth_free : (arbitrateBoth c s).free = s.free := by simp [arbitrateBoth]
@[simp] theorem arbitrateBoth_pending : (arbitrateBoth c s).pending = s.pending := by simp [arbitrateBoth]
@[simp] theorem arbitrateBoth_receiver : (arbitrateBoth c s).mp.receiver = s.mp.receiver := by simp [arbitrateBoth]
@[simp] theorem arbitrateBoth_request : (arbitrateBoth c s).mp.request = s.mp.request := by simp [arbitrateBoth]
@[simp] theorem arbitrateBoth_response : (arbitrateBoth c s).mp.response = s.mp.response := by simp [arbitrateBoth]
@[simp] theorem arbitrateBoth_selection : (arbitrateBoth c s).mp.selection = s.mp.selection := by simp [arbitrateBoth]
@[simp] theorem arbitrateBoth_portErrors : (arbitrateBoth c s).mp.portErrors = s.mp.portErrors := by simp [arbitrateBoth]
end

section
variable (s : State)
@[simp] theorem settle_su : (settle s).su = s.su := by simp only [settle]; split <;> simp
@[simp] theorem settle_ciu : (settle s).ciu = s.ciu := by simp only [settle]; split <;> simp
@[simp] theorem settle_pt : (settle s).pt = s.pt := by simp only [settle]; split <;> simp
@[simp] theorem settle_au : (settle s).au = s.au := by simp only [settle]; split <;> simp
@[simp] theorem settle_ze : (settle s).ze = s.ze := by simp only [settle]; split <;> simp
@[simp] theorem settle_tu : (settle s).tu = s.tu := by simp only [settle]; split <;> simp
@[simp] theorem settle_sc : (settle s).sc = s.sc := by simp only [settle]; split <;> simp
@[simp] theorem settle_cs : (settle s).cs = s.cs := by simp only [settle]; split <;> simp
@[simp] theorem settle_pins : (settle s).pins = s.pins := by simp only [settle]; split <;> simp
@[simp] theorem settle_free : (settle s).free = s.free := by simp only [settle]; split <;> simp
@[simp] theorem settle_pending : (settle s).pending = s.pending := by simp only [settle]; split <;> simp
@[simp] theorem settle_receiver : (settle s).mp.receiver = s.mp.receiver := by simp only [settle]; split <;> simp
@[simp] theorem settle_request : (settle s).mp.request = s.mp.request := by simp only [settle]; split <;> simp
@[simp] theorem settle_response : (settle s).mp.response = s.mp.response := by simp only [settle]; split <;> simp
@[simp] theorem settle_selection : (settle s).mp.selection = s.mp.selection := by simp only [settle]; split <;> simp
@[simp] theorem settle_portErrors : (settle s).mp.portErrors = s.mp.portErrors := by simp only [settle]; split <;> simp
end

section
variable (n : Nat) (s : State)
@[simp] theorem advanceTo_ciu : (advanceTo n s).ciu = s.ciu := by simp only [advanceTo]; (repeat' split) <;> simp
@[simp] theorem advanceBy_ciu : (advanceBy n s).ciu = s.ciu := advanceTo_ciu _ s
@[simp] theorem advanceTo_pt : (advanceTo n s).pt = s.pt := by simp only [advanceTo]; (repeat' split) <;> simp
@[simp] theorem advanceBy_pt : (advanceBy n s).pt = s.pt := advanceTo_pt _ s
@[simp] theorem advanceTo_au : (advanceTo n s).au = s.au := by simp only [advanceTo]; (repeat' split) <;> simp
@[simp] theorem advanceBy_au : (advanceBy n s).au = s.au := advanceTo_au _ s
@[simp] theorem advanceTo_ze : (advanceTo n s).ze = s.ze := by simp only [advanceTo]; (repeat' split) <;> simp
@[simp] theorem advanceBy_ze : (advanceBy n s).ze = s.ze := advanceTo_ze _ s
@[simp] theorem advanceTo_tu : (advanceTo n s).tu = s.tu := by simp only [advanceTo]; (repeat' split) <;> simp
@[simp] theorem advanceBy_tu : (advanceBy n s).tu = s.tu := advanceTo_tu _ s
@[simp] theorem advanceTo_sc : (advanceTo n s).sc = s.sc := by simp only [advanceTo]; (repeat' split) <;> simp
@[simp] theorem advanceBy_sc : (advanceBy n s).sc = s.sc := advanceTo_sc _ s
@[simp] theorem advanceTo_cs : (advanceTo n s).cs = s.cs := by simp only [advanceTo]; (repeat' split) <;> simp
@[simp] theorem advanceBy_cs : (advanceBy n s).cs = s.cs := advanceTo_cs _ s
@[simp] theorem advanceTo_pins : (advanceTo n s).pins = s.pins := by simp only [advanceTo]; (repeat' split) <;> simp
@[simp] theorem advanceBy_pins : (advanceBy n s).pins = s.pins := advanceTo_pins _ s
@[simp] theorem advanceTo_free : (advanceTo n s).free = s.free := by simp only [advanceTo]; (repeat' split) <;> simp
@[simp] theorem advanceBy_free : (advanceBy n s).free = s.free := advanceTo_free _ s
@[simp] theorem advanceTo_pending : (advanceTo n s).pending = s.pending := by simp only [advanceTo]; (repeat' split) <;> simp
@[simp] theorem advanceBy_pending : (advanceBy n s).pending = s.pending := advanceTo_pending _ s
@[simp] theorem advanceTo_receiver : (advanceTo n s).mp.receiver = s.mp.receiver := by simp only [advanceTo]; (repeat' split) <;> simp
@[simp] theorem advanceBy_receiver : (advanceBy n s).mp.receiver = s.mp.receiver := advanceTo_receiver _ s
@[simp] theorem advanceTo_request : (advanceTo n s).mp.request = s.mp.request := by simp only [advanceTo]; (repeat' split) <;> simp
@[simp] theorem advanceBy_request : (advanceBy n s).mp.request = s.mp.request := advanceTo_request _ s
@[simp] theorem advanceTo_response : (advanceTo n s).mp.response = s.mp.response := by simp only [advanceTo]; (repeat' split) <;> simp
@[simp] theorem advanceBy_response : (advanceBy n s).mp.response = s.mp.response := advanceTo_response _ s
@[simp] theorem advanceTo_selection : (advanceTo n s).mp.selection = s.mp.selection := by simp only [advanceTo]; (repeat' split) <;> simp
@[simp] theorem advanceBy_selection : (advanceBy n s).mp.selection = s.mp.selection := advanceTo_selection _ s
@[simp] theorem advanceTo_portErrors : (advanceTo n s).mp.portErrors = s.mp.portErrors := by simp only [advanceTo]; (repeat' split) <;> simp
@[simp] theorem advanceBy_portErrors : (advanceBy n s).mp.portErrors = s.mp.portErrors := advanceTo_portErrors _ s
end

section
variable (p : Port) (n : Nat) (s : State)
@[simp] theorem enterDown_su : (enterDown p n s).su = s.su := by simp [enterDown]
@[simp] theorem enterDown_ciu : (enterDown p n s).ciu = s.ciu := by simp [enterDown]
@[simp] theorem enterDown_pt : (enterDown p n s).pt = s.pt := by simp [enterDown]
@[simp] theorem enterDown_au : (enterDown p n s).au = s.au := by simp [enterDown]
@[simp] theorem enterDown_ze : (enterDown p n s).ze = s.ze := by simp [enterDown]
@[simp] theorem enterDown_tu : (enterDown p n s).tu = s.tu := by simp [enterDown]
@[simp] theorem enterDown_sc : (enterDown p n s).sc = s.sc := by simp [enterDown]
@[simp] theorem enterDown_cs : (enterDown p n s).cs = s.cs := by simp [enterDown]
@[simp] theorem enterDown_pins : (enterDown p n s).pins = s.pins := by simp [enterDown]
@[simp] theorem enterDown_free : (enterDown p n s).free = s.free := by simp [enterDown]
@[simp] theorem enterDown_pending : (enterDown p n s).pending = s.pending := by simp [enterDown]
@[simp] theorem enterDown_receiver : (enterDown p n s).mp.receiver = s.mp.receiver := by simp [enterDown]
@[simp] theorem enterDown_request : (enterDown p n s).mp.request = s.mp.request := by simp [enterDown]
@[simp] theorem enterDown_response : (enterDown p n s).mp.response = s.mp.response := by simp [enterDown]
@[simp] theorem enterDown_selection : (enterDown p n s).mp.selection = s.mp.selection := by simp [enterDown]
@[simp] theorem enterDown_portErrors : (enterDown p n s).mp.portErrors = s.mp.portErrors := by simp [enterDown]
end

section
variable (p : Port) (s : State)
@[simp] theorem enterProbing_su : (enterProbing p s).su = s.su := by simp [enterProbing]
@[simp] theorem enterProbing_ciu : (enterProbing p s).ciu = s.ciu := by simp [enterProbing]
@[simp] theorem enterProbing_pt : (enterProbing p s).pt = s.pt := by simp [enterProbing]
@[simp] theorem enterProbing_au : (enterProbing p s).au = s.au := by simp [enterProbing]
@[simp] theorem enterProbing_ze : (enterProbing p s).ze = s.ze := by simp [enterProbing]
@[simp] theorem enterProbing_tu : (enterProbing p s).tu = s.tu := by simp [enterProbing]
@[simp] theorem enterProbing_sc : (enterProbing p s).sc = s.sc := by simp [enterProbing]
@[simp] theorem enterProbing_cs : (enterProbing p s).cs = s.cs := by simp [enterProbing]
@[simp] theorem enterProbing_pins : (enterProbing p s).pins = s.pins := by simp [enterProbing]
@[simp] theorem enterProbing_free : (enterProbing p s).free = s.free := by simp [enterProbing]
@[simp] theorem enterProbing_pending : (enterProbing p s).pending = s.pending := by simp [enterProbing]
@[simp] theorem enterProbing_mp : (enterProbing p s).mp = s.mp := by simp [enterProbing]
end

section
variable (p : Port) (s : State)
@[simp] theorem probeOp_su : (probeOp p s).su = s.su := by simp only [probeOp]; (repeat' split) <;> simp
@[simp] theorem probeOp_ciu : (probeOp p s).ciu = s.ciu := by simp only [probeOp]; (repeat' split) <;> simp
@[simp] theorem probeOp_pt : (probeOp p s).pt = s.pt := by simp only [probeOp]; (repeat' split) <;> simp
@[simp] theorem probeOp_au : (probeOp p s).au = s.au := by simp only [probeOp]; (repeat' split) <;> simp
@[simp] theorem probeOp_ze : (probeOp p s).ze = s.ze := by simp only [probeOp]; (repeat' split) <;> simp
@[simp] theorem probeOp_tu : (probeOp p s).tu = s.tu := by simp only [probeOp]; (repeat' split) <;> simp
@[simp] theorem probeOp_sc : (probeOp p s).sc = s.sc := by simp only [probeOp]; (repeat' split) <;> simp
@[simp] theorem probeOp_cs : (probeOp p s).cs = s.cs := by simp only [probeOp]; (repeat' split) <;> simp
@[simp] theorem probeOp_pins : (probeOp p s).pins = s.pins := by simp only [probeOp]; (repeat' split) <;> simp
@[simp] theorem probeOp_free : (probeOp p s).free = s.free := by simp only [probeOp]; (repeat' split) <;> simp
@[simp] theorem probeOp_pending : (probeOp p s).pending = s.pending := by simp only [probeOp]; (repeat' split) <;> simp
@[simp] theorem probeOp_mp : (probeOp p s).mp = s.mp := by simp only [probeOp]; (repeat' split) <;> simp
end

section
variable (l : Link) (p : Port) (s : State)
@[simp] theorem echoDueOp_su : (echoDueOp l p s).su = s.su := by simp only [echoDueOp]; (repeat' split) <;> simp
@[simp] theorem echoDueOp_ciu : (echoDueOp l p s).ciu = s.ciu := by simp only [echoDueOp]; (repeat' split) <;> simp
@[simp] theorem echoDueOp_pt : (echoDueOp l p s).pt = s.pt := by simp only [echoDueOp]; (repeat' split) <;> simp
@[simp] theorem echoDueOp_au : (echoDueOp l p s).au = s.au := by simp only [echoDueOp]; (repeat' split) <;> simp
@[simp] theorem echoDueOp_ze : (echoDueOp l p s).ze = s.ze := by simp only [echoDueOp]; (repeat' split) <;> simp
@[simp] theorem echoDueOp_tu : (echoDueOp l p s).tu = s.tu := by simp only [echoDueOp]; (repeat' split) <;> simp
@[simp] theorem echoDueOp_sc : (echoDueOp l p s).sc = s.sc := by simp only [echoDueOp]; (repeat' split) <;> simp
@[simp] theorem echoDueOp_cs : (echoDueOp l p s).cs = s.cs := by simp only [echoDueOp]; (repeat' split) <;> simp
@[simp] theorem echoDueOp_pins : (echoDueOp l p s).pins = s.pins := by simp only [echoDueOp]; (repeat' split) <;> simp
@[simp] theorem echoDueOp_free : (echoDueOp l p s).free = s.free := by simp only [echoDueOp]; (repeat' split) <;> simp
@[simp] theorem echoDueOp_pending : (echoDueOp l p s).pending = s.pending := by simp only [echoDueOp]; (repeat' split) <;> simp
@[simp] theorem echoDueOp_mp : (echoDueOp l p s).mp = s.mp := by simp only [echoDueOp]; (repeat' split) <;> simp
end

section
variable (n : Nat) (p : Port) (s : State)
@[simp] theorem echoLoss_su : (echoLoss n p s).su = s.su := by simp only [echoLoss]; (repeat' split) <;> simp
@[simp] theorem echoLoss_ciu : (echoLoss n p s).ciu = s.ciu := by simp only [echoLoss]; (repeat' split) <;> simp
@[simp] theorem echoLoss_pt : (echoLoss n p s).pt = s.pt := by simp only [echoLoss]; (repeat' split) <;> simp
@[simp] theorem echoLoss_au : (echoLoss n p s).au = s.au := by simp only [echoLoss]; (repeat' split) <;> simp
@[simp] theorem echoLoss_ze : (echoLoss n p s).ze = s.ze := by simp only [echoLoss]; (repeat' split) <;> simp
@[simp] theorem echoLoss_tu : (echoLoss n p s).tu = s.tu := by simp only [echoLoss]; (repeat' split) <;> simp
@[simp] theorem echoLoss_sc : (echoLoss n p s).sc = s.sc := by simp only [echoLoss]; (repeat' split) <;> simp
@[simp] theorem echoLoss_cs : (echoLoss n p s).cs = s.cs := by simp only [echoLoss]; (repeat' split) <;> simp
@[simp] theorem echoLoss_pins : (echoLoss n p s).pins = s.pins := by simp only [echoLoss]; (repeat' split) <;> simp
@[simp] theorem echoLoss_free : (echoLoss n p s).free = s.free := by simp only [echoLoss]; (repeat' split) <;> simp
@[simp] theorem echoLoss_pending : (echoLoss n p s).pending = s.pending := by simp only [echoLoss]; (repeat' split) <;> simp
@[simp] theorem echoLoss_receiver : (echoLoss n p s).mp.receiver = s.mp.receiver := by simp only [echoLoss]; (repeat' split) <;> simp
@[simp] theorem echoLoss_request : (echoLoss n p s).mp.request = s.mp.request := by simp only [echoLoss]; (repeat' split) <;> simp
@[simp] theorem echoLoss_response : (echoLoss n p s).mp.response = s.mp.response := by simp only [echoLoss]; (repeat' split) <;> simp
@[simp] theorem echoLoss_selection : (echoLoss n p s).mp.selection = s.mp.selection := by simp only [echoLoss]; (repeat' split) <;> simp
@[simp] theorem echoLoss_portErrors : (echoLoss n p s).mp.portErrors = s.mp.portErrors := by simp only [echoLoss]; (repeat' split) <;> simp
end

section
variable (p : Port) (s : State)
@[simp] theorem echoTimeoutOp_su : (echoTimeoutOp p s).su = s.su := by simp only [echoTimeoutOp]; (repeat' split) <;> simp
@[simp] theorem echoTimeoutOp_ciu : (echoTimeoutOp p s).ciu = s.ciu := by simp only [echoTimeoutOp]; (repeat' split) <;> simp
@[simp] theorem echoTimeoutOp_pt : (echoTimeoutOp p s).pt = s.pt := by simp only [echoTimeoutOp]; (repeat' split) <;> simp
@[simp] theorem echoTimeoutOp_au : (echoTimeoutOp p s).au = s.au := by simp only [echoTimeoutOp]; (repeat' split) <;> simp
@[simp] theorem echoTimeoutOp_ze : (echoTimeoutOp p s).ze = s.ze := by simp only [echoTimeoutOp]; (repeat' split) <;> simp
@[simp] theorem echoTimeoutOp_tu : (echoTimeoutOp p s).tu = s.tu := by simp only [echoTimeoutOp]; (repeat' split) <;> simp
@[simp] theorem echoTimeoutOp_sc : (echoTimeoutOp p s).sc = s.sc := by simp only [echoTimeoutOp]; (repeat' split) <;> simp
@[simp] theorem echoTimeoutOp_cs : (echoTimeoutOp p s).cs = s.cs := by simp only [echoTimeoutOp]; (repeat' split) <;> simp
@[simp] theorem echoTimeoutOp_pins : (echoTimeoutOp p s).pins = s.pins := by simp only [echoTimeoutOp]; (repeat' split) <;> simp
@[simp] theorem echoTimeoutOp_free : (echoTimeoutOp p s).free = s.free := by simp only [echoTimeoutOp]; (repeat' split) <;> simp
@[simp] theorem echoTimeoutOp_pending : (echoTimeoutOp p s).pending = s.pending := by simp only [echoTimeoutOp]; (repeat' split) <;> simp
@[simp] theorem echoTimeoutOp_receiver : (echoTimeoutOp p s).mp.receiver = s.mp.receiver := by simp only [echoTimeoutOp]; (repeat' split) <;> simp
@[simp] theorem echoTimeoutOp_request : (echoTimeoutOp p s).mp.request = s.mp.request := by simp only [echoTimeoutOp]; (repeat' split) <;> simp
@[simp] theorem echoTimeoutOp_response : (echoTimeoutOp p s).mp.response = s.mp.response := by simp only [echoTimeoutOp]; (repeat' split) <;> simp
@[simp] theorem echoTimeoutOp_selection : (echoTimeoutOp p s).mp.selection = s.mp.selection := by simp only [echoTimeoutOp]; (repeat' split) <;> simp
@[simp] theorem echoTimeoutOp_portErrors : (echoTimeoutOp p s).mp.portErrors = s.mp.portErrors := by simp only [echoTimeoutOp]; (repeat' split) <;> simp
end

section
variable (p : Port) (s : State)
@[simp] theorem staleEcho_su : (staleEcho p s).su = s.su := by simp [staleEcho]
@[simp] theorem staleEcho_ciu : (staleEcho p s).ciu = s.ciu := by simp [staleEcho]
@[simp] theorem staleEcho_pt : (staleEcho p s).pt = s.pt := by simp [staleEcho]
@[simp] theorem staleEcho_au : (staleEcho p s).au = s.au := by simp [staleEcho]
@[simp] theorem staleEcho_ze : (staleEcho p s).ze = s.ze := by simp [staleEcho]
@[simp] theorem staleEcho_tu : (staleEcho p s).tu = s.tu := by simp [staleEcho]
@[simp] theorem staleEcho_sc : (staleEcho p s).sc = s.sc := by simp [staleEcho]
@[simp] theorem staleEcho_cs : (staleEcho p s).cs = s.cs := by simp [staleEcho]
@[simp] theorem staleEcho_pins : (staleEcho p s).pins = s.pins := by simp [staleEcho]
@[simp] theorem staleEcho_free : (staleEcho p s).free = s.free := by simp [staleEcho]
@[simp] theorem staleEcho_pending : (staleEcho p s).pending = s.pending := by simp [staleEcho]
@[simp] theorem staleEcho_mp : (staleEcho p s).mp = s.mp := by simp [staleEcho]
end

section
variable (n d : Nat) (p : Port) (s : State)
@[simp] theorem goodEcho_su : (goodEcho n d p s).su = s.su := by simp [goodEcho]
@[simp] theorem goodEcho_ciu : (goodEcho n d p s).ciu = s.ciu := by simp [goodEcho]
@[simp] theorem goodEcho_pt : (goodEcho n d p s).pt = s.pt := by simp [goodEcho]
@[simp] theorem goodEcho_au : (goodEcho n d p s).au = s.au := by simp [goodEcho]
@[simp] theorem goodEcho_ze : (goodEcho n d p s).ze = s.ze := by simp [goodEcho]
@[simp] theorem goodEcho_tu : (goodEcho n d p s).tu = s.tu := by simp [goodEcho]
@[simp] theorem goodEcho_sc : (goodEcho n d p s).sc = s.sc := by simp [goodEcho]
@[simp] theorem goodEcho_cs : (goodEcho n d p s).cs = s.cs := by simp [goodEcho]
@[simp] theorem goodEcho_pins : (goodEcho n d p s).pins = s.pins := by simp [goodEcho]
@[simp] theorem goodEcho_free : (goodEcho n d p s).free = s.free := by simp [goodEcho]
@[simp] theorem goodEcho_pending : (goodEcho n d p s).pending = s.pending := by simp [goodEcho]
@[simp] theorem goodEcho_receiver : (goodEcho n d p s).mp.receiver = s.mp.receiver := by simp [goodEcho]
@[simp] theorem goodEcho_request : (goodEcho n d p s).mp.request = s.mp.request := by simp [goodEcho]
@[simp] theorem goodEcho_response : (goodEcho n d p s).mp.response = s.mp.response := by simp [goodEcho]
@[simp] theorem goodEcho_selection : (goodEcho n d p s).mp.selection = s.mp.selection := by simp [goodEcho]
@[simp] theorem goodEcho_portErrors : (goodEcho n d p s).mp.portErrors = s.mp.portErrors := by simp [goodEcho]
end

section
variable (p : Port) (n : BitVec 8) (x : Nat) (a : Ticks) (s : State)
@[simp] theorem takeAnswer_su : (takeAnswer p n x a s).su = s.su := by simp only [takeAnswer]; (repeat' split) <;> simp
@[simp] theorem takeAnswer_ciu : (takeAnswer p n x a s).ciu = s.ciu := by simp only [takeAnswer]; (repeat' split) <;> simp
@[simp] theorem takeAnswer_pt : (takeAnswer p n x a s).pt = s.pt := by simp only [takeAnswer]; (repeat' split) <;> simp
@[simp] theorem takeAnswer_au : (takeAnswer p n x a s).au = s.au := by simp only [takeAnswer]; (repeat' split) <;> simp
@[simp] theorem takeAnswer_ze : (takeAnswer p n x a s).ze = s.ze := by simp only [takeAnswer]; (repeat' split) <;> simp
@[simp] theorem takeAnswer_tu : (takeAnswer p n x a s).tu = s.tu := by simp only [takeAnswer]; (repeat' split) <;> simp
@[simp] theorem takeAnswer_sc : (takeAnswer p n x a s).sc = s.sc := by simp only [takeAnswer]; (repeat' split) <;> simp
@[simp] theorem takeAnswer_cs : (takeAnswer p n x a s).cs = s.cs := by simp only [takeAnswer]; (repeat' split) <;> simp
@[simp] theorem takeAnswer_pins : (takeAnswer p n x a s).pins = s.pins := by simp only [takeAnswer]; (repeat' split) <;> simp
@[simp] theorem takeAnswer_free : (takeAnswer p n x a s).free = s.free := by simp only [takeAnswer]; (repeat' split) <;> simp
@[simp] theorem takeAnswer_pending : (takeAnswer p n x a s).pending = s.pending := by simp only [takeAnswer]; (repeat' split) <;> simp
@[simp] theorem takeAnswer_receiver : (takeAnswer p n x a s).mp.receiver = s.mp.receiver := by simp only [takeAnswer]; (repeat' split) <;> simp
@[simp] theorem takeAnswer_request : (takeAnswer p n x a s).mp.request = s.mp.request := by simp only [takeAnswer]; (repeat' split) <;> simp
@[simp] theorem takeAnswer_response : (takeAnswer p n x a s).mp.response = s.mp.response := by simp only [takeAnswer]; (repeat' split) <;> simp
@[simp] theorem takeAnswer_selection : (takeAnswer p n x a s).mp.selection = s.mp.selection := by simp only [takeAnswer]; (repeat' split) <;> simp
@[simp] theorem takeAnswer_portErrors : (takeAnswer p n x a s).mp.portErrors = s.mp.portErrors := by simp only [takeAnswer]; (repeat' split) <;> simp
end

section
variable (p : Port) (n : BitVec 8) (a : Ticks) (s : State)
@[simp] theorem takeRequest_su : (takeRequest p n a s).su = s.su := by simp [takeRequest]
@[simp] theorem takeRequest_ciu : (takeRequest p n a s).ciu = s.ciu := by simp [takeRequest]
@[simp] theorem takeRequest_pt : (takeRequest p n a s).pt = s.pt := by simp [takeRequest]
@[simp] theorem takeRequest_au : (takeRequest p n a s).au = s.au := by simp [takeRequest]
@[simp] theorem takeRequest_ze : (takeRequest p n a s).ze = s.ze := by simp [takeRequest]
@[simp] theorem takeRequest_tu : (takeRequest p n a s).tu = s.tu := by simp [takeRequest]
@[simp] theorem takeRequest_sc : (takeRequest p n a s).sc = s.sc := by simp [takeRequest]
@[simp] theorem takeRequest_cs : (takeRequest p n a s).cs = s.cs := by simp [takeRequest]
@[simp] theorem takeRequest_pins : (takeRequest p n a s).pins = s.pins := by simp [takeRequest]
@[simp] theorem takeRequest_free : (takeRequest p n a s).free = s.free := by simp [takeRequest]
@[simp] theorem takeRequest_pending : (takeRequest p n a s).pending = s.pending := by simp [takeRequest]
@[simp] theorem takeRequest_mp : (takeRequest p n a s).mp = s.mp := by simp [takeRequest]
end

section
variable (p : Port) (n : SeqNo) (s : State)
@[simp] theorem ownReturn_su : (ownReturn p n s).su = s.su := by simp [ownReturn]
@[simp] theorem ownReturn_ciu : (ownReturn p n s).ciu = s.ciu := by simp [ownReturn]
@[simp] theorem ownReturn_pt : (ownReturn p n s).pt = s.pt := by simp [ownReturn]
@[simp] theorem ownReturn_au : (ownReturn p n s).au = s.au := by simp [ownReturn]
@[simp] theorem ownReturn_ze : (ownReturn p n s).ze = s.ze := by simp [ownReturn]
@[simp] theorem ownReturn_tu : (ownReturn p n s).tu = s.tu := by simp [ownReturn]
@[simp] theorem ownReturn_sc : (ownReturn p n s).sc = s.sc := by simp [ownReturn]
@[simp] theorem ownReturn_cs : (ownReturn p n s).cs = s.cs := by simp [ownReturn]
@[simp] theorem ownReturn_pins : (ownReturn p n s).pins = s.pins := by simp [ownReturn]
@[simp] theorem ownReturn_free : (ownReturn p n s).free = s.free := by simp [ownReturn]
@[simp] theorem ownReturn_pending : (ownReturn p n s).pending = s.pending := by simp [ownReturn]
@[simp] theorem ownReturn_mp : (ownReturn p n s).mp = s.mp := by simp [ownReturn]
end

section
variable (p : Port) (s : State)
@[simp] theorem duplicateBay_su : (duplicateBay p s).su = s.su := by simp [duplicateBay]
@[simp] theorem duplicateBay_ciu : (duplicateBay p s).ciu = s.ciu := by simp [duplicateBay]
@[simp] theorem duplicateBay_pt : (duplicateBay p s).pt = s.pt := by simp [duplicateBay]
@[simp] theorem duplicateBay_au : (duplicateBay p s).au = s.au := by simp [duplicateBay]
@[simp] theorem duplicateBay_ze : (duplicateBay p s).ze = s.ze := by simp [duplicateBay]
@[simp] theorem duplicateBay_tu : (duplicateBay p s).tu = s.tu := by simp [duplicateBay]
@[simp] theorem duplicateBay_cs : (duplicateBay p s).cs = s.cs := by simp [duplicateBay]
@[simp] theorem duplicateBay_pins : (duplicateBay p s).pins = s.pins := by simp [duplicateBay]
@[simp] theorem duplicateBay_free : (duplicateBay p s).free = s.free := by simp [duplicateBay]
@[simp] theorem duplicateBay_pending : (duplicateBay p s).pending = s.pending := by simp [duplicateBay]
@[simp] theorem duplicateBay_receiver : (duplicateBay p s).mp.receiver = s.mp.receiver := by simp [duplicateBay]
@[simp] theorem duplicateBay_request : (duplicateBay p s).mp.request = s.mp.request := by simp [duplicateBay]
@[simp] theorem duplicateBay_response : (duplicateBay p s).mp.response = s.mp.response := by simp [duplicateBay]
@[simp] theorem duplicateBay_selection : (duplicateBay p s).mp.selection = s.mp.selection := by simp [duplicateBay]
@[simp] theorem duplicateBay_portErrors : (duplicateBay p s).mp.portErrors = s.mp.portErrors := by simp [duplicateBay]
end

section
variable (p : Port) (x : Transit) (s : State)
@[simp] theorem queueTransit_su : (queueTransit p x s).su = s.su := by simp only [queueTransit]; (repeat' split) <;> simp
@[simp] theorem queueTransit_ciu : (queueTransit p x s).ciu = s.ciu := by simp only [queueTransit]; (repeat' split) <;> simp
@[simp] theorem queueTransit_pt : (queueTransit p x s).pt = s.pt := by simp only [queueTransit]; (repeat' split) <;> simp
@[simp] theorem queueTransit_au : (queueTransit p x s).au = s.au := by simp only [queueTransit]; (repeat' split) <;> simp
@[simp] theorem queueTransit_ze : (queueTransit p x s).ze = s.ze := by simp only [queueTransit]; (repeat' split) <;> simp
@[simp] theorem queueTransit_tu : (queueTransit p x s).tu = s.tu := by simp only [queueTransit]; (repeat' split) <;> simp
@[simp] theorem queueTransit_sc : (queueTransit p x s).sc = s.sc := by simp only [queueTransit]; (repeat' split) <;> simp
@[simp] theorem queueTransit_cs : (queueTransit p x s).cs = s.cs := by simp only [queueTransit]; (repeat' split) <;> simp
@[simp] theorem queueTransit_pins : (queueTransit p x s).pins = s.pins := by simp only [queueTransit]; (repeat' split) <;> simp
@[simp] theorem queueTransit_free : (queueTransit p x s).free = s.free := by simp only [queueTransit]; (repeat' split) <;> simp
@[simp] theorem queueTransit_pending : (queueTransit p x s).pending = s.pending := by simp only [queueTransit]; (repeat' split) <;> simp
@[simp] theorem queueTransit_receiver : (queueTransit p x s).mp.receiver = s.mp.receiver := by simp only [queueTransit]; (repeat' split) <;> simp
@[simp] theorem queueTransit_request : (queueTransit p x s).mp.request = s.mp.request := by simp only [queueTransit]; (repeat' split) <;> simp
@[simp] theorem queueTransit_response : (queueTransit p x s).mp.response = s.mp.response := by simp only [queueTransit]; (repeat' split) <;> simp
@[simp] theorem queueTransit_selection : (queueTransit p x s).mp.selection = s.mp.selection := by simp only [queueTransit]; (repeat' split) <;> simp
@[simp] theorem queueTransit_portErrors : (queueTransit p x s).mp.portErrors = s.mp.portErrors := by simp only [queueTransit]; (repeat' split) <;> simp
end

section
variable (c : Settings) (p : Port) (x : Transit) (s : State)
@[simp] theorem deliver_su : (deliver c p x s).su = s.su := by simp only [deliver]; (repeat' split) <;> simp
@[simp] theorem deliver_ciu : (deliver c p x s).ciu = s.ciu := by simp only [deliver]; (repeat' split) <;> simp
@[simp] theorem deliver_au : (deliver c p x s).au = s.au := by simp only [deliver]; (repeat' split) <;> simp
@[simp] theorem deliver_ze : (deliver c p x s).ze = s.ze := by simp only [deliver]; (repeat' split) <;> simp
@[simp] theorem deliver_sc : (deliver c p x s).sc = s.sc := by simp only [deliver]; (repeat' split) <;> simp
@[simp] theorem deliver_cs : (deliver c p x s).cs = s.cs := by simp only [deliver]; (repeat' split) <;> simp
@[simp] theorem deliver_pins : (deliver c p x s).pins = s.pins := by simp only [deliver]; (repeat' split) <;> simp
@[simp] theorem deliver_free : (deliver c p x s).free = s.free := by simp only [deliver]; (repeat' split) <;> simp
@[simp] theorem deliver_pending : (deliver c p x s).pending = s.pending := by simp only [deliver]; (repeat' split) <;> simp
@[simp] theorem deliver_receiver : (deliver c p x s).mp.receiver = s.mp.receiver := by simp only [deliver]; (repeat' split) <;> simp
@[simp] theorem deliver_request : (deliver c p x s).mp.request = s.mp.request := by simp only [deliver]; (repeat' split) <;> simp
@[simp] theorem deliver_response : (deliver c p x s).mp.response = s.mp.response := by simp only [deliver]; (repeat' split) <;> simp
@[simp] theorem deliver_selection : (deliver c p x s).mp.selection = s.mp.selection := by simp only [deliver]; (repeat' split) <;> simp
@[simp] theorem deliver_portErrors : (deliver c p x s).mp.portErrors = s.mp.portErrors := by simp only [deliver]; (repeat' split) <;> simp
end

section
variable (c : Settings) (p : Port) (f : BayFrame) (a : Ticks) (s : State)
@[simp] theorem takeBay_su : (takeBay c p f a s).su = s.su := by simp only [takeBay]; (repeat' split) <;> simp
@[simp] theorem takeBay_ciu : (takeBay c p f a s).ciu = s.ciu := by simp only [takeBay]; (repeat' split) <;> simp
@[simp] theorem takeBay_au : (takeBay c p f a s).au = s.au := by simp only [takeBay]; (repeat' split) <;> simp
@[simp] theorem takeBay_ze : (takeBay c p f a s).ze = s.ze := by simp only [takeBay]; (repeat' split) <;> simp
@[simp] theorem takeBay_cs : (takeBay c p f a s).cs = s.cs := by simp only [takeBay]; (repeat' split) <;> simp
@[simp] theorem takeBay_pins : (takeBay c p f a s).pins = s.pins := by simp only [takeBay]; (repeat' split) <;> simp
@[simp] theorem takeBay_free : (takeBay c p f a s).free = s.free := by simp only [takeBay]; (repeat' split) <;> simp
@[simp] theorem takeBay_pending : (takeBay c p f a s).pending = s.pending := by simp only [takeBay]; (repeat' split) <;> simp
@[simp] theorem takeBay_receiver : (takeBay c p f a s).mp.receiver = s.mp.receiver := by simp only [takeBay]; (repeat' split) <;> simp
@[simp] theorem takeBay_request : (takeBay c p f a s).mp.request = s.mp.request := by simp only [takeBay]; (repeat' split) <;> simp
@[simp] theorem takeBay_response : (takeBay c p f a s).mp.response = s.mp.response := by simp only [takeBay]; (repeat' split) <;> simp
@[simp] theorem takeBay_selection : (takeBay c p f a s).mp.selection = s.mp.selection := by simp only [takeBay]; (repeat' split) <;> simp
@[simp] theorem takeBay_portErrors : (takeBay c p f a s).mp.portErrors = s.mp.portErrors := by simp only [takeBay]; (repeat' split) <;> simp
end

section
variable (c : Settings) (p : Port) (l : List Byte) (s : State)
@[simp] theorem receiveFrame_su : (receiveFrame c p l s).su = s.su := by simp only [receiveFrame]; (repeat' split) <;> simp
@[simp] theorem receiveFrame_ciu : (receiveFrame c p l s).ciu = s.ciu := by simp only [receiveFrame]; (repeat' split) <;> simp
@[simp] theorem receiveFrame_au : (receiveFrame c p l s).au = s.au := by simp only [receiveFrame]; (repeat' split) <;> simp
@[simp] theorem receiveFrame_ze : (receiveFrame c p l s).ze = s.ze := by simp only [receiveFrame]; (repeat' split) <;> simp
@[simp] theorem receiveFrame_cs : (receiveFrame c p l s).cs = s.cs := by simp only [receiveFrame]; (repeat' split) <;> simp
@[simp] theorem receiveFrame_pins : (receiveFrame c p l s).pins = s.pins := by simp only [receiveFrame]; (repeat' split) <;> simp
@[simp] theorem receiveFrame_free : (receiveFrame c p l s).free = s.free := by simp only [receiveFrame]; (repeat' split) <;> simp
@[simp] theorem receiveFrame_pending : (receiveFrame c p l s).pending = s.pending := by simp only [receiveFrame]; (repeat' split) <;> simp
@[simp] theorem receiveFrame_receiver : (receiveFrame c p l s).mp.receiver = s.mp.receiver := by simp only [receiveFrame]; (repeat' split) <;> simp
@[simp] theorem receiveFrame_request : (receiveFrame c p l s).mp.request = s.mp.request := by simp only [receiveFrame]; (repeat' split) <;> simp
@[simp] theorem receiveFrame_response : (receiveFrame c p l s).mp.response = s.mp.response := by simp only [receiveFrame]; (repeat' split) <;> simp
@[simp] theorem receiveFrame_selection : (receiveFrame c p l s).mp.selection = s.mp.selection := by simp only [receiveFrame]; (repeat' split) <;> simp
@[simp] theorem receiveFrame_portErrors : (receiveFrame c p l s).mp.portErrors = s.mp.portErrors := by simp only [receiveFrame]; (repeat' split) <;> simp
end

section
variable (o : OwnFrame) (s : State)
@[simp] theorem placeOwn_su : (placeOwn o s).su = s.su := by simp [placeOwn]
@[simp] theorem placeOwn_ciu : (placeOwn o s).ciu = s.ciu := by simp [placeOwn]
@[simp] theorem placeOwn_pt : (placeOwn o s).pt = s.pt := by simp [placeOwn]
@[simp] theorem placeOwn_au : (placeOwn o s).au = s.au := by simp [placeOwn]
@[simp] theorem placeOwn_ze : (placeOwn o s).ze = s.ze := by simp [placeOwn]
@[simp] theorem placeOwn_tu : (placeOwn o s).tu = s.tu := by simp [placeOwn]
@[simp] theorem placeOwn_sc : (placeOwn o s).sc = s.sc := by simp [placeOwn]
@[simp] theorem placeOwn_cs : (placeOwn o s).cs = s.cs := by simp [placeOwn]
@[simp] theorem placeOwn_pins : (placeOwn o s).pins = s.pins := by simp [placeOwn]
@[simp] theorem placeOwn_free : (placeOwn o s).free = s.free := by simp [placeOwn]
@[simp] theorem placeOwn_pending : (placeOwn o s).pending = s.pending := by simp [placeOwn]
@[simp] theorem placeOwn_mp : (placeOwn o s).mp = s.mp := by simp [placeOwn]
end

section
variable (p : Port) (s : State)
@[simp] theorem portEpoch_su : (portEpoch p s).su = s.su := by simp only [portEpoch]; (repeat' split) <;> simp
@[simp] theorem portEpoch_ciu : (portEpoch p s).ciu = s.ciu := by simp only [portEpoch]; (repeat' split) <;> simp
@[simp] theorem portEpoch_pt : (portEpoch p s).pt = s.pt := by simp only [portEpoch]; (repeat' split) <;> simp
@[simp] theorem portEpoch_au : (portEpoch p s).au = s.au := by simp only [portEpoch]; (repeat' split) <;> simp
@[simp] theorem portEpoch_ze : (portEpoch p s).ze = s.ze := by simp only [portEpoch]; (repeat' split) <;> simp
@[simp] theorem portEpoch_tu : (portEpoch p s).tu = s.tu := by simp only [portEpoch]; (repeat' split) <;> simp
@[simp] theorem portEpoch_sc : (portEpoch p s).sc = s.sc := by simp only [portEpoch]; (repeat' split) <;> simp
@[simp] theorem portEpoch_cs : (portEpoch p s).cs = s.cs := by simp only [portEpoch]; (repeat' split) <;> simp
@[simp] theorem portEpoch_pins : (portEpoch p s).pins = s.pins := by simp only [portEpoch]; (repeat' split) <;> simp
@[simp] theorem portEpoch_free : (portEpoch p s).free = s.free := by simp only [portEpoch]; (repeat' split) <;> simp
@[simp] theorem portEpoch_pending : (portEpoch p s).pending = s.pending := by simp only [portEpoch]; (repeat' split) <;> simp
@[simp] theorem portEpoch_mp : (portEpoch p s).mp = s.mp := by simp only [portEpoch]; (repeat' split) <;> simp
end

section
variable (s : State)
@[simp] theorem quietEpoch_su : (quietEpoch s).su = s.su := by simp [quietEpoch]
@[simp] theorem quietEpoch_ciu : (quietEpoch s).ciu = s.ciu := by simp [quietEpoch]
@[simp] theorem quietEpoch_pt : (quietEpoch s).pt = s.pt := by simp [quietEpoch]
@[simp] theorem quietEpoch_au : (quietEpoch s).au = s.au := by simp [quietEpoch]
@[simp] theorem quietEpoch_ze : (quietEpoch s).ze = s.ze := by simp [quietEpoch]
@[simp] theorem quietEpoch_tu : (quietEpoch s).tu = s.tu := by simp [quietEpoch]
@[simp] theorem quietEpoch_sc : (quietEpoch s).sc = s.sc := by simp [quietEpoch]
@[simp] theorem quietEpoch_cs : (quietEpoch s).cs = s.cs := by simp [quietEpoch]
@[simp] theorem quietEpoch_pins : (quietEpoch s).pins = s.pins := by simp [quietEpoch]
@[simp] theorem quietEpoch_free : (quietEpoch s).free = s.free := by simp [quietEpoch]
@[simp] theorem quietEpoch_pending : (quietEpoch s).pending = s.pending := by simp [quietEpoch]
@[simp] theorem quietEpoch_mp : (quietEpoch s).mp = s.mp := by simp [quietEpoch]
end

section
variable (s : State)
@[simp] theorem ringEpoch_su : (ringEpoch s).su = s.su := by simp [ringEpoch]
@[simp] theorem ringEpoch_ciu : (ringEpoch s).ciu = s.ciu := by simp [ringEpoch]
@[simp] theorem ringEpoch_pt : (ringEpoch s).pt = s.pt := by simp [ringEpoch]
@[simp] theorem ringEpoch_au : (ringEpoch s).au = s.au := by simp [ringEpoch]
@[simp] theorem ringEpoch_ze : (ringEpoch s).ze = s.ze := by simp [ringEpoch]
@[simp] theorem ringEpoch_tu : (ringEpoch s).tu = s.tu := by simp [ringEpoch]
@[simp] theorem ringEpoch_sc : (ringEpoch s).sc = s.sc := by simp [ringEpoch]
@[simp] theorem ringEpoch_cs : (ringEpoch s).cs = s.cs := by simp [ringEpoch]
@[simp] theorem ringEpoch_pins : (ringEpoch s).pins = s.pins := by simp [ringEpoch]
@[simp] theorem ringEpoch_free : (ringEpoch s).free = s.free := by simp [ringEpoch]
@[simp] theorem ringEpoch_pending : (ringEpoch s).pending = s.pending := by simp [ringEpoch]
@[simp] theorem ringEpoch_mp : (ringEpoch s).mp = s.mp := by simp [ringEpoch]
end

section
variable (s : State)
@[simp] theorem ringStart_su : (ringStart s).su = s.su := by simp [ringStart]
@[simp] theorem ringStart_ciu : (ringStart s).ciu = s.ciu := by simp [ringStart]
@[simp] theorem ringStart_pt : (ringStart s).pt = s.pt := by simp [ringStart]
@[simp] theorem ringStart_au : (ringStart s).au = s.au := by simp [ringStart]
@[simp] theorem ringStart_ze : (ringStart s).ze = s.ze := by simp [ringStart]
@[simp] theorem ringStart_tu : (ringStart s).tu = s.tu := by simp [ringStart]
@[simp] theorem ringStart_sc : (ringStart s).sc = s.sc := by simp [ringStart]
@[simp] theorem ringStart_cs : (ringStart s).cs = s.cs := by simp [ringStart]
@[simp] theorem ringStart_pins : (ringStart s).pins = s.pins := by simp [ringStart]
@[simp] theorem ringStart_free : (ringStart s).free = s.free := by simp [ringStart]
@[simp] theorem ringStart_pending : (ringStart s).pending = s.pending := by simp [ringStart]
@[simp] theorem ringStart_mp : (ringStart s).mp = s.mp := by simp [ringStart]
end

section
variable (s : State)
@[simp] theorem ringStop_su : (ringStop s).su = s.su := by simp [ringStop]
@[simp] theorem ringStop_ciu : (ringStop s).ciu = s.ciu := by simp [ringStop]
@[simp] theorem ringStop_pt : (ringStop s).pt = s.pt := by simp [ringStop]
@[simp] theorem ringStop_au : (ringStop s).au = s.au := by simp [ringStop]
@[simp] theorem ringStop_ze : (ringStop s).ze = s.ze := by simp [ringStop]
@[simp] theorem ringStop_tu : (ringStop s).tu = s.tu := by simp [ringStop]
@[simp] theorem ringStop_sc : (ringStop s).sc = s.sc := by simp [ringStop]
@[simp] theorem ringStop_cs : (ringStop s).cs = s.cs := by simp [ringStop]
@[simp] theorem ringStop_pins : (ringStop s).pins = s.pins := by simp [ringStop]
@[simp] theorem ringStop_free : (ringStop s).free = s.free := by simp [ringStop]
@[simp] theorem ringStop_pending : (ringStop s).pending = s.pending := by simp [ringStop]
@[simp] theorem ringStop_receiver : (ringStop s).mp.receiver = s.mp.receiver := by simp [ringStop]
@[simp] theorem ringStop_request : (ringStop s).mp.request = s.mp.request := by simp [ringStop]
@[simp] theorem ringStop_response : (ringStop s).mp.response = s.mp.response := by simp [ringStop]
@[simp] theorem ringStop_selection : (ringStop s).mp.selection = s.mp.selection := by simp [ringStop]
@[simp] theorem ringStop_portErrors : (ringStop s).mp.portErrors = s.mp.portErrors := by simp [ringStop]
end

section
variable (p : Port) (s : State)
@[simp] theorem transmissionEndOp_su : (transmissionEndOp p s).su = s.su := by simp [transmissionEndOp]
@[simp] theorem transmissionEndOp_ciu : (transmissionEndOp p s).ciu = s.ciu := by simp [transmissionEndOp]
@[simp] theorem transmissionEndOp_pt : (transmissionEndOp p s).pt = s.pt := by simp [transmissionEndOp]
@[simp] theorem transmissionEndOp_au : (transmissionEndOp p s).au = s.au := by simp [transmissionEndOp]
@[simp] theorem transmissionEndOp_ze : (transmissionEndOp p s).ze = s.ze := by simp [transmissionEndOp]
@[simp] theorem transmissionEndOp_tu : (transmissionEndOp p s).tu = s.tu := by simp [transmissionEndOp]
@[simp] theorem transmissionEndOp_sc : (transmissionEndOp p s).sc = s.sc := by simp [transmissionEndOp]
@[simp] theorem transmissionEndOp_cs : (transmissionEndOp p s).cs = s.cs := by simp [transmissionEndOp]
@[simp] theorem transmissionEndOp_pins : (transmissionEndOp p s).pins = s.pins := by simp [transmissionEndOp]
@[simp] theorem transmissionEndOp_free : (transmissionEndOp p s).free = s.free := by simp [transmissionEndOp]
@[simp] theorem transmissionEndOp_pending : (transmissionEndOp p s).pending = s.pending := by simp [transmissionEndOp]
@[simp] theorem transmissionEndOp_mp : (transmissionEndOp p s).mp = s.mp := by simp [transmissionEndOp]
end

section
variable (z : ZoneRef) (ph : Phase) (s : State)
@[simp] theorem zoneBlockedOp_su : (zoneBlockedOp z ph s).su = s.su := by simp only [zoneBlockedOp]; (repeat' split) <;> simp
@[simp] theorem zoneBlockedOp_ciu : (zoneBlockedOp z ph s).ciu = s.ciu := by simp only [zoneBlockedOp]; (repeat' split) <;> simp
@[simp] theorem zoneBlockedOp_ri : (zoneBlockedOp z ph s).ri = s.ri := by simp only [zoneBlockedOp]; (repeat' split) <;> simp
@[simp] theorem zoneBlockedOp_pt : (zoneBlockedOp z ph s).pt = s.pt := by simp only [zoneBlockedOp]; (repeat' split) <;> simp
@[simp] theorem zoneBlockedOp_au : (zoneBlockedOp z ph s).au = s.au := by simp only [zoneBlockedOp]; (repeat' split) <;> simp
@[simp] theorem zoneBlockedOp_tu : (zoneBlockedOp z ph s).tu = s.tu := by simp only [zoneBlockedOp]; (repeat' split) <;> simp
@[simp] theorem zoneBlockedOp_sc : (zoneBlockedOp z ph s).sc = s.sc := by simp only [zoneBlockedOp]; (repeat' split) <;> simp
@[simp] theorem zoneBlockedOp_cs : (zoneBlockedOp z ph s).cs = s.cs := by simp only [zoneBlockedOp]; (repeat' split) <;> simp
@[simp] theorem zoneBlockedOp_pins : (zoneBlockedOp z ph s).pins = s.pins := by simp only [zoneBlockedOp]; (repeat' split) <;> simp
@[simp] theorem zoneBlockedOp_free : (zoneBlockedOp z ph s).free = s.free := by simp only [zoneBlockedOp]; (repeat' split) <;> simp
@[simp] theorem zoneBlockedOp_pending : (zoneBlockedOp z ph s).pending = s.pending := by simp only [zoneBlockedOp]; (repeat' split) <;> simp
@[simp] theorem zoneBlockedOp_receiver : (zoneBlockedOp z ph s).mp.receiver = s.mp.receiver := by simp only [zoneBlockedOp]; (repeat' split) <;> simp
@[simp] theorem zoneBlockedOp_request : (zoneBlockedOp z ph s).mp.request = s.mp.request := by simp only [zoneBlockedOp]; (repeat' split) <;> simp
@[simp] theorem zoneBlockedOp_response : (zoneBlockedOp z ph s).mp.response = s.mp.response := by simp only [zoneBlockedOp]; (repeat' split) <;> simp
@[simp] theorem zoneBlockedOp_selection : (zoneBlockedOp z ph s).mp.selection = s.mp.selection := by simp only [zoneBlockedOp]; (repeat' split) <;> simp
@[simp] theorem zoneBlockedOp_portErrors : (zoneBlockedOp z ph s).mp.portErrors = s.mp.portErrors := by simp only [zoneBlockedOp]; (repeat' split) <;> simp
end

section
variable (s : State)
@[simp] theorem zoneBlockedAll_su : (zoneBlockedAll s).su = s.su := foldl_keeps (fun s => s.su) (fun s (x : ZoneRef × Phase) => zoneBlockedOp x.1 x.2 s) (fun s x => zoneBlockedOp_su x.1 x.2 s) _ s
@[simp] theorem zoneBlockedAll_ciu : (zoneBlockedAll s).ciu = s.ciu := foldl_keeps (fun s => s.ciu) (fun s (x : ZoneRef × Phase) => zoneBlockedOp x.1 x.2 s) (fun s x => zoneBlockedOp_ciu x.1 x.2 s) _ s
@[simp] theorem zoneBlockedAll_ri : (zoneBlockedAll s).ri = s.ri := foldl_keeps (fun s => s.ri) (fun s (x : ZoneRef × Phase) => zoneBlockedOp x.1 x.2 s) (fun s x => zoneBlockedOp_ri x.1 x.2 s) _ s
@[simp] theorem zoneBlockedAll_pt : (zoneBlockedAll s).pt = s.pt := foldl_keeps (fun s => s.pt) (fun s (x : ZoneRef × Phase) => zoneBlockedOp x.1 x.2 s) (fun s x => zoneBlockedOp_pt x.1 x.2 s) _ s
@[simp] theorem zoneBlockedAll_au : (zoneBlockedAll s).au = s.au := foldl_keeps (fun s => s.au) (fun s (x : ZoneRef × Phase) => zoneBlockedOp x.1 x.2 s) (fun s x => zoneBlockedOp_au x.1 x.2 s) _ s
@[simp] theorem zoneBlockedAll_tu : (zoneBlockedAll s).tu = s.tu := foldl_keeps (fun s => s.tu) (fun s (x : ZoneRef × Phase) => zoneBlockedOp x.1 x.2 s) (fun s x => zoneBlockedOp_tu x.1 x.2 s) _ s
@[simp] theorem zoneBlockedAll_sc : (zoneBlockedAll s).sc = s.sc := foldl_keeps (fun s => s.sc) (fun s (x : ZoneRef × Phase) => zoneBlockedOp x.1 x.2 s) (fun s x => zoneBlockedOp_sc x.1 x.2 s) _ s
@[simp] theorem zoneBlockedAll_cs : (zoneBlockedAll s).cs = s.cs := foldl_keeps (fun s => s.cs) (fun s (x : ZoneRef × Phase) => zoneBlockedOp x.1 x.2 s) (fun s x => zoneBlockedOp_cs x.1 x.2 s) _ s
@[simp] theorem zoneBlockedAll_pins : (zoneBlockedAll s).pins = s.pins := foldl_keeps (fun s => s.pins) (fun s (x : ZoneRef × Phase) => zoneBlockedOp x.1 x.2 s) (fun s x => zoneBlockedOp_pins x.1 x.2 s) _ s
@[simp] theorem zoneBlockedAll_free : (zoneBlockedAll s).free = s.free := foldl_keeps (fun s => s.free) (fun s (x : ZoneRef × Phase) => zoneBlockedOp x.1 x.2 s) (fun s x => zoneBlockedOp_free x.1 x.2 s) _ s
@[simp] theorem zoneBlockedAll_pending : (zoneBlockedAll s).pending = s.pending := foldl_keeps (fun s => s.pending) (fun s (x : ZoneRef × Phase) => zoneBlockedOp x.1 x.2 s) (fun s x => zoneBlockedOp_pending x.1 x.2 s) _ s
@[simp] theorem zoneBlockedAll_receiver : (zoneBlockedAll s).mp.receiver = s.mp.receiver := foldl_keeps (fun s => s.mp.receiver) (fun s (x : ZoneRef × Phase) => zoneBlockedOp x.1 x.2 s) (fun s x => zoneBlockedOp_receiver x.1 x.2 s) _ s
@[simp] theorem zoneBlockedAll_request : (zoneBlockedAll s).mp.request = s.mp.request := foldl_keeps (fun s => s.mp.request) (fun s (x : ZoneRef × Phase) => zoneBlockedOp x.1 x.2 s) (fun s x => zoneBlockedOp_request x.1 x.2 s) _ s
@[simp] theorem zoneBlockedAll_response : (zoneBlockedAll s).mp.response = s.mp.response := foldl_keeps (fun s => s.mp.response) (fun s (x : ZoneRef × Phase) => zoneBlockedOp x.1 x.2 s) (fun s x => zoneBlockedOp_response x.1 x.2 s) _ s
@[simp] theorem zoneBlockedAll_selection : (zoneBlockedAll s).mp.selection = s.mp.selection := foldl_keeps (fun s => s.mp.selection) (fun s (x : ZoneRef × Phase) => zoneBlockedOp x.1 x.2 s) (fun s x => zoneBlockedOp_selection x.1 x.2 s) _ s
@[simp] theorem zoneBlockedAll_portErrors : (zoneBlockedAll s).mp.portErrors = s.mp.portErrors := foldl_keeps (fun s => s.mp.portErrors) (fun s (x : ZoneRef × Phase) => zoneBlockedOp x.1 x.2 s) (fun s x => zoneBlockedOp_portErrors x.1 x.2 s) _ s
end

section
variable (c : Settings) (b : Bay) (s : State)
@[simp] theorem endZoneOp_su : (endZoneOp c b s).su = s.su := by simp only [endZoneOp]; (repeat' split) <;> simp
@[simp] theorem endZoneOp_ciu : (endZoneOp c b s).ciu = s.ciu := by simp only [endZoneOp]; (repeat' split) <;> simp
@[simp] theorem endZoneOp_ri : (endZoneOp c b s).ri = s.ri := by simp only [endZoneOp]; (repeat' split) <;> simp
@[simp] theorem endZoneOp_pt : (endZoneOp c b s).pt = s.pt := by simp only [endZoneOp]; (repeat' split) <;> simp
@[simp] theorem endZoneOp_au : (endZoneOp c b s).au = s.au := by simp only [endZoneOp]; (repeat' split) <;> simp
@[simp] theorem endZoneOp_tu : (endZoneOp c b s).tu = s.tu := by simp only [endZoneOp]; (repeat' split) <;> simp
@[simp] theorem endZoneOp_sc : (endZoneOp c b s).sc = s.sc := by simp only [endZoneOp]; (repeat' split) <;> simp
@[simp] theorem endZoneOp_cs : (endZoneOp c b s).cs = s.cs := by simp only [endZoneOp]; (repeat' split) <;> simp
@[simp] theorem endZoneOp_pins : (endZoneOp c b s).pins = s.pins := by simp only [endZoneOp]; (repeat' split) <;> simp
@[simp] theorem endZoneOp_free : (endZoneOp c b s).free = s.free := by simp only [endZoneOp]; (repeat' split) <;> simp
@[simp] theorem endZoneOp_pending : (endZoneOp c b s).pending = s.pending := by simp only [endZoneOp]; (repeat' split) <;> simp
@[simp] theorem endZoneOp_mp : (endZoneOp c b s).mp = s.mp := by simp only [endZoneOp]; (repeat' split) <;> simp
end

section
variable (c : Settings) (f : Flight) (s : State)
@[simp] theorem evaluateInstant_su : (evaluateInstant c f s).su = s.su := by simp [evaluateInstant]
@[simp] theorem evaluateInstant_ciu : (evaluateInstant c f s).ciu = s.ciu := by simp [evaluateInstant]
@[simp] theorem evaluateInstant_ri : (evaluateInstant c f s).ri = s.ri := by simp [evaluateInstant]
@[simp] theorem evaluateInstant_pt : (evaluateInstant c f s).pt = s.pt := by simp [evaluateInstant]
@[simp] theorem evaluateInstant_sc : (evaluateInstant c f s).sc = s.sc := by simp [evaluateInstant]
@[simp] theorem evaluateInstant_cs : (evaluateInstant c f s).cs = s.cs := by simp [evaluateInstant]
@[simp] theorem evaluateInstant_pins : (evaluateInstant c f s).pins = s.pins := by simp [evaluateInstant]
@[simp] theorem evaluateInstant_free : (evaluateInstant c f s).free = s.free := by simp [evaluateInstant]
@[simp] theorem evaluateInstant_pending : (evaluateInstant c f s).pending = s.pending := by simp [evaluateInstant]
@[simp] theorem evaluateInstant_receiver : (evaluateInstant c f s).mp.receiver = s.mp.receiver := by simp [evaluateInstant]
@[simp] theorem evaluateInstant_request : (evaluateInstant c f s).mp.request = s.mp.request := by simp [evaluateInstant]
@[simp] theorem evaluateInstant_response : (evaluateInstant c f s).mp.response = s.mp.response := by simp [evaluateInstant]
@[simp] theorem evaluateInstant_selection : (evaluateInstant c f s).mp.selection = s.mp.selection := by simp [evaluateInstant]
@[simp] theorem evaluateInstant_portErrors : (evaluateInstant c f s).mp.portErrors = s.mp.portErrors := by simp [evaluateInstant]
end

section
variable (c : Settings) (s : State)
@[simp] theorem ownSampleEvent_ciu : (ownSampleEvent c s).ciu = s.ciu := by simp only [ownSampleEvent]; (repeat' split) <;> simp
@[simp] theorem ownSampleEvent_sc : (ownSampleEvent c s).sc = s.sc := by simp only [ownSampleEvent]; (repeat' split) <;> simp
@[simp] theorem ownSampleEvent_cs : (ownSampleEvent c s).cs = s.cs := by simp only [ownSampleEvent]; (repeat' split) <;> simp
@[simp] theorem ownSampleEvent_pins : (ownSampleEvent c s).pins = s.pins := by simp only [ownSampleEvent]; (repeat' split) <;> simp
@[simp] theorem ownSampleEvent_free : (ownSampleEvent c s).free = s.free := by simp only [ownSampleEvent]; (repeat' split) <;> simp
@[simp] theorem ownSampleEvent_pending : (ownSampleEvent c s).pending = s.pending := by simp only [ownSampleEvent]; (repeat' split) <;> simp
@[simp] theorem ownSampleEvent_receiver : (ownSampleEvent c s).mp.receiver = s.mp.receiver := by simp only [ownSampleEvent]; (repeat' split) <;> simp
@[simp] theorem ownSampleEvent_request : (ownSampleEvent c s).mp.request = s.mp.request := by simp only [ownSampleEvent]; (repeat' split) <;> simp
@[simp] theorem ownSampleEvent_response : (ownSampleEvent c s).mp.response = s.mp.response := by simp only [ownSampleEvent]; (repeat' split) <;> simp
@[simp] theorem ownSampleEvent_selection : (ownSampleEvent c s).mp.selection = s.mp.selection := by simp only [ownSampleEvent]; (repeat' split) <;> simp
@[simp] theorem ownSampleEvent_portErrors : (ownSampleEvent c s).mp.portErrors = s.mp.portErrors := by simp only [ownSampleEvent]; (repeat' split) <;> simp
end

section
variable (c : Settings) (s : State)
@[simp] theorem lateEvent_ciu : (lateEvent c s).ciu = s.ciu := by simp only [lateEvent]; (repeat' split) <;> simp
@[simp] theorem lateEvent_sc : (lateEvent c s).sc = s.sc := by simp only [lateEvent]; (repeat' split) <;> simp
@[simp] theorem lateEvent_cs : (lateEvent c s).cs = s.cs := by simp only [lateEvent]; (repeat' split) <;> simp
@[simp] theorem lateEvent_pins : (lateEvent c s).pins = s.pins := by simp only [lateEvent]; (repeat' split) <;> simp
@[simp] theorem lateEvent_free : (lateEvent c s).free = s.free := by simp only [lateEvent]; (repeat' split) <;> simp
@[simp] theorem lateEvent_pending : (lateEvent c s).pending = s.pending := by simp only [lateEvent]; (repeat' split) <;> simp
@[simp] theorem lateEvent_receiver : (lateEvent c s).mp.receiver = s.mp.receiver := by simp only [lateEvent]; (repeat' split) <;> simp
@[simp] theorem lateEvent_request : (lateEvent c s).mp.request = s.mp.request := by simp only [lateEvent]; (repeat' split) <;> simp
@[simp] theorem lateEvent_response : (lateEvent c s).mp.response = s.mp.response := by simp only [lateEvent]; (repeat' split) <;> simp
@[simp] theorem lateEvent_selection : (lateEvent c s).mp.selection = s.mp.selection := by simp only [lateEvent]; (repeat' split) <;> simp
@[simp] theorem lateEvent_portErrors : (lateEvent c s).mp.portErrors = s.mp.portErrors := by simp only [lateEvent]; (repeat' split) <;> simp
end

section
variable (s : State)
@[simp] theorem qualifiedOp_su : (qualifiedOp s).su = s.su := by simp only [qualifiedOp]; (repeat' split) <;> simp
@[simp] theorem qualifiedOp_ciu : (qualifiedOp s).ciu = s.ciu := by simp only [qualifiedOp]; (repeat' split) <;> simp
@[simp] theorem qualifiedOp_ri : (qualifiedOp s).ri = s.ri := by simp only [qualifiedOp]; (repeat' split) <;> simp
@[simp] theorem qualifiedOp_pt : (qualifiedOp s).pt = s.pt := by simp only [qualifiedOp]; (repeat' split) <;> simp
@[simp] theorem qualifiedOp_au : (qualifiedOp s).au = s.au := by simp only [qualifiedOp]; (repeat' split) <;> simp
@[simp] theorem qualifiedOp_ze : (qualifiedOp s).ze = s.ze := by simp only [qualifiedOp]; (repeat' split) <;> simp
@[simp] theorem qualifiedOp_tu : (qualifiedOp s).tu = s.tu := by simp only [qualifiedOp]; (repeat' split) <;> simp
@[simp] theorem qualifiedOp_cs : (qualifiedOp s).cs = s.cs := by simp only [qualifiedOp]; (repeat' split) <;> simp
@[simp] theorem qualifiedOp_pins : (qualifiedOp s).pins = s.pins := by simp only [qualifiedOp]; (repeat' split) <;> simp
@[simp] theorem qualifiedOp_free : (qualifiedOp s).free = s.free := by simp only [qualifiedOp]; (repeat' split) <;> simp
@[simp] theorem qualifiedOp_pending : (qualifiedOp s).pending = s.pending := by simp only [qualifiedOp]; (repeat' split) <;> simp
@[simp] theorem qualifiedOp_mp : (qualifiedOp s).mp = s.mp := by simp only [qualifiedOp]; (repeat' split) <;> simp
end

section
variable (c : Settings) (s : State)
@[simp] theorem testQualification_su : (testQualification c s).su = s.su := by simp only [testQualification]; (repeat' split) <;> simp
@[simp] theorem testQualification_ciu : (testQualification c s).ciu = s.ciu := by simp only [testQualification]; (repeat' split) <;> simp
@[simp] theorem testQualification_ri : (testQualification c s).ri = s.ri := by simp only [testQualification]; (repeat' split) <;> simp
@[simp] theorem testQualification_pt : (testQualification c s).pt = s.pt := by simp only [testQualification]; (repeat' split) <;> simp
@[simp] theorem testQualification_au : (testQualification c s).au = s.au := by simp only [testQualification]; (repeat' split) <;> simp
@[simp] theorem testQualification_ze : (testQualification c s).ze = s.ze := by simp only [testQualification]; (repeat' split) <;> simp
@[simp] theorem testQualification_tu : (testQualification c s).tu = s.tu := by simp only [testQualification]; (repeat' split) <;> simp
@[simp] theorem testQualification_cs : (testQualification c s).cs = s.cs := by simp only [testQualification]; (repeat' split) <;> simp
@[simp] theorem testQualification_pins : (testQualification c s).pins = s.pins := by simp only [testQualification]; (repeat' split) <;> simp
@[simp] theorem testQualification_free : (testQualification c s).free = s.free := by simp only [testQualification]; (repeat' split) <;> simp
@[simp] theorem testQualification_pending : (testQualification c s).pending = s.pending := by simp only [testQualification]; (repeat' split) <;> simp
@[simp] theorem testQualification_mp : (testQualification c s).mp = s.mp := by simp only [testQualification]; (repeat' split) <;> simp
end

section
variable (s : State)
@[simp] theorem listenTimeoutOp_su : (listenTimeoutOp s).su = s.su := by simp [listenTimeoutOp]
@[simp] theorem listenTimeoutOp_ciu : (listenTimeoutOp s).ciu = s.ciu := by simp [listenTimeoutOp]
@[simp] theorem listenTimeoutOp_ri : (listenTimeoutOp s).ri = s.ri := by simp [listenTimeoutOp]
@[simp] theorem listenTimeoutOp_pt : (listenTimeoutOp s).pt = s.pt := by simp [listenTimeoutOp]
@[simp] theorem listenTimeoutOp_au : (listenTimeoutOp s).au = s.au := by simp [listenTimeoutOp]
@[simp] theorem listenTimeoutOp_ze : (listenTimeoutOp s).ze = s.ze := by simp [listenTimeoutOp]
@[simp] theorem listenTimeoutOp_tu : (listenTimeoutOp s).tu = s.tu := by simp [listenTimeoutOp]
@[simp] theorem listenTimeoutOp_sc : (listenTimeoutOp s).sc = s.sc := by simp [listenTimeoutOp]
@[simp] theorem listenTimeoutOp_cs : (listenTimeoutOp s).cs = s.cs := by simp [listenTimeoutOp]
@[simp] theorem listenTimeoutOp_pins : (listenTimeoutOp s).pins = s.pins := by simp [listenTimeoutOp]
@[simp] theorem listenTimeoutOp_free : (listenTimeoutOp s).free = s.free := by simp [listenTimeoutOp]
@[simp] theorem listenTimeoutOp_pending : (listenTimeoutOp s).pending = s.pending := by simp [listenTimeoutOp]
@[simp] theorem listenTimeoutOp_receiver : (listenTimeoutOp s).mp.receiver = s.mp.receiver := by simp [listenTimeoutOp]
@[simp] theorem listenTimeoutOp_request : (listenTimeoutOp s).mp.request = s.mp.request := by simp [listenTimeoutOp]
@[simp] theorem listenTimeoutOp_response : (listenTimeoutOp s).mp.response = s.mp.response := by simp [listenTimeoutOp]
@[simp] theorem listenTimeoutOp_selection : (listenTimeoutOp s).mp.selection = s.mp.selection := by simp [listenTimeoutOp]
@[simp] theorem listenTimeoutOp_portErrors : (listenTimeoutOp s).mp.portErrors = s.mp.portErrors := by simp [listenTimeoutOp]
end

section
variable (r : RunState) (s : State)
@[simp] theorem enterState_su : (enterState r s).su = s.su := by simp only [enterState]; (repeat' split) <;> simp
@[simp] theorem enterState_ciu : (enterState r s).ciu = s.ciu := by simp only [enterState]; (repeat' split) <;> simp
@[simp] theorem enterState_ri : (enterState r s).ri = s.ri := by simp only [enterState]; (repeat' split) <;> simp
@[simp] theorem enterState_pt : (enterState r s).pt = s.pt := by simp only [enterState]; (repeat' split) <;> simp
@[simp] theorem enterState_au : (enterState r s).au = s.au := by simp only [enterState]; (repeat' split) <;> simp
@[simp] theorem enterState_ze : (enterState r s).ze = s.ze := by simp only [enterState]; (repeat' split) <;> simp
@[simp] theorem enterState_tu : (enterState r s).tu = s.tu := by simp only [enterState]; (repeat' split) <;> simp
@[simp] theorem enterState_cs : (enterState r s).cs = s.cs := by simp only [enterState]; (repeat' split) <;> simp
@[simp] theorem enterState_pins : (enterState r s).pins = s.pins := by simp only [enterState]; (repeat' split) <;> simp
@[simp] theorem enterState_free : (enterState r s).free = s.free := by simp only [enterState]; (repeat' split) <;> simp
@[simp] theorem enterState_pending : (enterState r s).pending = s.pending := by simp only [enterState]; (repeat' split) <;> simp
@[simp] theorem enterState_mp : (enterState r s).mp = s.mp := by simp only [enterState]; (repeat' split) <;> simp
end

section
variable (r : RunState) (s : State)
@[simp] theorem tripAtChoice_su : (tripAtChoice r s).su = s.su := by simp only [tripAtChoice]; (repeat' split) <;> simp
@[simp] theorem tripAtChoice_ciu : (tripAtChoice r s).ciu = s.ciu := by simp only [tripAtChoice]; (repeat' split) <;> simp
@[simp] theorem tripAtChoice_ri : (tripAtChoice r s).ri = s.ri := by simp only [tripAtChoice]; (repeat' split) <;> simp
@[simp] theorem tripAtChoice_pt : (tripAtChoice r s).pt = s.pt := by simp only [tripAtChoice]; (repeat' split) <;> simp
@[simp] theorem tripAtChoice_au : (tripAtChoice r s).au = s.au := by simp only [tripAtChoice]; (repeat' split) <;> simp
@[simp] theorem tripAtChoice_ze : (tripAtChoice r s).ze = s.ze := by simp only [tripAtChoice]; (repeat' split) <;> simp
@[simp] theorem tripAtChoice_sc : (tripAtChoice r s).sc = s.sc := by simp only [tripAtChoice]; (repeat' split) <;> simp
@[simp] theorem tripAtChoice_cs : (tripAtChoice r s).cs = s.cs := by simp only [tripAtChoice]; (repeat' split) <;> simp
@[simp] theorem tripAtChoice_pins : (tripAtChoice r s).pins = s.pins := by simp only [tripAtChoice]; (repeat' split) <;> simp
@[simp] theorem tripAtChoice_free : (tripAtChoice r s).free = s.free := by simp only [tripAtChoice]; (repeat' split) <;> simp
@[simp] theorem tripAtChoice_pending : (tripAtChoice r s).pending = s.pending := by simp only [tripAtChoice]; (repeat' split) <;> simp
@[simp] theorem tripAtChoice_mp : (tripAtChoice r s).mp = s.mp := by simp only [tripAtChoice]; (repeat' split) <;> simp
end

section
variable (s : State)
@[simp] theorem breach_su : (breach s).su = s.su := by simp [breach]
@[simp] theorem breach_ciu : (breach s).ciu = s.ciu := by simp [breach]
@[simp] theorem breach_ri : (breach s).ri = s.ri := by simp [breach]
@[simp] theorem breach_pt : (breach s).pt = s.pt := by simp [breach]
@[simp] theorem breach_au : (breach s).au = s.au := by simp [breach]
@[simp] theorem breach_ze : (breach s).ze = s.ze := by simp [breach]
@[simp] theorem breach_tu : (breach s).tu = s.tu := by simp [breach]
@[simp] theorem breach_sc : (breach s).sc = s.sc := by simp [breach]
@[simp] theorem breach_cs : (breach s).cs = s.cs := by simp [breach]
@[simp] theorem breach_pins : (breach s).pins = s.pins := by simp [breach]
@[simp] theorem breach_free : (breach s).free = s.free := by simp [breach]
@[simp] theorem breach_pending : (breach s).pending = s.pending := by simp [breach]
@[simp] theorem breach_receiver : (breach s).mp.receiver = s.mp.receiver := by simp [breach]
@[simp] theorem breach_request : (breach s).mp.request = s.mp.request := by simp [breach]
@[simp] theorem breach_response : (breach s).mp.response = s.mp.response := by simp [breach]
@[simp] theorem breach_selection : (breach s).mp.selection = s.mp.selection := by simp [breach]
@[simp] theorem breach_portErrors : (breach s).mp.portErrors = s.mp.portErrors := by simp [breach]
end

section
variable (c : Settings) (s : State)
@[simp] theorem choiceStage_su : (choiceStage c s).su = s.su := by simp [choiceStage]
@[simp] theorem choiceStage_ciu : (choiceStage c s).ciu = s.ciu := by simp [choiceStage]
@[simp] theorem choiceStage_ri : (choiceStage c s).ri = s.ri := by simp [choiceStage]
@[simp] theorem choiceStage_pt : (choiceStage c s).pt = s.pt := by simp [choiceStage]
@[simp] theorem choiceStage_au : (choiceStage c s).au = s.au := by simp [choiceStage]
@[simp] theorem choiceStage_ze : (choiceStage c s).ze = s.ze := by simp [choiceStage]
@[simp] theorem choiceStage_cs : (choiceStage c s).cs = s.cs := by simp [choiceStage]
@[simp] theorem choiceStage_pins : (choiceStage c s).pins = s.pins := by simp [choiceStage]
@[simp] theorem choiceStage_free : (choiceStage c s).free = s.free := by simp [choiceStage]
@[simp] theorem choiceStage_pending : (choiceStage c s).pending = s.pending := by simp [choiceStage]
@[simp] theorem choiceStage_receiver : (choiceStage c s).mp.receiver = s.mp.receiver := by simp [choiceStage]
@[simp] theorem choiceStage_request : (choiceStage c s).mp.request = s.mp.request := by simp [choiceStage]
@[simp] theorem choiceStage_response : (choiceStage c s).mp.response = s.mp.response := by simp [choiceStage]
@[simp] theorem choiceStage_selection : (choiceStage c s).mp.selection = s.mp.selection := by simp [choiceStage]
@[simp] theorem choiceStage_portErrors : (choiceStage c s).mp.portErrors = s.mp.portErrors := by simp [choiceStage]
end

section
variable (s : State)
@[simp] theorem startConversions_ciu : (startConversions s).ciu = s.ciu := by simp [startConversions]
@[simp] theorem startConversions_ri : (startConversions s).ri = s.ri := by simp [startConversions]
@[simp] theorem startConversions_pt : (startConversions s).pt = s.pt := by simp [startConversions]
@[simp] theorem startConversions_au : (startConversions s).au = s.au := by simp [startConversions]
@[simp] theorem startConversions_ze : (startConversions s).ze = s.ze := by simp [startConversions]
@[simp] theorem startConversions_tu : (startConversions s).tu = s.tu := by simp [startConversions]
@[simp] theorem startConversions_sc : (startConversions s).sc = s.sc := by simp [startConversions]
@[simp] theorem startConversions_cs : (startConversions s).cs = s.cs := by simp [startConversions]
@[simp] theorem startConversions_pins : (startConversions s).pins = s.pins := by simp [startConversions]
@[simp] theorem startConversions_free : (startConversions s).free = s.free := by simp [startConversions]
@[simp] theorem startConversions_pending : (startConversions s).pending = s.pending := by simp [startConversions]
@[simp] theorem startConversions_mp : (startConversions s).mp = s.mp := by simp [startConversions]
end

section
variable (k : Contacts) (x : Bool) (s : State)
@[simp] theorem clockEpoch_ciu : (clockEpoch k x s).ciu = s.ciu := by simp [clockEpoch]
@[simp] theorem clockEpoch_ri : (clockEpoch k x s).ri = s.ri := by simp [clockEpoch]
@[simp] theorem clockEpoch_pt : (clockEpoch k x s).pt = s.pt := by simp [clockEpoch]
@[simp] theorem clockEpoch_au : (clockEpoch k x s).au = s.au := by simp [clockEpoch]
@[simp] theorem clockEpoch_ze : (clockEpoch k x s).ze = s.ze := by simp [clockEpoch]
@[simp] theorem clockEpoch_sc : (clockEpoch k x s).sc = s.sc := by simp [clockEpoch]
@[simp] theorem clockEpoch_cs : (clockEpoch k x s).cs = s.cs := by simp [clockEpoch]
@[simp] theorem clockEpoch_free : (clockEpoch k x s).free = s.free := by simp [clockEpoch]
@[simp] theorem clockEpoch_pending : (clockEpoch k x s).pending = s.pending := by simp [clockEpoch]
@[simp] theorem clockEpoch_mp : (clockEpoch k x s).mp = s.mp := by simp [clockEpoch]
end

section
variable (c : Settings) (k : Contacts) (x : Bool) (o : EpochOrder) (s : State)
@[simp] theorem epochParts_cs : (epochParts c k x o s).cs = s.cs := by
  have l : ∀ b s, (stageIf b (lateEvent c) s).cs = s.cs := fun b s => stageIf_keeps (fun s => s.cs) b _ (fun s => by simp) s
  have p : ∀ b s, (stageIf b (peerEpoch c) s).cs = s.cs := fun b s => stageIf_keeps (fun s => s.cs) b _ (fun s => by simp) s
  have r : ∀ b s, (stageIf b ringEpoch s).cs = s.cs := fun b s => stageIf_keeps (fun s => s.cs) b _ (fun s => by simp) s
  simp [epochParts, l, p, r]
@[simp] theorem epochParts_free : (epochParts c k x o s).free = s.free := by
  have l : ∀ b s, (stageIf b (lateEvent c) s).free = s.free := fun b s => stageIf_keeps (fun s => s.free) b _ (fun s => by simp) s
  have p : ∀ b s, (stageIf b (peerEpoch c) s).free = s.free := fun b s => stageIf_keeps (fun s => s.free) b _ (fun s => by simp) s
  have r : ∀ b s, (stageIf b ringEpoch s).free = s.free := fun b s => stageIf_keeps (fun s => s.free) b _ (fun s => by simp) s
  simp [epochParts, l, p, r]
@[simp] theorem epochParts_pending : (epochParts c k x o s).pending = s.pending := by
  have l : ∀ b s, (stageIf b (lateEvent c) s).pending = s.pending := fun b s => stageIf_keeps (fun s => s.pending) b _ (fun s => by simp) s
  have p : ∀ b s, (stageIf b (peerEpoch c) s).pending = s.pending := fun b s => stageIf_keeps (fun s => s.pending) b _ (fun s => by simp) s
  have r : ∀ b s, (stageIf b ringEpoch s).pending = s.pending := fun b s => stageIf_keeps (fun s => s.pending) b _ (fun s => by simp) s
  simp [epochParts, l, p, r]
@[simp] theorem epochParts_receiver : (epochParts c k x o s).mp.receiver = s.mp.receiver := by
  have l : ∀ b s, (stageIf b (lateEvent c) s).mp.receiver = s.mp.receiver := fun b s => stageIf_keeps (fun s => s.mp.receiver) b _ (fun s => by simp) s
  have p : ∀ b s, (stageIf b (peerEpoch c) s).mp.receiver = s.mp.receiver := fun b s => stageIf_keeps (fun s => s.mp.receiver) b _ (fun s => by simp) s
  have r : ∀ b s, (stageIf b ringEpoch s).mp.receiver = s.mp.receiver := fun b s => stageIf_keeps (fun s => s.mp.receiver) b _ (fun s => by simp) s
  simp [epochParts, l, p, r]
@[simp] theorem epochParts_request : (epochParts c k x o s).mp.request = s.mp.request := by
  have l : ∀ b s, (stageIf b (lateEvent c) s).mp.request = s.mp.request := fun b s => stageIf_keeps (fun s => s.mp.request) b _ (fun s => by simp) s
  have p : ∀ b s, (stageIf b (peerEpoch c) s).mp.request = s.mp.request := fun b s => stageIf_keeps (fun s => s.mp.request) b _ (fun s => by simp) s
  have r : ∀ b s, (stageIf b ringEpoch s).mp.request = s.mp.request := fun b s => stageIf_keeps (fun s => s.mp.request) b _ (fun s => by simp) s
  simp [epochParts, l, p, r]
@[simp] theorem epochParts_response : (epochParts c k x o s).mp.response = s.mp.response := by
  have l : ∀ b s, (stageIf b (lateEvent c) s).mp.response = s.mp.response := fun b s => stageIf_keeps (fun s => s.mp.response) b _ (fun s => by simp) s
  have p : ∀ b s, (stageIf b (peerEpoch c) s).mp.response = s.mp.response := fun b s => stageIf_keeps (fun s => s.mp.response) b _ (fun s => by simp) s
  have r : ∀ b s, (stageIf b ringEpoch s).mp.response = s.mp.response := fun b s => stageIf_keeps (fun s => s.mp.response) b _ (fun s => by simp) s
  simp [epochParts, l, p, r]
@[simp] theorem epochParts_selection : (epochParts c k x o s).mp.selection = s.mp.selection := by
  have l : ∀ b s, (stageIf b (lateEvent c) s).mp.selection = s.mp.selection := fun b s => stageIf_keeps (fun s => s.mp.selection) b _ (fun s => by simp) s
  have p : ∀ b s, (stageIf b (peerEpoch c) s).mp.selection = s.mp.selection := fun b s => stageIf_keeps (fun s => s.mp.selection) b _ (fun s => by simp) s
  have r : ∀ b s, (stageIf b ringEpoch s).mp.selection = s.mp.selection := fun b s => stageIf_keeps (fun s => s.mp.selection) b _ (fun s => by simp) s
  simp [epochParts, l, p, r]
@[simp] theorem epochParts_portErrors : (epochParts c k x o s).mp.portErrors = s.mp.portErrors := by
  have l : ∀ b s, (stageIf b (lateEvent c) s).mp.portErrors = s.mp.portErrors := fun b s => stageIf_keeps (fun s => s.mp.portErrors) b _ (fun s => by simp) s
  have p : ∀ b s, (stageIf b (peerEpoch c) s).mp.portErrors = s.mp.portErrors := fun b s => stageIf_keeps (fun s => s.mp.portErrors) b _ (fun s => by simp) s
  have r : ∀ b s, (stageIf b ringEpoch s).mp.portErrors = s.mp.portErrors := fun b s => stageIf_keeps (fun s => s.mp.portErrors) b _ (fun s => by simp) s
  simp [epochParts, l, p, r]
end

section
variable (c : Settings) (k : Contacts) (x : Bool) (o : EpochOrder) (s : State)
@[simp] theorem epochEvent_cs : (epochEvent c k x o s).cs = s.cs := by simp [epochEvent]
@[simp] theorem epochEvent_free : (epochEvent c k x o s).free = s.free := by simp [epochEvent]
@[simp] theorem epochEvent_pending : (epochEvent c k x o s).pending = s.pending := by simp [epochEvent]
@[simp] theorem epochEvent_receiver : (epochEvent c k x o s).mp.receiver = s.mp.receiver := by simp [epochEvent]
@[simp] theorem epochEvent_request : (epochEvent c k x o s).mp.request = s.mp.request := by simp [epochEvent]
@[simp] theorem epochEvent_response : (epochEvent c k x o s).mp.response = s.mp.response := by simp [epochEvent]
@[simp] theorem epochEvent_selection : (epochEvent c k x o s).mp.selection = s.mp.selection := by simp [epochEvent]
@[simp] theorem epochEvent_portErrors : (epochEvent c k x o s).mp.portErrors = s.mp.portErrors := by simp [epochEvent]
end

section
variable (c : Settings) (k : Contacts) (s : State)
@[simp] theorem startEpochs_cs : (startEpochs c k s).cs = s.cs := by simp [startEpochs]
@[simp] theorem startEpochs_free : (startEpochs c k s).free = s.free := by simp [startEpochs]
@[simp] theorem startEpochs_pending : (startEpochs c k s).pending = s.pending := by simp [startEpochs]
@[simp] theorem startEpochs_receiver : (startEpochs c k s).mp.receiver = s.mp.receiver := by simp [startEpochs]
@[simp] theorem startEpochs_request : (startEpochs c k s).mp.request = s.mp.request := by simp [startEpochs]
@[simp] theorem startEpochs_response : (startEpochs c k s).mp.response = s.mp.response := by simp [startEpochs]
@[simp] theorem startEpochs_selection : (startEpochs c k s).mp.selection = s.mp.selection := by simp [startEpochs]
@[simp] theorem startEpochs_portErrors : (startEpochs c k s).mp.portErrors = s.mp.portErrors := by simp [startEpochs]
end

section
variable (p : Port) (s : State)
@[simp] theorem tickEcho_su : (tickEcho p s).su = s.su := by simp only [tickEcho]; (repeat' split) <;> simp
@[simp] theorem tickEcho_ciu : (tickEcho p s).ciu = s.ciu := by simp only [tickEcho]; (repeat' split) <;> simp
@[simp] theorem tickEcho_pt : (tickEcho p s).pt = s.pt := by simp only [tickEcho]; (repeat' split) <;> simp
@[simp] theorem tickEcho_au : (tickEcho p s).au = s.au := by simp only [tickEcho]; (repeat' split) <;> simp
@[simp] theorem tickEcho_ze : (tickEcho p s).ze = s.ze := by simp only [tickEcho]; (repeat' split) <;> simp
@[simp] theorem tickEcho_tu : (tickEcho p s).tu = s.tu := by simp only [tickEcho]; (repeat' split) <;> simp
@[simp] theorem tickEcho_sc : (tickEcho p s).sc = s.sc := by simp only [tickEcho]; (repeat' split) <;> simp
@[simp] theorem tickEcho_cs : (tickEcho p s).cs = s.cs := by simp only [tickEcho]; (repeat' split) <;> simp
@[simp] theorem tickEcho_pins : (tickEcho p s).pins = s.pins := by simp only [tickEcho]; (repeat' split) <;> simp
@[simp] theorem tickEcho_free : (tickEcho p s).free = s.free := by simp only [tickEcho]; (repeat' split) <;> simp
@[simp] theorem tickEcho_pending : (tickEcho p s).pending = s.pending := by simp only [tickEcho]; (repeat' split) <;> simp
@[simp] theorem tickEcho_receiver : (tickEcho p s).mp.receiver = s.mp.receiver := by simp only [tickEcho]; (repeat' split) <;> simp
@[simp] theorem tickEcho_request : (tickEcho p s).mp.request = s.mp.request := by simp only [tickEcho]; (repeat' split) <;> simp
@[simp] theorem tickEcho_response : (tickEcho p s).mp.response = s.mp.response := by simp only [tickEcho]; (repeat' split) <;> simp
@[simp] theorem tickEcho_selection : (tickEcho p s).mp.selection = s.mp.selection := by simp only [tickEcho]; (repeat' split) <;> simp
@[simp] theorem tickEcho_portErrors : (tickEcho p s).mp.portErrors = s.mp.portErrors := by simp only [tickEcho]; (repeat' split) <;> simp
end

section
variable (p : Port) (s : State)
@[simp] theorem tickTransmission_su : (tickTransmission p s).su = s.su := by simp only [tickTransmission]; (repeat' split) <;> simp
@[simp] theorem tickTransmission_ciu : (tickTransmission p s).ciu = s.ciu := by simp only [tickTransmission]; (repeat' split) <;> simp
@[simp] theorem tickTransmission_pt : (tickTransmission p s).pt = s.pt := by simp only [tickTransmission]; (repeat' split) <;> simp
@[simp] theorem tickTransmission_au : (tickTransmission p s).au = s.au := by simp only [tickTransmission]; (repeat' split) <;> simp
@[simp] theorem tickTransmission_ze : (tickTransmission p s).ze = s.ze := by simp only [tickTransmission]; (repeat' split) <;> simp
@[simp] theorem tickTransmission_tu : (tickTransmission p s).tu = s.tu := by simp only [tickTransmission]; (repeat' split) <;> simp
@[simp] theorem tickTransmission_sc : (tickTransmission p s).sc = s.sc := by simp only [tickTransmission]; (repeat' split) <;> simp
@[simp] theorem tickTransmission_cs : (tickTransmission p s).cs = s.cs := by simp only [tickTransmission]; (repeat' split) <;> simp
@[simp] theorem tickTransmission_pins : (tickTransmission p s).pins = s.pins := by simp only [tickTransmission]; (repeat' split) <;> simp
@[simp] theorem tickTransmission_free : (tickTransmission p s).free = s.free := by simp only [tickTransmission]; (repeat' split) <;> simp
@[simp] theorem tickTransmission_pending : (tickTransmission p s).pending = s.pending := by simp only [tickTransmission]; (repeat' split) <;> simp
@[simp] theorem tickTransmission_receiver : (tickTransmission p s).mp.receiver = s.mp.receiver := by simp only [tickTransmission]; (repeat' split) <;> simp
@[simp] theorem tickTransmission_request : (tickTransmission p s).mp.request = s.mp.request := by simp only [tickTransmission]; (repeat' split) <;> simp
@[simp] theorem tickTransmission_response : (tickTransmission p s).mp.response = s.mp.response := by simp only [tickTransmission]; (repeat' split) <;> simp
@[simp] theorem tickTransmission_selection : (tickTransmission p s).mp.selection = s.mp.selection := by simp only [tickTransmission]; (repeat' split) <;> simp
@[simp] theorem tickTransmission_portErrors : (tickTransmission p s).mp.portErrors = s.mp.portErrors := by simp only [tickTransmission]; (repeat' split) <;> simp
end

end Sys2Proof.Machine
end

