-- ==== Sys2Proof/Laws/Ports.lean ====
section
/-! SUPPORT. The two ports, the moment of an event and the commands of a running station: what a reading of a port gives after an
update, and when the arbiter finds no own frame overdue. -/

namespace Sys2Proof.Machine

open Sys2Proof

theorem running_of {s : State} {c : Settings} (h : Runs c s) : s.running = some c := by
  simp [State.running, h.1, h.2]

@[simp] theorem Ring.port_updPort (r : Ring) (p f) : (r.updPort p f).port p = f (r.port p) := by cases p <;> rfl
@[simp] theorem Ring.port_updPort_other (r : Ring) (p f) : (r.updPort p f).port (otherPort p) = r.port (otherPort p) := by
  cases p <;> rfl
@[simp] theorem Ring.port_updPort_other' (r : Ring) (p f) : (r.updPort (otherPort p) f).port p = r.port p := by cases p <;> rfl
@[simp] theorem Ring.updPort_updPort (r : Ring) (p f g) : (r.updPort p f).updPort p g = r.updPort p (fun q => g (f q)) := by
  cases p <;> rfl
@[simp] theorem State.port_updPort (s : State) (p f) : (s.updPort p f).port p = f (s.port p) := by simp [State.port]
@[simp] theorem State.port_updPort_other (s : State) (p f) : (s.updPort p f).port (otherPort p) = s.port (otherPort p) := by
  simp [State.port]
@[simp] theorem State.port_updPort_other' (s : State) (p f) : (s.updPort (otherPort p) f).port p = s.port p := by simp [State.port]
@[simp] theorem State.updPort_updPort (s : State) (p f g) : (s.updPort p f).updPort p g = s.updPort p (fun q => g (f q)) := by
  simp [State.updPort, State.updRi]
@[simp] theorem otherPort_otherPort (p) : otherPort (otherPort p) = p := by cases p <;> rfl

theorem State.updPort_congr (s : State) (p f g) (h : f (s.port p) = g (s.port p)) : s.updPort p f = s.updPort p g := by
  cases p <;> simp_all [State.updPort, State.updRi, Ring.updPort, State.port, Ring.port]

theorem State.updPort_id (s : State) (p f) (h : f (s.port p) = s.port p) : s.updPort p f = s := by
  cases p <;> simp_all [State.updPort, State.updRi, Ring.updPort, State.port, Ring.port]

theorem opens_false_answer {lt q} (h : q.answer ≠ none) : opensRing lt q = false := by
  unfold opensRing; split <;> simp_all

theorem opens_false_link {lt q} (h : q.link ≠ .up) : opensRing lt q = false := by
  unfold opensRing; split <;> simp_all

theorem opens_false_due {lt} {q : PortState} (h : q.echoDue = true) : opensRing lt q = false := by
  unfold opensRing; split <;> simp_all

theorem opens_false_own {lt} {q : PortState} (h : q.own = none) : opensRing lt q = false := by
  unfold opensRing; split <;> simp_all

theorem opens_false_tx {lt} {q : PortState} (h : q.tx ≠ none) : opensRing lt q = false := by
  unfold opensRing; split <;> simp_all

theorem mp_flags {m m' : Maint} (h1 : m'.receiver = m.receiver) (h2 : m'.request = m.request) (h3 : m'.response = m.response)
    (h4 : m'.selection = m.selection) (h5 : m'.portErrors = m.portErrors) : m' = { m with flags := m'.flags } := by
  cases m; cases m'; simp_all

theorem state_ext {s t : State} (h1 : s.su = t.su) (h2 : s.ciu = t.ciu) (h3 : s.ri = t.ri) (h4 : s.pt = t.pt) (h5 : s.au = t.au)
    (h6 : s.ze = t.ze) (h7 : s.tu = t.tu) (h8 : s.sc = t.sc) (h9 : s.cs = t.cs) (h10 : s.mp = t.mp) (h11 : s.pins = t.pins) (h12
    : s.free = t.free) (h13 : s.pending = t.pending) : s = t := by
  cases s; cases t; simp_all

theorem whileRunning_eq {c : Settings} {s : State} {f} (h : Runs c s) : whileRunning f s = f c s := by
  simp [whileRunning, running_of h]

theorem setRx_runs {c p b s} (h : Runs c s) : Runs c (setRx p b s) := h

/-! ## The passing of time -/

theorem settle_eq {c s} (h : Runs c s) : settle s = arbitrateBoth c s := by simp [settle, running_of h]

/-- What the movement of the clock does while epochs run. -/
theorem advanceTo_eq {s} (h : s.su.gen = .running) (m) : advanceTo m s = atMoment (min m 9999) s := by
  unfold advanceTo atMoment
  rw [h]
  simp only
  split_ifs <;> first | rfl | omega | skip
  simp only [passTicks, State.updSu, settle_su]
  rw [show s.su.phase + (min m 9999 - s.su.phase) = min m 9999 by omega]

theorem advanceTo_atMoment {m s} (h : s.su.gen = .running) (h1 : m < 10000) : advanceTo m s = atMoment m s := by
  rw [advanceTo_eq h, Nat.min_eq_left (by omega)]

/-- A later moment of the same epoch changes LT, the phase, the ring and the alarm flags alone. -/
theorem atMoment_form (m s) : ∃ r, atMoment m s =
    { s with
      su := { s.su with lt := (atMoment m s).su.lt, phase := (atMoment m s).su.phase }, ri := r
      mp := { s.mp with flags := (atMoment m s).mp.flags } } := by
  unfold atMoment; split_ifs
  · exact ⟨_, rfl⟩
  · refine ⟨(settle s).ri, ?_⟩
    rw [← mp_flags (settle_receiver s) (settle_request s) (settle_response s) (settle_selection s) (settle_portErrors s)]
    simp only
    refine state_ext ?_ ?_ ?_ ?_ ?_ ?_ ?_ ?_ ?_ ?_ ?_ ?_ ?_ <;> simp

section
variable (m : Nat) (s : State)
@[simp] theorem atMoment_ciu : (atMoment m s).ciu = s.ciu := by unfold atMoment; split_ifs <;> simp
@[simp] theorem atMoment_pt : (atMoment m s).pt = s.pt := by unfold atMoment; split_ifs <;> simp
@[simp] theorem atMoment_au : (atMoment m s).au = s.au := by unfold atMoment; split_ifs <;> simp
@[simp] theorem atMoment_ze : (atMoment m s).ze = s.ze := by unfold atMoment; split_ifs <;> simp
@[simp] theorem atMoment_tu : (atMoment m s).tu = s.tu := by unfold atMoment; split_ifs <;> simp
@[simp] theorem atMoment_sc : (atMoment m s).sc = s.sc := by unfold atMoment; split_ifs <;> simp
@[simp] theorem atMoment_cs : (atMoment m s).cs = s.cs := by unfold atMoment; split_ifs <;> simp
@[simp] theorem atMoment_pins : (atMoment m s).pins = s.pins := by unfold atMoment; split_ifs <;> simp
@[simp] theorem atMoment_free : (atMoment m s).free = s.free := by unfold atMoment; split_ifs <;> simp
@[simp] theorem atMoment_pending : (atMoment m s).pending = s.pending := by unfold atMoment; split_ifs <;> simp
@[simp] theorem atMoment_entry (b) : (atMoment m s).entry b = s.entry b := by simp [State.entry]
@[simp] theorem atMoment_gen : (atMoment m s).su.gen = s.su.gen := by unfold atMoment; split_ifs <;> rfl
@[simp] theorem atMoment_chans : (atMoment m s).su.chans = s.su.chans := by unfold atMoment; split_ifs <;> rfl
@[simp] theorem atMoment_flight : (atMoment m s).su.flight = s.su.flight := by unfold atMoment; split_ifs <;> rfl
end

theorem atMoment_su {m} {s : State} (h : s.su.phase ≤ m) :
    (atMoment m s).su = { s.su with lt := s.su.lt + BitVec.ofNat 32 (m - s.su.phase), phase := m } := by
  unfold atMoment; split_ifs
  · have : m = s.su.phase := by omega
    subst this; simp
  · rfl

theorem atMoment_runs {c m s} (h : Runs c s) : Runs c (atMoment m s) := ⟨by simp [h.1], by simp [h.2]⟩

end Sys2Proof.Machine
end

