-- ==== Sys2Proof/Laws/Arrivals.lean ====
section
/-! SUPPORT. What a reception tests, what the peer table tests, and what an arbiter does to a port, each said once (R34, R35, R43, R53,
R66 to R69). -/

namespace Sys2Proof.Machine

open Sys2Proof

/-! ## Receptions -/

/-- A good bay frame takes 128 ticks on the link. -/
theorem frameTicks_bay {bytes f} (h : checkFrame bytes = some (.bay f)) : frameTicks bytes = 128 := by
  unfold checkFrame at h
  split at h
  · split at h
    · unfold frameTicks; rw [if_neg (by omega)]; rfl
    · simp at h
  · repeat' split at h
    all_goals simp at h

/-- A good echo request takes 48 ticks on the link. -/
theorem frameTicks_request {bytes n} (h : checkFrame bytes = some (.request n)) : frameTicks bytes = 48 := by
  unfold checkFrame at h
  split at h
  · split at h
    · cases hb : bayFields bytes <;> simp [hb] at h
    · simp at h
  · split at h
    · split at h
      · unfold frameTicks; rw [if_pos (by omega)]; rfl
      · simp at h
    · simp at h

/-- A good echo answer takes 48 ticks on the link. -/
theorem frameTicks_answer {bytes n t} (h : checkFrame bytes = some (.answer n t)) : frameTicks bytes = 48 := by
  unfold checkFrame at h
  split at h
  · split at h
    · cases hb : bayFields bytes <;> simp [hb] at h
    · simp at h
  · split at h
    · split at h
      · unfold frameTicks; rw [if_pos (by omega)]; rfl
      · simp at h
    · simp at h

theorem uncut_iff {q : PortState} {t n} : Uncut q t n ↔ q.cutOff t n = false := by
  unfold Uncut PortState.cutOff
  cases h : q.cutAt <;> simp

theorem takesFrames_of {q : PortState} (h : q.link ≠ .down ∨ (q.hold ≠ 0 ∧ q.rx = true)) : q.takesFrames = true := by
  unfold PortState.takesFrames
  rcases h with h | ⟨h, h'⟩ <;> simp [h]
  exact .inr ⟨by omega, h'⟩

/-! ## The tests of the peer table -/

theorem sidePresent_iff (present : SectSet) (o : Option Sect) :
    sidePresent present o = true ↔ ∀ x, o = some x → present.get x = true := by
  cases o <;> simp [sidePresent]

/-- A frame has no misfit exactly when it fits the entry (R66). -/
theorem misfit_none_iff (c : Settings) (e : PeerEntry) (f : BayFrame) : misfit c.present e f = none ↔ Fits c e f := by
  have h1 : (e.tag.isSome = true ∧ e.tag ≠ some f.tag) ↔ ¬ ∀ x, e.tag = some x → x = f.tag := by cases e.tag <;> simp
  have h2 : (e.decl.isSome = true ∧ e.decl ≠ some f.decl) ↔ ¬ ∀ x, e.decl = some x → x = f.decl := by cases e.decl <;> simp
  have h3 : (!sidePresent c.present f.decl.side1 || !sidePresent c.present f.decl.side2 || f.decl.malformed) = true ↔
      ¬ ((∀ x, f.decl.side1 = some x ∨ f.decl.side2 = some x → c.present.get x = true) ∧ f.decl.side1 ≠ none ∧
        f.decl.side1 ≠ f.decl.side2 ∧ (f.decl.kind = .tie → f.decl.side2 ≠ none)) := by
    rw [← Bool.not_eq_false, not_iff_not]
    simp only [Bool.or_eq_false_iff, Bool.not_eq_false', sidePresent_iff, Decl.malformed, Option.isNone_eq_false_iff,
      decide_eq_false_iff_not, Bool.and_eq_false_iff, Option.isSome_iff_ne_none]
    constructor
    · rintro ⟨⟨p1, p2⟩, ⟨p3, p4⟩, p5⟩
      exact ⟨fun x hx => hx.elim (p1 x) (p2 x), p3, p4, fun hk => p5.resolve_left (fun hn => hn hk)⟩
    · rintro ⟨p1, p2, p3, p4⟩
      exact ⟨⟨fun x hx => p1 x (.inl hx), fun x hx => p1 x (.inr hx)⟩, ⟨p2, p3⟩,
        (Classical.em (f.decl.kind = .tie)).elim (fun hk => .inr (p4 hk)) .inl⟩
  unfold misfit Fits
  split_ifs with q1 q2 q3
  · rw [h1] at q1; exact iff_of_false (by simp) fun h => q1 h.1
  · rw [h2] at q2; exact iff_of_false (by simp) fun h => q2 h.2.1
  · rw [h3] at q3; exact iff_of_false (by simp) fun h => q3 h.2.2
  · rw [h1, not_not] at q1; rw [h2, not_not] at q2; rw [h3, not_not] at q3; exact iff_of_true rfl ⟨q1, q2, q3⟩

theorem sequencePasses_iff (e : PeerEntry) (q : SeqNo) : sequencePasses e q = true ↔ Newer e q := by
  unfold sequencePasses Newer
  rcases hp : e.presence <;> rcases hl : e.lastSeq <;> simp

theorem instantPasses_iff (e : PeerEntry) (t : Ticks) : instantPasses e t = true ↔ Later e t := by
  unfold instantPasses Later
  rcases hp : e.history.getLast? <;> simp [since]

/-! ## Arbiters -/

theorem arbitrate_port (c p s) : (arbitrate c p s).port p = arbitratePort c s.su.lt (s.port p) := by simp [arbitrate, State.port]

theorem arbitrate_port_other (c p s) : (arbitrate c p s).port (otherPort p) = s.port (otherPort p) := by simp [arbitrate, State.port]

theorem arbitrateBoth_port (c p s) : (arbitrateBoth c s).port p = arbitratePort c s.su.lt (s.port p) := by
  unfold arbitrateBoth
  cases p
  · rw [show Port.east = otherPort .west from rfl, arbitrate_port_other]; exact arbitrate_port _ _ _
  · rw [arbitrate_port]; simp only [arbitrate_su]; congr 1; exact arbitrate_port_other _ .east _

/-- A transmitter that is sending is left alone. -/
theorem arbitratePort_busy (c lt) (q : PortState) (h : q.tx.isSome = true) : arbitratePort c lt q = q := by
  unfold arbitratePort; split <;> simp_all

/-- A free transmitter with no answer waiting takes a request that is due. -/
theorem arbitratePort_due (c lt) (q : PortState) (h : q.tx = none) (h1 : q.answer = none) (h2 : q.echoDue = true) :
    arbitratePort c lt q = sendRequest c lt q := by
  unfold arbitratePort; split <;> simp_all

/-- What no departure changes: the link state with its delay and holds, and the receptions. -/
def SameLink (t q : PortState) : Prop :=
  t.link = q.link ∧ t.hold = q.hold ∧ t.rx = q.rx ∧ t.delay = q.delay ∧ t.turnaround = q.turnaround ∧ t.losses = q.losses ∧
  t.cutAt = q.cutAt

/-- The departure of a bay frame leaves the echo too. -/
def SameEcho (t q : PortState) : Prop := t.interval = q.interval ∧ t.echoDue = q.echoDue ∧ t.outstanding = q.outstanding

theorem sendTransit_keeps (lt l) : ∀ q, SameLink (sendTransit lt q l) q ∧ SameEcho (sendTransit lt q l) q := by
  unfold SameLink SameEcho
  induction l with
  | nil => intro q; simp [sendTransit]
  | cons x l ih => intro q; unfold sendTransit; split_ifs <;> simp [ih]

theorem sendBay_keeps (lt) (q : PortState) : SameLink (sendBay lt q) q ∧ SameEcho (sendBay lt q) q := by
  unfold sendBay
  split
  · split_ifs
    · exact sendTransit_keeps lt q.transit _
    · unfold SameLink SameEcho; simp [sendOwn, departList]; split_ifs <;> simp
  · exact sendTransit_keeps lt q.transit q

/-- An arbiter leaves the link; with no request due it leaves the echo, and a request is outstanding after it if one was before. -/
theorem arbitratePort_keeps (c lt) (q : PortState) : let t := arbitratePort c lt q
    SameLink t q ∧ (q.echoDue = false → SameEcho t q) ∧ (q.outstanding.isSome = true → t.outstanding.isSome = true) := by
  obtain ⟨k1, k2⟩ := sendBay_keeps lt q
  dsimp only
  unfold arbitratePort
  split
  · simp [SameLink, SameEcho]
  · simp [SameLink, SameEcho, sendAnswer]
  · split_ifs
    · simp_all [SameLink, SameEcho, sendRequest]
    · exact ⟨k1, fun _ => k2, fun h => by rw [k2.2.2]; exact h⟩
    · simp [SameLink, SameEcho]

theorem settle_port {c s} (h : Runs c s) (p) : (settle s).port p = arbitratePort c s.su.lt (s.port p) := by
  rw [settle_eq h, arbitrateBoth_port]

/-- The ports at a later moment: the arbiters have chosen, and the link of neither has changed. -/
theorem atMoment_port {c s} (h : Runs c s) (m p) : (atMoment m s).port p =
    if m ≤ s.su.phase then s.port p else arbitratePort c s.su.lt (s.port p) := by
  unfold atMoment; split_ifs
  · rfl
  · exact settle_port h p

theorem atMoment_link {c s} (h : Runs c s) (m p) : SameLink ((atMoment m s).port p) (s.port p) := by
  rw [atMoment_port h]; split_ifs
  · simp [SameLink]
  · exact (arbitratePort_keeps ..).1

/-- A transmitter that an arbiter leaves free has nothing left that it could take. -/
theorem sendTransit_idle (lt l) : ∀ q, (sendTransit lt q l).tx = none → (sendTransit lt q l).transit = [] ∧
    (sendTransit lt q l).own = q.own ∧ (sendTransit lt q l).answer = q.answer := by
  induction l with
  | nil => intro q _; simp [sendTransit]
  | cons x l ih => intro q h; unfold sendTransit at h ⊢; split_ifs at h ⊢ <;> simp_all

theorem sendBay_idle (lt) (q : PortState) (h : (sendBay lt q).tx = none) : (sendBay lt q).transit = [] ∧
    (sendBay lt q).own = none ∧ (sendBay lt q).answer = q.answer := by
  unfold sendBay at *
  split at h <;> rename_i e
  · split_ifs at h ⊢
    · have := sendTransit_idle _ _ _ h; simpa using this
    · simp only [sendOwn, departList] at h; split_ifs at h <;> simp at h
  · have := sendTransit_idle _ _ _ h; simpa [e] using this

/-- An arbiter that has chosen chooses nothing more. -/
theorem arbitratePort_again (c lt) (q : PortState) : arbitratePort c lt (arbitratePort c lt q) = arbitratePort c lt q := by
  by_cases h : (arbitratePort c lt q).tx = none
  · rcases h1 : q.tx with _ | x
    · rcases h2 : q.answer with _ | a
      · by_cases h3 : q.echoDue = true
        · rw [arbitratePort_due c lt q h1 h2 h3] at h; simp [sendRequest] at h
        · by_cases h4 : q.link = .up
          · have e : arbitratePort c lt q = sendBay lt q := by simp [arbitratePort, h1, h2, h3, h4]
            rw [e] at h ⊢
            obtain ⟨a, b, d⟩ := sendBay_idle lt q h
            obtain ⟨⟨k1, -⟩, -, k2, -⟩ := sendBay_keeps lt q
            rw [← k1] at h4; rw [← k2] at h3; rw [← d] at h2
            generalize sendBay lt q = r at *
            clear d k1 k2 e; rcases r; simp only at h h2 h3 h4 a b; subst h h2 h4 a b
            simp [arbitratePort, sendBay, sendTransit, h3]
          · have e : arbitratePort c lt q = q := by simp [arbitratePort, h1, h2, h3, h4]
            rw [e, e]
      · simp [arbitratePort, h1, h2, sendAnswer] at h
    · rw [arbitratePort_busy c lt q (by simp [h1])] at h; simp [h1] at h
  · exact arbitratePort_busy _ _ _ (by cases hh : (arbitratePort c lt q).tx <;> simp_all)

theorem opensRing_again (c lt) (q : PortState) : opensRing lt (arbitratePort c lt q) = false := by
  have k := arbitratePort_again c lt q
  rcases h : (arbitratePort c lt q).tx with _ | x
  · generalize arbitratePort c lt q = r at *
    by_cases ho : opensRing lt r = true
    · exfalso
      unfold opensRing at ho
      split at ho
      · rename_i o h1 h2 h3
        simp only [Bool.and_eq_true, decide_eq_true_eq, Bool.not_eq_true'] at ho
        obtain ⟨⟨⟨g1, g2⟩, g3⟩, -⟩ := ho
        have e : arbitratePort c lt r = sendOwn lt o r := by
          simp only [arbitratePort, sendBay, h1, h2, h3, g1, g2, Bool.false_eq_true, if_false, if_true]
          exact if_neg (by omega)
        rw [e] at k
        have := congrArg PortState.tx k
        simp only [sendOwn, departList, h1] at this
        split at this <;> cases this
      · simp at ho
    · simpa using ho
  · exact opens_false_tx (by simp [h])

/-- The arbiters' choice is made once a tick. -/
theorem arbitrateBoth_again (c) (s : State) : arbitrateBoth c (arbitrateBoth c s) = arbitrateBoth c s := by
  have one : ∀ p (t : State), t.port p = arbitratePort c t.su.lt (s.port p) → arbitrate c p t = t := by
    intro p t h
    unfold arbitrate
    rw [h, opensRing_again]
    exact State.updPort_id _ _ _ (by rw [h, arbitratePort_again])
  have hp : ∀ p, (arbitrateBoth c s).port p = arbitratePort c (arbitrateBoth c s).su.lt (s.port p) := fun p => by
    rw [arbitrateBoth_port, arbitrateBoth_su]
  rw [show arbitrateBoth c (arbitrateBoth c s) = arbitrate c .west (arbitrate c .east (arbitrateBoth c s)) from rfl,
    one _ _ (hp _), one _ _ (hp _)]

theorem settle_again (s : State) : settle (settle s) = settle s := by
  rcases h : s.running with _ | c
  · simp [settle, h]
  · have : (arbitrateBoth c s).running = some c := by rw [← h]; simp [State.running]
    simp only [settle, h, this, arbitrateBoth_again]

/-- What the arbiters change: the ports, and RING OPEN. -/
theorem arbitrateBoth_flags (c) (s : State) : arbitrateBoth c s =
    raiseIf (opensRing s.su.lt (s.port .east) || opensRing s.su.lt (s.port .west)) .ringOpen
      { s with ri := { s.ri with
          east := arbitratePort c s.su.lt (s.port .east), west := arbitratePort c s.su.lt (s.port .west) } } := by
  unfold arbitrateBoth arbitrate
  have h2 : (raiseIf (opensRing s.su.lt (s.port .east)) .ringOpen (s.updPort .east (arbitratePort c s.su.lt))).port .west
      = s.port .west := by simp [State.port]; rfl
  rw [h2]
  rw [raiseIf_su, State.updPort_su]
  cases opensRing s.su.lt (s.port .east) <;> cases opensRing s.su.lt (s.port .west) <;>
    first
      | rfl
      | (simp only [raiseIf, raise, withFlag, State.updMp, Bool.or_self, if_true, BitVec.or_assoc, BitVec.or_self,
          State.updPort, State.updRi, Ring.updPort, State.port, Ring.port])

/-- A request that is due goes at the end of the tick (R53). -/
theorem requestDeparts_of {c p} {s : State} (h : Runs c s) (h1 : (s.port p).echoDue = true) : RequestDeparts c p s := by
  intro h2 h3; rw [settle_port h, arbitratePort_due _ _ _ h2 h3 h1]; rfl

theorem runs_next {c} {s t : State} (h : Runs c s) (h1 : t.su.gen = s.su.gen) (h2 : t.cs = s.cs) : Runs c t :=
  ⟨by rw [h1, h.1], by rw [h2, h.2]⟩

end Sys2Proof.Machine
end

