-- ==== Sys2Proof/Laws/Bytes.lean ====
section
/-! SUPPORT. The bytes of numbers, codes and blocks: what a field written at a place reads back as, and the lengths (11, section
11.5). Rewrite with these rather than unfolding: a unification against the CRC of a concrete list does not end. -/

namespace Sys2Proof.Machine

open Sys2Proof

/-- Fields read back at their places: one byte, two, three, and a 32-bit number in four. -/
theorem num1_field {d : List Byte} {i n : Nat} (h : n < 2 ^ 8) (h0 : d.getD i 0 = BitVec.ofNat 8 n) : num1 d i = n := by
  simp only [num1, h0, BitVec.toNat_ofNat]; omega

theorem num2_field {d : List Byte} {i n : Nat} (h : n < 2 ^ 16) (h0 : d.getD i 0 = BitVec.ofNat 8 (n / 256))
    (h1 : d.getD (i + 1) 0 = BitVec.ofNat 8 n) : num2 d i = n := by
  simp only [num2, num1, h0, h1, BitVec.toNat_ofNat]; omega

theorem num4_field {d : List Byte} {i : Nat} (n : BitVec 32) (h0 : d.getD i 0 = BitVec.ofNat 8 (n.toNat / 16777216))
    (h1 : d.getD (i + 1) 0 = BitVec.ofNat 8 (n.toNat / 65536)) (h2 : d.getD (i + 2) 0 = BitVec.ofNat 8 (n.toNat / 256))
    (h3 : d.getD (i + 3) 0 = BitVec.ofNat 8 n.toNat) : num4 d i = n.toNat := by
  have := n.isLt
  simp only [num4, num2, num1, h0, h1, show i + 2 + 1 = i + 3 from rfl, h2, h3, BitVec.toNat_ofNat]; omega

theorem bayOf_number (b : Bay) : bayOf (bayNumber b) = some b := by
  unfold bayOf bayNumber; rw [dif_pos (by omega)]; simp
theorem num1_mk (bs : List Byte) (i : Nat) : num1 bs i = (bs.getD i 0).toNat := rfl
theorem kindOf_code (k) : kindOf (kindCode k) = some k := by cases k <;> rfl
theorem sideOf_code (x) : sideOf (sideCode x) = some x := by rcases x with _ | (_|_|_|_) <;> rfl
theorem sectOf_code (x) : sectOf (sectCode x) = some x := by cases x <;> rfl
theorem runOf_code (x) : runOf (runCode x) = some x := by cases x <;> rfl
theorem len_withCrc (bs : List Byte) : (withCrc bs).length = bs.length + 2 := by simp [withCrc, byte2]
theorem crcOk_withCrc (bs : List Byte) : crcOk (bs.length + 2) (withCrc bs) = true := by
  have h : (crc16 bs).toNat < 65536 := (crc16 bs).isLt
  simp [crcOk, withCrc, byte2, num2, num1]
  omega
theorem switchOf_code (x) : switchOf (switchCode x) = x := by cases x <;> rfl
theorem validityOf_code (x) : validityOf (validityCode x) = some x := by cases x <;> rfl
theorem sectsOf_code (s : SectSet) : sectsOf (sectsCode s) = s := by
  rcases s with ⟨_|_, _|_, _|_, _|_⟩ <;> rfl
theorem sectsCode_lt (s : SectSet) : sectsCode s < 16 := by
  rcases s with ⟨_|_, _|_, _|_, _|_⟩ <;> decide
theorem kindCode_lt (x) : kindCode x < 3 := by cases x <;> decide
theorem sectCode_lt (x) : sectCode x < 5 := by cases x <;> decide
theorem sideCode_lt (x) : sideCode x < 5 := by rcases x with _ | (_|_|_|_) <;> decide
theorem len1 (n) : (byte1 n).length = 1 := rfl
theorem len2 (n) : (byte2 n).length = 2 := rfl
theorem len3 (n) : (byte3 n).length = 3 := rfl
theorem lenb (n) : (boolByte n).length = 1 := rfl
theorem len_blockBody (c : Settings) : (blockBody c).length = 62 := by
  unfold blockBody
  repeat rw [List.length_append]
  rw [List.length_replicate]
  repeat rw [len3]
  repeat rw [len2]
  repeat rw [lenb]
  repeat rw [len1]
theorem body_split (c : Settings) : ∃ A, A.length = 46 ∧ blockBody c = A ++ List.replicate 16 0 := by
  unfold blockBody
  refine ⟨_, ?_, rfl⟩
  repeat rw [List.length_append]
  repeat rw [len3]
  repeat rw [len2]
  repeat rw [lenb]
  repeat rw [len1]

theorem blockBody_append (c : Settings) (z : List Byte) : blockBody c ++ z = byte2 c.scheme ++ (byte2 c.tag ++ (byte1
    (bayNumber c.bay) ++ (byte1 (kindCode c.kind) ++ (byte1 (sectCode c.side1) ++ (byte1 (sideCode c.side2) ++ (byte3
    c.installed.toNat ++ (byte1 (sectsCode c.present) ++ (byte2 c.scale ++ (boolByte c.inverted ++ (byte2 c.iMin ++ (byte1 c.k
    ++ (byte2 c.iChkMin ++ (byte1 c.kChk ++ (byte2 c.iOnset ++ (byte1 c.window ++ (byte1 c.nOp ++ (byte2 c.tStab ++ (byte1
    c.delay ++ (byte1 c.filterTick ++ (byte3 c.isoAlarm ++ (byte2 c.endZone ++ (byte2 c.tSeal ++ (byte2 c.tRetrip ++ (byte2
    c.tBf ++ (byte2 c.iBf ++ (boolByte c.breakerCheck ++ (byte3 c.alarmEnable.toNat ++ (List.replicate 16 0 ++
    z)))))))))))))))))))))))))))) := by
  unfold blockBody
  repeat rw [List.append_assoc]
theorem num1_byte1 (n) (l : List Byte) (h : n < 256) : num1 (byte1 n ++ l) 0 = n := by simp [num1, byte1]; omega
theorem num2_byte2 (n) (l : List Byte) (h : n < 65536) : num2 (byte2 n ++ l) 0 = n := by simp [num2, num1, byte2]; omega
theorem num3_byte3 (n) (l : List Byte) (h : n < 16777216) : num3 (byte3 n ++ l) 0 = n := by simp [num3, num2, num1, byte3]; omega
theorem num1_skip1 (n) (l : List Byte) (i : Nat) : num1 (byte1 n ++ l) (i+1) = num1 l i := rfl
theorem num1_skip2 (n) (l : List Byte) (i : Nat) : num1 (byte2 n ++ l) (i+2) = num1 l i := rfl
theorem num1_skip3 (n) (l : List Byte) (i : Nat) : num1 (byte3 n ++ l) (i+3) = num1 l i := rfl
theorem num1_skipb (n) (l : List Byte) (i : Nat) : num1 (boolByte n ++ l) (i+1) = num1 l i := rfl
theorem num2_skip1 (n) (l : List Byte) (i : Nat) : num2 (byte1 n ++ l) (i+1) = num2 l i := rfl
theorem num2_skip2 (n) (l : List Byte) (i : Nat) : num2 (byte2 n ++ l) (i+2) = num2 l i := rfl
theorem num2_skip3 (n) (l : List Byte) (i : Nat) : num2 (byte3 n ++ l) (i+3) = num2 l i := rfl
theorem num2_skipb (n) (l : List Byte) (i : Nat) : num2 (boolByte n ++ l) (i+1) = num2 l i := rfl
theorem num3_skip1 (n) (l : List Byte) (i : Nat) : num3 (byte1 n ++ l) (i+1) = num3 l i := rfl
theorem num3_skip2 (n) (l : List Byte) (i : Nat) : num3 (byte2 n ++ l) (i+2) = num3 l i := rfl
theorem num3_skip3 (n) (l : List Byte) (i : Nat) : num3 (byte3 n ++ l) (i+3) = num3 l i := rfl
theorem num3_skipb (n) (l : List Byte) (i : Nat) : num3 (boolByte n ++ l) (i+1) = num3 l i := rfl

end Sys2Proof.Machine
end

