-- ==== Sys2Proof/Laws/Epochs.lean ====
section
/-! SUPPORT. What an epoch makes of each port and of each peer entry, said once: the counts of R36, R37 and R72 and what they reach. -/

namespace Sys2Proof.Machine

open Sys2Proof

/-! ## Ports (R36, R37) -/

/-- A port after its epoch, at LT lt: the hold count or the echo interval count, and what it brings. -/
def portAtEpoch (lt : Ticks) (q : PortState) : PortState :=
  let q := forgetCut lt q
  if q.link = .down then
    if q.hold > 0 then
      let q := { q with hold := q.hold - 1 }
      if q.hold = 0 ∧ q.rx then { q with link := .probing, hold := 0, losses := 0, echoDue := true } else q
    else q
  else
    let q' := { q with interval := upTo 64 q.interval }
    if q'.outstanding = none ∧ q'.interval ≥ echoInterval q'.link then { q' with echoDue := true } else q'

/-- Forgetting a cut changes nothing else. -/
theorem forgetCut_eq (lt) (q : PortState) : forgetCut lt q = { q with cutAt := (forgetCut lt q).cutAt } := by
  unfold forgetCut; split <;> rfl

theorem portEpoch_port (p s) : (portEpoch p s).port p = portAtEpoch s.su.lt (s.port p) := by
  simp only [portEpoch, portAtEpoch, State.port_updPort]
  have hf : (forgetCut s.su.lt (s.port p)).link = (s.port p).link := by rw [forgetCut_eq]
  split
  · rename_i h1
    split
    · simp only [probeOp, State.port_updPort, h1, true_and]
      split
      · simp only [enterProbing, State.port_updPort]
      · simp [h1]
    · simp
  · rename_i h1
    simp only [echoDueOp, State.port_updPort, ne_eq, h1, not_false_eq_true, true_and]
    split
    · simp only [State.port_updPort]
    · simp

theorem portEpoch_port_other (p s) : (portEpoch p s).port (otherPort p) = s.port (otherPort p) := by
  simp only [portEpoch]
  split
  · split
    · simp only [probeOp]; split <;> simp [enterProbing]
    · simp
  · simp only [echoDueOp]; split <;> simp

/-- Each port at an epoch, by its own state alone. -/
theorem ringEpoch_port (p s) : (ringEpoch s).port p = portAtEpoch s.su.lt (s.port p) := by
  unfold ringEpoch
  have hq : ∀ p, (quietEpoch s).port p = s.port p := by intro p; cases p <;> rfl
  cases p
  · rw [show (Port.east) = otherPort .west from rfl, portEpoch_port_other, show otherPort .west = Port.east from rfl, portEpoch_port,
      hq]
    simp
  · rw [portEpoch_port, show Port.west = otherPort .east from rfl, portEpoch_port_other]; simp [hq, otherPort]

/-! ## Entries (R72 to R74) -/

/-- An entry after its epoch: its freshness and the marks it reaches. -/
def agedEntry (c : Settings) (b : Bay) (e : PeerEntry) : PeerEntry :=
  let e := { e with fresh := upTo 4095 e.fresh }
  let e := if b ≠ c.bay ∧ e.presence = .joining ∧ e.fresh ≥ 4 then { e with joinRun := 0 } else e
  let e := if b ≠ c.bay ∧ e.presence = .live ∧ e.fresh ≥ 24 then staleEntry e else e
  if b ≠ c.bay ∧ (e.presence = .stale ∨ e.presence = .joining) ∧ e.fresh ≥ 4000 then absentEntry e else e

theorem setEntry_entry (s : State) (b e) (h : s.pt.entries.length = 24) : (s.setEntry b e).entry b = e := by
  have hb : b.val < s.pt.entries.length := by rw [h]; exact b.2
  simp [State.setEntry, State.entry, Peers.entry, Peers.set, hb]

theorem setEntry_entry_ne (s : State) {b b'} (e) (h : b' ≠ b) : (s.setEntry b e).entry b' = s.entry b' := by
  have : b.val ≠ b'.val := fun e => h (Fin.ext e.symm)
  simp [State.setEntry, State.entry, Peers.entry, Peers.set, List.getElem?_set, this]

theorem setEntry_length (s : State) (b e) : (s.setEntry b e).pt.entries.length = s.pt.entries.length := by
  simp [State.setEntry, Peers.set]

theorem raiseIf_entry (x a) (s : State) (b) : (raiseIf x a s).entry b = s.entry b := by cases x <;> rfl

/-- One entry at an epoch: it ages, and the others stay. -/
theorem ageEntry_entry (c b) (s : State) (h : s.pt.entries.length = 24) :
    (ageEntry c b s).entry b = agedEntry c b (s.entry b) ∧ (∀ b', b' ≠ b → (ageEntry c b s).entry b' = s.entry b') ∧
    (ageEntry c b s).pt.entries.length = 24 := by
  have step : ∀ (f : State → State) (P : PeerEntry → Prop) (g : PeerEntry → PeerEntry) [DecidablePred P],
      (∀ s, (P (s.entry b) → ∃ x a, f s = raiseIf x a (s.setEntry b (g (s.entry b)))) ∧ (¬ P (s.entry b) → f s = s)) →
      ∀ s, s.pt.entries.length = 24 → (f s).entry b = (if P (s.entry b) then g (s.entry b) else s.entry b) ∧
        (∀ b', b' ≠ b → (f s).entry b' = s.entry b') ∧ (f s).pt.entries.length = 24 := by
    intro f P g _ hf s hs
    by_cases hp : P (s.entry b)
    · obtain ⟨x, a, he⟩ := (hf s).1 hp
      rw [he, if_pos hp]
      refine ⟨?_, fun b' hb => ?_, ?_⟩
      · rw [raiseIf_entry, setEntry_entry s b _ hs]
      · rw [raiseIf_entry, setEntry_entry_ne s _ hb]
      · rw [raiseIf_pt, setEntry_length, hs]
    · rw [(hf s).2 hp, if_neg hp]; exact ⟨rfl, fun _ _ => rfl, hs⟩
  unfold ageEntry
  dsimp only
  have hj := step (joiningResetOp c b) (fun e => b ≠ c.bay ∧ e.presence = .joining ∧ e.fresh ≥ 4) (fun e => { e with joinRun := 0 })
    (fun s => ⟨fun h => ⟨false, .clock, by simp only [joiningResetOp, if_pos h, raiseIf]; rfl⟩, fun h => by
      simp only [joiningResetOp, if_neg h]⟩)
  have hs := step (peerStaleOp c b) (fun e => b ≠ c.bay ∧ e.presence = .live ∧ e.fresh ≥ 24) staleEntry
    (fun s => ⟨fun h => ⟨_, _, by simp only [peerStaleOp, if_pos h]; rfl⟩, fun h => by simp only [peerStaleOp, if_neg h]⟩)
  have ha := step (peerAbsentOp c b) (fun e => b ≠ c.bay ∧ (e.presence = .stale ∨ e.presence = .joining) ∧ e.fresh ≥ 4000) absentEntry
    (fun s => ⟨fun h => ⟨false, .clock, by simp only [peerAbsentOp, if_pos h, raiseIf]; rfl⟩, fun h => by
      simp only [peerAbsentOp, if_neg h]⟩)
  have l1 : (s.setEntry b { s.entry b with fresh := upTo 4095 (s.entry b).fresh }).pt.entries.length = 24 := by
    rw [setEntry_length, h]
  obtain ⟨e2, n2, l2⟩ := hj _ l1
  obtain ⟨e3, n3, l3⟩ := hs _ l2
  obtain ⟨e4, n4, l4⟩ := ha _ l3
  refine ⟨?_, fun b' hb => ?_, l4⟩
  · rw [e4, e3, e2, setEntry_entry s b _ h]; rfl
  · rw [n4 b' hb, n3 b' hb, n2 b' hb, setEntry_entry_ne s _ hb]

/-- Every entry at an epoch, each alone. -/
theorem peerEpoch_entry (c) (s : State) (h : s.pt.entries.length = 24) (b : Bay) :
    (peerEpoch c s).entry b = agedEntry c b (s.entry b) := by
  have key : ∀ (l : List Bay) (s : State), s.pt.entries.length = 24 → l.Nodup →
      (∀ b ∈ l, (l.foldl (fun s b => ageEntry c b s) s).entry b = agedEntry c b (s.entry b)) ∧
      ∀ b ∉ l, (l.foldl (fun s b => ageEntry c b s) s).entry b = s.entry b := by
    intro l
    induction l with
    | nil => intro s _ _; simp
    | cons x xs ih =>
      intro s hs hn
      obtain ⟨hx, hn⟩ := List.nodup_cons.1 hn
      obtain ⟨a1, a2, a3⟩ := ageEntry_entry c x s hs
      obtain ⟨i1, i2⟩ := ih (ageEntry c x s) a3 hn
      refine ⟨fun b hb => ?_, fun b hb => ?_⟩
      · rcases List.mem_cons.1 hb with rfl | hb
        · rw [List.foldl_cons, i2 _ hx, a1]
        · rw [List.foldl_cons, i1 b hb, a2 b (fun e => hx (e ▸ hb))]
      · rw [List.mem_cons, not_or] at hb
        rw [List.foldl_cons, i2 b hb.2, a2 b hb.1]
  exact (key allBays s h (by decide)).1 b (by revert b; decide)

end Sys2Proof.Machine
end

