-- ==== Sys2Proof/Laws/Readings.lean ====
section
/-! SUPPORT. What the model's tests and choices answer, each said once: raw results and records (01), zone phases blocked for long
(R115), alarm flags (R185), the differential trip condition (R141) and the qualification condition (R166). -/

namespace Sys2Proof.Machine

open Sys2Proof

theorem readRaw_range (raw : BitVec 16) : -32767 ≤ readRaw raw ∧ readRaw raw ≤ 32767 := by
  unfold readRaw
  have := BitVec.toInt_lt (x := raw)
  have := BitVec.le_toInt raw
  split <;> constructor <;> simp_all <;> omega

theorem readRaw_eq (raw : BitVec 16) : readRaw raw = if raw = 0x8000#16 then -32767 else raw.toInt := by
  unfold readRaw
  have : raw.toInt = -32768 ↔ raw = 0x8000#16 := by
    constructor
    · intro h; apply BitVec.eq_of_toInt_eq; rw [h]; rfl
    · rintro rfl; rfl
  simp [this]

theorem upd_get_same (x : PerPhase ChanPair) (ph ch r) (h : (x.get ph).get ch = .converting) : ((x.upd (ChanPair.complete ch r)
    ph).get ph).get ch = .done r := by
  cases ph <;> cases ch <;> simp_all [PerPhase.upd, PerPhase.get, ChanPair.complete, ChanPair.get, Chan.complete]

theorem upd_get_ne (x : PerPhase ChanPair) (ph ch r ph' ch') (h : (ph', ch') ≠ (ph, ch)) : ((x.upd (ChanPair.complete ch r)
    ph).get ph').get ch' = (x.get ph').get ch' := by

  cases ph <;> cases ch <;> cases ph' <;> cases ch' <;> simp_all [PerPhase.upd, PerPhase.get, ChanPair.complete, ChanPair.get, Chan.complete]

theorem allDone_iff (x : PerPhase ChanPair) : allDone x = true ↔ ∀ ph ch, ((x.get ph).get ch).isDone = true := by
  constructor
  · intro h; rintro (_|_|_) (_|_) <;> simp_all [allDone, PerPhase.all, PerPhase.get, ChanPair.get]
  · intro h
    have := fun ph => h ph .a; have := fun ph => h ph .b
    simp [allDone, PerPhase.all]
    exact ⟨⟨⟨h .l1 .a, h .l1 .b⟩, ⟨h .l2 .a, h .l2 .b⟩⟩, ⟨h .l3 .a, h .l3 .b⟩⟩

theorem roundDiv_spec (n : Int) : 2 * (4096 * roundDiv n 4096 - n).natAbs ≤ 4096 ∧
   (2 * (4096 * roundDiv n 4096 - n).natAbs = 4096 → n.natAbs < (4096 * roundDiv n 4096).natAbs) := by
  unfold roundDiv
  have h1 : ((2 * n.natAbs + 4096) / (2*4096)) * 8192 + (2 * n.natAbs + 4096) % 8192 = 2 * n.natAbs + 4096 := by omega
  have := Nat.mod_lt (2 * n.natAbs + 4096) (y := 8192) (by omega)
  simp only
  generalize (2 * n.natAbs + 4096) / (2*4096) = d at *
  generalize (2 * n.natAbs + 4096) % 8192 = e at *
  split_ifs <;> constructor <;> omega

theorem takeRecordSu_runs (r s) : (takeRecordSu r s).su.record = some r ∧ (takeRecordSu r s).su.disRun = nextRuns r.val
    s.su.disRun := by
  simp only [takeRecordSu, converterRecoveryOp, clearRunOp, converterFailureOp]
  split <;> split <;> simp [raise, State.updMp, State.updSu]

theorem ownSampleEvent_runs (c s f) (h : s.su.flight = some f) : (ownSampleEvent c s).su.record = some (makeRecord c f s.su.chans) ∧
    (ownSampleEvent c s).su.disRun = nextRuns (makeRecord c f s.su.chans).val s.su.disRun := by
  have : (ownSampleEvent c s).su = (takeRecordSu (makeRecord c f s.su.chans) s).su := by
    simp only [ownSampleEvent, h]; simp [evaluateInstant]
  rw [this]; exact takeRecordSu_runs _ _

theorem nextRuns_get (v runs q) : (nextRuns v runs).get q = if v.get q = .valid then 0 else min (runs.get q + 1) 16 := by
  cases q <;> simp [nextRuns, PerPhase.of, PerPhase.get, upTo]

theorem record_missing_iff (c f) (x : PerPhase ChanPair) (q) : (makeRecord c f x).val.get q = .missing ↔ ¬ ∃ a b, x.get q = ⟨.done a,
    .done b⟩ := by
  have : (makeRecord c f x).val.get q = (testPhase c (x.get q)).1 := by cases q <;> rfl
  rw [this]; unfold testPhase
  obtain ⟨a, b⟩ := x.get q
  cases a <;> cases b <;> simp
  split <;> simp

theorem standing400_iff (ze ph z) : (standing400 ze).contains (z, ph) = true ↔ standsAt400 ze ph z := by
  rw [List.contains_iff_mem]
  simp only [standing400, List.mem_append, List.mem_flatMap, List.mem_map, List.mem_filter, beq_iff_eq]
  have hp : ∀ q, q ∈ allPhases := by intro q; cases q <;> simp [allPhases]
  have hs : ∀ q, q ∈ allSects := by intro q; cases q <;> simp [allSects]
  cases z with
  | zone x =>
    simp only [standsAt400]
    constructor
    · rintro (⟨y, -, q, ⟨-, h⟩, e⟩ | ⟨q, -, e⟩)
      · simp only [Prod.mk.injEq, ZoneRef.zone.injEq] at e; obtain ⟨rfl, rfl⟩ := e; exact ⟨y, rfl, h⟩
      · simp at e
    · rintro ⟨y, rfl, h⟩; exact Or.inl ⟨y, hs y, ph, ⟨hp ph, h⟩, rfl⟩
  | check =>
    simp only [standsAt400]
    constructor
    · rintro (⟨y, -, q, ⟨-, h⟩, e⟩ | ⟨q, ⟨-, h⟩, e⟩)
      · simp at e
      · simp at e; subst e; exact h
    · intro h; exact Or.inr ⟨ph, ⟨hp ph, h⟩, rfl⟩

theorem flagSet_has (p : Alarm → Bool) (a : Alarm) : hasFlag a (flagSet p) = p a := by
  have key : ∀ (l : List Alarm) (f : BitVec 19), hasFlag a (l.foldl (fun f a => if p a then withFlag a f else f) f) = (hasFlag a
    f || (l.contains a && p a)) := by
    intro l; induction l with
    | nil => simp
    | cons x l ih =>
      intro f; simp only [List.foldl_cons]; rw [ih]
      by_cases e : x = a
      · subst e; cases h : p x
        · simp
        · have : hasFlag x (withFlag x f) = true := by simp only [hasFlag, withFlag]; cases x <;> simp [Alarm.bit]
          simp [this]
      · have h2 : hasFlag a (withFlag x f) = hasFlag a f := by
          simp [hasFlag, withFlag]; cases x <;> cases a <;> simp_all [Alarm.bit]
        have h3 : (x :: l).contains a = l.contains a := by simp [Ne.symm e]
        rw [h3]; split
        · rw [h2]
        · rfl
  unfold flagSet; rw [key]
  have : allAlarms.contains a = true := by cases a <;> decide
  rw [this]; simp [hasFlag]

theorem differentialCause_iff (tp : Topology) : ((differentialCause tp).isSome = true) ↔ ∃ ph, (∃ x ∈ tp.ownZones, zoneOperates tp x ph =
    true) ∧ (tp.chk.get ph).operate = true := by
  have hp : ∀ q, q ∈ allPhases := by intro q; cases q <;> simp [allPhases]
  have ht : ∀ ph, (trippingPhases tp).get ph = true ↔ (∃ x ∈ tp.ownZones, zoneOperates tp x ph = true) ∧ (tp.chk.get ph).operate
    = true := by
    intro ph; cases ph <;> simp [trippingPhases, PerPhase.of, PerPhase.get]
  unfold differentialCause
  constructor
  · intro h
    split at h
    · next x hx =>
      have := List.find?_some hx
      simp only [List.any_eq_true, Bool.and_eq_true] at this
      obtain ⟨ph, -, h1, h2⟩ := this
      exact ⟨ph, (ht ph).1 h1⟩
    · simp at h
  · rintro ⟨ph, ⟨x, hx, h1⟩, h2⟩
    split
    · next y hy =>
      have := List.find?_some hy
      simp only [List.any_eq_true, Bool.and_eq_true] at this
      obtain ⟨q, -, -, h3⟩ := this
      unfold zoneOperates at h3
      split at h3
      · next z hz => simp [hz]
      · simp at h3
    · next hn =>
      rw [List.find?_eq_none] at hn
      have := hn x hx
      simp only [List.any_eq_true, Bool.and_eq_true, not_exists, not_and] at this
      exact absurd h1 (this ph (hp ph) ((ht ph).2 ⟨⟨x, hx, h1⟩, h2⟩))

theorem differentialCause_form (tp q) (h : differentialCause tp = some q) : ∃ a b, q = .differential a b := by
  unfold differentialCause at h
  split at h
  · rw [Option.map_eq_some_iff] at h; obtain ⟨z, -, h⟩ := h; exact ⟨_, _, h.symm⟩
  · simp at h

theorem qualifies_iff (c s) : qualifies c s = true ↔
    (∀ b : Bay, c.hasBay b = true → (s.entry b).presence = .live ∨ (s.entry b).declared = some .isolated) ∧
      ((s.port .east).link = .up ∨ (s.port .west).link = .up) := by
  have hb : ∀ b : Bay, b ∈ allBays := by decide
  simp only [qualifies, Bool.and_eq_true, List.all_eq_true, Bool.or_eq_true, decide_eq_true_eq, Bool.not_eq_true']
  constructor
  · rintro ⟨h, h'⟩
    refine ⟨fun b e => ?_, h'⟩
    have := h b (hb b); simp [e] at this; exact this
  · rintro ⟨h, h'⟩
    refine ⟨fun b _ => ?_, h'⟩
    by_cases e : c.hasBay b = true
    · rcases h b e with h | h <;> simp [h]
    · simp [e]

end Sys2Proof.Machine
end

