-- ==== Sys2Proof/Laws/Trips.lean ====
section
/-! SUPPORT. How a property passes through the shapes every meaning is built from, and each operation of the Trip Unit on a sound
state of coils and trip (R140 to R154). -/

namespace Sys2Proof.Machine

open Sys2Proof

theorem stageIf_pres {P : State → Prop} {b f} {s : State} (h : ∀ s, P s → P (f s)) (hs : P s) : P (stageIf b f s) := by
  cases b <;> simp [stageIf, hs, h]

theorem whileRunning_pres {P : State → Prop} {f} {s : State} (h : ∀ c, s.running = some c → P (f c s)) (hs : P s) : P
    (whileRunning f s) := by
  unfold whileRunning; split
  · next c hc => exact h c hc
  · exact hs

theorem takeCommand_pres {P : State → Prop} {al p act} {s : State} (hs : P s) (he : P (portError s))
    (hb : P (respond .badLength [] s)) (ha : s.mp.receiver ≠ .responding → P (act s)) :
    P (takeCommand al p act s) := by
  unfold takeCommand
  split
  · exact hs
  · split
    · exact he
    · next h => 
      push Not at h
      split
      · exact hb
      · exact ha h.1

theorem foldl_pres {α} {P : State → Prop} {f : State → α → State} (h : ∀ s a, P s → P (f s a)) (l : List α) {s} (hs : P s) : P
    (l.foldl f s) := by
  induction l generalizing s with
  | nil => exact hs
  | cons a l ih => exact ih (h _ _ hs)

theorem tripSound_of {s t : State} (h : t.tu = s.tu) (h2 : t.sc.station = s.sc.station) (hs : TripSound s) : TripSound t := by
  constructor <;> simp only [h, h2] <;> first
      | exact hs.coil1_asserted
      | exact hs.coil2_asserted
      | exact hs.asserted_service
      | exact hs.test_test
      | exact hs.pulse_supervision
      | exact hs.bf_idle
      | exact hs.backtrip_failed

theorem recordSound_of {s t : State} (h : t.tu = s.tu) (hs : RecordSound s) : RecordSound t := by
  constructor <;> simp only [h] <;> first | exact hs.recorded_open | exact hs.recorded_on

theorem tripSound_of_fields {s t : State} (a1 : t.tu.trip = s.tu.trip) (a2 : t.tu.coil1 = s.tu.coil1) (a3 : t.tu.coil2 =
    s.tu.coil2) (a4 : t.tu.pulse = s.tu.pulse) (a5 : t.tu.bf = s.tu.bf) (a6 : t.tu.backtrip = s.tu.backtrip) (h2 : t.sc.station =
    s.sc.station) (hs : TripSound s) : TripSound t := by
  constructor <;> simp only [a1, a2, a3, a4, a5, a6, h2] <;> first
      | exact hs.coil1_asserted
      | exact hs.coil2_asserted
      | exact hs.asserted_service
      | exact hs.test_test
      | exact hs.pulse_supervision
      | exact hs.bf_idle
      | exact hs.backtrip_failed

theorem afterPulse_coil (x : Coil1) : (x.afterPulse = .trip ↔ x = .trip) ∧ x.afterPulse ≠ .supervision := by
  cases x <;> simp [Coil1.afterPulse]

theorem abandonPulse_tripSound {s : State} (hs : TripSound s) : TripSound (abandonPulse s) ∧ (abandonPulse s).tu.pulse = none ∧
    (abandonPulse s).tu.trip = s.tu.trip ∧ (abandonPulse s).tu.coil1 ≠ .supervision ∧ (abandonPulse s).sc = s.sc ∧ (abandonPulse
    s).tu.bf = s.tu.bf ∧ (abandonPulse s).tu.coil2 = s.tu.coil2 ∧ (abandonPulse s).tu.backtrip = s.tu.backtrip := by
  obtain ⟨h1, h2, h3, h4, h5, h6, h7⟩ := hs
  unfold abandonPulse; split
  · next n hn =>
    refine ⟨?_, rfl, rfl, (afterPulse_coil _).2, rfl, rfl, rfl, rfl⟩
    have := afterPulse_coil s.tu.coil1
    constructor <;> simp_all
  · next hn => 
    have : s.tu.coil1 ≠ .supervision := by intro h; simp_all
    exact ⟨⟨h1, h2, h3, h4, h5, h6, h7⟩, hn, rfl, this, rfl, rfl, rfl, rfl⟩

theorem startPulse_tripSound {s : State} (hs : TripSound s) (h : s.tu.trip ≠ .asserted) : TripSound (startPulse s) := by
  obtain ⟨h1, h2, h3, h4, h5, h6, h7⟩ := hs
  constructor <;> simp_all [startPulse]

theorem releaseTrip_tripSound {s : State} {how} (h1 : s.tu.coil1 = .trip ↔ s.tu.trip = .asserted) (h5 : s.tu.coil1 = .supervision
    ↔ s.tu.pulse.isSome) : TripSound (releaseTrip how s) := by
  have hc : (closeRecord how s.su.epoch s.tu).pulse = s.tu.pulse := by unfold closeRecord; split <;> rfl
  constructor <;> simp [releaseTrip, hc]
  · split <;> simp_all
  · split
    · next h => simp_all
    · exact h5

theorem captureRecord_tripSound {s : State} {x q k} (hs : TripSound s) : TripSound (captureRecord x q k s) := by
  obtain ⟨h1, h2, h3, h4, h5, h6, h7⟩ := hs
  unfold captureRecord; split <;> constructor <;> simp_all [raise]

theorem assertIfAllowed_tripSound {s : State} {c q k} (hs : TripSound s) : TripSound (assertIfAllowed c q k s) := by
  unfold assertIfAllowed
  split
  · next ht hst =>
    unfold assertTrip; apply captureRecord_tripSound
    obtain ⟨a, b1, b2, b3, b4, b5, b6, b7⟩ := abandonPulse_tripSound hs
    obtain ⟨h1, h2, h3, h4, h5, h6, h7⟩ := a
    simp only [Bool.false_eq_true, if_false]
    constructor <;> simp_all
  · next ht hst =>
    unfold assertTrip; apply captureRecord_tripSound
    obtain ⟨h1, h2, h3, h4, h5, h6, h7⟩ := hs
    constructor <;> simp_all
  · exact hs

theorem retripOp_tripSound {s : State} {c} (hs : TripSound s) : TripSound (retripOp c s) := by
  obtain ⟨h1, h2, h3, h4, h5, h6, h7⟩ := hs
  unfold retripOp; split
  · constructor <;> simp_all
    tauto
  · exact ⟨h1, h2, h3, h4, h5, h6, h7⟩

theorem breakerFailureOp_tripSound {s : State} {c} (hs : TripSound s) : TripSound (breakerFailureOp c s) := by
  obtain ⟨h1, h2, h3, h4, h5, h6, h7⟩ := hs
  unfold breakerFailureOp; split
  · split
    · constructor <;> simp_all [raise]
    · constructor <;> simp_all
    · exact ⟨h1, h2, h3, h4, h5, h6, h7⟩
  · exact ⟨h1, h2, h3, h4, h5, h6, h7⟩

theorem releaseOp_tripSound {s : State} {c a} (hs : TripSound s) : TripSound (releaseOp c a s) := by
  unfold releaseOp; split
  · split
    · apply startPulse_tripSound (releaseTrip_tripSound hs.coil1_asserted hs.pulse_supervision); simp [releaseTrip]
    · exact releaseTrip_tripSound hs.coil1_asserted hs.pulse_supervision
    · exact hs
  · exact hs

theorem tripEvaluation_tripSound {s : State} {c k} (hs : TripSound s) : TripSound (tripEvaluation c k s) := by
  unfold tripEvaluation; split
  · split
    · exact assertIfAllowed_tripSound hs
    · exact hs
  · apply releaseOp_tripSound; apply breakerFailureOp_tripSound; apply retripOp_tripSound
    obtain ⟨h1, h2, h3, h4, h5, h6, h7⟩ := hs
    constructor <;> simp_all [tripTimers]

theorem backtripRequest_tripSound {s : State} {c b d x} (hs : TripSound s) : TripSound (backtripRequest c b d x s) := by
  unfold backtripRequest; simp only []
  split
  · exact tripSound_of_fields (by simp) (by simp) (by simp) (by simp) (by simp) (by simp) (by simp) hs
  · split
    · exact tripSound_of_fields (by simp) (by simp) (by simp) (by simp) (by simp) (by simp) (by simp) hs
    · exact assertIfAllowed_tripSound (tripSound_of_fields (by simp) (by simp) (by simp) (by simp) (by simp) (by simp) (by simp) hs)

theorem pulseEndOp_tripSound {s : State} (hs : TripSound s) : TripSound (pulseEndOp s) := by
  have ha := afterPulse_coil s.tu.coil1
  have key : TripSound (s.updTu fun u => { u with pulse := none, coil1 := u.coil1.afterPulse }) := by
    obtain ⟨h1, h2, h3, h4, h5, h6, h7⟩ := hs
    constructor <;> simp_all
  unfold pulseEndOp; simp only []; split
  · exact hs
  · split
    · split
      · exact tripSound_of_fields (by simp) (by simp) (by simp) (by simp) (by simp) (by simp) (by simp) key
      · exact tripSound_of_fields (by simp) (by simp) (by simp) (by simp) (by simp) (by simp) (by simp) key
    · exact hs

theorem pulseDueOp_tripSound {s : State} (hs : TripSound s) : TripSound (pulseDueOp s) := by
  unfold pulseDueOp; split
  · split
    · obtain ⟨h1, h2, h3, h4, h5, h6, h7⟩ := hs
      constructor <;> simp_all
    · next h => exact startPulse_tripSound hs (by rw [Ne, ← hs.coil1_asserted]; exact h)
  · exact hs

theorem supervisionEpoch_tripSound {s : State} {r} (hs : TripSound s) : TripSound (supervisionEpoch r s) := by
  unfold supervisionEpoch; split
  · exact hs
  · apply pulseDueOp_tripSound; apply pulseEndOp_tripSound
    obtain ⟨h1, h2, h3, h4, h5, h6, h7⟩ := hs
    constructor <;> simp_all

theorem choiceStage_tripSound {s : State} {c} (hs : TripSound s) : TripSound (choiceStage c s) := by
  unfold choiceStage
  set s1 := testQualification c (s.updSc fun u => { u with dupQuiet := upTo 4000 u.dupQuiet }) with hs1
  have hst : s1.tu = s.tu := by simp [hs1]
  set r := chosenState s1
  set s2 := breach (listenTimeoutOp (enterState r s1)) with hs2
  have h2tu : s2.tu = s.tu := by simp [hs2, hst]
  have h2st : s2.sc.station = .running r := by simp [hs2, enterState]
  obtain ⟨h1, h2, h3, h4, h5, h6, h7⟩ := hs
  have key : TripSound (stateRelease r s2) := by
    unfold stateRelease; rw [h2tu]; split
    · next ht =>
      split
      · next e => constructor <;> simp_all
      · split
        · exact releaseTrip_tripSound (by rw [h2tu]; exact h1) (by rw [h2tu]; exact h5)
        · apply startPulse_tripSound (releaseTrip_tripSound (by rw [h2tu]; exact h1) (by rw [h2tu]; exact h5)); simp [releaseTrip]
    · next ht =>
      split
      · next e => constructor <;> simp_all
      · exact releaseTrip_tripSound (by rw [h2tu]; exact h1) (by rw [h2tu]; exact h5)
    · next ht => constructor <;> simp_all
  unfold tripAtChoice; simp only []; split
  · exact (abandonPulse_tripSound key).1
  · exact key

theorem tripStop_tripSound {s : State} (h1 : s.tu.coil1 = .trip ↔ s.tu.trip = .asserted) (h5 : s.tu.coil1 = .supervision ↔
    s.tu.pulse.isSome) (hs : TripSound s): TripSound (tripStop s) ∧ (tripStop s).tu.trip = .idle := by
  unfold tripStop; simp only []; split
  · next h => exact ⟨(abandonPulse_tripSound hs).1, by rw [(abandonPulse_tripSound hs).2.2.1]; exact h⟩
  · have := abandonPulse_tripSound (releaseTrip_tripSound (how := .stateChange) h1 h5); exact ⟨this.1, by rw [this.2.2.1]; rfl⟩

theorem tripSound_idle {s t : State} (hs : TripSound s) (hi : s.tu.trip = .idle) (h : t.tu = s.tu) : TripSound t := by
  obtain ⟨h1, h2, h3, h4, h5, h6, h7⟩ := hs
  constructor <;> simp_all

end Sys2Proof.Machine
end

