-- ==== Sys2Proof/Laws/Evaluations.lean ====
section
/-! SUPPORT. What the last conversion of an epoch makes of the state (R4, R99), the members, signs and sums of the zones, the end zone
timers and the active causes (R105 to R120, R137, R145), and the Trip Unit operations as writes of one block. -/

namespace Sys2Proof.Machine

open Sys2Proof

/-- An operation that writes the Trip Unit and raises flags alone, and reads neither the ring nor the Maintenance Port. -/
def TripOnly (F : State → State) (s : State) : Prop :=
  ∃ (U : TripUnit) (G : BitVec 19), ∀ (r : Ring) (M : Maint),
    F { s with ri := r, mp := M } = { s with ri := r, tu := U, mp := { M with flags := M.flags ||| G } }

theorem TripOnly.id_of {F : State → State} {s : State}
    (h : ∀ r M, F { s with ri := r, mp := M } = { s with ri := r, mp := M, tu := (F s).tu }) : TripOnly F s :=
  ⟨(F s).tu, 0#19, fun r M => by rw [h]; simp⟩

theorem TripOnly.flag_of {F : State → State} {s : State} (a : Alarm)
    (h : ∀ r M, F { s with ri := r, mp := M } = raise a { s with ri := r, mp := M, tu := (F s).tu }) : TripOnly F s :=
  ⟨(F s).tu, BitVec.twoPow 19 a.bit, fun r M => by rw [h]; rfl⟩

theorem TripOnly.comp {F H : State → State} {s : State} (hF : TripOnly F s) (hH : ∀ U, TripOnly H { s with tu := U }) :
    TripOnly (fun s => H (F s)) s := by
  obtain ⟨U, G, h⟩ := hF
  obtain ⟨U', G', h'⟩ := hH U
  refine ⟨U', G ||| G', fun r M => ?_⟩
  have := h' r { M with flags := M.flags ||| G }
  simp only [h]
  rw [← BitVec.or_assoc]; exact this

theorem abandonPulse_tripOnly (s) : TripOnly abandonPulse s := by
  cases h : s.tu.pulse with
  | none => exact .id_of fun r M => by simp [abandonPulse, h]
  | some n => exact .id_of fun r M => by simp only [abandonPulse, h]; rfl

theorem captureRecord_tripOnly (x q k s) : TripOnly (captureRecord x q k) s := by
  cases h : s.tu.held with
  | none => exact .id_of fun r M => by simp only [captureRecord, h]; rfl
  | some n => exact .flag_of .recordOverrun fun r M => by simp only [captureRecord, h]; rfl

theorem assertTrip_tripOnly (c test q k s) : TripOnly (assertTrip c test q k) s := by
  unfold assertTrip
  cases test
  · exact ((abandonPulse_tripOnly s).comp fun U => TripOnly.id_of (F := fun s => s.updTu _) fun r M => rfl).comp
      (H := captureRecord false q k) fun U => captureRecord_tripOnly _ _ _ _
  · exact TripOnly.comp (F := fun s => s.updTu _) (H := captureRecord true q k) (.id_of fun r M => rfl) fun U =>
      captureRecord_tripOnly _ _ _ _

theorem assertIfAllowed_tripOnly (c q k s) : TripOnly (assertIfAllowed c q k) s := by
  have hno : (∀ r M, assertIfAllowed c q k { s with ri := r, mp := M } = { s with ri := r, mp := M }) →
      TripOnly (assertIfAllowed c q k) s :=
    fun h => ⟨s.tu, 0#19, fun r M => by rw [h]; simp⟩
  have yes : ∀ x, (∀ r M, assertIfAllowed c q k { s with ri := r, mp := M } = assertTrip c x q k { s with ri := r, mp := M }) →
      TripOnly (assertIfAllowed c q k) s := fun x h => by
    obtain ⟨U, G, h'⟩ := assertTrip_tripOnly c x q k s; exact ⟨U, G, fun r M => by rw [h, h']⟩
  cases ht : s.tu.trip with
  | idle =>
    cases hs : s.sc.station with
    | running st =>
      cases st with
      | service => exact yes false fun r M => by simp only [assertIfAllowed, ht, hs]
      | test => exact yes true fun r M => by simp only [assertIfAllowed, ht, hs]
      | _ => exact hno fun r M => by simp only [assertIfAllowed, ht, hs]
    | _ => exact hno fun r M => by simp only [assertIfAllowed, ht, hs]
  | _ => exact hno fun r M => by simp only [assertIfAllowed, ht]

theorem retripOp_tripOnly (c s) : TripOnly (retripOp c) s := by
  by_cases h : s.tu.trip ≠ .idle ∧ s.tu.retrip = c.tRetrip ∧ !s.tu.retripMade ∧ currentNow c s
  · exact .id_of fun r M => by
      have : currentNow c { s with ri := r, mp := M } = currentNow c s := rfl
      simp only [retripOp, this]; rw [if_pos h, if_pos h]; rfl
  · exact .id_of fun r M => by
      have : currentNow c { s with ri := r, mp := M } = currentNow c s := rfl
      simp only [retripOp, this]; rw [if_neg h, if_neg h]

theorem breakerFailureOp_tripOnly (c s) : TripOnly (breakerFailureOp c) s := by
  have e : ∀ r M, (currentNow c { s with ri := r, mp := M } || contactClosed c { s with ri := r, mp := M }) = (currentNow c s ||
      contactClosed c s) := fun _ _ => rfl
  by_cases h : s.tu.bf = .timing ∧ s.tu.bfTimer = c.tBf ∧ (currentNow c s || contactClosed c s)
  · cases ht : s.tu.trip with
    | asserted => exact .flag_of .breakerFailure fun r M => by simp only [breakerFailureOp, e, ht]; rw [if_pos h, if_pos h]; rfl
    | testAsserted => exact .id_of fun r M => by simp only [breakerFailureOp, e, ht]; rw [if_pos h, if_pos h]; rfl
    | idle => exact .id_of fun r M => by simp only [breakerFailureOp, e, ht]; rw [if_pos h, if_pos h]
  · exact .id_of fun r M => by simp only [breakerFailureOp, e]; rw [if_neg h, if_neg h]

theorem releaseOp_tripOnly (c a s) : TripOnly (releaseOp c a) s := by
  have e : ∀ r M, currentNow c { s with ri := r, mp := M } = currentNow c s := fun _ _ => rfl
  by_cases h : s.tu.sealIn = 0 ∧ !a ∧ !currentNow c s
  · cases ht : s.tu.trip with
    | asserted => exact .id_of fun r M => by simp only [releaseOp, e, ht]; rw [if_pos h, if_pos h]; rfl
    | testAsserted => exact .id_of fun r M => by simp only [releaseOp, e, ht]; rw [if_pos h, if_pos h]; rfl
    | idle => exact .id_of fun r M => by simp only [releaseOp, e, ht]; rw [if_pos h, if_pos h]
  · exact .id_of fun r M => by simp only [releaseOp, e]; rw [if_neg h, if_neg h]

/-- The Trip Unit at an evaluation (R140 to R147). -/
theorem tripEvaluation_tripOnly (c k s) : TripOnly (tripEvaluation c k) s := by
  have on : s.tu.trip ≠ .idle → TripOnly (tripEvaluation c k) s := by
    intro ht
    have key : ∀ r M, tripEvaluation c k { s with ri := r, mp := M } =
        releaseOp c (activeCause c s) (breakerFailureOp c (retripOp c (tripTimers c { s with ri := r, mp := M }))) := by
      intro r M
      have : activeCause c (tripTimers c { s with ri := r, mp := M }) = activeCause c s := rfl
      simp only [tripEvaluation]; rw [this]
    have := ((((show TripOnly (tripTimers c) s from .id_of fun r M => rfl).comp fun U => retripOp_tripOnly c _).comp fun U =>
      breakerFailureOp_tripOnly c _).comp fun U => releaseOp_tripOnly c (activeCause c s) _)
    obtain ⟨U, G, h⟩ := this
    exact ⟨U, G, fun r M => by rw [key]; exact h r M⟩
  cases ht : s.tu.trip with
  | idle =>
    cases hd : s.ze.topo.bind differentialCause with
    | none => exact .id_of fun r M => by simp only [tripEvaluation, ht, hd]
    | some q =>
      obtain ⟨U, G, h⟩ := assertIfAllowed_tripOnly c q k s
      exact ⟨U, G, fun r M => by rw [← h]; simp only [tripEvaluation, ht, hd]⟩
  | _ => exact on (by rw [ht]; decide)

/-- A backtrip request (R139). -/
theorem backtripRequest_tripOnly (c n d x s) : TripOnly (backtripRequest c n d x) s := by
  have e : ∀ r M, SectSet.isEmpty (SectSet.inter x (ownSections { s with ri := r, mp := M })) = SectSet.isEmpty (SectSet.inter x
      (ownSections s)) :=
    fun _ _ => rfl
  by_cases h1 : (ignoresBacktrip d || !SectSet.subset x c.present) = true
  · exact .id_of fun r M => by simp only [backtripRequest]; rw [if_pos h1, if_pos h1]; rfl
  · by_cases h2 : SectSet.isEmpty (SectSet.inter x (ownSections s)) = true
    · have R : ∀ s' : State, s'.ze = s.ze → backtripRequest c n d x s' =
          (s'.updTu fun u => { u with ctr := { u.ctr with backtripsReceived := bump u.ctr.backtripsReceived } }).updTu fun u =>
            { u with ctr := { u.ctr with backtripsUnmatched := bump u.ctr.backtripsUnmatched } } := by
        intro s' e
        simp only [backtripRequest]
        rw [if_neg h1]; refine if_pos ?_
        unfold ownSections at h2 ⊢; rw [State.updTu_ze, e]; exact h2
      exact .id_of fun r M => by rw [R s rfl, R { s with ri := r, mp := M } rfl]; rfl
    · obtain ⟨U, G, h⟩ := assertIfAllowed_tripOnly c (.backtrip n x) s.su.epoch
        (s.updTu fun u => { u with ctr := { u.ctr with backtripsReceived := bump u.ctr.backtripsReceived } })
      refine ⟨U, G, fun r M => ?_⟩
      have := h r M
      simp only [backtripRequest]; rw [if_neg h1, if_neg (by exact h2)]; exact this

/-- Doing again what is already done changes nothing: the Trip Unit of s after F. -/
theorem TripOnly.again {F : State → State} {s : State} (h : TripOnly F s) : F { F s with tu := s.tu } = F s := by
  obtain ⟨U, G, h⟩ := h
  have hF : F s = { s with tu := U, mp := { s.mp with flags := s.mp.flags ||| G } } := h s.ri s.mp
  rw [hF]
  refine (h s.ri { s.mp with flags := s.mp.flags ||| G }).trans ?_
  rw [BitVec.or_assoc, BitVec.or_self]

theorem arbitrate_form (c p) (s : State) : ∃ r H,
    arbitrate c p s = { s with ri := r, mp := { s.mp with flags := s.mp.flags ||| H } } := by
  unfold arbitrate
  cases opensRing s.su.lt (s.port p)
  · exact ⟨_, 0#19, by simp only [raiseIf, Bool.false_eq_true, if_false, BitVec.or_zero]; rfl⟩
  · exact ⟨_, BitVec.twoPow 19 Alarm.ringOpen.bit, rfl⟩

theorem arbitrateBoth_form (c) (s : State) : ∃ r H,
    arbitrateBoth c s = { s with ri := r, mp := { s.mp with flags := s.mp.flags ||| H } } := by
  obtain ⟨r, H, h⟩ := arbitrate_form c .east s
  obtain ⟨r', H', h'⟩ := arbitrate_form c .west (arbitrate c .east s)
  refine ⟨r', H ||| H', ?_⟩
  unfold arbitrateBoth
  rw [h', h]; simp [BitVec.or_assoc]

/-- The state on which the Trip Unit takes the verdicts of an own sample event (R99). -/
def beforeTrip (c : Settings) (f : Flight) (s : State) : State :=
  let x := makeRecord c f s.su.chans
  let o : OwnFrame := ⟨makeOwnFrame c x f.declared (offeredSet f.declared (feedOwn c x f.declared (takeRecordSu x s))), f.instant⟩
  let s := placeOwn o (feedOwn c x f.declared (takeRecordSu x s))
  let tau := computingInstant c f.instant
  zoneBlockedAll ((s.updAu fun _ => { latest := some ⟨f.epoch, tau⟩ }).updZe
    (evaluateZones c f.epoch tau (decide (f.declared = .service)) s.pt))

theorem ownSampleEvent_eq {c s f} (h : s.su.flight = some f) : ownSampleEvent c s = tripEvaluation c f.epoch (beforeTrip c f s) := by
  simp only [ownSampleEvent, h]; rfl

/-- ZONE BLOCKED over all phases that stand at 400: the details it adds, and its flag (R115). -/
theorem zoneBlockedAll_ze (s : State) : (zoneBlockedAll s).ze = { s.ze with blockedDetail := (zoneBlockedAll s).ze.blockedDetail } ∧
    (∀ z q, (z, q) ∈ (zoneBlockedAll s).ze.blockedDetail ↔ (z, q) ∈ s.ze.blockedDetail ∨ (z, q) ∈ standing400 s.ze) ∧
    ((standing400 s.ze) ≠ [] → (zoneBlockedAll s).mp.flags.getLsbD 14 = true) := by
  have st : ∀ (d : List (ZoneRef × Phase)), standing400 { s.ze with blockedDetail := d } = standing400 s.ze := fun _ => rfl
  have key : ∀ (l : List (ZoneRef × Phase)) (u : State) (d : List (ZoneRef × Phase)), u.ze = { s.ze with blockedDetail := d } →
      (∀ x ∈ l, x ∈ standing400 s.ze) →
      ∃ d', (l.foldl (fun s x => zoneBlockedOp x.1 x.2 s) u).ze = { s.ze with blockedDetail := d' } ∧ (∀ x, x ∈ d' ↔ x ∈ d ∨ x ∈ l) ∧
      ((l ≠ [] ∨ u.mp.flags.getLsbD 14 = true) → (l.foldl (fun s x => zoneBlockedOp x.1 x.2 s) u).mp.flags.getLsbD 14 = true) := by
    intro l; induction l with
    | nil => intro u d h _; exact ⟨d, h, by simp, by simp⟩
    | cons x xs ih =>
      intro u d h hx
      have hc : (standing400 u.ze).contains (x.1, x.2) = true := by
        rw [h, st]; simpa using hx x (by simp)
      have e : zoneBlockedOp x.1 x.2 u = raise .zoneBlocked (u.updZe fun e =>
          { e with blockedDetail := addDetail x e.blockedDetail }) := by
        simp only [zoneBlockedOp, hc, if_true]
      obtain ⟨d', h1, h2, h3⟩ := ih (zoneBlockedOp x.1 x.2 u) (addDetail x d) (by rw [e]; simp [raise,
          h]) (fun y hy => hx y (by simp [hy]))
      refine ⟨d', h1, ?_, ?_⟩
      · intro y; rw [h2]; unfold addDetail; split
        · next hm => simp only [List.contains_iff_mem] at hm; simp only [List.mem_cons]; constructor
                     · rintro (h | h) <;> simp [h]
                     · rintro (h | rfl | h) <;> simp [*]
        · simp only [List.mem_append, List.mem_cons]; tauto
      · intro _; exact h3 (.inr (by rw [e]; simp [raise, withFlag, Alarm.bit]))
  obtain ⟨d', h1, h2, h3⟩ := key (standing400 s.ze) s s.ze.blockedDetail rfl (fun _ h => h)
  refine ⟨?_, ?_, fun h => h3 (.inl h)⟩
  · unfold zoneBlockedAll; rw [h1]
  · intro z q; unfold zoneBlockedAll; rw [h1]; exact h2 (z, q)

/-- What the last completion of an epoch makes of the state (R4, R99). -/
theorem exec_completesLast {c ph ch m f} {s : State} (raw : BitVec 16) (h : CompletesLast c ph ch m f s) :
    ∃ u, exec (.conversionComplete ph ch raw m) s = .next (tripEvaluation c f.epoch u) ∧
      u.tu = s.tu ∧ u.ze =
          { evaluateZones c f.epoch (computingInstant c f.instant) (decide (f.declared = .service)) u.pt s.ze with blockedDetail :=
          u.ze.blockedDetail } ∧
      (∀ z q, (z, q) ∈ u.ze.blockedDetail ↔ (z, q) ∈ s.ze.blockedDetail ∨ standsAt400 u.ze q z) ∧
      ∀ z q, standsAt400 u.ze q z → u.mp.flags.getLsbD 14 = true := by
  obtain ⟨hr, hf, hc, h1, h2, hd⟩ := h
  have hadv : (advanceTo m s) = atMoment m s := advanceTo_atMoment hr.1 h2
  generalize hs1 : ((advanceTo m s).updSu fun u => { u with chans := u.chans.upd (ChanPair.complete ch (readRaw raw)) ph }) = s1
  have hall : allDone s1.su.chans = true := by
    rw [allDone_iff, ← hs1, hadv]; intro ph' ch'
    simp only [State.updSu_su]
    by_cases e : (ph', ch') = (ph, ch)
    · cases e; rw [upd_get_same _ _ _ _ (by simpa using hc)]; rfl
    · rw [upd_get_ne _ _ _ _ _ _ e]; obtain ⟨x, hx⟩ := hd _ _ e; 
      rw [atMoment_chans, hx]; rfl
  have hfl : s1.su.flight = some f := by rw [← hs1, hadv]; simpa using hf
  have hexec : exec (.conversionComplete ph ch raw m) s = .next (tripEvaluation c f.epoch (beforeTrip c f s1)) := by
    simp only [exec, execConversionComplete]; rw [whileRunning_eq hr]
    have hc' : ((advanceTo m s).su.chans.get ph).get ch = .converting := by rw [hadv]; simpa using hc
    simp only [completeOp, hc', Chan.isConverting, if_true, hs1, hall]
    rw [ownSampleEvent_eq hfl]
  have b : s1.tu = s.tu ∧ s1.ze = s.ze := by rw [← hs1, hadv]; simp
  refine ⟨beforeTrip c f s1, hexec, ?_, ?_, ?_, ?_⟩
  all_goals unfold beforeTrip; dsimp only
  · simp [b.1]
  · rw [(zoneBlockedAll_ze _).1]
    simp [b.2]
  · intro z q
    have := zoneBlockedAll_ze ((((placeOwn ⟨makeOwnFrame c (makeRecord c f s1.su.chans) f.declared (offeredSet f.declared (feedOwn
        c (makeRecord c f s1.su.chans) f.declared (takeRecordSu (makeRecord c f s1.su.chans) s1))), f.instant⟩
        (feedOwn c (makeRecord c f s1.su.chans) f.declared (takeRecordSu (makeRecord c f s1.su.chans) s1))).updAu fun _ =>
        { latest := some ⟨f.epoch, computingInstant c f.instant⟩ }).updZe
    (evaluateZones c f.epoch (computingInstant c f.instant) (decide (f.declared = .service)) (placeOwn ⟨makeOwnFrame c (makeRecord
        c f s1.su.chans) f.declared (offeredSet f.declared (feedOwn c (makeRecord c f s1.su.chans) f.declared (takeRecordSu
        (makeRecord c f s1.su.chans) s1))), f.instant⟩
        (feedOwn c (makeRecord c f s1.su.chans) f.declared (takeRecordSu (makeRecord c f s1.su.chans) s1))).pt)))
    rw [← standing400_iff, List.contains_iff_mem, this.1, this.2.1]
    apply or_congr
    · simp [b.2, evaluateZones]
    · rfl
  · intro z q hq
    have := zoneBlockedAll_ze ((((placeOwn ⟨makeOwnFrame c (makeRecord c f s1.su.chans) f.declared (offeredSet f.declared (feedOwn
        c (makeRecord c f s1.su.chans) f.declared (takeRecordSu (makeRecord c f s1.su.chans) s1))), f.instant⟩
        (feedOwn c (makeRecord c f s1.su.chans) f.declared (takeRecordSu (makeRecord c f s1.su.chans) s1))).updAu fun _ =>
        { latest := some ⟨f.epoch, computingInstant c f.instant⟩ }).updZe
    (evaluateZones c f.epoch (computingInstant c f.instant) (decide (f.declared = .service)) (placeOwn ⟨makeOwnFrame c (makeRecord
        c f s1.su.chans) f.declared (offeredSet f.declared (feedOwn c (makeRecord c f s1.su.chans) f.declared (takeRecordSu
        (makeRecord c f s1.su.chans) s1))), f.instant⟩
        (feedOwn c (makeRecord c f s1.su.chans) f.declared (takeRecordSu (makeRecord c f s1.su.chans) s1))).pt)))
    apply this.2.2
    rw [← standing400_iff, List.contains_iff_mem, this.1] at hq
    exact List.ne_nil_of_mem hq

/-- Reading back a family over the phases. -/
theorem perPhase_of_get {α} (g : Phase → α) (q) : (PerPhase.of g).get q = g q := by cases q <;> rfl

theorem perSect_of_get {α} (g : Sect → α) (q) : (PerSect.of g).get q = g q := by cases q <;> rfl

/-- One view for each bay. -/
theorem viewBays_nodup (c tau t) : ((viewBays c tau t).map BayView.bay).Nodup := by
  simp only [viewBays, List.map_map, Function.comp_def, viewBay, List.map_id']
  exact (by decide : allBays.Nodup).filter _

/-- The views are those of the installed bays. -/
theorem mem_viewBays {c tau t v} : v ∈ viewBays c tau t ↔ c.hasBay v.bay = true ∧ v = viewBay tau v.bay (t.entry v.bay) := by
  simp only [viewBays, List.mem_map, List.mem_filter]
  constructor
  · rintro ⟨b, ⟨-, h⟩, rfl⟩; exact ⟨h, rfl⟩
  · rintro ⟨h, e⟩; exact ⟨v.bay, ⟨(by decide : ∀ b : Bay, b ∈ allBays) _, h⟩, e.symm⟩

/-- The view of one bay. -/
theorem find_viewBays {c tau t} {b : Bay} : (viewBays c tau t).find? (fun v => decide (v.bay = b)) =
    if c.hasBay b = true then some (viewBay tau b (t.entry b)) else none := by
  split
  · next h =>
    have hm : viewBay tau b (t.entry b) ∈ viewBays c tau t := mem_viewBays.2 ⟨h, rfl⟩
    cases hf : (viewBays c tau t).find? (fun v => decide (v.bay = b)) with
    | none =>
      rw [List.find?_eq_none] at hf;
          exact absurd (show (viewBay tau b (t.entry b)).bay = b from rfl) (by simpa only [decide_eq_true_eq] using hf _ hm)
    | some v =>
      have h1 := List.find?_some hf
      have h2 := mem_viewBays.1 (List.mem_of_find?_eq_some hf)
      simp at h1; rw [h2.2, h1]
  · next h =>
    rw [List.find?_eq_none]; intro v hv
    have := (mem_viewBays.1 hv).1
    simp; rintro rfl; exact h this

/-- The aligned current of an installed bay. -/
theorem alignedCurrent_eq {c tau t q b} (h : c.hasBay b = true) : alignedCurrent (viewBays c tau t) q b = (alignHistory tau
    (t.entry b).history).cur.get q := by
  unfold alignedCurrent; rw [find_viewBays, if_pos h]; rfl

theorem standing_undeclared {e a} : standingOf e a = .undeclared ↔ usedDecl e = none := by
  unfold standingOf; split_ifs <;> simp_all

theorem usedDecl_of {e a} (h : standingOf e a ≠ .undeclared) : usedDecl e = e.decl := by
  have := mt standing_undeclared.2 h
  unfold usedDecl at *; split_ifs at * <;> simp_all

/-- When a bay has a place and which (R107, R109). -/
theorem placed_iff {tau b e d r} : (viewBay tau b e).placed = some (d, r) ↔
    ((viewBay tau b e).standing = .usable ∨ (viewBay tau b e).standing = .unusable) ∧ e.decl = some d ∧
        (alignHistory tau e.history).replica = some r := by
  unfold BayView.placed
  generalize hs : (viewBay tau b e).standing = st
  have hd : st = .usable ∨ st = .unusable → (viewBay tau b e).decl = e.decl := by
    intro h; apply usedDecl_of (a := alignHistory tau e.history); rw [show standingOf e _ = st from hs]; rcases h with
        rfl | rfl <;> simp
  cases st with
  | undeclared => simp
  | isolated => simp
  | usable => rw [hd (.inl rfl)]; simp only [viewBay]; cases e.decl <;> cases (alignHistory tau e.history).replica <;> simp
  | unusable => rw [hd (.inr rfl)]; simp only [viewBay]; cases e.decl <;> cases (alignHistory tau e.history).replica <;> simp

theorem sideIn_iff (z s) : sideIn z s = true ↔ sideWithin z s := by cases s <;> simp [sideIn, sideWithin]

theorem countedClosed_iff (x : Switch) : x.countedClosed = true ↔ x ≠ .opened := by cases x <;> simp [Switch.countedClosed]

/-- With which sign a bay belongs to a set of sections (R105, R106, R109). -/
theorem mem_memberSigns {c z n d r sg} : sg ∈ memberSigns c z n d r ↔ MemberWith c z n d r sg := by
  unfold memberSigns MemberWith reaches1 reaches2
  simp only [← sideIn_iff, ← countedClosed_iff]
  cases d.kind with
  | feeder => simp only []; split_ifs with h <;> simp_all
  | tie => 
    simp only []
    cases sideIn z d.side1 <;> cases sideIn z d.side2 <;> cases r.iso1.countedClosed <;> cases r.iso2.countedClosed <;> by_cases h
        : n = c.endZone <;> simp [h]

theorem memberSigns_length {c z n d r} : (memberSigns c z n d r).length ≤ 1 := by
  unfold memberSigns; split <;> split_ifs <;> simp

/-- The members of a zone, each with its sign (R105, R106, R109). -/
theorem mem_membersOf {c timers tau t z b sg} : (⟨b, sg⟩ : Member) ∈ membersOf c timers (viewBays c tau t) z ↔
    c.hasBay b = true ∧ ∃ d r, (viewBay tau b (t.entry b)).placed = some (d, r) ∧ MemberWith c z (timers.getD b.val 0) d r sg := by
  simp only [membersOf, List.mem_flatMap]
  constructor
  · rintro ⟨v, hv, hm⟩
    obtain ⟨h, e⟩ := mem_viewBays.1 hv
    split at hm
    · next d r hp =>
      simp only [List.mem_map] at hm
      obtain ⟨sg', hs, hh⟩ := hm
      cases hh
      exact ⟨h, d, r, by rw [← e]; exact hp, mem_memberSigns.1 hs⟩
    · simp at hm
  · rintro ⟨h, d, r, hp, hs⟩
    refine ⟨viewBay tau b (t.entry b), mem_viewBays.2 ⟨h, rfl⟩, ?_⟩
    rw [hp]; simp only [List.mem_map]; exact ⟨sg, mem_memberSigns.2 hs, rfl⟩

/-- No bay is twice a member. -/
theorem membersOf_nodup {c timers tau t z} : ((membersOf c timers (viewBays c tau t) z).map Member.bay).Nodup := by
  have := viewBays_nodup c tau t
  unfold membersOf
  generalize viewBays c tau t = l at *
  induction l with
  | nil => simp
  | cons v l ih =>
    rw [List.map_cons, List.nodup_cons] at this
    rw [List.flatMap_cons, List.map_append, List.nodup_append]
    refine ⟨?_, ih this.2, ?_⟩
    · split
      · next d r _ => 
        have := memberSigns_length (c := c) (z := z) (n := timers.getD v.bay.val 0) (d := d) (r := r)
        generalize memberSigns c z _ d r = L at *
        match L with
        | [] => simp
        | [a] => simp
        | _ :: _ :: _ => simp at this
      · simp
    · intro a ha b hb hab
      subst hab
      have h1 : a = v.bay := by
        split at ha
        · simp at ha; exact ha.2.symm
        · simp at ha
      subst h1
      apply this.1
      rw [List.mem_map] at hb; obtain ⟨m, hm, hb⟩ := hb
      rw [List.mem_flatMap] at hm; obtain ⟨w, hw, hm⟩ := hm
      rw [List.mem_map]; refine ⟨w, hw, ?_⟩
      rw [← hb]
      split at hm
      · simp only [List.mem_map] at hm; obtain ⟨_, _, rfl⟩ := hm; rfl
      · simp at hm

theorem membersOf_installed {c timers tau t z} {x : Member} (h : x ∈ membersOf c timers (viewBays c tau t) z) : c.hasBay x.bay =
    true := by
  obtain ⟨b, sg⟩ := x; exact (mem_membersOf.1 h).1

/-- The members of the check zone (R112). -/
theorem mem_checkMembers {c tau t b sg} : (⟨b, sg⟩ : Member) ∈ checkMembers (viewBays c tau t) ↔ c.hasBay b = true ∧ sg = 1 ∧
   ((viewBay tau b (t.entry b)).standing = .usable ∨ (viewBay tau b (t.entry b)).standing = .unusable) ∧ ∃ d,
       (t.entry b).decl = some d ∧ d.kind = .feeder := by
  simp only [checkMembers, List.mem_filterMap]
  have hd : ∀ st, (viewBay tau b (t.entry b)).standing = st → st = .usable ∨ st = .unusable →
      (viewBay tau b (t.entry b)).decl = (t.entry b).decl := by
    intro st hs h; apply usedDecl_of (a := alignHistory tau (t.entry b).history); rw [show standingOf _ _ = st from hs];
        rcases h with rfl | rfl <;> simp
  constructor
  · rintro ⟨v, hv, hm⟩
    obtain ⟨h, e⟩ := mem_viewBays.1 hv
    have hb : v.bay = b := by
      split at hm <;> (try split_ifs at hm) <;> simp at hm <;> exact hm.1
    rw [hb] at e h; subst e
    split at hm <;> (try split_ifs at hm) <;> simp at hm
    · next d hs hdd hk => exact ⟨h, hm.2.symm, .inl hs, d, by rw [← hd _ hs (.inl rfl)]; exact hdd, hk⟩
    · next d hs hdd hk => exact ⟨h, hm.2.symm, .inr hs, d, by rw [← hd _ hs (.inr rfl)]; exact hdd, hk⟩
  · rintro ⟨h, rfl, hs, d, hdd, hk⟩
    refine ⟨viewBay tau b (t.entry b), mem_viewBays.2 ⟨h, rfl⟩, ?_⟩
    rcases hs with hs | hs
    · have := hd _ hs (.inl rfl); rw [hdd] at this; simp only [hs, this]; rw [if_pos hk]; rfl
    · have := hd _ hs (.inr rfl); rw [hdd] at this; simp only [hs, this]; rw [if_pos hk]; rfl

theorem checkMembers_nodup {c tau t} : ((checkMembers (viewBays c tau t)).map Member.bay).Nodup := by
  have := viewBays_nodup c tau t
  unfold checkMembers
  generalize viewBays c tau t = l at *
  have hb : ∀ (v : BayView) m, (match v.standing, v.decl with
    | .usable, some d => if d.kind = .feeder then some (⟨v.bay, 1⟩ : Member) else none
    | .unusable, some d => if d.kind = .feeder then some ⟨v.bay, 1⟩ else none
    | _, _ => none) = some m → m.bay = v.bay := by
    intro v m hm
    split at hm <;> (try split_ifs at hm) <;> simp at hm <;> rw [← hm]
  induction l with
  | nil => simp
  | cons v l ih =>
    rw [List.map_cons, List.nodup_cons] at this
    rw [List.filterMap_cons]
    split
    · exact ih this.2
    · next m hm =>
      rw [List.map_cons, List.nodup_cons]
      refine ⟨?_, ih this.2⟩
      rw [hb v m hm]
      intro hx; apply this.1
      rw [List.mem_map] at hx ⊢; obtain ⟨m', hm', e⟩ := hx
      rw [List.mem_filterMap] at hm'; obtain ⟨w, hw, hm'⟩ := hm'
      exact ⟨w, hw, by rw [← e, hb w m' hm']⟩

/-- The differential and restraint sums over installed members (R120). -/
theorem differential_restraint_sums {c tau t q} {l : List Member} (h : ∀ x ∈ l, c.hasBay x.bay = true) :
   differential (viewBays c tau t) q l = ((l.map fun x => x.sign * (alignHistory tau (t.entry x.bay).history).cur.get q).sum).natAbs ∧
   restraint (viewBays c tau t) q l = (l.map fun x => ((alignHistory tau (t.entry x.bay).history).cur.get q).natAbs).sum := by
  unfold differential restraint
  constructor
  · congr 2; apply List.map_congr_left; intro x hx; rw [alignedCurrent_eq (h x hx)]
  · congr 1; apply List.map_congr_left; intro x hx; rw [alignedCurrent_eq (h x hx)]

/-- The zones a bay touches (R108). -/
theorem mem_zonesHolding {zones tau b e x} : x ∈ zonesHolding zones (viewBay tau b e) ↔ ∃ z ∈ zones, z.1 = x ∧ ∃ d r,
    (viewBay tau b e).placed = some (d, r) ∧ (reaches1 z.2 d r ∨ reaches2 z.2 d r) := by
  unfold zonesHolding reaches1 reaches2
  split
  · next d r hp =>
    simp only [← sideIn_iff, ← countedClosed_iff, List.mem_map, List.mem_filter, Bool.or_eq_true, Bool.and_eq_true]
    constructor
    · rintro ⟨z, ⟨hz, h⟩, rfl⟩; exact ⟨z, hz, rfl, d, r, hp, h⟩
    · rintro ⟨z, hz, rfl, d', r', hp', h⟩; rw [hp] at hp'; cases hp'; exact ⟨z, ⟨hz, h⟩, rfl⟩
  · next hp => simp [hp]

theorem sectSet_union_get (x y : SectSet) (q) : (SectSet.union x y).get q = (x.get q || y.get q) := by cases q <;> rfl

/-- The sections of the zones named. -/
theorem sectionsOf_get {zones : List FoundZone} {names x} : (sectionsOf zones names).get x = true ↔ ∃ z ∈ zones, z.name ∈ names ∧
    z.sections.get x = true := by
  have key : ∀ (l : List FoundZone) (a : SectSet), (l.foldl (fun a z => SectSet.union a z.sections) a).get x = true ↔
      a.get x = true ∨ ∃ z ∈ l, z.sections.get x = true := by
    intro l; induction l with
    | nil => simp
    | cons z l ih => intro a; rw [List.foldl_cons, ih, sectSet_union_get]; simp [or_assoc]
  unfold sectionsOf; rw [key]
  have : noSects.get x = false := by cases x <;> rfl
  simp [this, List.mem_filter]; grind

/-- The end zone timer of one bay (R107). -/
theorem nextEndZones_get {c tau t} {old : List Nat} (b : Bay) : (nextEndZones c (viewBays c tau t) old).getD b.val 0 =
    if c.hasBay b = true then nextEndZone c (viewBay tau b (t.entry b)) (old.getD b.val 0) else 0 := by
  have hg : ∀ (g : Bay → Nat), (allBays.map g).getD b.val 0 = g b := by
    intro g; revert b; simp [allBays, Fin.forall_fin_succ]
  unfold nextEndZones; rw [hg, find_viewBays]
  split_ifs <;> rfl

/-- The differential condition (R137). -/
theorem differentialCondition_iff (s : State) : differentialCondition s = true ↔ ∃ tp ph, s.ze.topo = some tp ∧
    (∃ x ∈ tp.ownZones, zoneOperates tp x ph = true) ∧ (tp.chk.get ph).operate = true := by
  unfold differentialCondition
  cases s.ze.topo with
  | none => simp
  | some tp =>
    have ht : ∀ ph, (trippingPhases tp).get ph = true ↔ (∃ x ∈ tp.ownZones, zoneOperates tp x ph = true) ∧
        (tp.chk.get ph).operate = true := by
      intro ph; cases ph <;> simp [trippingPhases, PerPhase.of, PerPhase.get]
    constructor
    · intro h
      simp only [PerPhase.any, Bool.or_eq_true, id] at h
      rcases h with (h | h) | h
      · exact ⟨tp, .l1, rfl, (ht .l1).1 h⟩
      · exact ⟨tp, .l2, rfl, (ht .l2).1 h⟩
      · exact ⟨tp, .l3, rfl, (ht .l3).1 h⟩
    · rintro ⟨_, ph, e, h⟩
      cases e
      have := (ht ph).2 h
      cases ph <;> simp only [PerPhase.get] at this <;> simp [PerPhase.any, this]

/-- The sets of sections, section by section. -/
theorem sectSet_subset_iff (x y : SectSet) : SectSet.subset x y = true ↔ ∀ q, x.get q = true → y.get q = true := by
  simp only [SectSet.subset, Bool.and_eq_true, Bool.or_eq_true, Bool.not_eq_true']
  constructor
  · rintro ⟨⟨⟨h1, h2⟩, h3⟩, h4⟩ (_|_|_|_) h <;> simp_all [PerSect.get]
  · intro h
    have h1 := h .a1; have h2 := h .a2; have h3 := h .b1; have h4 := h .b2
    simp only [PerSect.get] at h1 h2 h3 h4
    refine ⟨⟨⟨?_, ?_⟩, ?_⟩, ?_⟩ <;> (rw [← Bool.not_eq_true]; tauto)

theorem sectSet_inter_iff (x y : SectSet) : SectSet.isEmpty (SectSet.inter x y) = false ↔ ∃ q, x.get q = true ∧ y.get q = true := by
  simp only [SectSet.isEmpty, SectSet.inter, Bool.not_eq_false', Bool.or_eq_true, Bool.and_eq_true]
  constructor
  · rintro (((h | h) | h) | h)
    · exact ⟨.a1, h⟩
    · exact ⟨.a2, h⟩
    · exact ⟨.b1, h⟩
    · exact ⟨.b2, h⟩
  · rintro ⟨(_|_|_|_), h⟩ <;> simp only [PerSect.get] at h <;> tauto

theorem sectSet_nonempty_of_inter (x y : SectSet) (h : SectSet.isEmpty (SectSet.inter x y) = false) : SectSet.isEmpty x = false := by
  obtain ⟨q, h, -⟩ := (sectSet_inter_iff x y).1 h
  cases q <;> simp only [PerSect.get] at h <;> simp [SectSet.isEmpty, h]

/-- When a cause is active (R145). -/
theorem activeCause_iff (c : Settings) (s : State) : activeCause c s = true ↔ (∃ tp ph, s.ze.topo = some tp ∧ (∃ x ∈ tp.ownZones,
    zoneOperates tp x ph = true) ∧ (tp.chk.get ph).operate = true) ∨
   ∃ b : Bay, b ≠ c.bay ∧
      let e := s.entry b
      e.declared ≠ some .test ∧ e.declared ≠ some .blocked ∧ e.declared ≠ some .isolated ∧
      (∀ x, e.backtrip.get x = true → c.present.get x = true) ∧ ∃ x, e.backtrip.get x = true ∧ (ownSections s).get x = true := by
  unfold activeCause
  rw [Bool.or_eq_true, differentialCondition_iff s]
  apply or_congr Iff.rfl
  simp only [List.any_eq_true, Bool.and_eq_true, decide_eq_true_eq, entryHolds, ← sectSet_subset_iff, ← sectSet_inter_iff]
  constructor
  · rintro ⟨b, -, hb, ⟨⟨h1, h2⟩, h3⟩, h4⟩
    refine ⟨b, hb, ?_, ?_, ?_, h3, by simpa using h4⟩ <;> (intro h; rw [h] at h2; simp [ignoresBacktrip] at h2)
  · rintro ⟨b, hb, h1, h2, h3, h4, h5⟩
    have hm : ∀ b : Bay, b ∈ allBays := by decide
    refine ⟨b, hm b, hb, ⟨⟨?_, ?_⟩, h4⟩, by simpa using h5⟩
    · simp [sectSet_nonempty_of_inter _ _ h5]
    · cases hd : (s.entry b).declared with
      | none => rfl
      | some r => rw [hd] at h1 h2 h3; cases r <;> simp_all [ignoresBacktrip]

/-- The held record once its trip ends, in the words of the statements (R155). -/
theorem closeRecord_held (how) (s : State) : (closeRecord how s.su.epoch s.tu).held = endedRecord how s := by
  unfold closeRecord endedRecord; split_ifs <;> rfl

/-- The reset of the command RESET, over whatever an operation made of the blocks it clears (R173). -/
theorem takeReset_command (Z s : State) (how) (hc : s.cs.commit ≠ .busy) (z : Z.cs = s.cs ∧ Z.pins = s.pins ∧ Z.free = s.free ∧
    Z.pending = s.pending ∧ Z.sc.supplyLow = s.sc.supplyLow ∧ Z.sc.cause = s.sc.cause ∧ Z.sc.holdSupply = s.sc.holdSupply ∧
    Z.sc.holdPin = s.sc.holdPin ∧ Z.ri.east.rx = s.ri.east.rx ∧ Z.ri.west.rx = s.ri.west.rx ∧ Z.tu.recNumber = s.tu.recNumber)
   (h : (closeRecord .reset Z.su.epoch Z.tu).held = how) : takeReset .command Z = afterCommandReset how s := by
  subst h
  obtain ⟨z1, z2, z3, z4, z5, z6, z7, z8, z9, z10, z11⟩ := z
  have hb : ∀ x : Bool,
      (raiseIf x .supply) = fun t : State =>
      { t with mp := { t.mp with flags := if x then withFlag .supply t.mp.flags else t.mp.flags } } := by
    intro x; cases x <;> rfl
  simp only [takeReset, hb, tripReset, ResetKind.keepsRecord, if_true, storeReset, ResetKind.isSupply, Bool.false_or,
      nextCauses, z1, z2, z3, z4, z5, z6, z7, z8, z9, z10, z11]
  unfold afterCommandReset
  have : (if s.sc.supplyLow then withFlag .supply Maint.reset.flags else Maint.reset.flags) = if s.sc.supplyLow then 4#19 else 0 :=
      by cases s.sc.supplyLow <;> decide
  rw [this, show (decide (ResetKind.command = ResetKind.pin) || s.sc.holdPin) = s.sc.holdPin from Bool.false_or _]
  simp only [if_neg hc]
  rfl

/-- When a bay links two sections (R103). -/
theorem feederLink_iff {v : BayView} {x y : Sect} : feederLink v = some (x, y) ↔ ∃ d r, v.placed = some (d, r) ∧ d.kind = .feeder ∧
    d.side1 = some x ∧ d.side2 = some y ∧ r.iso1 ≠ .opened ∧ r.iso2 ≠ .opened := by
  have cc : ∀ s : Switch, s.countedClosed = true ↔ s ≠ .opened := countedClosed_iff
  unfold feederLink
  constructor
  · intro hl
    split at hl
    · next a b r hp =>
      split_ifs at hl with hc
      simp only [Option.some.injEq, Prod.mk.injEq] at hl
      simp only [Bool.and_eq_true, cc] at hc
      exact ⟨_, r, hp, rfl, by rw [← hl.1], by rw [← hl.2], hc.1, hc.2⟩
    · simp at hl
  · rintro ⟨d, r, hp, hk, h1, h2, h3, h4⟩
    obtain ⟨k, a, b⟩ := d
    simp only at hk h1 h2; subst hk h1 h2
    rw [hp]; simp [(cc _).2 h3, (cc _).2 h4]

/-- Unless its quiet run reaches 80, stage 2 leaves a phase that is not QUIET all but its quiet run (R134). -/
theorem stage2_loaded {c : Settings} {ir : Nat} {z : ZoneState} (l : c.iOnset / 2 ≤ ir ∨ z.quietRun + 1 < 80) (hq : z.cls ≠ .quiet) :
    ∃ q, stage2 c ir z = { z with quietRun := q } := by
  unfold stage2 quietReturnZ
  rw [if_neg hq]; dsimp only
  rw [if_neg]
  · exact ⟨_, rfl⟩
  · rintro ⟨-, h2⟩
    rcases l with l | l
    · rw [if_neg (by omega)] at h2; simp at h2
    · unfold upTo at h2; split_ifs at h2 <;> omega

end Sys2Proof.Machine
end

