-- ==== Sys2Proof/Laws/Choices.lean ====
section
/-! SUPPORT. What an epoch does stage by stage: it takes no alarm flag down, its contact stage derives the replica, its choice reads a few
blocks alone, and supervision leaves the trip (R24 to R30, R150, R158); and what an accepted frame with a backtrip set does (R139). -/

namespace Sys2Proof.Machine

open Sys2Proof

/-- An operation that takes no alarm flag down. -/
def Grows (F : State → State) : Prop := ∀ s i, s.mp.flags.getLsbD i = true → (F s).mp.flags.getLsbD i = true

theorem Grows.comp {F H : State → State} (hH : Grows H) (hF : Grows F) : Grows (fun s => H (F s)) := fun s i h => hH _ i (hF s i h)

theorem raise_grows (a) : Grows (raise a) := fun s i h => by simp [raise, withFlag, h]

theorem raiseIf_grows (b a) : Grows (raiseIf b a) := by cases b; exact fun s i h => h; exact raise_grows a

theorem TripOnly.grows {F : State → State} (h : ∀ s, TripOnly F s) : Grows F := fun s i hi => by
  obtain ⟨U, G, h⟩ := h s
  rw [show F s = _ from h s.ri s.mp]; simp [hi]

theorem stageIf_grows {b F} (h : Grows F) : Grows (stageIf b F) := by cases b; exact fun s i h => h; exact h

theorem takeRecordSu_grows (x) : Grows (takeRecordSu x) := by
  intro s i h; simp only [takeRecordSu, converterRecoveryOp, clearRunOp, converterFailureOp]
  split <;> split <;> simp [raise, withFlag, h]

theorem zoneBlockedAll_grows : Grows zoneBlockedAll := by
  intro s i h; unfold zoneBlockedAll
  refine foldl_pres (P := fun t => t.mp.flags.getLsbD i = true) (fun t a ht => ?_) _ h
  unfold zoneBlockedOp; split
  · exact raise_grows _ _ _ (by simpa using ht)
  · exact ht

theorem ownSampleEvent_grows (c) : Grows (ownSampleEvent c) := by
  intro s i h
  cases hf : s.su.flight with
  | none => simp [ownSampleEvent, hf, h]
  | some f =>
    rw [ownSampleEvent_eq hf]
    refine (TripOnly.grows (tripEvaluation_tripOnly c f.epoch)) _ i ?_
    unfold beforeTrip
    apply zoneBlockedAll_grows
    simp only [State.updZe_mp, State.updAu_mp]
    have : (placeOwn ⟨makeOwnFrame c (makeRecord c f s.su.chans) f.declared (offeredSet f.declared (feedOwn c (makeRecord c f
        s.su.chans) f.declared (takeRecordSu (makeRecord c f s.su.chans) s))), f.instant⟩
        (feedOwn c (makeRecord c f s.su.chans) f.declared (takeRecordSu (makeRecord c f s.su.chans) s))).mp = (takeRecordSu
        (makeRecord c f s.su.chans) s).mp := by
      simp
    rw [this]; exact takeRecordSu_grows _ _ _ h

theorem lateEvent_grows (c) : Grows (lateEvent c) := by
  intro s i h; unfold lateEvent; split
  · exact ownSampleEvent_grows c s i h
  · exact h

theorem arbitrate_grows (c p) : Grows (arbitrate c p) := by
  intro s i h; unfold arbitrate; exact raiseIf_grows _ _ _ _ (by simpa using h)

theorem arbitrateBoth_grows (c) : Grows (arbitrateBoth c) := (arbitrate_grows c .west).comp (arbitrate_grows c .east)

theorem peerEpoch_grows (c) : Grows (peerEpoch c) := by
  intro s i h; unfold peerEpoch
  refine foldl_pres (P := fun t => t.mp.flags.getLsbD i = true) (fun t a ht => ?_) _ h
  unfold ageEntry peerAbsentOp peerStaleOp joiningResetOp
  dsimp only
  split_ifs <;> simp_all <;> (try exact raiseIf_grows _ _ _ _ (by simpa using ht))

theorem ringEpoch_grows : Grows ringEpoch := by intro s i h; simpa using h

theorem choiceStage_grows (c) : Grows (choiceStage c) := by
  intro s i h; unfold choiceStage; dsimp only
  have A : ∀ r t, t.mp.flags.getLsbD i = true → (tripAtChoice r t).mp.flags.getLsbD i = true := by
    intro r t ht; simpa using ht
  apply A
  unfold breach listenTimeoutOp
  exact raiseIf_grows _ _ _ _ (raiseIf_grows _ _ _ _ (by simpa using h))

theorem supervisionEpoch_grows (r) : Grows (supervisionEpoch r) := by
  intro s i h; unfold supervisionEpoch; split
  · exact h
  · dsimp only
    have B : Grows pulseEndOp := by
      intro t j ht; unfold pulseEndOp; split
      · exact ht
      · dsimp only; split_ifs <;> (first | exact raiseIf_grows _ _ _ _ (by simpa using ht) | simpa using ht)
    have D : Grows pulseDueOp := by intro t j ht; unfold pulseDueOp; split_ifs <;> simpa using ht
    apply D; apply B; simpa using h

/-- The epoch after its filter tick only adds flags. -/
theorem epochParts_grows {c k tcs o} {s : State} {i} (h : (contactEpoch c k (clockEpoch k tcs s).su.epoch (clockEpoch k tcs
    s)).mp.flags.getLsbD i = true) :
    (epochParts c k tcs o s).mp.flags.getLsbD i = true := by
  unfold epochParts
  have S : ∀ t : State, t.mp.flags.getLsbD i = true → (startConversions t).mp.flags.getLsbD i = true := fun _ h => h
  dsimp only
  apply S; apply stageIf_grows (ringEpoch_grows); apply stageIf_grows (peerEpoch_grows c); apply stageIf_grows (lateEvent_grows c)
  apply supervisionEpoch_grows; apply stageIf_grows (lateEvent_grows c); apply choiceStage_grows
  apply stageIf_grows (ringEpoch_grows); apply stageIf_grows (peerEpoch_grows c); apply stageIf_grows (lateEvent_grows c); exact h

/-- What the Contact Input Unit holds after an epoch is what its own stage left. -/
theorem epochParts_ciu (c k tcs o s) : (epochParts c k tcs o s).ciu = (contactEpoch c k (clockEpoch k tcs s).su.epoch (clockEpoch k
    tcs s)).ciu := by
  obtain ⟨late, pf, lf⟩ := o
  have sc : ∀ s, (startConversions s).ciu = s.ciu := fun s => rfl
  unfold epochParts
  simp only [sc]
  cases late <;> cases pf <;> cases lf <;> simp [stageIf]

/-- The derived states, the conditions and the isolator timers after the contact stage of an epoch (R24, R25, R28, R30). -/
theorem contactEpoch_derives (c k n) (s : State) (old : Replica) (a' : Contacts) (hd : s.ciu.derived = some old) (ha :
    (contactEpoch c k n s).ciu.accepted = some a') :
   let t := contactEpoch c k n s
   ∃ r, t.ciu.derived = some r ∧ r.iso1 = positionOf a'.q1a a'.q1b ∧
        r.iso2 = (if c.kind = .feeder ∧ c.side2 = none then .opened else positionOf a'.q2a a'.q2b) ∧
        r.breaker = positionOf a'.cba a'.cbb ∧
        (∃ d, t.ciu.cond = some d ∧ d.oos = a'.oos ∧ d.tst = a'.tst ∧ (d.allOpen = true ↔ r.iso1 = .opened ∧ r.iso2 = .opened)) ∧
        ∀ pr, let n := t.ciu.discTimer.get pr
          (r.get pr = .opened ∨ r.get pr = .closed →
            n = 0 ∧ t.ciu.discMark.get pr = false ∧ t.ciu.discDetail.get pr = s.ciu.discDetail.get pr) ∧
          (r.get pr = .travel ∨ r.get pr = .invalid →
            n = (if old.get pr = r.get pr then min (s.ciu.discTimer.get pr + 1) c.isoAlarm else 0) ∧
            (n ≠ c.isoAlarm → t.ciu.discMark.get pr = s.ciu.discMark.get pr ∧
              t.ciu.discDetail.get pr = s.ciu.discDetail.get pr) ∧
            (n = c.isoAlarm → t.ciu.discMark.get pr = true ∧ t.ciu.discDetail.get pr = true ∧ t.mp.flags.getLsbD 12 = true)) := by
  have sw : ∀ a b, deriveSwitch a b = positionOf a b := by decide
  unfold contactEpoch at ha ⊢
  dsimp only at ha ⊢
  set s1 := if n.toNat % c.filterTick = 0 then s.updCiu (filterTick k) else s with hs1
  have k1 : s1.ciu.derived = s.ciu.derived ∧ s1.ciu.discTimer = s.ciu.discTimer ∧ s1.ciu.discMark = s.ciu.discMark ∧
      s1.ciu.discDetail = s.ciu.discDetail ∧ s1.mp = s.mp := by
    rw [hs1]; split_ifs
    · simp only [State.updCiu_ciu, State.updCiu_mp, filterTick]; cases s.ciu.accepted <;> simp
    · exact ⟨rfl, rfl, rfl, rfl, rfl⟩
  obtain ⟨k1, k2, k3, k4, k5⟩ := k1
  cases hacc : s1.ciu.accepted with
  | none => simp only [hacc, k1, hd] at ha; simp at ha
  | some b =>
    simp only [hacc, k1, hd, k2, k3] at ha ⊢
    -- one discrepancyOp
    have D : ∀ q (t : State) (R : Replica), t.ciu.derived = some R → ∃ x : Bool, discrepancyOp c q t = { t with
          ciu := { t.ciu with discMark := if x then t.ciu.discMark.upd (fun _ => true) q else t.ciu.discMark, discDetail :=
              if x then t.ciu.discDetail.upd (fun _ => true) q else t.ciu.discDetail }
          mp := { t.mp with flags := if x then withFlag .isolatorDiscrepancy t.mp.flags else t.mp.flags } } ∧
        (x = true ↔ t.ciu.discTimer.get q = c.isoAlarm ∧ (R.get q = .travel ∨ R.get q = .invalid)) := by
      intro q t R hR
      refine ⟨(t.ciu.discTimer.get q == c.isoAlarm) && !(R.get q).known, ?_, ?_⟩
      · unfold discrepancyOp; rw [hR]; dsimp only
        cases (t.ciu.discTimer.get q == c.isoAlarm) && !(R.get q).known <;> rfl
      · cases h : R.get q <;> simp [Switch.known]
    set s2 := s1.updCiu fun u => { u with
        derived := some (deriveReplica c b)
        discTimer := ⟨(countPair c old.iso1 (deriveReplica c b).iso1 s.ciu.discTimer.q1 s.ciu.discMark.q1).1,
            (countPair c old.iso2 (deriveReplica c b).iso2 s.ciu.discTimer.q2 s.ciu.discMark.q2).1,
            (countPair c old.breaker (deriveReplica c b).breaker s.ciu.discTimer.cb s.ciu.discMark.cb).1⟩
        discMark := ⟨(countPair c old.iso1 (deriveReplica c b).iso1 s.ciu.discTimer.q1 s.ciu.discMark.q1).2,
            (countPair c old.iso2 (deriveReplica c b).iso2 s.ciu.discTimer.q2 s.ciu.discMark.q2).2,
            (countPair c old.breaker (deriveReplica c b).breaker s.ciu.discTimer.cb s.ciu.discMark.cb).2⟩
        cond := some (makeConditions b (deriveReplica c b)) } with hs2
    obtain ⟨x1, e1, i1⟩ := D .q1 s2 (deriveReplica c b) rfl
    obtain ⟨x2, e2, i2⟩ := D .q2 (discrepancyOp c .q1 s2) (deriveReplica c b) (by rw [e1]; rfl)
    obtain ⟨x3, e3, i3⟩ := D .cb (discrepancyOp c .q2 (discrepancyOp c .q1 s2)) (deriveReplica c b) (by rw [e2, e1]; rfl)
    rw [e3, e2, e1] at ha ⊢
    rw [e1] at i2; rw [e2, e1] at i3
    have hb : b = a' := by simpa [hs2, hacc] using ha
    subst hb
    refine ⟨deriveReplica c b, rfl, sw _ _, ?_, sw _ _, ⟨_, rfl, rfl, rfl, by simp [makeConditions]⟩, ?_⟩
    · simp only [deriveReplica, sw]; congr 1; simp [and_comm]
    · simp only [hs2, State.updCiu_ciu] at i1 i2 i3
      have cp : ∀ o n t m, ((n = .opened ∨ n = .closed) → countPair c o n t m = (0, false)) ∧ ((n = .travel ∨ n = .invalid) →
          countPair c o n t m = (if o = n then min (t + 1) c.isoAlarm else 0, m)) := by
        intro o n t m; constructor
        · rintro (rfl | rfl) <;> rfl
        · rintro (rfl | rfl) <;> simp only [countPair, Switch.known] <;> (simp only [Bool.false_eq_true, if_false]; split_ifs <;> rfl)
      have nk : ∀ n : Switch, (n = .opened ∨ n = .closed) → ¬ (n = .travel ∨ n = .invalid) := by intro n; cases n <;> simp
      have F : ∀ (w : Bool) (f : BitVec 19), (if w then withFlag .isolatorDiscrepancy f else f).getLsbD 12 = (w || f.getLsbD 12) := by
        intro w f; cases w <;> simp [withFlag, Alarm.bit]
      have FT : ∀ (f : BitVec 19), (withFlag .isolatorDiscrepancy f).getLsbD 12 = true := by intro f; simp [withFlag, Alarm.bit]
      intro pr
      have core : ∀ (o r : Switch) (t : Nat) (m : Bool) (x : Bool), (x = true ↔ (countPair c o r t m).1 = c.isoAlarm ∧
          (r = .travel ∨ r = .invalid)) →
          ((r = .opened ∨ r = .closed) → x = false ∧ (countPair c o r t m) = (0, false)) ∧
          ((r = .travel ∨ r = .invalid) → (countPair c o r t m) = (if o = r then min (t + 1) c.isoAlarm else 0, m) ∧
              ((countPair c o r t m).1 ≠ c.isoAlarm → x = false) ∧ ((countPair c o r t m).1 = c.isoAlarm → x = true)) := by
        intro o r t m x hx
        refine ⟨fun h => ⟨?_, (cp o r t m).1 h⟩, fun h => ⟨(cp o r t m).2 h, ?_, fun h2 => hx.2 ⟨h2, h⟩⟩⟩
        · rw [← Bool.not_eq_true, hx]; exact fun h2 => nk r h h2.2
        · intro h2; rw [← Bool.not_eq_true, hx]; exact fun h3 => h2 h3.1
      have d1 : s1.ciu.discDetail = s.ciu.discDetail := k4
      cases pr
      · obtain ⟨p1, p2⟩ := core old.iso1 (deriveReplica c b).iso1 s.ciu.discTimer.q1 s.ciu.discMark.q1 x1 i1
        refine ⟨fun h => ?_, fun h => ?_⟩
        · obtain ⟨hx, hc⟩ := p1 h
          subst hx
          cases x2 <;> cases x3 <;> simp [hs2, PerPair.get, PerPair.upd, hc, d1]
        · obtain ⟨hc, hn, hy⟩ := p2 h
          refine ⟨?_, fun h2 => ?_, fun h2 => ?_⟩
          · exact congrArg Prod.fst hc
          · have hx := hn h2; subst hx
            cases x2 <;> cases x3 <;> simp [hs2, PerPair.get, PerPair.upd, hc, d1]
          · have hx := hy h2; subst hx
            refine ⟨?_, ?_, ?_⟩
            · cases x2 <;> cases x3 <;> simp [hs2, PerPair.get, PerPair.upd]
            · cases x2 <;> cases x3 <;> simp [hs2, PerPair.get, PerPair.upd]
            · simp only [F, FT, if_true, Bool.true_or, Bool.or_true]
      · obtain ⟨p1, p2⟩ := core old.iso2 (deriveReplica c b).iso2 s.ciu.discTimer.q2 s.ciu.discMark.q2 x2 (by cases x1 <;> exact i2)
        refine ⟨fun h => ?_, fun h => ?_⟩
        · obtain ⟨hx, hc⟩ := p1 h
          subst hx
          cases x1 <;> cases x3 <;> simp [hs2, PerPair.get, PerPair.upd, hc, d1]
        · obtain ⟨hc, hn, hy⟩ := p2 h
          refine ⟨?_, fun h2 => ?_, fun h2 => ?_⟩
          · exact congrArg Prod.fst hc
          · have hx := hn h2; subst hx
            cases x1 <;> cases x3 <;> simp [hs2, PerPair.get, PerPair.upd, hc, d1]
          · have hx := hy h2; subst hx
            refine ⟨?_, ?_, ?_⟩
            · cases x1 <;> cases x3 <;> simp [hs2, PerPair.get, PerPair.upd]
            · cases x1 <;> cases x3 <;> simp [hs2, PerPair.get, PerPair.upd]
            · simp only [F, FT, if_true, Bool.true_or, Bool.or_true]
      · obtain ⟨p1, p2⟩ :=
            core old.breaker (deriveReplica c b).breaker s.ciu.discTimer.cb s.ciu.discMark.cb x3 (by cases x1 <;> cases x2 <;>
            exact i3)
        refine ⟨fun h => ?_, fun h => ?_⟩
        · obtain ⟨hx, hc⟩ := p1 h
          subst hx
          cases x1 <;> cases x2 <;> simp [hs2, PerPair.get, PerPair.upd, hc, d1]
        · obtain ⟨hc, hn, hy⟩ := p2 h
          refine ⟨?_, fun h2 => ?_, fun h2 => ?_⟩
          · exact congrArg Prod.fst hc
          · have hx := hn h2; subst hx
            cases x1 <;> cases x2 <;> simp [hs2, PerPair.get, PerPair.upd, hc, d1]
          · have hx := hy h2; subst hx
            refine ⟨?_, ?_, ?_⟩
            · cases x1 <;> cases x2 <;> simp [hs2, PerPair.get, PerPair.upd]
            · cases x1 <;> cases x2 <;> simp [hs2, PerPair.get, PerPair.upd]
            · simp only [F, FT, if_true, Bool.true_or, Bool.or_true]

theorem testQualification_congr (c) (X Y : State) (h1 : X.sc = Y.sc) (h2 : ∀ b, (X.entry b).presence = (Y.entry b).presence ∧
    (X.entry b).declared = (Y.entry b).declared)
   (h3 : ∀ p, (X.port p).link = (Y.port p).link) : (testQualification c X).sc = (testQualification c Y).sc := by
  have q : qualifies c X = qualifies c Y := by
    rw [Bool.eq_iff_iff, qualifies_iff, qualifies_iff]
    simp only [h3, (h2 _).1, (h2 _).2]
  unfold testQualification qualifiedOp
  simp only [h1, q, State.updSc_sc]
  split_ifs <;> simp_all

theorem chosenState_congr (X Y : State) (h1 : X.sc = Y.sc) (h2 : X.su.convFail = Y.su.convFail) (h3 : X.ciu.cond = Y.ciu.cond) :
    chosenState X = chosenState Y := by
  unfold chosenState blockedCauses; rw [h1, h2, h3]

/-- The choice reads the station, the presence and declared states of the peers, the links,
    the converter and the conditions alone (R158). -/
theorem choiceStage_sc_congr (c) (X Y : State) (h1 : X.sc = Y.sc) (h2 : ∀ b, (X.entry b).presence = (Y.entry b).presence ∧
    (X.entry b).declared = (Y.entry b).declared)
   (h3 : ∀ p, (X.port p).link = (Y.port p).link) (h4 : X.su.convFail = Y.su.convFail) (h5 : X.ciu.cond = Y.ciu.cond) :
   (choiceStage c X).sc = (choiceStage c Y).sc := by
  set X1 := X.updSc fun u => { u with dupQuiet := upTo 4000 u.dupQuiet } with hX1
  set Y1 := Y.updSc fun u => { u with dupQuiet := upTo 4000 u.dupQuiet } with hY1
  have e1 : (testQualification c X1).sc = (testQualification c Y1).sc := testQualification_congr c X1 Y1 (by simp [hX1, hY1,
      h1]) (by simpa [hX1, hY1, State.entry] using h2) (by simpa [hX1, hY1, State.port] using h3)
  have e2 : (testQualification c X1).su.convFail = (testQualification c Y1).su.convFail := by simp [hX1, hY1, h4]
  have e3 : (testQualification c X1).ciu.cond = (testQualification c Y1).ciu.cond := by simp [hX1, hY1, h5]
  have e4 := chosenState_congr _ _ e1 e2 e3
  have S : ∀ Z : State,
      (choiceStage c Z).sc = (enterState (chosenState (testQualification c (Z.updSc fun u =>
      { u with dupQuiet := upTo 4000 u.dupQuiet }))) (testQualification c (Z.updSc fun u =>
      { u with dupQuiet := upTo 4000 u.dupQuiet }))).sc := by
    intro Z; simp [choiceStage]
  rw [S, S, ← hX1, ← hY1, e4]
  simp only [enterState, State.updSc_sc, blockedCauses, e1, e2]

theorem setEntry_entry_or (s : State) (b e) : (s.setEntry b e).entry b = e ∨ ((s.setEntry b e).entry b = s.entry b ∧
    s.entry b = .reset) := by
  by_cases h : b.val < s.pt.entries.length
  · left; simp [State.setEntry, State.entry, Peers.entry, Peers.set, h]
  · right; simp [State.setEntry, State.entry, Peers.entry, Peers.set, h]

theorem ageEntry_own (c b s) : ((ageEntry c b s).entry c.bay).presence = (s.entry c.bay).presence ∧
    ((ageEntry c b s).entry c.bay).declared = (s.entry c.bay).declared := by
  by_cases h : c.bay = b
  · subst h
    have : ageEntry c c.bay s = s.setEntry c.bay { s.entry c.bay with fresh := upTo 4095 (s.entry c.bay).fresh } := by
      simp [ageEntry, peerAbsentOp, peerStaleOp, joiningResetOp]
    rw [this]
    rcases setEntry_entry_or s c.bay { s.entry c.bay with fresh := upTo 4095 (s.entry c.bay).fresh } with h | h
    · rw [h]; exact ⟨rfl, rfl⟩
    · rw [h.1]; exact ⟨rfl, rfl⟩
  · have : (ageEntry c b s).entry c.bay = s.entry c.bay := by
      unfold ageEntry peerAbsentOp peerStaleOp joiningResetOp
      dsimp only
      split_ifs <;> simp [setEntry_entry_ne _ _ h, raiseIf_entry]
    rw [this]; exact ⟨rfl, rfl⟩

/-- The peer stage of an epoch leaves the presence and declared state of the own bay. -/
theorem peerEpoch_own (c s) : ((peerEpoch c s).entry c.bay).presence = (s.entry c.bay).presence ∧
    ((peerEpoch c s).entry c.bay).declared = (s.entry c.bay).declared := by
  unfold peerEpoch
  refine foldl_pres (P := fun t => (t.entry c.bay).presence = (s.entry c.bay).presence ∧
      (t.entry c.bay).declared = (s.entry c.bay).declared) (fun t a ht => ?_) _ ⟨rfl, rfl⟩
  have := ageEntry_own c a t
  exact ⟨this.1.trans ht.1, this.2.trans ht.2⟩

theorem ownSampleEvent_peers (c s) : (∀ b, b ≠ c.bay → (ownSampleEvent c s).entry b = s.entry b) ∧
    (ownSampleEvent c s).ciu = s.ciu ∧ ∀ p, ((ownSampleEvent c s).port p).link = (s.port p).link := by
  cases hf : s.su.flight with
  | none => simp [ownSampleEvent, hf]
  | some f =>
    have hp : (ownSampleEvent c s).pt = (feedOwn c (makeRecord c f s.su.chans) f.declared (takeRecordSu (makeRecord c f s.su.chans)
        s)).pt := by
      simp only [ownSampleEvent, hf]; simp [evaluateInstant]
    refine ⟨fun b hb => ?_, by simp, fun p => ?_⟩
    · unfold State.entry; rw [hp]; unfold feedOwn
      have := setEntry_entry_ne (takeRecordSu (makeRecord c f s.su.chans) s) (feedEntry c (makeRecord c f s.su.chans) f.declared
          ((takeRecordSu (makeRecord c f s.su.chans) s).entry c.bay)) hb
      refine (show Peers.entry _ b = _ from this).trans ?_
      simp [State.entry]
    · have : (ownSampleEvent c s).ri = (placeOwn ⟨makeOwnFrame c (makeRecord c f s.su.chans) f.declared (offeredSet f.declared
          (feedOwn c (makeRecord c f s.su.chans) f.declared (takeRecordSu (makeRecord c f s.su.chans) s))), f.instant⟩
          (feedOwn c (makeRecord c f s.su.chans) f.declared (takeRecordSu (makeRecord c f s.su.chans) s))).ri := by
        simp only [ownSampleEvent, hf]; simp [evaluateInstant]
      unfold State.port; rw [this]
      have L : ∀ (o : OwnFrame) (q : PortState), (placeCopy o q).link = q.link := by intro o q; unfold placeCopy; split_ifs <;> rfl
      cases p <;> simp [placeOwn, State.updPort, State.updRi, Ring.updPort, Ring.port, L]

/-- A late sample writes the own entry of the peer table alone. -/
theorem lateEvent_peers (c s) : (∀ b, b ≠ c.bay → (lateEvent c s).entry b = s.entry b) ∧ (lateEvent c s).ciu = s.ciu ∧ ∀ p,
    ((lateEvent c s).port p).link = (s.port p).link := by
  unfold lateEvent; split
  · exact ownSampleEvent_peers c s
  · exact ⟨fun _ _ => rfl, rfl, fun _ => rfl⟩

/-- The peer table has n entries. -/
def HasEntries (n : Nat) (s : State) : Prop := s.pt.entries.length = n

theorem setEntry_keeps_length {n} {s : State} (b e) (h : HasEntries n s) : HasEntries n (s.setEntry b e) :=
    by unfold HasEntries at *; rw [setEntry_length, h]

theorem peerEpoch_keeps_length {n} (c) {s} (h : HasEntries n s) : HasEntries n (peerEpoch c s) := by
  unfold peerEpoch
  refine foldl_pres (P := HasEntries n) (fun t a ht => ?_) _ h
  unfold ageEntry peerAbsentOp peerStaleOp joiningResetOp; dsimp only
  have R : ∀ x a (z : State), HasEntries n z → HasEntries n (raiseIf x a z) := by intro x a z h; cases x <;> exact h
  split_ifs <;> (repeat first | exact ht | apply setEntry_keeps_length | apply R)

theorem lateEvent_keeps_length {n} (c) {s} (h : HasEntries n s) : HasEntries n (lateEvent c s) := by
  unfold lateEvent; split
  · cases hf : s.su.flight with
    | none => simpa [ownSampleEvent, hf] using h
    | some f =>
      have hp : (ownSampleEvent c s).pt = (feedOwn c (makeRecord c f s.su.chans) f.declared (takeRecordSu (makeRecord c f
          s.su.chans) s)).pt := by
        simp only [ownSampleEvent, hf]; simp [evaluateInstant]
      unfold HasEntries; rw [hp]; unfold feedOwn; exact setEntry_keeps_length (n := n) _ _ (by unfold HasEntries; simp; exact h)
  · exact h

/-- With every conversion complete there is no late sample. -/
theorem lateEvent_of_complete (c) (s : State) (h : ∀ ph ch, (s.su.chans.get ph).get ch ≠ .converting) : lateEvent c s = s := by
  have : anyConverting s.su.chans = false := by
    rw [← Bool.not_eq_true]; intro h2
    have n : ∀ x : Chan, x.isConverting = true → x = .converting := by intro x; cases x <;> simp [Chan.isConverting]
    simp only [anyConverting, PerPhase.any, Bool.or_eq_true] at h2
    rcases h2 with ((h2 | h2) | (h2 | h2)) | (h2 | h2)
    · exact h .l1 .a (n _ h2)
    · exact h .l1 .b (n _ h2)
    · exact h .l2 .a (n _ h2)
    · exact h .l2 .b (n _ h2)
    · exact h .l3 .a (n _ h2)
    · exact h .l3 .b (n _ h2)
  simp [lateEvent, this]

/-- With no late sample, the Trip Unit of an epoch is that of the choice and the supervision, and their alarm flags stay. -/
theorem epochParts_tu (c k tcs o) (s : State) (h : ∀ ph ch, (s.su.chans.get ph).get ch ≠ .converting) :
    ∃ X : State, (epochParts c k tcs o s).sc = (choiceStage c X).sc ∧ X.tu = { s.tu with pulseNew := false } ∧ X.sc = s.sc ∧
        X.su.epoch = s.su.epoch + 1 ∧
      X.pins.tcs = tcs ∧
      (epochParts c k tcs o s).tu = (supervisionEpoch (chosenAt (choiceStage c X)) (choiceStage c X)).tu ∧
      ∀ i, (supervisionEpoch (chosenAt (choiceStage c X)) (choiceStage c X)).mp.flags.getLsbD i = true →
        (epochParts c k tcs o s).mp.flags.getLsbD i = true := by
  obtain ⟨late, pf, lf⟩ := o
  set s1 := contactEpoch c k (clockEpoch k tcs s).su.epoch (clockEpoch k tcs s) with hs1
  have b1 : s1.sc = s.sc ∧ s1.tu = { s.tu with pulseNew := false } ∧ s1.su.epoch = s.su.epoch + 1 ∧ s1.su.chans = s.su.chans := by
    rw [hs1]; simp [clockEpoch]
  have b2 : s1.pins.tcs = tcs := by rw [hs1]; simp [clockEpoch]
  have T : ∀ z, (startConversions z).sc = z.sc ∧ (startConversions z).tu = z.tu := fun _ => ⟨rfl, rfl⟩
  have N : ∀ z : State, z.su.chans = s.su.chans → lateEvent c z = z := fun z hz => lateEvent_of_complete c z (by rw [hz]; exact h)
  have NI : ∀ b (z : State), z.su.chans = s.su.chans → stageIf b (lateEvent c) z = z := by intro b z hz; cases b <;> simp [stageIf,
      N z hz]
  refine ⟨stageIf lf ringEpoch (stageIf pf (peerEpoch c) s1), ?_, ?_, ?_, ?_, ?_, ?_, fun i hi => ?_⟩
  · unfold epochParts; dsimp only; rw [← hs1, NI _ s1 b1.2.2.2]
    have q : (choiceStage c (stageIf lf ringEpoch (stageIf pf (peerEpoch c) s1))).su.chans = s.su.chans :=
        by cases pf <;> cases lf <;> simp [stageIf, b1.2.2.2]
    rw [NI _ _ q, NI _ _ (by simpa using q)]
    cases pf <;> cases lf <;> simp [stageIf, (T _).1]
  · cases pf <;> cases lf <;> simp [stageIf, b1.2.1]
  · cases pf <;> cases lf <;> simp [stageIf, b1.1]
  · cases pf <;> cases lf <;> simp [stageIf, b1.2.2.1]
  · cases pf <;> cases lf <;> simp [stageIf, b2]
  · unfold epochParts; dsimp only; rw [← hs1, NI _ s1 b1.2.2.2]
    have q : (choiceStage c (stageIf lf ringEpoch (stageIf pf (peerEpoch c) s1))).su.chans = s.su.chans :=
        by cases pf <;> cases lf <;> simp [stageIf, b1.2.2.2]
    rw [NI _ _ q, NI _ _ (by simpa using q)]
    cases pf <;> cases lf <;> simp [stageIf, (T _).2]
  · unfold epochParts; dsimp only; rw [← hs1, NI _ s1 b1.2.2.2]
    have q : (choiceStage c (stageIf lf ringEpoch (stageIf pf (peerEpoch c) s1))).su.chans = s.su.chans :=
        by cases pf <;> cases lf <;> simp [stageIf, b1.2.2.2]
    rw [NI _ _ q, NI _ _ (by simpa using q)]
    exact stageIf_grows (ringEpoch_grows) _ _ (stageIf_grows (peerEpoch_grows c) _ _ hi)

/-- Supervision leaves an asserted trip alone. -/
theorem supervisionEpoch_keeps_trip (r) (s : State) (h : s.tu.pulse = none) (h2 : s.tu.coil1 = .trip) : let t :=
    (supervisionEpoch r s).tu
    t.trip = s.tu.trip ∧ t.held = s.tu.held ∧ t.recorded = s.tu.recorded ∧ t.sealIn = s.tu.sealIn ∧ t.coil2 = s.tu.coil2 ∧
        t.bf = s.tu.bf ∧ t.backtrip = s.tu.backtrip ∧ t.coil1 = .trip := by
  unfold supervisionEpoch pulseDueOp pulseEndOp; dsimp only
  simp only [State.updTu_tu, h, Option.map_none]
  split_ifs <;> simp_all

theorem pulseEndOp_trip (s : State) : let t := (pulseEndOp s).tu
    t.trip = s.tu.trip ∧ t.held = s.tu.held ∧ t.recorded = s.tu.recorded ∧ t.sealIn = s.tu.sealIn ∧ t.coil2 = s.tu.coil2 ∧
        t.bf = s.tu.bf ∧ t.backtrip = s.tu.backtrip := by
  unfold pulseEndOp; dsimp only
  split
  · exact ⟨rfl, rfl, rfl, rfl, rfl, rfl, rfl⟩
  · split_ifs <;> simp

theorem pulseDueOp_trip (s : State) : let t := (pulseDueOp s).tu
    t.trip = s.tu.trip ∧ t.held = s.tu.held ∧ t.recorded = s.tu.recorded ∧ t.sealIn = s.tu.sealIn ∧ t.coil2 = s.tu.coil2 ∧
        t.bf = s.tu.bf ∧ t.backtrip = s.tu.backtrip := by
  unfold pulseDueOp; split_ifs <;> simp [startPulse]

/-- Supervision writes the pulse and its coil alone. -/
theorem supervisionEpoch_trip (r) (s : State) : let t := (supervisionEpoch r s).tu
    t.trip = s.tu.trip ∧ t.held = s.tu.held ∧ t.recorded = s.tu.recorded ∧ t.sealIn = s.tu.sealIn ∧ t.coil2 = s.tu.coil2 ∧
        t.bf = s.tu.bf ∧ t.backtrip = s.tu.backtrip := by
  unfold supervisionEpoch; split
  · exact ⟨rfl, rfl, rfl, rfl, rfl, rfl, rfl⟩
  · dsimp only
    obtain ⟨a1, a2, a3, a4, a5, a6, a7⟩ :=
        pulseDueOp_trip (pulseEndOp (s.updTu fun u => { u with pulse := u.pulse.map (upTo 8), supCount := upTo 1024 u.supCount }))
    obtain ⟨b1, b2, b3, b4, b5, b6, b7⟩ :=
        pulseEndOp_trip (s.updTu fun u => { u with pulse := u.pulse.map (upTo 8), supCount := upTo 1024 u.supCount })
    exact ⟨a1.trans b1, a2.trans b2, a3.trans b3, a4.trans b4, a5.trans b5, a6.trans b6, a7.trans b7⟩

/-- The choice writes the station, the alarm flags and the Trip Unit alone. -/
theorem choiceStage_form (c) (X : State) : ∃ r fl sc,
    choiceStage c X = tripAtChoice r { X with sc := sc, mp := { X.mp with flags := fl } } ∧ sc.station = .running r ∧
    (choiceStage c X).sc = sc := by
  refine ⟨chosenState (testQualification c (X.updSc fun u => { u with dupQuiet := upTo 4000 u.dupQuiet })),
      (choiceStage c X).mp.flags, (choiceStage c X).sc, ?_, ?_, rfl⟩
  · have e : ∀ (Y : State), Y.su = X.su → Y.ciu = X.ciu → Y.ri = X.ri → Y.pt = X.pt → Y.au = X.au → Y.ze = X.ze → Y.tu = X.tu →
        Y.cs = X.cs → Y.pins = X.pins → Y.free = X.free → Y.pending = X.pending →
        Y.mp.receiver = X.mp.receiver → Y.mp.request = X.mp.request → Y.mp.response = X.mp.response →
            Y.mp.selection = X.mp.selection → Y.mp.portErrors = X.mp.portErrors →
        Y = { X with sc := Y.sc, mp := { X.mp with flags := Y.mp.flags } } := by
      intro Y; intros
      obtain ⟨⟩ := Y; rename Maint => m; obtain ⟨⟩ := m; simp_all
    have A : ∀ r (Z : State), (tripAtChoice r Z).sc = Z.sc ∧ (tripAtChoice r Z).mp = Z.mp := by intro r Z; simp
    set Y := breach (listenTimeoutOp (enterState (chosenState (testQualification c (X.updSc fun u =>
        { u with dupQuiet := upTo 4000 u.dupQuiet }))) (testQualification c (X.updSc fun u =>
        { u with dupQuiet := upTo 4000 u.dupQuiet })))) with hY
    have hc : choiceStage c X = tripAtChoice (chosenState (testQualification c (X.updSc fun u =>
        { u with dupQuiet := upTo 4000 u.dupQuiet }))) Y := rfl
    have := e Y (by simp [hY]) (by simp [hY]) (by simp [hY]) (by simp [hY]) (by simp [hY]) (by simp [hY]) (by simp [hY]) (by simp
        [hY]) (by simp [hY]) (by simp [hY]) (by simp [hY]) (by simp [hY]) (by simp [hY]) (by simp [hY]) (by simp [hY]) (by simp [hY])
    rw [hc, (A _ _).1, (A _ _).2]
    exact congrArg (tripAtChoice _) this
  · simp [choiceStage, enterState]

/-- What closing a record leaves. -/
theorem closeRecord_fields (how k u) : (closeRecord how k u).held = (if u.recorded then u.held.map fun x =>
    { x with closed := some ⟨k, how, u.retripMade, decide (u.bf = .failed)⟩ } else u.held) ∧
    (closeRecord how k u).pulse = u.pulse := by
  unfold closeRecord; split_ifs <;> simp

/-- An accepted frame with a backtrip set hands the set to the Trip Unit, once (R139). -/
theorem takeFrame_backtrip (c b f inst p) (s1 : State) (hj : judgeFrame c.present (s1.entry b) f inst = .accepted) (hb : f.backtrip
    ≠ noSects) (hs : bayNumber b = f.source) :
   let t := takeFrame c b f inst p s1
   t = { s1 with pt := s1.pt.set b (acceptEntry f inst p (s1.entry b)), tu := t.tu, mp := { s1.mp with flags := t.mp.flags } } ∧ 
   backtripRequest c f.source f.declared f.backtrip { t with tu := s1.tu } = t := by
  have he : SectSet.isEmpty f.backtrip = false := by
    rw [← Bool.not_eq_true]; intro h; apply hb
    generalize f.backtrip = x at h
    obtain ⟨x1, x2, x3, x4⟩ := x
    simp [SectSet.isEmpty] at h; simp [noSects, h]
  have ht : takeFrame c b f inst p s1 = backtripRequest c f.source f.declared f.backtrip (s1.setEntry b (acceptEntry f inst p
      (s1.entry b))) := by
    simp only [takeFrame, hj, he, hs]; rfl
  intro t
  have T := backtripRequest_tripOnly c f.source f.declared f.backtrip (s1.setEntry b (acceptEntry f inst p (s1.entry b)))
  refine ⟨?_, ?_⟩
  · obtain ⟨U, G, h⟩ := T
    have hF : backtripRequest c f.source f.declared f.backtrip (s1.setEntry b (acceptEntry f inst p (s1.entry b))) =
        { s1.setEntry b (acceptEntry f inst p (s1.entry b)) with tu := U, mp := { s1.mp with flags := s1.mp.flags ||| G } } :=
        h (s1.setEntry b (acceptEntry f inst p (s1.entry b))).ri s1.mp
    have ht' : t = _ := ht.trans hF
    rw [ht']; rfl
  · rw [show t = _ from ht]; exact T.again

theorem echoInterval_intervalOf (l) : echoInterval l = intervalOf l := by cases l <;> rfl

/-- The choice at an epoch 0, whose station has just been set unqualified (R161). -/
theorem choiceStage_start (c : Settings) (k : Contacts) (s u : State) (st : Station) (hst : u.sc.station = st) (hsc : u.sc.dupQuiet
    = s.sc.dupQuiet ∧ u.sc.maintTest = s.sc.maintTest ∧ u.sc.qualified = false ∧ u.sc.qualCount = 0 ∧
    u.sc.stateChanges = s.sc.stateChanges)
    (hcf : u.su.convFail = s.su.convFail) (hcd : u.ciu.cond = some (makeConditions k (deriveReplica c k))) (h0 : st = s.sc.station) :
    StartChoice (choiceAtStart c k s) s (choiceStage c u) := by
  obtain ⟨h1, h2, h3, h4, h5⟩ := hsc
  set v := testQualification c (u.updSc fun x => { x with dupQuiet := upTo 4000 x.dupQuiet }) with hv
  have hq : v.sc.qualified = false ∧ v.sc.dupQuiet = min (s.sc.dupQuiet + 1) 4000 ∧ v.sc.maintTest = s.sc.maintTest ∧
      v.sc.stateChanges = s.sc.stateChanges ∧ v.sc.station = s.sc.station ∧ v.su.convFail = s.su.convFail ∧
      v.ciu.cond = u.ciu.cond := by
    have e : upTo 4000 s.sc.dupQuiet = min (s.sc.dupQuiet + 1) 4000 := by unfold upTo; omega
    rw [hv]; unfold testQualification qualifiedOp
    split_ifs <;> simp_all [upTo]
  obtain ⟨q1, q2, q3, q4, q5, q6, q7⟩ := hq
  have dup : decide (v.sc.dupQuiet < 4000) = decide (s.sc.dupQuiet + 1 < 4000) := by rw [q2]; congr 1; apply propext; omega
  have sw : ∀ a b, deriveSwitch a b = positionOf a b := by decide
  have hr : chosenState v = choiceAtStart c k s := by
    unfold chosenState choiceAtStart blockedCauses
    rw [q7, hcd, q6, q3, q1, dup]
    simp only [makeConditions, deriveReplica, sw]
    by_cases a : s.su.convFail = true ∨ s.sc.dupQuiet + 1 < 4000
    · rw [if_pos a, if_pos]; simpa using a
    · rw [if_neg a, if_neg (by simpa using a)]
      simp
      by_cases b : c.side2 = none ∧ c.kind = .feeder
      · simp [b]
      · have b' : ¬ (c.kind = .feeder ∧ c.side2 = none) := fun h => b ⟨h.2, h.1⟩
        simp [b, b']
  have hc : (choiceStage c u).sc = (enterState (choiceAtStart c k s) v).sc := by rw [← hr]; simp [choiceStage, ← hv]
  constructor <;> rw [hc] <;> simp only [enterState, State.updSc_sc]
  · simp only [blockedCauses, dup, q6]; rfl
  · split_ifs <;> simp [q1]
  · exact q2
  · rw [q5, q4]; split_ifs <;> simp [bump]

/-- A start of epochs keeps the converter-failure flag, and the Station Controller is that of its choice (R1, R161). -/
theorem startEpochs_sc (c k) (s : State) : (startEpochs c k s).su.convFail = s.su.convFail ∧
    (startEpochs c k s).sc = (choiceStage c (ringStart (quietEpoch (peerEpoch c (((((peerRestart c (initialAcceptance c k
    ((s.updSu samplingStart).updPins fun p => { p with contacts := k }))).updZe zoneRestart).updAu fun _ =>
    { latest := none }).updTu fun u => { u with supCount := 0, pulseNew := false }).updSc fun u =>
    { u with qualified := false, qualCount := 0 }))))).sc := by
  constructor
  · simp [startEpochs, startConversions, samplingStart]
  · rfl

/-- The choice that a start of epochs makes (R161, R164, R171). -/
theorem startEpochs_choice (c : Settings) (k : Contacts) (s0 s : State) (h1 : s.sc.station = s0.sc.station) (h2 : s.sc.dupQuiet =
    s0.sc.dupQuiet) (h3 : s.sc.maintTest = s0.sc.maintTest) (h4 : s.sc.stateChanges = s0.sc.stateChanges) (h5 : s.su.convFail =
    s0.su.convFail) :
   StartChoice (choiceAtStart c k s0) s0 (startEpochs c k s) := by
  have h := (startEpochs_sc c k s).2
  have := choiceStage_start c k s0 (ringStart (quietEpoch (peerEpoch c (((((peerRestart c (initialAcceptance c k ((s.updSu
      samplingStart).updPins fun p => { p with contacts := k }))).updZe zoneRestart).updAu fun _ => { latest := none }).updTu fun u
      => { u with supCount := 0, pulseNew := false }).updSc fun u => { u with qualified := false, qualCount := 0 })))) s.sc.station
      (by simp) (by simp [h2, h3, h4]) (by simp [h5, samplingStart]) (by simp [initialAcceptance, peerRestart]) h1
  obtain ⟨a1, a2, a3, a4, a5⟩ := this
  rw [← h] at a1 a2 a3 a4 a5
  exact ⟨a1, a2, a3, a4, a5⟩

/-- What abandoning a pulse leaves of the Trip Unit (R152). -/
theorem abandonPulse_fields (z : State) : let u := (abandonPulse z).tu
    u.trip = z.tu.trip ∧ u.bf = z.tu.bf ∧ u.backtrip = z.tu.backtrip ∧ u.held = z.tu.held ∧ u.recNumber = z.tu.recNumber ∧
    u.supCount = z.tu.supCount ∧ u.supFails = z.tu.supFails ∧ u.pulse = none ∧
    u.ctr = { z.tu.ctr with
      supAbandons := if z.tu.pulse = none then z.tu.ctr.supAbandons else min (z.tu.ctr.supAbandons + 1) 65535 } := by
  unfold abandonPulse; dsimp only; split
  · next h => simp [h, bump]
  · next h => simp [h]

/-- Closing a record writes the record alone (R158). -/
theorem closeRecord_rest (how k u) : closeRecord how k u = { u with held := (closeRecord how k u).held } := by
  unfold closeRecord; split_ifs <;> rfl

end Sys2Proof.Machine
end

