-- ==== Sys2Proof/Laws/Layouts.lean ====
section
/-! SUPPORT. The bytes of the readable tables hold the fields of their layouts (R184, R188; 11, section 11.5). -/

namespace Sys2Proof.Machine

open Sys2Proof

/-- A layout laid out before another. -/
theorem laid_append {l l' : Layout} {d d' : List Byte} (h : LaidOut l d) (h' : LaidOut l' d') : LaidOut (l ++ l') (d ++ d') := by
  induction l generalizing d with
  | nil => cases h; exact h'
  | cons x r ih =>
    obtain ⟨w, n⟩ := x
    obtain ⟨h1, h2, h3⟩ := h
    refine ⟨by simp; omega, ?_, ?_⟩
    · rw [List.take_append_of_le_length h1]; exact h2
    · rw [List.drop_append_of_le_length h1]; exact ih h3

theorem laid_cons {w n : Nat} {l : Layout} {d d' : List Byte} (h : LaidOut [(w, n)] d) (h' : LaidOut l d') : LaidOut ((w, n) ::
    l) (d ++ d') :=
  laid_append h h'

/-- A number in its own bytes. -/
theorem laid1 {n m : Nat} (h : m = n) : LaidOut [(1, m)] (byte1 n) := by
  subst h; refine ⟨by simp [byte1], fun h => ?_, rfl⟩
  simp [byte1, valueOf]; omega

theorem laid2 {n m : Nat} (h : m = n) : LaidOut [(2, m)] (byte2 n) := by
  subst h; refine ⟨by simp [byte2], fun h => ?_, rfl⟩
  simp [byte2, valueOf]; omega

theorem laid3 {n m : Nat} (h : m = n) : LaidOut [(3, m)] (byte3 n) := by
  subst h; refine ⟨by simp [byte3], fun h => ?_, rfl⟩
  simp [byte3, valueOf]; omega

theorem laid4 {n m : Nat} (h : m = n) : LaidOut [(4, m)] (byte4 n) := by
  subst h; refine ⟨by simp [byte4], fun h => ?_, rfl⟩
  simp [byte4, valueOf]; omega

theorem laidb {b : Bool} {m : Nat} (h : m = b.toNat) : LaidOut [(1, m)] (boolByte b) := laid1 h

/-- A field that may be none. -/
theorem laid_orNone {α} {n : Nat} {f : α → Layout} {g : α → List Byte} {x : Option α} (h : ∀ a, LaidOut (f a) (g a)) :
    LaidOut (orNone n f x) (maybe n g x) := by
  cases x with
  | some a => exact laid_cons (laid1 rfl) (h a)
  | none =>
    refine laid_cons (laid1 rfl) ?_
    induction n with
    | zero => rfl
    | succ n ih => exact ⟨by simp, fun _ => rfl, ih⟩

/-- A list. -/
theorem laid_items {α} {f : α → Layout} {g : α → List Byte} {l : List α} (h : ∀ a, LaidOut (f a) (g a)) :
    LaidOut (itemsOf f l) (listOf g l) := by
  refine laid_cons (laid1 rfl) ?_
  induction l with
  | nil => rfl
  | cons a r ih => exact laid_append (h a) ih

/-- A field for each phase. -/
theorem laid_phases {α} {f : α → Layout} {g : α → List Byte} {p : PerPhase α} (h : ∀ a, LaidOut (f a) (g a)) :
    LaidOut (eachPhase f p) (phases3 g p) := laid_append (laid_append (h _) (h _)) (h _)

/-- What the parts of the tables hold (R188). -/
theorem controllerBytes_laid (u : Controller) : LaidOut (controllerLayout u) (controllerBytes u) := by
  unfold controllerLayout controllerBytes
  rw [← List.append_nil (_ ++ byte1 (resetCauseCode u.cause))]
  simp only [List.append_assoc]
  refine laid_cons (laid1 ?_) <| laid_cons (laid1 ?_) <| laid_cons (laidb ?_) <| laid_cons (laidb ?_) <| laid_cons (laid2 ?_) <|
    laid_cons (laid4 ?_) <| laid_cons (laid4 ?_) <| laid_cons (laid2 ?_) <| laid_cons (laidb ?_) <| laid_cons (laid2 ?_) <|
    laid_cons (laid2 ?_) <| laid_cons (laidb ?_) <| laid_cons (laidb ?_) <| laid_cons (laid1 ?_) rfl
  any_goals rfl
  · rcases u.station with _|_|_|(_|_|_|_|_) <;> decide
  · obtain ⟨a,b,c⟩ := u.causes; cases a <;> cases b <;> cases c <;> rfl
  · obtain ⟨a,b,c,d⟩ := u.cause; cases a <;> cases b <;> cases c <;> cases d <;> rfl

theorem contactBytes_laid (u : ContactUnit) : LaidOut (contactLayout u) (contactBytes u) := by
  unfold contactLayout contactBytes
  rw [← List.append_nil (_ ++ boolByte u.discMark.cb)]
  simp only [contactInputs, inputBytes, List.flatMap_cons, List.flatMap_nil, List.append_assoc, List.cons_append,
      List.nil_append, List.append_nil]
  have e : ∀ f : Contacts → Bool, LaidOut (orNone 1 (fun a => [(1, (f a).toNat)]) u.accepted) (maybe 1 boolByte (u.accepted.map
      f)) := by
    intro f; cases u.accepted with
    | none => exact laid_orNone (x := (none : Option Contacts)) (g := fun x => boolByte (f x)) fun a => laidb rfl
    | some a => exact laid_orNone (x := (some a : Option Contacts)) (g := fun x => boolByte (f x)) fun a => laidb rfl
  have hs : ∀ x : Switch, switchNumber x = switchCode x := by intro x; cases x <;> rfl
  have e2 : ∀ f : Replica → Switch, LaidOut (orNone 1 (fun a => [(1, switchNumber (f a))]) u.derived) (maybe 1 (fun r => byte1
      (switchCode (f r))) u.derived) := by
    intro f; exact laid_orNone fun a => laid1 (hs _)
  repeat (first | exact rfl | refine laid_append (e _) ?_ | refine laid_append (e2 _) ?_ | refine laid_cons (laidb rfl) ?_ |
      refine laid_cons (laid4 rfl) ?_ )

theorem instantBytes_laid (x : Option Instant) : LaidOut (instantLayout (x.map fun x => (x.epoch, x.tau))) (instantBytes x) := by
  unfold instantLayout instantBytes
  refine laid_append ?_ ?_
  · cases x with
    | none => exact laid_orNone (x := (none : Option Instant)) (g := fun x => byte4 x.epoch.toNat) (f := fun x => [(4,
        x.epoch.toNat)]) fun a => laid4 rfl
    | some a => exact laid_orNone (x := (some a : Option Instant)) (g := fun x => byte4 x.epoch.toNat) (f := fun x => [(4,
        x.epoch.toNat)])  fun a => laid4 rfl
  · cases x with
    | none => exact laid_orNone (x := (none : Option Instant)) (g := fun x => byte4 x.tau.toNat) (f := fun x => [(4,
        x.tau.toNat)]) fun a => laid4 rfl
    | some a => exact laid_orNone (x := (some a : Option Instant)) (g := fun x => byte4 x.tau.toNat) (f := fun x => [(4,
        x.tau.toNat)])  fun a => laid4 rfl

theorem sectBits_eq (x : SectSet) : sectBits x = sectsCode x := by obtain ⟨a,b,c,d⟩ := x; cases a <;> cases b <;> cases c <;>
    cases d <;> rfl

theorem tripBytes_laid (u : TripUnit) : LaidOut (tripLayout u) (tripBytes u) := by
  unfold tripLayout tripBytes
  rw [← List.append_nil (_ ++ byte2 u.recNumber)]
  simp only [List.append_assoc, List.cons_append, List.nil_append]
  refine laid_cons (laid1 ?_) <| laid_cons (laid1 ?_) <| laid_cons (laid1 ?_) <| laid_cons (laid2 rfl) <| laid_cons (laid2 rfl) <|
    laid_cons (laid2 rfl) <| laid_cons (laidb rfl) <| laid_cons (laid1 ?_) <| laid_cons (laid1 (sectBits_eq _)) <| laid_cons
        (laid2 rfl) <|
    laid_append (laid_orNone fun a => laid1 rfl) <| laid_cons (laid1 rfl) <| laid_cons (laidb rfl) <| laid_cons (laid2 rfl) rfl
  · cases u.trip <;> rfl
  · cases u.coil1 <;> rfl
  · cases u.coil2 <;> rfl
  · cases u.bf <;> rfl

theorem statusTable_laid (s : State) : LaidOut (statusLayout s) (statusTable s) := by
  unfold statusLayout statusTable
  refine laid_append (laid_append (laid_append (laid_append (controllerBytes_laid _) (contactBytes_laid _)) (instantBytes_laid
      _)) (tripBytes_laid _)) (laid1 ?_)
  cases s.cs.commit <;> rfl

theorem declBytes_laid (d : Decl) : LaidOut (declLayout d) (declBytes d) := by
  unfold declLayout declBytes
  simp only [List.append_assoc]
  have : ∀ x, sideNumber x = sideCode x := by intro x; rcases x with _|(_|_|_|_) <;> rfl
  refine laid_cons (laid1 ?_) <| laid_cons (laid1 (this _)) <| laid1 (this _)
  cases d.kind <;> rfl

theorem slotBytes_laid (x : Slot) : LaidOut (slotLayout x) (slotBytes x) := by
  unfold slotLayout slotBytes
  simp only [List.append_assoc, List.cons_append, List.nil_append]
  refine laid_cons (laid2 rfl) <| laid_cons (laid4 rfl) <| laid_append (laid_phases fun v => laid2 ?_) <| laid_append
      (laid_phases fun v => laid1 ?_) <|
    laid_append ?_ (laid1 ?_)
  · simp [BitVec.toNat_ofInt]
  · cases v <;> rfl
  · unfold replicaLayout replicaBytes
    have hs : ∀ x : Switch, switchNumber x = switchCode x := by intro x; cases x <;> rfl
    exact laid_append (laid_append (laid1 (hs _)) (laid1 (hs _))) (laid1 (hs _))
  · cases x.declared <;> rfl

theorem peerTable_laid (e : PeerEntry) : LaidOut (peerLayout e) (peerTable e) := by
  unfold peerLayout peerTable
  simp only [List.append_assoc, List.cons_append, List.nil_append]
  have pc : ∀ p, [Port.east, .west].idxOf p = portCode p := by intro p; cases p <;> rfl
  refine laid_cons (laid1 ?_) <| laid_append (laid_orNone fun a => laid2 rfl) <| laid_append (laid_orNone fun a => declBytes_laid
      a) <|
    laid_append (laid_orNone fun a => laid2 rfl) <| laid_cons (laid2 rfl) <| laid_cons (laid1 rfl) <| laid_append (laid_orNone
        fun a => laid1 ?_) <|
    laid_cons (laid1 (sectBits_eq _)) <| laid_append (laid_orNone fun a => laid1 (pc _)) <| laid_append (laid_orNone fun a => ?_)
        <|
    laid_cons (laid2 rfl) <| laid_cons (laid2 rfl) <| laid_cons (laid2 rfl) <| laid_cons (laid2 rfl) <| laid_cons (laid2 rfl) <|
        laid_items slotBytes_laid
  · cases e.presence <;> rfl
  · cases a <;> rfl
  · unfold conflictBytes
    simp only [List.append_assoc]
    refine laid_cons (laid1 ?_) <| laid_cons (laid2 rfl) <| laid_append (declBytes_laid _) <| laid_cons (laid4 rfl) <| laid1 (pc
        _)
    cases a.reason <;> rfl

theorem zoneStateBytes_laid (z : ZoneState) : LaidOut (phaseLayout z) (zoneStateBytes z) := by
  unfold phaseLayout zoneStateBytes
  simp only [List.append_assoc, List.cons_append, List.nil_append]
  refine laid_cons (laid1 ?_) <| laid_cons (laid1 rfl) <| laid_append (laid_orNone fun a => laid1 rfl) <| laid_cons (laid2 rfl) <|
    laid_cons (laid1 rfl) <| laid_cons (laid1 rfl) <| laid2 rfl
  cases z.cls <;> rfl

theorem phaseResultBytes_laid (r : PhaseResult) : LaidOut (resultLayout r) (phaseResultBytes r) := by
  unfold resultLayout phaseResultBytes
  simp only [List.append_assoc]
  exact laid_cons (laidb rfl) <| laid_cons (laid3 rfl) <| laid_cons (laid3 rfl) <| laidb rfl

theorem memberBytes_laid (x : Member) : LaidOut (memberLayout x) (memberBytes x) := by
  refine laid_cons (laid1 rfl) ?_
  refine ⟨by simp, fun _ => ?_, rfl⟩
  simp [valueOf, BitVec.toNat_ofInt]

theorem topoInstant_laid (t : Option Topology) : LaidOut (instantLayout (t.map fun t => (t.epoch, t.tau))) (topoInstant t) := by
  have := instantBytes_laid (t.map fun y => ⟨y.epoch, y.tau⟩)
  rw [Option.map_map] at this; exact this

theorem checkZoneTable_laid (s : State) : LaidOut (checkLayout s) (checkZoneTable s) :=
  laid_append (laid_append (laid_phases zoneStateBytes_laid) (laid_orNone fun _ => laid_append (laid_items memberBytes_laid)
      (laid_phases phaseResultBytes_laid))) (topoInstant_laid _)

theorem zoneTable_laid (s : State) (x : Sect) : ∃ ties, ShownTies s x ties ∧ LaidOut (zoneLayout s x ties) (zoneTable s x) := by
  have key : ∀ ties, (match s.cs.inUse with | some c => (tiesOf c s x).map Prod.fst | none => []) = ties → LaidOut (zoneLayout s
      x ties) (zoneTable s x) := by
    intro ties ht
    unfold zoneLayout zoneTable
    refine laid_append (laid_append (laid_append (laid_phases zoneStateBytes_laid) (laid_orNone fun z => ?_)) ?_)
        (topoInstant_laid _)
    · refine laid_append (laid_append (laid_append (laid1 ?_) (laid1 (sectBits_eq _))) (laid_items memberBytes_laid))
          (laid_phases phaseResultBytes_laid)
      cases z.name <;> rfl
    · subst ht
      cases hi : s.cs.inUse with
      | none => exact laid1 rfl
      | some c =>
        have : listOf (tieTimerBytes c.endZone) (tiesOf c s x) = listOf (fun b => tieTimerBytes c.endZone (b, s.ze.endZone.getD
            b.val 0)) ((tiesOf c s x).map Prod.fst) := by
          unfold listOf tiesOf; simp only [List.map_map, List.flatMap_map, List.length_map]; rfl
        simp only [this]
        refine laid_items fun b => ?_
        unfold tieTimerBytes
        simp only [List.append_assoc]
        refine laid_cons (laid1 rfl) <| laid_cons (laid2 rfl) <| laidb ?_
        simp [eq_comm, beq_eq_decide]
  refine ⟨_, ?_, key _ rfl⟩
  cases hi : s.cs.inUse with
  | none => exact ⟨List.Pairwise.nil, by simp [hi]⟩
  | some c =>
    have : (tiesOf c s x).map Prod.fst = allBays.filter fun b =>
    c.hasBay b &&
      match usedDecl (s.entry b) with
      | some d => decide (d.kind = .tie) && (decide (d.side1 = some x) || decide (d.side2 = some x))
      | none => false := by
      unfold tiesOf; rw [List.map_map]; exact List.map_id _
    simp only [this]
    refine ⟨List.Pairwise.filter _ (by decide), fun b => ?_⟩
    simp only [List.mem_filter, (by decide : ∀ b : Bay, b ∈ allBays) b, true_and, hi, Bool.and_eq_true]
    unfold usedDecl
    constructor
    · rintro ⟨h1, h2⟩
      split at h2
      · next d hd =>
        split at hd
        · simp at hd
        · next hc => exact ⟨c, d, rfl, h1, by simpa using hc, hd, by simpa using h2⟩
      · simp at h2
    · rintro ⟨c', d, h0, h1, h2, h3, h4⟩
      cases h0
      refine ⟨h1, ?_⟩
      simp [h2, h3, h4]

theorem numbers_laid : ∀ l : List Nat, LaidOut (l.map fun n => (2, n)) (l.flatMap byte2)
  | [] => rfl
  | _ :: r => laid_cons (laid2 rfl) (numbers_laid r)

theorem portCounterBytes_eq (k : PortCounters) : portCounterBytes k = (portNumbers k).flatMap byte2 := by
  unfold portCounterBytes portNumbers
  generalize byte2 = f
  simp only [List.flatMap_cons, List.flatMap_nil, List.append_nil, List.append_assoc]

theorem linkTable_laid (lt : Ticks) (q : PortState) : LaidOut (linkLayout lt q) (linkTable lt q) := by
  unfold linkLayout linkTable
  rw [portCounterBytes_eq]
  simp only [List.append_assoc, List.cons_append, List.nil_append]
  refine laid_cons (laid1 ?_) <| laid_cons (laid2 rfl) <| laid_append (laid_orNone fun a => laid2 rfl) <| laid_cons (laid2 ?_) <|
    laid_cons (laidb rfl) <| laid_cons (laid2 rfl) <| laid_cons (laid1 rfl) <| laid_cons (laidb rfl) <| laid_cons (laid1 rfl) <|
    laid_cons (laidb rfl) <| laid_cons (laidb rfl) <| laid_cons (laid1 rfl) <| laid_cons (laidb rfl) <| laid_cons (laid1 rfl) <|
        numbers_laid _
  · cases q.link <;> rfl
  · unfold PortState.echoNow; cases q.outstanding <;> rfl

theorem countersTable_laid (s : State) : LaidOut (countersLayout s) (countersTable s) := by
  have : countersTable s = ([s.su.disagreeSamples, s.su.missingSamples, s.su.convFailures, s.ciu.changes, s.ciu.bounces] ++
      portNumbers s.ri.east.ctr ++
   portNumbers s.ri.west.ctr ++
   [s.tu.ctr.differentialTrips, s.tu.ctr.backtripTrips, s.tu.ctr.testTrips, s.tu.ctr.retrips, s.tu.ctr.breakerFailures,
    s.tu.ctr.backtripsReceived, s.tu.ctr.backtripsIgnored, s.tu.ctr.backtripsUnmatched, s.tu.ctr.supFailures, s.tu.ctr.supSkips,
    s.tu.ctr.supAbandons, s.tu.ctr.recordOverruns, s.sc.stateChanges, s.mp.portErrors]).flatMap byte2 := by
    unfold countersTable tripCounterBytes
    simp only [portCounterBytes_eq, List.flatMap_append, List.flatMap_cons, List.flatMap_nil, List.append_nil, List.append_assoc]
  rw [this]; exact numbers_laid _

theorem bitsOf_from (l : List Bool) (n : Nat) : l.foldl (fun n b => 2 * n + b.toNat) n = n * 2 ^ l.length + bitsOf l := by
  induction l generalizing n with
  | nil => simp [bitsOf]
  | cons b l ih =>
    have : bitsOf (b :: l) = b.toNat * 2 ^ l.length + bitsOf l := by rw [bitsOf, List.foldl_cons, ih]; simp
    rw [List.foldl_cons, ih, this, List.length_cons]; ring

/-- The bits of a number, read back. -/
theorem bitsOf_bits (N : Nat) : ∀ n, bitsOf ((List.range n).reverse.map N.testBit) = N % 2 ^ n
  | 0 => by simp [bitsOf, Nat.mod_one]
  | n + 1 => by
    have := bitsOf_bits N n
    rw [List.range_succ, List.reverse_append, List.reverse_singleton, List.singleton_append, List.map_cons, bitsOf,
        List.foldl_cons, bitsOf_from,
      this, Nat.mod_pow_succ, Nat.toNat_testBit]
    simp; ring

/-- A set of flags as a number. -/
theorem flagBits_hasFlag (f : BitVec 19) : flagBits (fun a => hasFlag a f) = f.toNat :=
  (bitsOf_bits f.toNat 19).trans (Nat.mod_eq_of_lt f.isLt)

theorem flagBits_congr {p q : Alarm → Bool} (h : ∀ a, p a = q a) : flagBits p = flagBits q := by
  rw [show p = q from funext h]

theorem alarmsTable_laid (s : State) : LaidOut (alarmsLayout s) (alarmsTable s) := by
  unfold alarmsLayout alarmsTable
  simp only [List.append_assoc, List.cons_append, List.nil_append]
  refine laid_cons (laid3 ?_) <| laid_cons (laid3 ?_) <| laid_cons (laid3 ?_) <| laid_append ?_ <| laid_append (laid_orNone fun a
      => laid1 rfl) <| laid_items fun x => ?_
  · exact flagBits_hasFlag _
  · rw [← flagBits_hasFlag]; exact flagBits_congr fun a => (flagSet_has _ a).symm
  · rw [← flagBits_hasFlag]; refine flagBits_congr fun a => ?_
    unfold enableSet hasFlag
    cases s.cs.inUse with
    | none => cases a <;> rfl
    | some c => cases a <;> simp [Alarm.bit]
  · have : listOf byte1 (pairItems s.ciu.discDetail) = listOf (fun q => byte1 ([DevPair.q1, .q2, .cb].idxOf q)) ([DevPair.q1,
        .q2, .cb].filter s.ciu.discDetail.get) := by
      obtain ⟨a, b, d⟩ := s.ciu.discDetail
      cases a <;> cases b <;> cases d <;> rfl
    rw [this]; exact laid_items fun q => laid1 rfl
  · obtain ⟨z, q⟩ := x
    rcases z with (_ | _ | _ | _) | _ <;> cases q <;> exact laid_cons (laid1 rfl) (laid1 rfl)

theorem zeros_laid : ∀ n, LaidOut (List.replicate n (1, 0)) (List.replicate n (0 : Byte))
  | 0 => rfl
  | n + 1 => ⟨by simp, fun _ => rfl, zeros_laid n⟩

/-- The block of a configuration (R188). -/
theorem blockBody_laid (c : Settings) : LaidOut (blockLayout c) (blockBody c) := by
  rw [← List.append_nil (blockBody c), blockBody_append]
  unfold blockLayout
  rw [← List.append_nil (_ ++ List.replicate 16 (1, 0))]
  simp only [List.cons_append, List.nil_append]
  have hs : ∀ x, sideNumber x = sideCode x := by intro x; rcases x with _|(_|_|_|_) <;> rfl
  have hs2 : ∀ x, sideNumber (some x) = sectCode x := by intro x; cases x <;> rfl
  refine laid_cons (laid2 rfl) <| laid_cons (laid2 rfl) <| laid_cons (laid1 rfl) <| laid_cons (laid1 ?_) <| laid_cons (laid1 (hs2
      _)) <|
    laid_cons (laid1 (hs _)) <| laid_cons (laid3 rfl) <| laid_cons (laid1 (sectBits_eq _)) <| laid_cons (laid2 rfl) <| laid_cons
        (laidb rfl) <|
    laid_cons (laid2 rfl) <| laid_cons (laid1 rfl) <| laid_cons (laid2 rfl) <| laid_cons (laid1 rfl) <| laid_cons (laid2 rfl) <|
    laid_cons (laid1 rfl) <| laid_cons (laid1 rfl) <| laid_cons (laid2 rfl) <| laid_cons (laid1 rfl) <| laid_cons (laid1 rfl) <|
    laid_cons (laid3 rfl) <| laid_cons (laid2 rfl) <| laid_cons (laid2 rfl) <| laid_cons (laid2 rfl) <| laid_cons (laid2 rfl) <|
    laid_cons (laid2 rfl) <| laid_cons (laidb rfl) <| laid_cons (laid3 (flagBits_hasFlag _)) <| laid_append (zeros_laid 16) rfl
  cases c.kind <;> rfl

end Sys2Proof.Machine
end

