-- ==== Sys2Proof/Laws/Requests.lean ====
section
/-! SUPPORT. The gate of the Maintenance Port, case by case (R181, R182), and the staging buffer after a write (R177). -/

namespace Sys2Proof.Machine

open Sys2Proof

theorem listens_takes {s : State} (h : Listens s) : mpTakes s = true := by
  obtain ⟨h1, h2, _⟩ := h; simp [mpTakes, h1, h2]

theorem takeCommand_gone {al p act} {s : State} (h : s.sc.reference = false ∨ s.sc.station = .start) : takeCommand al p act s = s := by
  have : mpTakes s = false := by rcases h with h | h <;> simp [mpTakes, h]
  simp [takeCommand, this]

theorem takeCommand_counted {al p act} {s : State} (h1 : s.sc.reference = true) (h2 : s.sc.station ≠ .start) 
    (h : s.mp.receiver = .responding ∨ 64 < p.length) :
    takeCommand al p act s = portError s := by
  have : mpTakes s = true := by simp [mpTakes, h1, h2]
  simp only [takeCommand, this]; rw [if_neg (by simp), if_pos (by simpa using h)]

theorem takeCommand_acts {al p act} {s : State} (h : Listens s) (hp : p.length ≤ 64) (ha : al p.length = true) : takeCommand al p act s =
    act s := by
  simp only [takeCommand, listens_takes h, ha]; simp [h.2.2]; omega

theorem takeCommand_badLength {al p act} {s : State} (h : Listens s) (hp : p.length ≤ 64) (ha : al p.length = false) : takeCommand al p act s
    = answered 5 [] s := by
  simp only [takeCommand, listens_takes h, ha]; simp [h.2.2]; rw [if_neg (by omega)]; rfl

theorem advanceTo_self (s : State) : advanceTo s.su.phase s = s := by
  unfold advanceTo; split
  · exact if_pos (by omega)
  · rfl

theorem pins_self (s : State) : (s.updPins fun p => { p with cfgen := s.pins.cfgen }) = s := rfl

theorem listens_advanceTo {m} {s : State} (h : Listens s) : Listens (advanceTo m s) := by
  obtain ⟨h1, h2, h3⟩ := h; exact ⟨by simpa, by simpa, by simpa⟩

theorem bayOf_none {x : Byte} (h : x = 0 ∨ 24 < x.toNat) : bayOf x.toNat = none := by
  unfold bayOf; rcases h with rfl | h
  · rfl
  · simp; omega

theorem stageBytes_get (o : Nat) (data st : List Byte) (h : st.length = 64) (hl : o + data.length ≤ 64) :
    (stageBytes o data st).length = 64 ∧ ∀ i < 64, (stageBytes o data st)[i]? = if o ≤ i ∧ i < o + data.length then data[i - o]?
    else st[i]? := by
  refine ⟨by simp [stageBytes]; omega, ?_⟩
  intro i hi
  have hm : min o st.length = o := by omega
  simp only [stageBytes, List.getElem?_append, List.length_append, List.length_take, hm, List.getElem?_take, List.getElem?_drop]
  by_cases h1 : i < o
  · rw [if_pos (by omega), if_pos h1, if_pos h1, if_neg (by omega)]
  · by_cases h2 : i < o + data.length
    · rw [if_pos h2, if_neg h1, if_pos ⟨by omega, h2⟩]
    · rw [if_neg h2, if_neg (by omega)]; congr 1; omega

end Sys2Proof.Machine
end

