-- ==== Sys2Proof/Laws/Samples.lean ====
section
/-! SUPPORT. What an own sample event counts (R10 to R13), and what asserting and evaluating a trip does (R140 to R148, R155,
    R156). -/

namespace Sys2Proof.Machine

open Sys2Proof

/-- What taking an own sample record does (R10 to R13). -/
theorem takeRecordSu_counted (x : Record) (s t : State) (ht : t.su = (takeRecordSu x s).su) (hf : (takeRecordSu x
    s).mp.flags.getLsbD 11 = true → t.mp.flags.getLsbD 11 = true) : SampleCounted x s t ∧ t.su.record = some x := by
  have nr : ∀ q, (nextRuns x.val s.su.disRun).get q = if x.val.get q = .valid then 0 else min (s.su.disRun.get q + 1) 16 := by
    intro q; cases q <;> rfl
  have av : allValid x.val = true ↔ ∀ q, x.val.get q = .valid := by
    simp only [allValid, PerPhase.all, Bool.and_eq_true, decide_eq_true_eq]
    constructor
    · rintro ⟨⟨h1, h2⟩, h3⟩ (_|_|_) <;> assumption
    · intro h; exact ⟨⟨h .l1, h .l2⟩, h .l3⟩
  have an : (nextRuns x.val s.su.disRun).any (· == 16) = true ↔ ∃ q, (nextRuns x.val s.su.disRun).get q = 16 := by
    simp only [PerPhase.any, Bool.or_eq_true, beq_iff_eq]
    constructor
    · rintro ((h | h) | h)
      · exact ⟨.l1, h⟩
      · exact ⟨.l2, h⟩
      · exact ⟨.l3, h⟩
    · rintro ⟨(_|_|_), h⟩ <;> simp only [PerPhase.get] at h <;> simp [h]
  have cnt : ∀ p : Validity → Bool, x.val.count p = [Phase.l1, .l2, .l3].countP fun q => p (x.val.get q) := by
    intro p; simp only [PerPhase.count, List.countP_cons, List.countP_nil, PerPhase.get]
    cases p x.val.l1 <;> cases p x.val.l2 <;> cases p x.val.l3 <;> rfl
  set R := nextRuns x.val s.su.disRun with hR
  have big : ∀ (A B : Bool), (R.any (· == 16)) = A → allValid x.val = B →
      (takeRecordSu x s).su = { s.su with
        record := some x, disagreeSamples := bumpBy s.su.disagreeSamples (x.val.count fun v => decide (v = .disagree))
        missingSamples := bumpBy s.su.missingSamples (x.val.count fun v => decide (v = .missing)), disRun := R
        peak := joinPeak ⟨x.cur, x.val⟩ s.su.peak
        convFail := if s.su.convFail then !(B && decide (4000 ≤ upTo 4000 s.su.clearRun)) else (A && !(B && decide (4000 ≤ upTo
            4000 0)))
        clearRun := if s.su.convFail then (if B then (if 4000 ≤ upTo 4000 s.su.clearRun then 0 else upTo 4000 s.su.clearRun) else
            0) else if A && B then upTo 4000 0 else 0
        convFailures := if A && !s.su.convFail then bump s.su.convFailures else s.su.convFailures } ∧
      ((A && !s.su.convFail) = true → (takeRecordSu x s).mp.flags.getLsbD 11 = true) := by
    intro A B hA hB
    simp only [takeRecordSu, converterFailureOp, State.updSu_su, ← hR, hA]
    cases A <;> cases hc : s.su.convFail <;> simp [clearRunOp, converterRecoveryOp, raise, withFlag, Alarm.bit, hB, hc] <;> cases
        B <;> (try simp) <;> (try split_ifs) <;> simp_all [upTo]
  obtain ⟨b1, b2⟩ := big _ _ rfl rfl
  rw [b1] at ht
  refine ⟨⟨?_, ?_, ?_, ?_, ?_, ?_, ?_⟩, by rw [ht]⟩
  · intro q; rw [ht]; exact nr q
  · rintro h0 ⟨q, h1, h2⟩
    have h3 : R.any (· == 16) = true := an.2 ⟨q, by rw [nr, if_neg h2, h1]; rfl⟩
    have h4 : allValid x.val = false := by rw [← Bool.not_eq_true, av]; exact fun h => h2 (h q)
    refine ⟨?_, ?_, ?_, hf (b2 (by simp [h3, h0]))⟩ <;> rw [ht] <;> simp [h0, h3, h4, bump]
  · intro h0 h1
    have h3 : R.any (· == 16) = false := by
      rw [← Bool.not_eq_true, an]; rintro ⟨q, h⟩; have := h1 q; rw [ht] at this; simp only [] at this; omega
    refine ⟨?_, ?_, ?_⟩ <;> rw [ht] <;> simp [h0, h3]
  · intro h0 h1
    have h4 := av.2 h1
    refine ⟨?_, ?_, ?_⟩
    · rw [ht]; simp [h0]
    · intro h; have : ¬ 4000 ≤ upTo 4000 s.su.clearRun := by unfold upTo; omega
      rw [ht]; simp [h0, h4, this]; unfold upTo; omega
    · intro h; have : 4000 ≤ upTo 4000 s.su.clearRun := by unfold upTo; omega
      rw [ht]; simp [h0, h4, this]
  · rintro h0 ⟨q, h1⟩
    have h4 : allValid x.val = false := by rw [← Bool.not_eq_true, av]; exact fun h => h1 (h q)
    refine ⟨?_, ?_, ?_⟩ <;> rw [ht] <;> simp [h0, h4]
  · rw [ht]; simp only [bumpBy, cnt]
  · rw [ht]; simp only [bumpBy, cnt]

/-- What a sample counts depends on the runs, the flag and the statistics alone. -/
theorem SampleCounted.of_same {x : Record} {s s1 t : State} (h : SampleCounted x s1 t) (h1 : s1.su.disRun = s.su.disRun) (h2 :
    s1.su.convFail = s.su.convFail)
   (h3 : s1.su.clearRun = s.su.clearRun) (h4 : s1.su.disagreeSamples = s.su.disagreeSamples) (h5 : s1.su.missingSamples =
       s.su.missingSamples) (h6 : s1.su.convFailures = s.su.convFailures) : SampleCounted x s t := by
  obtain ⟨a, b, c, d, e, f, g⟩ := h
  constructor <;> simp only [← h1, ← h2, ← h3, ← h4, ← h5, ← h6] <;> assumption

theorem beforeTrip_su (c f s) : (beforeTrip c f s).su = (takeRecordSu (makeRecord c f s.su.chans) s).su := by
  unfold beforeTrip; simp

/-- The Sampling Unit after an own sample event is that of its record. -/
theorem ownSampleEvent_su {c s f} (h : s.su.flight = some f) : (ownSampleEvent c s).su = (takeRecordSu (makeRecord c f
    s.su.chans) s).su := by
  rw [ownSampleEvent_eq h]; simp [beforeTrip_su]

theorem ownSampleEvent_flag {c s f i} (h : s.su.flight = some f) (hi : (takeRecordSu (makeRecord c f s.su.chans)
    s).mp.flags.getLsbD i = true) : (ownSampleEvent c s).mp.flags.getLsbD i = true := by
  rw [ownSampleEvent_eq h]
  refine (TripOnly.grows (tripEvaluation_tripOnly c f.epoch)) _ i ?_
  unfold beforeTrip; apply zoneBlockedAll_grows; simpa using hi

/-- A conversion is under way. -/
theorem anyConverting_iff (chans : PerPhase ChanPair) : anyConverting chans = true ↔ ∃ ph ch, (chans.get ph).get ch = .converting
    := by
  have : ∀ x : Chan, x.isConverting = true ↔ x = .converting := by intro x; cases x <;> simp [Chan.isConverting]
  simp only [anyConverting, PerPhase.any, Bool.or_eq_true, this]
  constructor
  · rintro (((h | h) | (h | h)) | (h | h))
    · exact ⟨.l1, .a, h⟩
    · exact ⟨.l1, .b, h⟩
    · exact ⟨.l2, .a, h⟩
    · exact ⟨.l2, .b, h⟩
    · exact ⟨.l3, .a, h⟩
    · exact ⟨.l3, .b, h⟩
  · rintro ⟨(_|_|_), (_|_), h⟩ <;> simp only [PerPhase.get, ChanPair.get] at h <;> tauto

theorem startConversions_su (s) : (startConversions s).su = { s.su with chans := startedChans, flight := some ⟨s.su.epoch,
    s.su.lt, epochReplica s, chosenAt s⟩ } := rfl

/-- At an epoch only a late own sample writes the statistics, the runs and the flag. -/
theorem epochParts_su (c k tcs o) (s : State) : ∃ z Y : State, z.su = (clockEpoch k tcs s).su ∧
   epochParts c k tcs o s = startConversions Y ∧ Y.su = (lateEvent c z).su ∧
   ((lateEvent c z).mp.flags.getLsbD 11 = true → Y.mp.flags.getLsbD 11 = true) := by
  obtain ⟨late, pf, lf⟩ := o
  unfold epochParts
  cases late
  · refine ⟨contactEpoch c k (clockEpoch k tcs s).su.epoch (clockEpoch k tcs s), _, by simp, rfl, ?_, ?_⟩
    · cases pf <;> cases lf <;> simp [stageIf]
    · intro h
      apply stageIf_grows (ringEpoch_grows); apply stageIf_grows (peerEpoch_grows c); apply stageIf_grows (lateEvent_grows c)
      apply supervisionEpoch_grows; apply stageIf_grows (lateEvent_grows c); apply choiceStage_grows
      apply stageIf_grows (ringEpoch_grows); apply stageIf_grows (peerEpoch_grows c); exact h
  · refine ⟨choiceStage c (stageIf lf ringEpoch (stageIf pf (peerEpoch c) (contactEpoch c k (clockEpoch k tcs s).su.epoch
        (clockEpoch k tcs s)))), _, ?_, rfl, ?_, ?_⟩
    · cases pf <;> cases lf <;> simp [stageIf]
    · cases pf <;> cases lf <;> simp [stageIf]
    · intro h
      apply stageIf_grows (ringEpoch_grows); apply stageIf_grows (peerEpoch_grows c); apply stageIf_grows (lateEvent_grows c)
      apply supervisionEpoch_grows; exact h
  · let y := choiceStage c (stageIf lf ringEpoch (stageIf pf (peerEpoch c) (contactEpoch c k (clockEpoch k tcs s).su.epoch
        (clockEpoch k tcs s))))
    refine ⟨supervisionEpoch (chosenAt y) y, _, ?_, rfl, ?_, ?_⟩
    · cases pf <;> cases lf <;> simp [stageIf, y]
    · cases pf <;> cases lf <;> simp [stageIf, y]
    · intro h
      apply stageIf_grows (ringEpoch_grows); apply stageIf_grows (peerEpoch_grows c); exact h

/-- Zones are found in the order of the sections (R116). -/
theorem zoneSets_order (present : SectSet) (links : List FeederLink) : ((zoneSets present links).map Prod.fst).Pairwise
    namedBefore := by
  have : List.Sublist ((zoneSets present links).map Prod.fst) allSects := by
    unfold zoneSets
    have key : ∀ l : List Sect, List.Sublist ((l.filterMap fun x =>
    if present.get x ∧ lowest (zoneOf present links x) = some x then some (x, zoneOf present links x) else none).map Prod.fst) l
        := by
      intro l; induction l with
      | nil => simp
      | cons x l ih =>
        rw [List.filterMap_cons]; split
        · next h => exact ih.cons _
        · next y h => split_ifs at h; cases h; exact ih.cons_cons _
    exact key _
  have base : allSects.Pairwise namedBefore := by unfold namedBefore; decide
  exact base.sublist this

/-- The phases that trip (R140). -/
theorem trippingPhases_get (tp : Topology) (ph) : (trippingPhases tp).get ph = true ↔ TripsIn tp ph := by
  unfold TripsIn; cases ph <;> simp [trippingPhases, PerPhase.of, PerPhase.get]

/-- The cause that a differential trip records (R155, R156). -/
theorem differentialCause_some {tp : Topology} (h : ∃ ph, TripsIn tp ph) : ∃ q, differentialCause tp = some q ∧
    DifferentialRecord tp q := by
  have op : ∀ x ph, zoneOperates tp x ph = true → ∃ z, tp.zoneNamed x = some z ∧ (z.phases.get ph).operate = true := by
    intro x ph h; unfold zoneOperates at h; split at h
    · next z hz => exact ⟨z, hz, h⟩
    · simp at h
  have good : ∀ x, (allPhases.any fun ph => (trippingPhases tp).get ph && zoneOperates tp x ph) = true ↔ ∃ ph, TripsIn tp ph ∧
      zoneOperates tp x ph = true := by
    intro x; simp only [List.any_eq_true, Bool.and_eq_true, trippingPhases_get]
    constructor
    · rintro ⟨ph, -, h⟩; exact ⟨ph, h⟩
    · rintro ⟨ph, h⟩; exact ⟨ph, by cases ph <;> simp [allPhases], h⟩
  obtain ⟨ph, hp⟩ := h
  obtain ⟨⟨x0, hx0, ho0⟩, hk⟩ := hp
  unfold differentialCause
  cases hf : tp.ownZones.find? fun x => allPhases.any fun ph => (trippingPhases tp).get ph && zoneOperates tp x ph with
  | none =>
    rw [List.find?_eq_none] at hf
    exact absurd ((good x0).2 ⟨ph, ⟨⟨x0, hx0, ho0⟩, hk⟩, ho0⟩) (hf x0 hx0)
  | some x =>
    obtain ⟨ph', h1, h2⟩ := (good x).1 (by simpa using List.find?_some hf)
    obtain ⟨z, hz, ho⟩ := op x ph' h2
    have hm := List.mem_of_find?_eq_some hf
    have hzm := List.mem_of_find?_eq_some hz
    have hn : z.name = x := by simpa using List.find?_some hz
    refine ⟨_, by simp only [hz]; rfl, _, _, z, hzm, rfl, by rw [hn]; exact hm, trippingPhases_get tp, ⟨ph', h1, ho⟩, rfl, rfl,
        ?_, ?_⟩
    · intro q; cases q <;> exact ⟨rfl, rfl⟩
    · intro hs y hy hop hlt
      rw [hn] at hlt
      rw [List.find?_eq_some_iff_append] at hf
      obtain ⟨-, as, bs, e, hbefore⟩ := hf
      rw [e] at hs hy
      rw [List.pairwise_append, List.pairwise_cons] at hs
      have asym : ∀ a b, namedBefore a b → ¬ namedBefore b a := by intro a b; unfold namedBefore; omega
      simp only [List.mem_append, List.mem_cons] at hy
      rcases hy with hy | rfl | hy
      · have := hbefore y hy; rw [Bool.not_eq_true'] at this
        exact absurd ((good y).2 hop) (by rw [this]; simp)
      · exact asym _ _ hlt hlt
      · exact asym _ _ hlt (hs.2.1.1 y hy)

/-- No phase trips: no cause. -/
theorem differentialCause_none {tp : Topology} (h : ∀ ph, ¬ TripsIn tp ph) : differentialCause tp = none := by
  unfold differentialCause
  have : tp.ownZones.find? (fun x => allPhases.any fun ph => (trippingPhases tp).get ph && zoneOperates tp x ph) = none := by
    rw [List.find?_eq_none]; intro x _ h'
    simp only [List.any_eq_true, Bool.and_eq_true, trippingPhases_get] at h'
    obtain ⟨ph, -, h', -⟩ := h'; exact h ph h'
  rw [this]

/-- A trip by a backtrip request. -/
def TripCause.byBacktrip : TripCause → Bool
  | .differential _ _ => false
  | .backtrip _ _ => true

/-- All that asserting a trip does (R143, R144, R153, R155, R156, R159). -/
theorem assertTrip_spec (c : Settings) (test : Bool) (q : TripCause) (k) (s : State) :
   TripAsserted c test (TripCause.byBacktrip q) s (assertTrip c test q k s) ∧ RecordTaken test q k s (assertTrip c test q k s) :=
       by
  obtain ⟨su, ciu, ri, pt, au, ze, tu, sc, cs, mp, pins, fr, pe⟩ := s
  obtain ⟨trip, coil1, coil2, sealIn, retrip, retripMade, bfTimer, bf, backtrip, supCount, pulse, pulseNew, supFails, held,
      recorded, recNumber, ctr⟩ := tu
  cases test <;> cases q <;> cases pulse <;> cases held <;>
    exact ⟨⟨rfl, rfl, rfl, ⟨rfl, rfl, rfl, rfl⟩, ⟨rfl, rfl⟩, ⟨rfl, rfl, rfl⟩, rfl, rfl⟩,
      ⟨by first | (intro _; exact ⟨rfl, rfl, rfl, rfl⟩) | (intro h; cases h), by first | (intro _; exact ⟨rfl, rfl, rfl, rfl⟩) |
          (intro h; exact absurd rfl h)⟩⟩

theorem assertIfAllowed_service {c q k} {s : State} (h : s.tu.trip = .idle) (h2 : s.sc.station = .running .service) :
    assertIfAllowed c q k s = assertTrip c false q k s := by
  unfold assertIfAllowed; simp only [h, h2]

theorem assertIfAllowed_test {c q k} {s : State} (h : s.tu.trip = .idle) (h2 : s.sc.station = .running .test) : assertIfAllowed c
    q k s = assertTrip c true q k s := by
  unfold assertIfAllowed; simp only [h, h2]

/-- Step 3 makes the retrip. -/
def retripMadeBy (c : Settings) (s : State) : Bool := decide (upTo c.tRetrip s.tu.retrip = c.tRetrip) && !s.tu.retripMade &&
    currentNow c s

/-- Step 4 takes BF to FAILED. -/
def failureBy (c : Settings) (s : State) : Bool := decide (s.tu.bf = .timing) && decide (upTo c.tBf s.tu.bfTimer = c.tBf) &&
    (currentNow c s || contactClosed c s)

/-- Steps 1 to 4 of an evaluation, with a trip on (R146 to R148). -/
theorem timersToFailure_spec (c : Settings) (s : State) (h : s.tu.trip ≠ .idle) :
    breakerFailureOp c (retripOp c (tripTimers c s)) = { s with
      tu := { s.tu with
        sealIn := s.tu.sealIn - 1, retrip := upTo c.tRetrip s.tu.retrip, bfTimer := upTo c.tBf s.tu.bfTimer
        retripMade := s.tu.retripMade || retripMadeBy c s
        coil2 := if retripMadeBy c s = true ∧ s.tu.trip = .asserted then .trip else s.tu.coil2
        bf := if failureBy c s then .failed else s.tu.bf
        backtrip := if failureBy c s && decide (s.tu.trip = .asserted) then ownSections s else s.tu.backtrip
        ctr := { s.tu.ctr with
          retrips := if retripMadeBy c s then bump s.tu.ctr.retrips else s.tu.ctr.retrips
          breakerFailures := if failureBy c s && decide (s.tu.trip = .asserted) then bump s.tu.ctr.breakerFailures else
              s.tu.ctr.breakerFailures } }
      mp := if failureBy c s && decide (s.tu.trip = .asserted) then { s.mp with flags := withFlag .breakerFailure s.mp.flags }
          else s.mp } := by
  have R : retripOp c (tripTimers c s) = { s with tu := { s.tu with
        sealIn := s.tu.sealIn - 1, retrip := upTo c.tRetrip s.tu.retrip, bfTimer := upTo c.tBf s.tu.bfTimer
        retripMade := s.tu.retripMade || retripMadeBy c s
        coil2 := if retripMadeBy c s = true ∧ s.tu.trip = .asserted then .trip else s.tu.coil2
        ctr := { s.tu.ctr with retrips := if retripMadeBy c s then bump s.tu.ctr.retrips else s.tu.ctr.retrips } } } := by
    unfold retripOp
    by_cases hm : retripMadeBy c s = true
    · have hm' := hm
      simp only [retripMadeBy, Bool.and_eq_true, decide_eq_true_eq] at hm'
      rw [if_pos ⟨h, hm'.1.1, hm'.1.2, hm'.2⟩]; simp only [hm, Bool.or_true, true_and, if_true]; rfl
    · rw [if_neg]
      · rw [Bool.not_eq_true] at hm; simp only [hm, Bool.or_false, Bool.false_eq_true, false_and, if_false]; rfl
      · rintro ⟨-, a, b, d⟩
        apply hm; simp only [retripMadeBy, Bool.and_eq_true, decide_eq_true_eq]; exact ⟨⟨a, b⟩, d⟩
  rw [R]
  unfold breakerFailureOp
  by_cases hm : failureBy c s = true
  · have hm' := hm
    simp only [failureBy, Bool.and_eq_true, decide_eq_true_eq] at hm'
    rw [if_pos ⟨hm'.1.1, hm'.1.2, hm'.2⟩]
    cases ht : s.tu.trip with
    | idle => exact absurd ht h
    | asserted => simp only [hm, ht]; rfl
    | testAsserted => simp only [hm, ht]; rfl
  · rw [if_neg]
    · rw [Bool.not_eq_true] at hm; simp only [hm]; rfl
    · rintro ⟨a, b, d⟩
      apply hm; simp only [failureBy, Bool.and_eq_true, decide_eq_true_eq]; exact ⟨⟨a, b⟩, d⟩

end Sys2Proof.Machine
end

