-- ==== Sys2Proof/Laws/Starts.lean ====
section
/-! SUPPORT. What a start of epochs does to the ring (R34, R59). -/

namespace Sys2Proof.Machine

open Sys2Proof

/-- The port after the start of probing (R34). -/
theorem probeOp_port (p) (s : State) : (probeOp p s).port p =
    if (s.port p).link = .down ∧ (s.port p).hold = 0 ∧ (s.port p).rx = true then
      { s.port p with link := .probing, hold := 0, losses := 0, echoDue := true } else s.port p := by
  unfold probeOp enterProbing; dsimp only
  split_ifs with h
  · simp
  · rfl

theorem probeOp_other (p) (s : State) : (probeOp p s).port (otherPort p) = s.port (otherPort p) := by
  unfold probeOp enterProbing; dsimp only
  split_ifs with h
  · simp
  · rfl

theorem probeOp_quiet (p) (s : State) : (probeOp p s).ri.overflowQuiet = s.ri.overflowQuiet ∧
   (probeOp p s).ri.unexpectedQuiet = s.ri.unexpectedQuiet ∧ (probeOp p s).ri.unexpectedDetail = s.ri.unexpectedDetail := by
  unfold probeOp enterProbing; dsimp only
  split_ifs <;> cases p <;> exact ⟨rfl, rfl, rfl⟩

/-- Both ports at a start of epochs (R34). -/
theorem ringStart_port (p) (s : State) : (ringStart s).port p =
    if (s.port p).link = .down ∧ (s.port p).hold = 0 ∧ (s.port p).rx = true then
      { s.port p with link := .probing, hold := 0, losses := 0, echoDue := true, cutAt := some s.su.lt }
    else { s.port p with cutAt := some s.su.lt } := by
  obtain ⟨a, ha⟩ : ∃ a, a = (s.updPort .east (cutReception s.su.lt)).updPort .west (cutReception s.su.lt) := ⟨_, rfl⟩
  have hp : ∀ p, a.port p = { s.port p with cutAt := some s.su.lt } := by rw [ha]; intro p; cases p <;> rfl
  have e : ringStart s = probeOp .west (probeOp .east a) := by rw [ha]; rfl
  cases p
  · rw [e, show (probeOp .west (probeOp .east a)).port .east = (probeOp .east a).port .east from probeOp_other .west _, probeOp_port]
    simp only [hp]
  · rw [e, probeOp_port, show (probeOp .east a).port .west = a.port .west from probeOp_other .east _]
    simp only [hp]

/-- The ring after a start of epochs is that of its own stage. -/
theorem startEpochs_ri (c k) (s : State) : (startEpochs c k s).ri = (ringStart (quietEpoch ((s.updSu samplingStart)))).ri := by
  have P : ∀ p (x y : State), x.ri = y.ri → (probeOp p x).ri = (probeOp p y).ri := by
    intro p x y h
    unfold probeOp enterProbing
    have : x.port p = y.port p := by simp [State.port, h]
    rw [this]; dsimp only
    split_ifs <;> simp [h]
  have A : ∀ x y : State, x.ri = y.ri → x.su.lt = y.su.lt → (ringStart x).ri = (ringStart y).ri := by
    intro x y h h2; unfold ringStart
    apply P; apply P; simp [h, h2]
  have T : ∀ z, (startConversions z).ri = z.ri := fun _ => rfl
  unfold startEpochs
  simp only [T, choiceStage_ri]
  apply A <;> simp [quietEpoch, initialAcceptance, peerRestart]

/-- Epochs run after a start of epochs on an in-use copy. -/
theorem startEpochs_runs {c} (k) {s : State} (h : s.cs.inUse = some c) : Runs c (startEpochs c k s) :=
  ⟨by simp [startEpochs, startConversions, samplingStart], by simp [h]⟩

/-- The ports, the quiet runs and the detail at a start of epochs (R34, R59). -/
theorem startEpochs_ring {c} (k) {s : State} (h : s.cs.inUse = some c) : RingStarted c s (startEpochs c k s) := by
  have e : ∀ p, (quietEpoch ((s.updSu samplingStart))).port p = s.port p := fun p => by cases p <;> rfl
  have l : (quietEpoch ((s.updSu samplingStart))).su.lt = 0 := rfl
  have lt : (startEpochs c k s).su.lt = 0 := by simp [startEpochs, startConversions, samplingStart]
  have hp : ∀ p, (startEpochs c k s).port p = (if (s.port p).link = .down ∧ (s.port p).hold = 0 ∧ (s.port p).rx = true then
      { s.port p with link := .probing, hold := 0, losses := 0, echoDue := true, cutAt := some 0 }
      else { s.port p with cutAt := some 0 }) := fun p => by
    rw [show (startEpochs c k s).port p = (ringStart (quietEpoch ((s.updSu samplingStart)))).port p by simp [State.port,
        startEpochs_ri]]
    rw [ringStart_port, e, l]
  refine ⟨fun p h1 h2 h3 => ⟨?_, fun h4 h5 => ?_⟩, fun p h1 h2 => ?_, ?_⟩
  · rw [hp, if_pos ⟨h1, h2, h3⟩]; simp [h2]
  · rw [settle_port (startEpochs_runs k h), hp, if_pos ⟨h1, h2, h3⟩, lt]
    simp [arbitratePort, h4, h5, requestSent, h2, sendRequest]; rfl
  · rw [hp, if_neg (by simp [h2])]
  · rw [startEpochs_ri]; unfold ringStart
    obtain ⟨a1, a2, a3⟩ := probeOp_quiet .west (probeOp .east (((quietEpoch ((s.updSu samplingStart))).updPort .east
        (cutReception 0)).updPort .west (cutReception 0)))
    obtain ⟨b1, b2, b3⟩ := probeOp_quiet .east (((quietEpoch ((s.updSu samplingStart))).updPort .east (cutReception 0)).updPort
        .west (cutReception 0))
    rw [l, a1, a2, a3, b1, b2, b3]; exact ⟨rfl, rfl, rfl⟩

end Sys2Proof.Machine
end

