-- ==== Sys2Proof/WellFormed.lean ====
section
/-! DEFINITION. Which commands are well formed: the moments lie in an epoch, a request's payload is one the line can carry,
a read-back is a whole block, and the code of UNKNOWN names no command. -/

namespace Sys2Proof

/-- An epoch phase lies in 0 to 9,999 (R1). -/
def momentOk (moment : Nat) : Bool := moment < 10000

/-- A payload has 0 to 64 bytes (R181). -/
def payloadOk (payload : List Byte) : Bool := payload.length ≤ 64

/-- The well-formed commands. -/
def Instr.wellFormed : Instr → Bool
  | .conversionComplete _ _ _ m => momentOk m
  | .receiveSignalPresent _ m => momentOk m
  | .receiveSignalLost _ m => momentOk m
  | .echoRequestReceived _ _ m => momentOk m
  | .echoAnswerReceived _ _ m => momentOk m
  | .bayFrameReceived _ _ m => momentOk m
  | .referenceLoss m => momentOk m
  | .commitDone readBack => readBack.length == 64
  | .unknown code payload => payloadOk payload && decide (requestOf code payload false 0 = .unknown code payload)
  | .status p => payloadOk p
  | .select p m => payloadOk p && momentOk m
  | .read p => payloadOk p
  | .takeRecord p => payloadOk p
  | .clearAlarms p => payloadOk p
  | .clearCounters p => payloadOk p
  | .clearPeer p => payloadOk p
  | .testOn p => payloadOk p
  | .testOff p => payloadOk p
  | .stage p => payloadOk p
  | .commit p _ => payloadOk p
  | .reset p => payloadOk p
  | .epoch _ _ _ => true
  | .retrip => true
  | .breakerFailure => true
  | .endZoneTimeout _ => true
  | .onsetWindowEnd _ _ => true
  | .stabilisationExpiry _ _ => true
  | .evolveRelease _ _ => true
  | .quietReturn _ _ => true
  | .zoneBlocked _ _ => true
  | .converterFailure => true
  | .converterRecovery => true
  | .isolatorDiscrepancy _ => true
  | .holdEnd _ => true
  | .echoDue _ => true
  | .echoTimeout _ => true
  | .peerStale _ => true
  | .peerAbsent _ => true
  | .joiningRunReset _ => true
  | .transmissionEnd _ => true
  | .quietRunEnd _ => true
  | .supervisionPulseDue => true
  | .supervisionPulseEnd _ => true
  | .qualified => true
  | .listenTimeout => true
  | .duplicateConflictEnd => true
  | .referenceConfirmed _ => true
  | .powerUpTimeout => true
  | .confirmationWaitTimeout => true
  | .configCheckDone _ => true
  | .supplyLow => true
  | .supplyNormal => true
  | .supplyReset => true
  | .powerOnReset => true
  | .resetPinAsserted => true
  | .resetEnd => true
  | .requestDiscarded _ => true
  | .responseSent => true
  | .badReferenceCycle _ => true

end Sys2Proof
end

