-- ==== Sys2Proof/Tests/Slice0.lean ====
section
/-! SUPPORT. Tests: a smoke test of WellFormed, values and worked examples that spec/ itself gives, and for each statement of
Certificates/Slice0/Obligations.lean a state and operands that meet its hypotheses. -/

namespace Sys2Proof.Tests

open Sys2Proof Sys2Proof.Machine

/-! ## WellFormed refuses one ill-formed term for each of its checks -/

theorem test_wellFormed_moment : (Instr.referenceLoss 10000).wellFormed = false ∧ (Instr.referenceLoss 9999).wellFormed = true := by
  decide

theorem test_wellFormed_moment_of_completion : (Instr.conversionComplete .l1 .a 0 10000).wellFormed = false := by decide

theorem test_wellFormed_moments_of_ring :
    (Instr.receiveSignalPresent .east 10000).wellFormed = false ∧ (Instr.receiveSignalLost .east 10000).wellFormed = false ∧
    (Instr.echoRequestReceived .east [] 10000).wellFormed = false ∧ (Instr.echoAnswerReceived .east [] 10000).wellFormed = false ∧
    (Instr.bayFrameReceived .east [] 10000).wellFormed = false := by decide

theorem test_wellFormed_readBack : (Instr.commitDone []).wellFormed = false := by decide

theorem test_wellFormed_unknown : (Instr.unknown 1 []).wellFormed = false ∧ (Instr.unknown 13 []).wellFormed = true := by decide

theorem test_wellFormed_payload :
    (Instr.status (List.replicate 65 0)).wellFormed = false ∧ (Instr.stage (List.replicate 65 0)).wellFormed = false ∧
    (Instr.select (List.replicate 65 0) 0).wellFormed = false ∧ (Instr.commit (List.replicate 65 0) true).wellFormed = false ∧
    (Instr.unknown 0 (List.replicate 65 0)).wellFormed = false := by decide

/-! ## A configuration and a station that runs on it -/

/-- The feeder of bay 2 between sections A1 and A2, with peers 7 and 12 (9.10 uses such a station). -/
def conf : Settings :=
  { scheme := 5, tag := 100, bay := 1, kind := .feeder, side1 := .a1, side2 := some .a2, installed := 0x000842#24,
    present := ⟨true, true, false, false⟩, scale := 4096, inverted := false, iMin := 500, k := 32, iChkMin := 500, kChk := 16,
    iOnset := 1000, window := 2, nOp := 4, tStab := 80, delay := 4, filterTick := 4, isoAlarm := 400, endZone := 40, tSeal := 200,
    tRetrip := 40, tBf := 200, iBf := 512, breakerCheck := true, alarmEnable := 0x7FFFF#19 }

/-- Isolator 1 and the breaker CLOSED, isolator 2 OPEN. -/
def made : Contacts := ⟨true, false, false, true, true, false, false, false⟩

/-- The order of the parts of an epoch that the tests take. -/
def order : EpochOrder := ⟨.beforeChoice, true, true⟩

/-- A station in LISTEN whose epochs run on `conf`. -/
def station : State :=
  { State.reset with
    su := { Sampling.reset with gen := .running, flight := some ⟨0, 0, ⟨.closed, .opened, .closed⟩, .listen⟩ }
    ciu := { ContactUnit.reset with
      accepted := some made, derived := some ⟨.closed, .opened, .closed⟩, cond := some ⟨false, false, false⟩ }
    sc := { State.reset.sc with station := .running .listen, reference := true, confirmed := true, lastCycle := some 16 }
    cs := { State.reset.cs with inUse := some conf } }

/-- A port that is UP with a link delay of 100 ticks. -/
def upPort : PortState := { PortState.reset true with link := .up, delay := some 100 }

/-- The station with both ports UP. -/
def ringUp : State := { station with ri := { State.reset.ri with east := upPort, west := upPort } }

/-- The station with all six channels CONVERTING. -/
def converting : State := { station with su := { station.su with chans := startedChans } }

/-- The station with every channel DONE but channel B of phase L3. -/
def lastConverting : State :=
  { station with su := { station.su with chans := ⟨⟨.done 100, .done 100⟩, ⟨.done 100, .done 100⟩, ⟨.done 100, .converting⟩⟩ } }

/-- The station in a state of R161. -/
def inState (r : RunState) : State := { station with sc := { station.sc with station := .running r } }

/-- The station with its Trip Unit as given. -/
def tripping (r : RunState) (u : TripUnit) : State := { inState r with tu := u }

/-- A trip that has just been asserted. -/
def asserted : TripUnit := { State.reset.tu with trip := .asserted, coil1 := .trip, bf := .timing }

/-- A captured record, open or closed. -/
def tripRecord (closed : Option TripClose) : TripRecord := ⟨1, 100, false, .backtrip 7 ⟨true, false, false, false⟩, closed⟩

theorem station_runs : Runs conf station := ⟨rfl, rfl⟩

/-- A property of the next state that a command gives. -/
def gives (i : Instr) (s : State) (p : State → Bool) : Bool :=
  match exec i s with
  | .next t => p t
  | .fault _ => false
  | .refused _ => false

/-! ## Values and worked examples of spec/ -/

/-- 01, "Worked example: scaling and disagreement": F = 3,000, NORMAL. -/
theorem test_scaling_and_disagreement :
    testPhase { conf with scale := 3000 } ⟨.done 10000, .done 10450⟩ = (.valid, 7324) ∧
    testPhase { conf with scale := 3000 } ⟨.done (-2049), .done (-2300)⟩ = (.disagree, 0) ∧
    testPhase { conf with scale := 3000 } ⟨.done (readRaw 0x8000#16), .done (-32767)⟩ = (.valid, -23999) := by decide

/-- 01, the same example: F = 6,000 INVERTED clamps and negates; F = 2,048 rounds ties away from zero. -/
theorem test_clamp_polarity_ties :
    scaleRaw { conf with scale := 6000, inverted := true } 30000 = -32767 ∧
    scaleRaw { conf with scale := 2048 } 3 = 2 ∧ scaleRaw { conf with scale := 2048 } (-3) = -2 := by decide

/-- 05, "Example: a computing instant across the wrap". -/
theorem test_instant_across_wrap :
    computingInstant conf 32704#32 = 4294960000#32 ∧ since 4294960000#32 4294958000#32 = 2000 ∧ since 4294960000#32 704#32 = -8000 ∧
    interpolate 800 1300 4294958000#32 704#32 4294960000#32 = 900 := by decide

/-- 05, section 5.4: bay 7 at τ of epoch 126. -/
theorem test_interpolation_rounds : interpolate 1520 1790 1213455#32 1223458#32 1220000#32 = 1697 := by decide

/-- 07, "Example: the characteristic at one instant": K = 32, I_min = 256. -/
theorem test_characteristic :
    isOp ⟨256, 32⟩ 5700 5700 = true ∧ isOp ⟨256, 32⟩ 0 8400 = false ∧ isOp ⟨256, 32⟩ 2100 6300 = false ∧
    isOp ⟨256, 32⟩ 3000 5400 = true ∧ isOp ⟨256, 32⟩ 2800 5600 = true ∧ isOp ⟨256, 32⟩ 2799 5601 = false := by decide

/-- 07, "Worked example: a through fault with CT saturation", from 60,003 on: OP at 60,005 takes zone A1 to EXTERNAL; at 60,205, with OP
still there, its timer runs out and it is THROUGH with its counter at 0 (log 28). -/
theorem test_saturation_example :
    let c : Settings := { conf with iMin := 256, iOnset := 1024, window := 4, tStab := 200 }
    zoneStep c c.zoneChar 800 7600 ⟨.onset, 0, some 3, 0, 0, 0, 0⟩ = ⟨.through, 0, none, 0, 0, 0, 0⟩ ∧
    zoneStep c c.zoneChar 3000 5400 ⟨.through, 0, none, 0, 0, 0, 0⟩ = ⟨.external, 0, none, 200, 0, 0, 0⟩ ∧
    zoneStep c c.zoneChar 3300 5100 ⟨.external, 0, none, 200, 0, 0, 0⟩ = ⟨.external, 0, none, 199, 0, 0, 0⟩ ∧
    zoneStep c c.zoneChar 3300 5100 ⟨.external, 0, none, 1, 0, 0, 0⟩ = ⟨.through, 0, none, 0, 0, 0, 0⟩ ∧
    zoneStep c c.zoneChar 5700 5700 ⟨.quiet, 0, none, 0, 0, 0, 0⟩ = ⟨.internal, 1, none, 0, 0, 0, 0⟩ := by decide

/-- R16, R17: an empty window shows current, and one VALID value below I_bf alone does not. -/
theorem test_current_check :
    currentPresent conf [] = true ∧
    currentPresent conf [⟨⟨20, 0, 0⟩, ⟨.valid, .disagree, .missing⟩⟩] = false ∧
    currentPresent conf [⟨⟨-512, 0, 0⟩, ⟨.valid, .disagree, .missing⟩⟩] = true := by decide

/-- R24: the state of a device from its contact pair. -/
theorem test_device_states :
    deriveSwitch true false = .closed ∧ deriveSwitch false true = .opened ∧ deriveSwitch false false = .travel ∧
    deriveSwitch true true = .invalid := by decide

/-- R57, R58: a sequence is overdue from the eighth after it on, across the wrap of the sequence. -/
theorem test_overdue : overdue 8 0 = true ∧ overdue 7 0 = false ∧ overdue 3 0xFFFB#16 = true := by decide

/-- R156: the record number runs from 65,535 to 1. -/
theorem test_record_number_wraps : nextRecord 65535 = 1 ∧ nextRecord 0 = 1 ∧ nextRecord 65534 = 65535 := by decide

/-- R185, 11.4: LINK DOWN is set while CLEAR ALARMS finds its port not UP, and clears once it is UP. -/
theorem test_kept_flags :
    keptFlags { station with mp := { station.mp with flags := 8#19 } } = 8#19 ∧
    keptFlags { ringUp with mp := { station.mp with flags := 8#19 } } = 0#19 := by decide

/-- R188: the CRC-16 of the nine digits, the published check value of this polynomial and starting value. -/
theorem test_crc16 : crc16 [0x31, 0x32, 0x33, 0x34, 0x35, 0x36, 0x37, 0x38, 0x39] = 0x29B1#16 := by decide +kernel

set_option maxRecDepth 100000 in
/-- R175: the block of 64 zero bytes fails its CRC, and a block written from a good configuration passes. -/
theorem test_zero_block_is_bad : goodBlock (List.replicate 64 0) = none := by decide +kernel

set_option maxRecDepth 100000 in
theorem test_own_block_is_good : goodBlock (blockBytes conf) = some conf := by decide +kernel

/-! ## Witnesses: sections 0 to 3

Each theorem meets together the hypotheses of the statement it is named after, clause by clause. -/

/-- The station with its Sampling Unit changed. -/
def su (f : Sampling → Sampling) : State := station.updSu f

/-- The station with its East port as given. -/
def eastPort (q : PortState) : State := { station with ri := { station.ri with east := q } }

theorem witness_IdleStepIsOneTick :
    (su fun u => { u with phase := 9998 }).pending = [] ∧ (su fun u => { u with phase := 9998 }).held = false ∧
    Runs conf (su fun u => { u with phase := 9998 }) ∧ (su fun u => { u with phase := 9998 }).su.phase + 1 < 10000 ∧
    (let s := (eastPort { upPort with tx := some ⟨[], 0, 128⟩ }).updSu fun u => { u with lt := 127 }
     ((settle s).port .east).tx = some ⟨[], 0, 128⟩ ∧ (128 : Nat) ≤ (s.su.lt + 1 - 0).toNat) ∧
    (let s := (eastPort { upPort with tx := some ⟨[], 0, 128⟩, outstanding := some 5, echoStart := 0 }).updSu fun u => { u with lt := 126 }
     (∀ p x, ((settle s).port p).tx = some x → (s.su.lt + 1 - x.start).toNat < x.ticks) ∧
      ∀ p, ((settle s).port p).outstanding = none ∨ (s.su.lt + 1 - ((settle s).port p).echoStart).toNat < 40000) := by
  and_intros
  all_goals first | exact ⟨rfl, rfl⟩ | decide | skip
  · intro p x h; cases p <;> cases h; decide
  · intro p; cases p <;> decide

/-- The clauses on an echo whose counter runs out at the new tick, with one loss before and with two; and on an epoch that is due. -/
theorem witness_IdleStepIsOneTick_ends :
    (∀ n ∈ [1, 2],
      let s := (eastPort { upPort with outstanding := some 5, echoStart := 60001, losses := n, tx := some ⟨[], 100000, 128⟩ }).updSu fun u =>
        { u with lt := 100000, phase := 9998 }
      let u := atMoment 9999 s
      u.su.phase = s.su.phase + 1 ∧ 40000 = (u.su.lt - (u.port .east).echoStart).toNat ∧ (u.port .east).outstanding = some 5 ∧
        (u.port .east).link ≠ .down ∧ (u.port .east).losses = n) ∧
    (let s := su fun u => { u with phase := 9999 }
     s.pending = [] ∧ s.held = false ∧ Runs conf s ∧ 10000 ≤ s.su.phase + 1) := by
  and_intros
  all_goals first | exact ⟨rfl, rfl⟩ | decide

/-- The clauses on a held station, on START with its timers running, at their ends and done, and on the monitor. -/
theorem witness_IdleStepIsOneTick_stopped :
    let start (powerUp wait run : Nat) (confirmed : Bool) (cycle : Option Nat) : State := State.reset.updSc fun u =>
      { u with powerUp := powerUp, wait := wait, goodRun := run, confirmed := confirmed, lastCycle := cycle }
    (let s := State.reset.updSc fun u => { u with holdPin := true }
     s.pending = [] ∧ s.held = true) ∧
    ∀ s ∈ [start 5 0 0 false none, start 2559999 0 5 false (some 16), start 2560000 5 1023 false (some 64),
        start 2560000 39999999 0 false none, start 2560000 40000000 0 false none, start 2560000 0 1024 true (some 16)],
      s.pending = [] ∧ s.held = false ∧ s.su.gen = .stopped ∧ s.sc.station = .start := by decide

theorem witness_EpochFires : Runs conf station := station_runs

theorem witness_ConversionHeld :
    Runs conf converting ∧ (converting.su.chans.get .l1).get .a = .converting ∧ converting.su.phase ≤ 9999 ∧ 9999 < 10000 ∧
    ∃ ph ch, (ph, ch) ≠ (Phase.l1, Channel.a) ∧ (converting.su.chans.get ph).get ch = .converting :=
  ⟨⟨rfl, rfl⟩, rfl, by decide, by decide, .l3, .b, by decide, rfl⟩

/-- Every channel of `lastConverting` but one is DONE. -/
theorem others_done (ph : Phase) (ch : Channel) (h : (ph, ch) ≠ (Phase.l3, Channel.b)) :
    ∃ x, (lastConverting.su.chans.get ph).get ch = .done x := by
  cases ph <;> cases ch <;> first | exact ⟨100, rfl⟩ | exact absurd rfl h

/-- The hypothesis on the last completion of an epoch, which the statements on an evaluation share. -/
theorem witness_LastConversionMakesRecord :
    CompletesLast conf .l3 .b 9999 ⟨0, 0, ⟨.closed, .opened, .closed⟩, .listen⟩ lastConverting ∧
    conf.bay.val < lastConverting.pt.entries.length :=
  ⟨⟨⟨rfl, rfl⟩, rfl, rfl, by decide, by decide, others_done⟩, by decide⟩

theorem witness_LastConversionMakesRecord_late :
    Runs conf lastConverting ∧ lastConverting.su.flight = some ⟨0, 0, ⟨.closed, .opened, .closed⟩, .listen⟩ ∧
    Converting lastConverting ∧ lastConverting.pt.entries.length = 24 := ⟨⟨rfl, rfl⟩, rfl, ⟨.l3, .b, rfl⟩, rfl⟩

/-- R76: the own entry joins with the first record and is LIVE with the 32nd, also with a record that is late. -/
theorem test_own_entry_joins :
    let at31 := lastConverting.setEntry 1 { PeerEntry.reset with presence := .joining, joinRun := 31 }
    (gives (.conversionComplete .l3 .b 100 9999) lastConverting fun t =>
      decide ((t.entry 1).presence = .joining ∧ (t.entry 1).joinRun = 1 ∧ (t.entry 1).tag = some 100 ∧ (t.entry 1).accepted = 1)) = true ∧
    (gives (.conversionComplete .l3 .b 100 9999) at31 fun t => decide ((t.entry 1).presence = .live)) = true ∧
    (gives (.epoch made false order) at31 fun t => decide ((t.entry 1).presence = .live ∧ (t.entry 1).fresh = 1)) = true := by
  decide +kernel

/-- The clauses on a port: an UP port that is free with a record no older than 4,000,000 ticks, and one not UP. -/
theorem witness_LastConversionMakesRecord_ports :
    let s := { lastConverting with ri := { State.reset.ri with east := upPort, west := { upPort with tx := some ⟨[], 0, 128⟩ } } }
    let q := (atMoment 9999 s).port .east
    q.link = .up ∧ q.tx = none ∧ q.answer = none ∧ q.echoDue = false ∧ ((atMoment 9999 s).su.lt - 0).toNat ≤ 4000000 ∧
      ((atMoment 9999 s).port .west).link = .up ∧ ((atMoment 9999 lastConverting).port .east).link ≠ .up := by
  and_intros <;> decide

/-- A slot at an instant. -/
def slotAt (t : Ticks) : Slot := ⟨1, t, ⟨10, 0, 0⟩, ⟨.valid, .valid, .disagree⟩, ⟨.closed, .opened, .closed⟩, .service⟩

/-- The clauses on a history, at 20,000: slots all later, one at the instant, one before it alone, and pairs at and past the gap
limit around it. -/
theorem witness_LastConversionMakesRecord_histories :
    (∀ y ∈ [slotAt 20001], ((20000 : Ticks) - y.instant).toInt < 0) ∧ 0 ≤ ((20000 : Ticks) - (slotAt 20000).instant).toInt ∧
    (slotAt 20000).instant = 20000 ∧ 0 ≤ ((20000 : Ticks) - (slotAt 10000).instant).toInt ∧ (slotAt 10000).instant ≠ 20000 ∧
    (∀ y ∈ [slotAt 35000], ((20000 : Ticks) - y.instant).toInt < 0) ∧
    ((slotAt 35000).instant - (slotAt 10000).instant).toInt = 25000 ∧
    25000 < ((slotAt 35001).instant - (slotAt 10000).instant).toInt := by
  and_intros <;> decide

theorem witness_RawResultReading : Runs conf converting ∧ (converting.su.chans.get .l2).get .b = .converting := ⟨⟨rfl, rfl⟩, rfl⟩

theorem witness_DisagreementRuns_last :
    Runs conf lastConverting ∧ lastConverting.su.flight = some ⟨0, 0, ⟨.closed, .opened, .closed⟩, .listen⟩ ∧
    (lastConverting.su.chans.get .l3).get .b = .converting ∧
    ∀ ph ch, (ph, ch) ≠ (Phase.l3, Channel.b) → ∃ x, (lastConverting.su.chans.get ph).get ch = .done x :=
  ⟨⟨rfl, rfl⟩, rfl, rfl, others_done⟩

theorem witness_DisagreementRuns_late :
    Runs conf lastConverting ∧ lastConverting.su.flight = some ⟨0, 0, ⟨.closed, .opened, .closed⟩, .listen⟩ ∧
    ∃ ph ch, (lastConverting.su.chans.get ph).get ch = .converting :=
  ⟨⟨rfl, rfl⟩, rfl, .l3, .b, rfl⟩

theorem witness_ConverterFailureAndRecovery :
    (Runs conf (su fun u => { u with disRun := ⟨0, 16, 0⟩ }) ∧
      (∃ ph, (su fun u => { u with disRun := ⟨0, 16, 0⟩ }).su.disRun.get ph = 16) ∧
      (su fun u => { u with disRun := ⟨0, 16, 0⟩ }).su.convFail = false) ∧
    Runs conf (su fun u => { u with convFail := true, clearRun := 4000 }) ∧
    (su fun u => { u with convFail := true, clearRun := 4000 }).su.clearRun = 4000 ∧
    (su fun u => { u with convFail := true, clearRun := 4000 }).su.convFail = true :=
  ⟨⟨⟨rfl, rfl⟩, ⟨.l2, rfl⟩, rfl⟩, ⟨rfl, rfl⟩, rfl, rfl⟩

/-- The clauses on the own sample event, at a last completion whose phases are all VALID or of which L2 DISAGREEs, and late at EPOCH with
L3 MISSING: a run of 15 that fails, one of 14 that does not, the clear run at 3,998 and 3,999, and a sample that is not clean (R10 to R13). -/
theorem witness_ConverterFailureAndRecovery_samples :
    let before (b : Int) (f : Sampling → Sampling) : State :=
      lastConverting.updSu fun u => f { u with chans := u.chans.upd (fun _ => ⟨.done 100, .done b⟩) .l2 }
    let last := gives (.conversionComplete .l3 .b 100 9999)
    let late := gives (.epoch made false order)
    last (before 20000 fun u => { u with disRun := ⟨0, 15, 0⟩ })
      (fun t => t.su.convFail && t.su.disRun.l2 == 16 && t.su.convFailures == 1 && t.su.disagreeSamples == 1) = true ∧
    last (before 20000 fun u => { u with disRun := ⟨0, 14, 0⟩ }) (fun t => !t.su.convFail && t.su.disRun.l2 == 15) = true ∧
    late (before 100 fun u => { u with disRun := ⟨0, 0, 15⟩ }) (fun t => t.su.convFail && t.su.missingSamples == 1) = true ∧
    last (before 100 fun u => { u with convFail := true, clearRun := 3998 })
      (fun t => t.su.convFail && t.su.clearRun == 3999) = true ∧
    last (before 100 fun u => { u with convFail := true, clearRun := 3999 })
      (fun t => !t.su.convFail && t.su.clearRun == 0) = true ∧
    late (before 100 fun u => { u with convFail := true, clearRun := 3999 })
      (fun t => t.su.convFail && t.su.clearRun == 0 && t.su.convFailures == 0) = true ∧
    (∀ ph ch, (station.su.chans.get ph).get ch ≠ .converting) ∧ station.su.flight.isSome = true := by
  refine ⟨?_, ?_, ?_, ?_, ?_, ?_, ?_, rfl⟩
  · decide +kernel
  · decide +kernel
  · decide +kernel
  · decide +kernel
  · decide +kernel
  · decide +kernel
  · intro ph ch; cases ph <;> cases ch <;> decide

/-- The station at an epoch number, with a pending mark on TST; TST and OOS read as changed at the next epoch. -/
def filtering (n : EpochNo) : State :=
  { station with
    su := { station.su with epoch := n }
    ciu := { station.ciu with pending := { clearContacts with tst := true } } }

theorem witness_FilterTickAtEpoch :
    Runs conf (filtering 3) ∧ (filtering 3).ciu.accepted = some made ∧
    ((filtering 2).su.epoch + 1).toNat % conf.filterTick ≠ 0 ∧ ((filtering 3).su.epoch + 1).toNat % conf.filterTick = 0 ∧
    (let k : Contacts := { made with oos := true, tst := true }
     k.q1a = made.q1a ∧ (k.oos ≠ made.oos ∧ (filtering 3).ciu.pending.oos = false) ∧
      k.tst ≠ made.tst ∧ (filtering 3).ciu.pending.tst = true) := by
  and_intros <;> first | exact ⟨rfl, rfl⟩ | decide

/-- The clauses on a device, all inputs inactive: a pair that stays in TRAVEL one count below the alarm time and at it, and one that comes
to TRAVEL; a pair in INVALID; the station's own pairs in known positions. -/
theorem witness_FilterTickAtEpoch_devices :
    (let s := station.updCiu fun u =>
        { u with accepted := some clearContacts, derived := some ⟨.travel, .travel, .closed⟩, discTimer := ⟨398, 399, 7⟩ }
     Runs conf s ∧ s.ciu.accepted = some clearContacts ∧ s.ciu.derived = some ⟨.travel, .travel, .closed⟩ ∧
      (s.su.epoch + 1).toNat % conf.filterTick ≠ 0 ∧ positionOf clearContacts.q1a clearContacts.q1b = .travel ∧
      min (s.ciu.discTimer.get .q1 + 1) conf.isoAlarm ≠ conf.isoAlarm ∧
      min (s.ciu.discTimer.get .q2 + 1) conf.isoAlarm = conf.isoAlarm ∧
      Replica.get ⟨.travel, .travel, .closed⟩ .cb ≠ positionOf clearContacts.cba clearContacts.cbb) ∧
    positionOf true true = .invalid ∧ (conf.kind = .feeder ∧ ({ conf with side2 := none } : Settings).side2 = none) ∧
    (station.ciu.derived = some ⟨.closed, .opened, .closed⟩ ∧ positionOf made.q1a made.q1b = .closed ∧
      positionOf made.q2a made.q2b = .opened) := by
  and_intros <;> first | exact ⟨rfl, rfl⟩ | decide

theorem witness_DiscrepancyMarksPair :
    let s := station.updCiu fun u => { u with derived := some ⟨.travel, .opened, .closed⟩, discTimer := ⟨400, 0, 0⟩ }
    Runs conf s ∧ s.ciu.derived = some ⟨.travel, .opened, .closed⟩ ∧ Replica.get ⟨.travel, .opened, .closed⟩ .q1 ≠ .opened ∧
      Replica.get ⟨.travel, .opened, .closed⟩ .q1 ≠ .closed ∧ s.ciu.discTimer.get .q1 = conf.isoAlarm := by
  and_intros <;> first | exact ⟨rfl, rfl⟩ | decide

theorem witness_PortEntersProbing :
    (Runs conf station ∧ station.su.phase ≤ 9999 ∧ (station.port .east).link = .down ∧ (station.port .east).hold = 0 ∧
      ((atMoment 9999 station).port .east).tx = none ∧ ((atMoment 9999 station).port .east).answer = none) ∧
    (Runs conf (eastPort { PortState.reset true with hold := 1 }) ∧
      ((eastPort { PortState.reset true with hold := 1 }).port .east).hold ≠ 0) ∧
    (let s := eastPort (PortState.reset true)
     Runs conf s ∧ (s.port .east).link = .down ∧ (s.port .east).hold = 0 ∧ (s.port .east).rx = true ∧ (s.port .east).tx = none ∧
      (s.port .east).answer = none) ∧
    (let s := eastPort { PortState.reset true with hold := 1 }
     Runs conf s ∧ (s.port .east).link = .down ∧ (s.port .east).hold = 1 ∧ (s.port .east).rx = true ∧ (s.port .east).tx = none ∧
      (s.port .east).answer = none) ∧
    ((eastPort { PortState.reset true with hold := 256 }).port .east).hold ≠ 1 ∧
    ((eastPort { PortState.reset false with hold := 1 }).port .east).rx = false := by
  and_intros <;> first | exact ⟨rfl, rfl⟩ | decide

theorem witness_SignalLossTakesPortDown :
    Runs conf ringUp ∧ ringUp.su.phase ≤ 9999 ∧ (ringUp.port .west).link ≠ .down := ⟨⟨rfl, rfl⟩, by decide, by decide⟩

theorem witness_EchoDueAndTimeout_due :
    (let s := eastPort { upPort with link := .probing, interval := 4 }
     Runs conf s ∧ ((s.port .east).link = .probing ∧ 4 ≤ (s.port .east).interval) ∧ (s.port .east).outstanding = none ∧
      (s.port .east).tx = none ∧ (s.port .east).answer = none) ∧
    (let s := eastPort { upPort with interval := 64 }
     Runs conf s ∧ ((s.port .east).link = .up ∧ 64 ≤ (s.port .east).interval) ∧ (s.port .east).outstanding = none ∧
      (s.port .east).tx = none ∧ (s.port .east).answer = none) := by
  and_intros <;> first | exact ⟨rfl, rfl⟩ | decide

theorem witness_EchoDueAndTimeout_epoch :
    (let s := eastPort { upPort with interval := 62 }
     let q := (settle s).port .east
     Runs conf s ∧ (s.port .east).link ≠ .down ∧ q.echoDue = false ∧ ¬ intervalOf q.link ≤ min (q.interval + 1) 64) ∧
    (let s := eastPort { upPort with interval := 63 }
     let q := (settle s).port .east
     Runs conf s ∧ (s.port .east).link ≠ .down ∧ q.outstanding = none ∧ intervalOf q.link ≤ min (q.interval + 1) 64 ∧ q.tx = none ∧
      q.answer = none) ∧
    (let s := eastPort { upPort with link := .probing, echoDue := true, tx := some ⟨[], 0, 48⟩ }
     let q := (settle s).port .east
     Runs conf s ∧ (s.port .east).link ≠ .down ∧ q.echoDue = true) := by
  and_intros <;> first | exact ⟨rfl, rfl⟩ | decide

/-- Timeouts short of the interval, at the interval of PROBING and of UP, and the third loss. The requests departed at LT 0, and the
moment of the timeout is the last of the epoch. -/
theorem witness_EchoDueAndTimeout_timeout :
    min (station.su.phase + (40000 - min (station.su.lt - 0).toNat 40000)) 9999 = 9999 ∧
    (let s := eastPort { upPort with outstanding := some 5, interval := 63, losses := 1 }
     let q := (atMoment 9999 s).port .east
     Runs conf s ∧ (s.port .east).outstanding = some 5 ∧ (s.port .east).link ≠ .down ∧ q.losses < 2 ∧ q.interval < intervalOf q.link) ∧
    (let s := eastPort { upPort with link := .probing, outstanding := some 5, interval := 4, losses := 1 }
     let q := (atMoment 9999 s).port .east
     Runs conf s ∧ (s.port .east).outstanding = some 5 ∧ (s.port .east).link ≠ .down ∧ q.losses < 2 ∧
      intervalOf q.link ≤ q.interval ∧ q.tx = none ∧ q.answer = none) ∧
    (let s := eastPort { upPort with outstanding := some 5, interval := 64, tx := some ⟨[], 0, 128⟩ }
     let q := (atMoment 9999 s).port .east
     Runs conf s ∧ q.losses < 2 ∧ intervalOf q.link ≤ q.interval) ∧
    (let s := eastPort { upPort with outstanding := some 5, losses := 2 }
     let q := (atMoment 9999 s).port .east
     Runs conf s ∧ (s.port .east).outstanding = some 5 ∧ (s.port .east).link ≠ .down ∧ q.losses = 2) := by
  and_intros <;> first | exact ⟨rfl, rfl⟩ | decide

/-- A port whose receptions nothing has cut off. -/
theorem uncut_none {q : PortState} (h : q.cutAt = none) (t : Ticks) (n : Nat) : Uncut q t n := by
  intro d hd; rw [h] at hd; cases hd

/-- A frame whose first bit comes at the very tick of the cut is not cut off, and one that began a tick before it is. -/
theorem uncut_at_the_cut :
    Uncut upPort 9999 128 ∧ Uncut { upPort with cutAt := some 9871 } 9999 128 ∧ ¬ Uncut { upPort with cutAt := some 9872 } 9999 128 := by
  refine ⟨?_, ?_, fun h => absurd (h 9872 rfl) (by decide)⟩
  · intro d h; cases h
  · intro d h; cases h; decide

theorem witness_EchoRequestIsAnswered :
    checkFrame (echoBytes 2 6 5 0) = some (.request 5) ∧
    (Runs conf ringUp ∧ ringUp.su.phase ≤ 9999 ∧ (ringUp.port .east).link ≠ .down ∧ ((atMoment 9999 ringUp).port .east).tx = none ∧
      Uncut (ringUp.port .east) (atMoment 9999 ringUp).su.lt 48) ∧
    (let s := eastPort { PortState.reset true with hold := 256, tx := some ⟨[], 0, 48⟩ }
     Runs conf s ∧ (s.port .east).hold ≠ 0 ∧ (s.port .east).rx = true ∧ ((atMoment 9999 s).port .east).tx.isSome = true ∧
      Uncut (s.port .east) (atMoment 9999 s).su.lt 48) := by
  and_intros <;> first | exact ⟨rfl, rfl⟩ | exact uncut_none rfl _ _ | decide +kernel

theorem witness_EchoAnswerMeasuresLink :
    checkFrame (echoBytes 3 6 5 100) = some (.answer 5 100) ∧
    (let s := eastPort { upPort with link := .probing, outstanding := some 5 }
     let q := (atMoment 8148 s).port .east
     Runs conf s ∧ s.su.phase ≤ 9999 ∧ (s.port .east).link ≠ .down ∧ Uncut q (atMoment 8148 s).su.lt 48 ∧
      q.outstanding = some 5 ∧ 8100 = ((atMoment 8148 s).su.lt - 48 - q.echoStart).toNat ∧
      2 * 4000 = 8100 - 100 ∧ 8100 ≤ 40000 ∧ 100 ≤ 8100 ∧ 4000 ≤ 4000) ∧
    (Runs conf ringUp ∧ (ringUp.port .east).link ≠ .down ∧ Uncut (ringUp.port .east) (atMoment 9999 ringUp).su.lt 48 ∧
      ((atMoment 9999 ringUp).port .east).outstanding ≠ some 5) := by
  and_intros <;> first | exact ⟨rfl, rfl⟩ | exact uncut_none rfl _ _ | decide +kernel

/-- Delays outside 0 to 4,000, below and at 4,001: short of the interval, at it in UP and in PROBING, and a third loss. -/
theorem witness_EchoAnswerMeasuresLink_lost :
    (let s := eastPort { upPort with outstanding := some 5, echoStart := 9852, interval := 63, losses := 1 }
     let q := (atMoment 9999 s).port .east
     Runs conf s ∧ s.su.phase ≤ 9999 ∧ (s.port .east).link ≠ .down ∧ Uncut q (atMoment 9999 s).su.lt 48 ∧
      q.outstanding = some 5 ∧ 99 = ((atMoment 9999 s).su.lt - 48 - q.echoStart).toNat ∧ 99 ≤ 40000 ∧
      99 < 100 ∧ q.losses < 2 ∧ q.interval < intervalOf q.link) ∧
    (let s := eastPort { upPort with outstanding := some 5, echoStart := 1849, interval := 64, tx := some ⟨[], 0, 128⟩ }
     let q := (atMoment 9999 s).port .east
     8102 = ((atMoment 9999 s).su.lt - 48 - q.echoStart).toNat ∧ 2 * 4001 ≤ 8102 - 100 ∧ q.losses < 2 ∧
      intervalOf q.link ≤ q.interval) ∧
    (let q := (atMoment 9999 (eastPort { upPort with link := .probing, outstanding := some 5, interval := 4 })).port .east
     q.losses < 2 ∧ intervalOf q.link ≤ q.interval ∧ q.tx = none ∧ q.answer = none) ∧
    ((atMoment 9999 (eastPort { upPort with outstanding := some 5, losses := 2 })).port .east).losses = 2 := by
  and_intros <;> first | exact ⟨rfl, rfl⟩ | exact uncut_none rfl _ _ | decide +kernel

/-- A matching answer past 40,000, and one that began to arrive before its request departed (log 6): short of the interval, at it, and a
third loss; and an answer on a port DOWN in its hold. -/
theorem witness_EchoAnswerMeasuresLink_past :
    (∀ x ∈ [((60000 : Ticks), 3, 0), (60000, 64, 1), (60000, 3, 2), (110000, 3, 0)],
      let s := (eastPort { upPort with
        outstanding := some 5, echoStart := x.1, interval := x.2.1, losses := x.2.2, tx := some ⟨[], 99990, 128⟩ }).updSu fun u =>
          { u with lt := 100000, phase := 0 }
      let q := (atMoment 1000 s).port .east
      (s.port .east).link ≠ .down ∧ q.outstanding = some 5 ∧ 40000 < ((atMoment 1000 s).su.lt - 48 - q.echoStart).toNat ∧
        q.losses = x.2.2 ∧ q.interval = x.2.1) ∧
    (let s := eastPort { PortState.reset true with hold := 1 }
     Runs conf s ∧ (s.port .east).link = .down ∧ (s.port .east).hold ≠ 0 ∧ (s.port .east).rx = true ∧
      Uncut (s.port .east) (atMoment 9999 s).su.lt 48 ∧ ((atMoment 9999 s).port .east).outstanding ≠ some 5) := by
  and_intros <;> first | exact ⟨rfl, rfl⟩ | exact uncut_none rfl _ _ | decide +kernel

/-- R43: bad bytes in each of the three rows, on a port DOWN in its hold, count one check failure. -/
theorem test_bad_bytes_in_a_hold :
    ∀ i ∈ [Instr.bayFrameReceived .east [1, 2] 9, .echoRequestReceived .east [] 9, .echoAnswerReceived .east [1, 2] 9],
      (gives i (eastPort { PortState.reset true with hold := 1 }) fun t => (t.port .east).ctr.checkFailures == 1) = true := by
  decide +kernel

/-- A frame of peer 7, with next sequence 10 and an age of 300 ticks. -/
def peerFrame : BayFrame :=
  { source := 7, scheme := 5, tag := 7, seqNo := 10, hops := 22, age := 300, decl := ⟨.feeder, some .a1, some .a2⟩,
    declared := .service, replica := ⟨.closed, .opened, .closed⟩, val := ⟨.valid, .valid, .disagree⟩, cur := ⟨-5, 32767, 0⟩,
    backtrip := noSects }

theorem witness_PeerFrameIsTaken :
    checkFrame (bayBytes peerFrame) = some (.bay peerFrame) ∧ Runs conf ringUp ∧ ringUp.su.phase ≤ 9999 ∧
    (ringUp.port .east).link = .up ∧ (ringUp.port .east).delay = some 100 ∧ Uncut (ringUp.port .east) (atMoment 9999 ringUp).su.lt 128 ∧
    peerFrame.source ≠ bayNumber conf.bay ∧ peerFrame.hops < 23 ∧ bayNumber 6 = peerFrame.source ∧
    peerFrame.scheme = conf.scheme ∧ conf.hasBay 6 = true ∧ (6 : Bay).val < ringUp.pt.entries.length ∧
    peerFrame.age + 100 + 128 ≤ 4000000 := by
  and_intros <;> first | exact ⟨rfl, rfl⟩ | exact uncut_at_the_cut.1 | decide +kernel

/-- At the present moment `atMoment` is the state itself, and so are its ports. -/
theorem atMoment_now (s : State) : atMoment s.su.phase s = s := if_pos (Nat.le_refl _)

/-- The clauses on the frame and, at the present moment, on the other port: one hop too many, a foreign scheme, a bay not installed; a port
that is not UP, one with three frames waiting and with four, and one that is free. -/
theorem witness_PeerFrameIsTaken_ring :
    23 ≤ ({ peerFrame with hops := 23 } : BayFrame).hops ∧ ({ peerFrame with scheme := 6 } : BayFrame).scheme ≠ conf.scheme ∧
    (∀ b, bayNumber b = 8 → conf.hasBay b = false) ∧ ((eastPort upPort).port (otherPort .east)).link ≠ .up ∧
    (let o : PortState := { upPort with tx := some ⟨[], 0, 128⟩, transit := List.replicate 3 ⟨peerFrame, 0, 0⟩ }
     o.link = .up ∧ o.tx.isSome = true ∧ o.transit.length < 4) ∧
    (let o : PortState := { upPort with tx := some ⟨[], 0, 128⟩, transit := List.replicate 4 ⟨peerFrame, 0, 0⟩ }
     o.link = .up ∧ 4 ≤ o.transit.length) ∧
    upPort.tx = none ∧ upPort.answer = none ∧ upPort.echoDue = false ∧ upPort.own = none ∧ upPort.transit = [] := by
  and_intros <;> decide

/-- A peer entry that holds the identity of `peerFrame`, with a last sequence and a newest slot. -/
def known (p : Presence) (q : SeqNo) (t : Ticks) : PeerEntry :=
  { PeerEntry.reset with
    presence := p, joinRun := 31, tag := some 7, decl := some ⟨.feeder, some .a1, some .a2⟩, lastSeq := some q, history := [slotAt t] }

/-- An entry that holds the frame's identity fits it. -/
theorem known_fits (p : Presence) (q : SeqNo) (t : Ticks) : Fits conf (known p q t) peerFrame := by
  refine ⟨?_, ?_, ?_, by decide, by decide, by decide⟩
  · intro x h; cases h; rfl
  · intro x h; cases h; rfl
  · intro x h; cases x <;> simp [peerFrame] at h <;> rfl

/-- The clauses on the entry, at the instant 9471 of R51: in CONFLICT, another tag, the sequence held, the instant held, and a frame
that is accepted in every presence. -/
theorem witness_PeerFrameIsTaken_table :
    (9999 : Ticks) - 128 - BitVec.ofNat 32 100 - BitVec.ofNat 32 peerFrame.age = 9471 ∧
    (known .conflict 9 9470).presence = .conflict ∧
    ((known .live 9 9470).presence ≠ .conflict ∧ ¬ Fits conf { known .live 9 9470 with tag := some 8 } peerFrame) ∧
    (Fits conf (known .joining 10 9470) peerFrame ∧ ¬ Newer (known .joining 10 9470) peerFrame.seqNo) ∧
    (Newer (known .live 9 9471) peerFrame.seqNo ∧ ¬ Later (known .live 9 9471) 9471) ∧
    (∀ p, Fits conf (known p 9 9470) peerFrame ∧ Newer (known p 9 9470) peerFrame.seqNo ∧ Later (known p 9 9470) 9471) ∧
    peerFrame.backtrip = noSects ∧
    (let f : BayFrame := { peerFrame with backtrip := ⟨true, false, false, false⟩ }
     f.backtrip ≠ noSects ∧ checkFrame (bayBytes f) = some (.bay f) ∧ Fits conf (known .live 9 9470) f) := by
  refine ⟨by decide, rfl, ⟨by decide, fun h => absurd (h.1 8 rfl) (by decide)⟩, ⟨known_fits _ _ _, ?_⟩, ⟨?_, ?_⟩, fun p =>
    ⟨known_fits _ _ _, ?_, ?_⟩, rfl, by decide, by decide +kernel, known_fits .live 9 9470⟩
  · intro h; exact absurd (h (.inr rfl) 10 rfl) (by decide)
  · intro _ l h; cases h; decide
  · intro h; exact absurd (h (slotAt 9471) rfl) (by decide)
  · intro _ l h; cases h; decide
  · intro x h; cases h; decide

theorem witness_OwnFrameReturns :
    let f : BayFrame := { peerFrame with source := 2, tag := 100 }
    let g : BayFrame := { peerFrame with source := 2, tag := 101 }
    checkFrame (bayBytes f) = some (.bay f) ∧ checkFrame (bayBytes g) = some (.bay g) ∧ Runs conf ringUp ∧
      (ringUp.port .west).link = .up ∧ Uncut (ringUp.port .west) (atMoment 9999 ringUp).su.lt 128 ∧
      f.source = bayNumber conf.bay ∧ g.source = bayNumber conf.bay ∧ f.tag = conf.tag ∧ g.tag ≠ conf.tag := by
  and_intros <;> first | exact ⟨rfl, rfl⟩ | exact uncut_at_the_cut.1 | decide +kernel

theorem witness_BadFrameIsDropped :
    (checkFrame [] = none ∧ Runs conf ringUp ∧ (ringUp.port .east).link ≠ .down ∧ Uncut (ringUp.port .east) (atMoment 9999 ringUp).su.lt 48) ∧
    (checkFrame (bayBytes peerFrame) = some (.bay peerFrame) ∧
      (let s := eastPort { upPort with link := .probing }
       Runs conf s ∧ (s.port .east).link = .probing ∧ Uncut (s.port .east) (atMoment 9999 s).su.lt 128) ∧
      (let s := eastPort { PortState.reset true with hold := 1 }
       Runs conf s ∧ (s.port .east).link = .down ∧ (s.port .east).hold ≠ 0 ∧ (s.port .east).rx = true ∧
        Uncut (s.port .east) (atMoment 9999 s).su.lt 48 ∧ Uncut (s.port .east) (atMoment 9999 s).su.lt 128)) ∧
    (let s := eastPort { upPort with cutAt := some 9872 }
     Runs conf s ∧ ¬ Uncut (s.port .east) (atMoment 9999 s).su.lt (if (bayBytes peerFrame).length ≤ 8 then 48 else 128)) ∧
    ((station.port .east).link = .down ∧ (station.port .east).hold = 0 ∧
      ((eastPort { PortState.reset false with hold := 1 }).port .east).rx = false) := by
  and_intros <;> first | exact ⟨rfl, rfl⟩ | exact uncut_none rfl _ _ | exact fun h => absurd (h 9872 rfl) (by decide +kernel) |
    decide +kernel

/-- R35: a frame that began to arrive before the entry to DOWN is discarded when it is complete, and a later one is taken in. -/
theorem test_cut_reception :
    let s := eastPort { upPort with link := .probing, cutAt := some 80 }
    gives (.bayFrameReceived .east (List.replicate 28 0) 207) s (fun t => (t.port .east).ctr.checkFailures == 0) = true ∧
    gives (.bayFrameReceived .east (List.replicate 28 0) 208) s (fun t => (t.port .east).ctr.checkFailures == 1) = true := by
  decide +kernel

/-- A property of a port of the next state that a command gives, after the arbiters' choice at the end of its tick. -/
def sends (i : Instr) (s : State) (p : PortState → Bool) : Bool := gives i s fun t => p ((settle t).port .east)

/-- R53: at an epoch at which an echo request falls due and a late own frame comes, the request departs first, whatever the order of the
epoch's parts; an echo request of the neighbour that is complete at that very tick, which another command brings, is answered before
both. -/
theorem test_answer_request_late_own_frame :
    [order, ⟨.beforeChoice, true, false⟩, ⟨.afterSupervision, true, true⟩].all (fun o =>
      let s := { lastConverting with ri := { State.reset.ri with east := { upPort with interval := 63 } } }
      sends (.epoch made false o) s (fun q => q.tx == some ⟨echoBytes 2 1 1 0, 10000, 48⟩ && q.own.isSome && !q.echoDue) &&
      gives (.epoch made false o) s fun t => sends (.echoRequestReceived .east (echoBytes 2 6 5 0) 0) t fun q =>
        q.tx == some ⟨echoBytes 3 1 5 48, 10000, 48⟩ && q.own.isSome && q.echoDue) = true := by
  decide +kernel

/-- R53: a transit frame and an echo request that are complete at one tick, in either order of the two commands: the answer departs at
that tick. -/
theorem test_order_within_a_tick :
    let i := Instr.bayFrameReceived .west (bayBytes peerFrame) 500
    let j := Instr.echoRequestReceived .east (echoBytes 2 6 5 0) 500
    let p := fun q : PortState => q.tx == some ⟨echoBytes 3 1 5 48, 500, 48⟩ && q.transit.length == 1
    gives i ringUp (fun t => sends j t p) = true ∧ gives j ringUp (fun t => sends i t p) = true := by decide +kernel

/-- The clauses on what is at a port at LT 128: a frame on the link, an answer, a request that is due, nothing, an own frame that is not
too old and one that is, and a transit frame that waited too long, one too old and one that departs. -/
theorem witness_TransmissionEnds :
    let at128 (q : PortState) : State := (eastPort q).updSu fun u => { u with lt := 128 }
    (let s := at128 { upPort with tx := some ⟨[], 100, 128⟩, answer := some ⟨5, 0⟩ }
     Runs conf s ∧ ((settle s).port .east).tx = some ⟨[], 100, 128⟩ ∧ (s.port .east).tx.isSome = true) ∧
    (let s := at128 { upPort with answer := some ⟨5, 0⟩ }
     Runs conf s ∧ (s.port .east).tx = none ∧ (s.port .east).answer = some ⟨5, 0⟩ ∧
      ((settle s).port .east).tx = some ⟨echoBytes 3 conf.bay 5 128, 128, 48⟩) ∧
    (let s := at128 { upPort with echoDue := true }
     Runs conf s ∧ (s.port .east).tx = none ∧ (s.port .east).answer = none ∧ (s.port .east).echoDue = true) ∧
    (let s := at128 upPort
     Runs conf s ∧ ((settle s).port .east).tx = none ∧ (s.port .east).tx = none ∧ (s.port .east).answer = none ∧
      (s.port .east).echoDue = false ∧ (s.port .east).own = none ∧ (s.port .east).transit = []) ∧
    (let s := at128 { upPort with own := some ⟨peerFrame, 0⟩, departed := [2, 3] }
     (s.port .east).tx = none ∧ (s.port .east).link = .up ∧ (s.port .east).own = some ⟨peerFrame, 0⟩ ∧ (s.su.lt - 0).toNat ≤ 4000000 ∧
      8 ≤ (peerFrame.seqNo - 2).toNat ∧ ¬ 8 ≤ (peerFrame.seqNo - 3).toNat ∧
      4000000 < (s.su.lt - (OwnFrame.mk peerFrame (128 - 4000001)).instant).toNat) ∧
    (let s := at128 { upPort with transit := [⟨peerFrame, 0, 0⟩] }
     (s.port .east).tx = none ∧ (s.port .east).own = none ∧ (s.port .east).transit = [⟨peerFrame, 0, 0⟩] ∧
      (s.su.lt - 0).toInt ≤ 2000 ∧ peerFrame.age + 0 + (s.su.lt - 0).toNat ≤ 4000000 ∧ 2000 < (s.su.lt - (128 - 2001)).toInt ∧
      4000000 < (4000000 : Nat) + 0 + (s.su.lt - 0).toNat) := by
  and_intros <;> first | exact ⟨rfl, rfl⟩ | decide +kernel

/-- R57: an own frame that departs as the eighth after a listed one sets RING OPEN when LT moves on, here by an idle tick. -/
theorem test_overdue_departure_at_a_tick :
    let s := eastPort { upPort with own := some ⟨peerFrame, 0⟩, departed := [2, 3] }
    (match step s with
     | .next t => (t.port .east).opened && (t.port .east).departed == [3, 10] && t.mp.flags.getLsbD 5 && (t.port .east).own.isNone
     | .fault _ => false
     | .refused _ => false) = true := by decide +kernel

/-- The station with an entry of bay 7. -/
def withPeer (e : PeerEntry) : State := station.setEntry 6 e

theorem witness_FreshnessMarks :
    (let s := withPeer { PeerEntry.reset with presence := .live, fresh := 24 }
     Runs conf s ∧ (6 : Bay) ≠ conf.bay ∧ (s.entry 6).presence = .live ∧ 24 ≤ (s.entry 6).fresh) ∧
    (let s := withPeer { PeerEntry.reset with presence := .stale, fresh := 4000 }
     Runs conf s ∧ (s.entry 6).presence = .stale ∧ 4000 ≤ (s.entry 6).fresh) ∧
    (let s := withPeer { PeerEntry.reset with presence := .joining, fresh := 4 }
     Runs conf s ∧ (s.entry 6).presence = .joining ∧ 4 ≤ (s.entry 6).fresh) := by
  and_intros <;> first | exact ⟨rfl, rfl⟩ | decide

/-- The EPOCH clauses: no channel CONVERTING, and entries one epoch short of each mark and at it. -/
theorem witness_FreshnessMarks_epoch :
    (let s := withPeer { PeerEntry.reset with presence := .live, fresh := 23 }
     Runs conf s ∧ s.pt.entries.length = 24 ∧ (s.entry 6).presence = .live ∧ 24 ≤ min ((s.entry 6).fresh + 1) 4095 ∧
      min ((s.entry 6).fresh + 1) 4095 < 4000 ∧ (s.entry 6).declared ≠ some .isolated ∧ (s.entry 0).presence = .absent) ∧
    (∀ ph ch, (station.su.chans.get ph).get ch ≠ .converting) ∧
    (let s := withPeer { PeerEntry.reset with presence := .live, fresh := 22 }
     (s.entry 6).presence = .live ∧ min ((s.entry 6).fresh + 1) 4095 < 24) ∧
    (let s := withPeer { PeerEntry.reset with presence := .joining, fresh := 3 }
     (s.entry 6).presence = .joining ∧ 4 ≤ min ((s.entry 6).fresh + 1) 4095 ∧ min ((s.entry 6).fresh + 1) 4095 < 4000) ∧
    (let s := withPeer { PeerEntry.reset with presence := .stale, fresh := 3999 }
     (s.entry 6).presence = .stale ∧ 4000 ≤ min ((s.entry 6).fresh + 1) 4095) ∧
    (let s := withPeer { PeerEntry.reset with presence := .stale, fresh := 3998 }
     (s.entry 6).presence = .stale ∧ min ((s.entry 6).fresh + 1) 4095 < 4000) := by
  refine ⟨?_, by intro ph ch; cases ph <;> cases ch <;> decide, ?_⟩
  · exact ⟨⟨rfl, rfl⟩, by decide⟩
  · decide

theorem witness_FramesRoundTrip :
    peerFrame.source < 256 ∧ peerFrame.scheme < 65536 ∧ peerFrame.tag < 65536 ∧ peerFrame.hops < 256 ∧ peerFrame.age < 16777216 ∧
    (∀ ph, (peerFrame.cur.get ph).natAbs ≤ 32767 ∧ (peerFrame.val.get ph ≠ .valid → peerFrame.cur.get ph = 0)) ∧
    65535 < 65536 := by
  refine ⟨by decide, by decide, by decide, by decide, by decide, ?_, by decide⟩
  intro ph; cases ph <;> decide

theorem witness_ConfigBlockRoundTrip : conf.ok = true := by decide

/-! ## Witnesses: sections 6 to 9 -/

/-- Phase sums that are OP, and operate unless op is false. -/
def result (op : Bool) : PhaseResult := ⟨false, if op then 600 else 0, 600, op⟩

/-- A topology of one zone A1 of sections A1 and A2, with tie 7 and the own bay in it; op says whether its phases operate. -/
def topology (op : Bool) : Topology :=
  { epoch := 0, tau := 0, bays := [], zones := [⟨.a1, ⟨true, true, false, false⟩, [⟨1, 1⟩, ⟨6, -1⟩], ⟨result op, result op, result op⟩⟩],
    chkMembers := [⟨1, 1⟩], chk := ⟨result op, result op, result op⟩, ownZones := [.a1], ownSections := ⟨true, true, false, false⟩ }

/-- The station with that topology and phase L1 of A1 and of the check zone as given. -/
def zones (op : Bool) (z : ZoneState) : State :=
  { station with ze := { station.ze with
      topo := some (topology op), sects := { station.ze.sects with a1 := { station.ze.sects.a1 with l1 := z } }
      check := { station.ze.check with l1 := z } } }

theorem witness_ZonePhaseRows :
    Runs conf (zones false ⟨.external, 0, none, 0, 0, 4, 0⟩) ∧
    (let st := stateAt (zones false ⟨.external, 0, none, 0, 0, 4, 0⟩).ze .l1 (some .a1)
     st.cls = .external ∧ st.stab = 0 ∧ conf.nOp ≤ st.evolve) ∧
    inZone (zones false ⟨.external, 0, none, 0, 0, 4, 0⟩).ze (.zone .a2) (some .a1) = true ∧
    (let st := stateAt (zones false ⟨.through, 0, none, 0, 80, 0, 0⟩).ze .l1 none
     st.cls ≠ .quiet ∧ 80 ≤ st.quietRun) ∧
    (let s := zones false ⟨.onset, 0, some 2, 0, 0, 0, 0⟩
     lastOp conf (.zone .a1) .l1 s.ze = some false ∧ (stateAt s.ze .l1 (some .a1)).cls = .onset ∧
      conf.window ≤ (stateAt s.ze .l1 (some .a1)).onset.getD 0) := by
  and_intros <;> first | exact ⟨rfl, rfl⟩ | decide

theorem witness_ZoneBlockedRaises :
    (Runs conf (zones false ⟨.quiet, 0, none, 0, 0, 0, 400⟩) ∧
      standsAt400 (zones false ⟨.quiet, 0, none, 0, 0, 0, 400⟩).ze .l1 (.zone .a1) ∧
      standsAt400 (zones false ⟨.quiet, 0, none, 0, 0, 0, 400⟩).ze .l1 .check) ∧
    Runs conf (zones false ⟨.quiet, 0, none, 0, 0, 0, 399⟩) ∧
    ¬ standsAt400 (zones false ⟨.quiet, 0, none, 0, 0, 0, 399⟩).ze .l1 .check :=
  ⟨⟨⟨rfl, rfl⟩, ⟨.a1, by decide, by decide⟩, by unfold standsAt400; decide⟩, ⟨rfl, rfl⟩, by unfold standsAt400; decide⟩

theorem witness_EndZoneRemovesTie :
    let s := (zones false ZoneState.setBack).updZe fun e => { e with endZone := e.endZone.set 6 40 }
    Runs conf s ∧ s.ze.endZone.getD (6 : Bay).val 0 = conf.endZone ∧ s.ze.topo = some (topology false) := by
  and_intros <;> first | exact ⟨rfl, rfl⟩ | decide

theorem witness_ZonesPartSections :
    conf.present.get .a1 = true ∧ conf.present.get .a2 = true ∧ Joined conf.present [(.a1, .a2)] .a1 .a2 ∧
    (zoneSets conf.present [(.a1, .a2)]).length = 1 ∧ (zoneSets conf.present []).length = 2 ∧ ¬ Joined conf.present [] .a1 .a2 := by
  refine ⟨rfl, rfl, .step _ .a1 _ (.refl _) rfl rfl (.inl (by simp)), by decide, by decide, ?_⟩
  intro h; cases h with
  | step _ _ _ _ _ h => simp at h

/-- R103: a placed FEEDER with two sides links them when both isolators are counted closed, TRAVEL and INVALID among these; an isolator
OPEN, a TIE and a single-isolator feeder make no link. -/
theorem test_feeder_links :
    let view (d : Decl) (r : Replica) : BayView := ⟨1, some d, .usable, ⟨.exact, ⟨0, 0, 0⟩, ⟨true, true, true⟩, some r, some .service⟩⟩
    feederLink (view ⟨.feeder, some .a1, some .a2⟩ ⟨.travel, .invalid, .opened⟩) = some (.a1, .a2) ∧
    feederLink (view ⟨.feeder, some .a1, some .a2⟩ ⟨.opened, .closed, .closed⟩) = none ∧
    feederLink (view ⟨.tie, some .a1, some .a2⟩ ⟨.closed, .closed, .closed⟩) = none ∧
    feederLink (view ⟨.feeder, some .a1, none⟩ ⟨.closed, .closed, .closed⟩) = none := by decide

theorem witness_ClassMoves :
    conf.iOnset / 2 ≤ 500 ∧ 500 < conf.iOnset ∧ conf.iOnset ≤ 1000 ∧ 1 < conf.window ∧ ({ conf with window := 1 } : Settings).window ≤ 1 ∧
    (0 + 1 < conf.window ∧ conf.window ≤ 1 + 1) ∧
    decide (conf.zoneChar.iMin ≤ 1000 ∧ conf.zoneChar.k * 1000 ≤ 64 * 1000) = true ∧
    decide (conf.zoneChar.iMin ≤ 0 ∧ conf.zoneChar.k * 1000 ≤ 64 * 0) = false ∧ 58 * 1000 ≤ 64 * 1000 ∧
    (conf.nOp ≤ 3 + 1 ∧ 2 + 1 < conf.nOp) ∧ 499 < conf.iOnset / 2 ∧ 80 ≤ 79 + 1 ∧ 78 + 1 < 80 := by decide

/-- A configuration of two bays, the own feeder 2 and tie 7. -/
def duo : Settings := { conf with installed := 0x000042#24 }

/-- A live entry with a slot at instant 0 whose L1 current is x. -/
def sampled (k : BayKind) (r : Replica) (v : Validity) (x : Int) : PeerEntry :=
  { PeerEntry.reset with
    presence := .live, lastSeq := some 0, decl := some ⟨k, some .a1, some .a2⟩, declared := some .service
    history := [⟨0, 0, ⟨x, 0, 0⟩, ⟨v, .valid, .valid⟩, r, .service⟩] }

/-- The last completion of epoch 4 in SERVICE, whose computing instant is 0: the own feeder on A1 carries 500, and tie 7, both its
isolators closed, −700; its breaker, its L1 validity and end-zone timer, and L1 of A1 and of the check zone, are as given. -/
def evaluating (breaker : Switch) (v : Validity) (timer : Nat) (z : ZoneState) : State :=
  let s := (lastConverting.setEntry 1 (sampled .feeder ⟨.closed, .opened, .closed⟩ .valid 500)).setEntry 6
    (sampled .tie ⟨.closed, .closed, breaker⟩ v (-700))
  { s with
    su := { s.su with flight := some ⟨4, 40000, ⟨.closed, .opened, .closed⟩, .service⟩ }
    cs := { s.cs with inUse := some duo }
    ze := { s.ze with
      endZone := s.ze.endZone.set 6 timer, sects := { s.ze.sects with a1 := { s.ze.sects.a1 with l1 := z } }
      check := { s.ze.check with l1 := z } } }

/-- A property of the zones of the last topology after that completion. -/
def evaluates (s : State) (p : State → Topology → Bool) : Bool :=
  match Sys2Proof.Machine.exec (.conversionComplete .l3 .b 100 9999) s with
  | .next t => t.ze.topo.any (p t)
  | .fault _ => false
  | .refused _ => false

theorem witness_Evaluations (b : Switch) (v : Validity) (n : Nat) (z : ZoneState) :
    CompletesLast duo .l3 .b 9999 ⟨4, 40000, ⟨.closed, .opened, .closed⟩, .service⟩ (evaluating b v n z) := by
  refine ⟨⟨rfl, rfl⟩, rfl, rfl, Nat.zero_le _, Nat.lt_succ_self _, ?_⟩
  intro ph ch h
  cases ph <;> cases ch <;> first | exact ⟨100, rfl⟩ | exact absurd rfl h

/-- R105, R106, R109, R120: the members, signs and sums of A1, A2 and the check zone; R107: the tie's breaker OPEN counts its timer, and
at the delay the tie is a member no more. -/
theorem test_members_and_end_zone :
    evaluates (evaluating .closed .valid 39 .setBack) (fun t tp =>
      tp.zones.map (fun z => (z.name, z.members, z.phases.l1.id, z.phases.l1.ir)) ==
        [(.a1, [⟨1, 1⟩, ⟨6, -1⟩], 1200, 1200), (.a2, [⟨6, 1⟩], 700, 700)] &&
      tp.chkMembers == [⟨1, 1⟩] && tp.chk.l1.id == 500 && tp.ownZones == [.a1] && t.ze.endZone.getD 6 0 == 0) = true ∧
    evaluates (evaluating .opened .valid 38 .setBack) (fun t tp =>
      tp.zones.map ZoneTopo.members == [[⟨1, 1⟩, ⟨6, -1⟩], [⟨6, 1⟩]] && t.ze.endZone.getD 6 0 == 39) = true ∧
    evaluates (evaluating .opened .valid 39 .setBack) (fun t tp =>
      tp.zones.map ZoneTopo.members == [[⟨1, 1⟩], []] && t.ze.endZone.getD 6 0 == 40) = true := by decide +kernel

/-- R127, R135: the counter that reaches N_op = 4 gives OPERATE; R114, R115: a phase that is not VALID is blocked, set back, and at 400
joins ZONE BLOCKED. -/
theorem test_verdict_and_blocking :
    evaluates (evaluating .closed .valid 0 ⟨.quiet, 3, none, 0, 0, 0, 0⟩) (fun t tp =>
      t.ze.sects.a1.l1 == ⟨.internal, 4, none, 0, 0, 0, 0⟩ && tp.zones.map (fun z => z.phases.l1.operate) == [true, false]) = true ∧
    evaluates (evaluating .closed .valid 0 ⟨.quiet, 2, none, 0, 0, 0, 0⟩) (fun _ tp =>
      tp.zones.map (fun z => z.phases.l1.operate) == [false, false]) = true ∧
    evaluates (evaluating .closed .missing 0 ⟨.internal, 9, none, 0, 0, 0, 399⟩) (fun t tp =>
      t.ze.sects.a1.l1 == ⟨.quiet, 0, none, 0, 0, 0, 400⟩ && !tp.zones.any (fun z => z.phases.l1.operate) &&
      t.ze.blockedDetail == [(.zone .a1, .l1)] && t.mp.flags.getLsbD 14) = true := by decide +kernel

theorem witness_RetripDrivesCoil2 :
    let s := tripping .service { asserted with retrip := 40 }
    Runs conf s ∧ s.tu.trip ≠ .idle ∧ s.tu.retrip = conf.tRetrip ∧ s.tu.retripMade = false ∧
      currentPresent conf s.su.peak = true := by
  and_intros <;> first | exact ⟨rfl, rfl⟩ | decide

theorem witness_BreakerFailureFixesBacktrip :
    (let s := { tripping .service { asserted with bfTimer := 200 } with ze := (zones true ZoneState.setBack).ze }
     Runs conf s ∧ s.tu.trip = .asserted ∧ s.tu.bf = .timing ∧ s.tu.bfTimer = conf.tBf ∧ currentPresent conf s.su.peak = true ∧
      (conf.breakerCheck = true ∧ s.ciu.derived = some ⟨.closed, .opened, .closed⟩) ∧ s.ze.topo = some (topology true)) ∧
    (let s := tripping .test { asserted with trip := .testAsserted, coil1 := .off, bfTimer := 200 }
     Runs conf s ∧ s.tu.trip = .testAsserted ∧ s.tu.bf = .timing ∧ s.tu.bfTimer = conf.tBf ∧
      currentPresent conf s.su.peak = true) ∧
    (let s := { su (fun u => { u with peak := [⟨⟨0, 0, 0⟩, ⟨.valid, .valid, .valid⟩⟩] }) with
        cs := { station.cs with inUse := some { conf with breakerCheck := false } } }
     Runs { conf with breakerCheck := false } s ∧ currentPresent { conf with breakerCheck := false } s.su.peak = false ∧
      ({ conf with breakerCheck := false } : Settings).breakerCheck = false) := by
  and_intros <;> first | exact ⟨rfl, rfl⟩ | decide

theorem witness_SupervisionPulses :
    (let s := tripping .service { State.reset.tu with supCount := 1024 }
     Runs conf s ∧ s.sc.station ≠ .running .blocked ∧ s.tu.supCount = 1024) ∧
    (let s := tripping .service { State.reset.tu with pulse := some 8, coil1 := .supervision, supFails := 2 }
     Runs conf s ∧ s.tu.pulse = some 8 ∧ s.tu.coil1 = .supervision) := by
  and_intros <;> first | exact ⟨rfl, rfl⟩ | decide

theorem witness_SupervisionPulses_epoch :
    (∀ ph ch, (station.su.chans.get ph).get ch ≠ .converting) ∧ Runs conf station ∧ station.tu.trip = .idle ∧
    (let s := tripping .service { State.reset.tu with supCount := 1022, pulse := some 6, coil1 := .supervision }
     s.tu.supCount + 1 < 1024 ∧ s.tu.pulse = some 6 ∧ 6 + 1 < 8) ∧
    (let s := tripping .service { State.reset.tu with supCount := 1023 }
     1024 ≤ s.tu.supCount + 1 ∧ s.tu.pulse = none ∧ s.tu.coil1 ≠ .trip) :=
  ⟨by intro ph ch; cases ph <;> cases ch <;> decide, ⟨rfl, rfl⟩, rfl, by decide, by decide⟩

/-- The clauses on EPOCH in SERVICE with coil 1 at trip level at a count of 1,023, and with a pulse that reaches 8, TCS active, and inactive
as the third failure; and in TEST during TEST ASSERTED (R152 to R154). -/
theorem witness_SupervisionPulses_ends :
    let serves (u : TripUnit) : State := (tripping .service u).updSc fun v => { v with qualified := true }
    let ending : TripUnit := { State.reset.tu with pulse := some 7, coil1 := .supervision, supFails := 2 }
    gives (.epoch made false order) (serves { asserted with supCount := 1023 })
      (fun t => t.tu.trip == .asserted && t.tu.ctr.supSkips == 1 && t.tu.supCount == 0 && t.tu.pulse == none) = true ∧
    gives (.epoch made true order) (serves ending) (fun t => t.tu.pulse == none && t.tu.coil1 == .off && t.tu.supFails == 0) = true ∧
    gives (.epoch made false order) (serves ending)
      (fun t => t.tu.pulse == none && t.tu.supFails == 3 && t.mp.flags.getLsbD 16) = true ∧
    gives (.epoch made false order)
      ((tripping .test { ending with pulse := some 6, trip := .testAsserted }).updSc fun v => { v with maintTest := true })
      (fun t => t.tu.trip == .testAsserted && t.tu.pulse == some 7 && t.tu.coil1 == .supervision && t.tu.supCount == 1) = true := by
  decide +kernel

theorem witness_TripsAreAsserted_backtrip :
    (∃ x, (⟨true, false, true, false⟩ : SectSet).get x = true ∧ conf.present.get x = false) ∧
    (let s := { inState .service with ze := (zones true ZoneState.setBack).ze }
     (∀ x, (⟨true, false, false, false⟩ : SectSet).get x = true → conf.present.get x = true) ∧
      (∃ x, (⟨true, false, false, false⟩ : SectSet).get x = true ∧ (ownSections s).get x = true) ∧ s.tu.trip = .idle ∧
      s.sc.station = .running .service) ∧
    (∀ x, ¬ ((⟨true, false, false, false⟩ : SectSet).get x = true ∧ (ownSections (inState .service)).get x = true)) :=
  ⟨⟨.b1, rfl, rfl⟩, ⟨by intro x; cases x <;> decide, ⟨.a1, rfl, rfl⟩, rfl, rfl⟩, by intro x; cases x <;> decide⟩

theorem witness_TripsAreAsserted_differential :
    let s := { inState .service with ze := (zones true ZoneState.setBack).ze }
    s.tu.trip = .idle ∧ s.ze.topo = some (topology true) ∧
      (∃ ph, (∃ x ∈ (topology true).ownZones, zoneOperates (topology true) x ph = true) ∧
        ((topology true).chk.get ph).operate = true) ∧
      s.sc.station = .running .service ∧ (inState .test).sc.station = .running .test ∧ s.tu.held = none ∧
      ¬ ∃ ph, (∃ x ∈ (topology false).ownZones, zoneOperates (topology false) x ph = true) ∧
        ((topology false).chk.get ph).operate = true := by
  refine ⟨rfl, rfl, ⟨.l1, ⟨.a1, by decide, by decide⟩, rfl⟩, rfl, rfl, rfl, ?_⟩
  rintro ⟨ph, -, h⟩; cases ph <;> exact absurd h (by decide)

/-- A record at a HELD latch; a request with a trip on; and the zones holding the own bay by their names. -/
theorem witness_TripsAreAsserted_records :
    (let s := { tripping .service { State.reset.tu with held := some (tripRecord none) } with ze := (zones true .setBack).ze }
     s.tu.trip = .idle ∧ s.tu.held ≠ none ∧ (tripEvaluation conf 9 s).tu.trip = .asserted ∧
      (tripEvaluation conf 9 s).tu.ctr.recordOverruns = 1 ∧ (tripEvaluation conf 9 s).tu.held = some (tripRecord none)) ∧
    (tripping .service asserted).tu.trip ≠ .idle ∧ (topology true).ownZones.Pairwise namedBefore ∧
    (let s := { inState .test with ze := (zones true .setBack).ze }
     (backtripRequest conf 7 .service ⟨true, false, false, false⟩ s).tu.held =
      some ⟨1, 0, true, .backtrip 7 ⟨true, false, false, false⟩, none⟩) := by
  and_intros <;> first | exact List.pairwise_singleton _ _ | decide

theorem witness_ReleaseEndsTrip :
    let s := { tripping .service asserted with su := { station.su with peak := [⟨⟨0, 0, 0⟩, ⟨.valid, .valid, .valid⟩⟩] } }
    s.tu.trip = .asserted ∧ s.tu.sealIn = 0 ∧ currentPresent conf s.su.peak = false := by decide

/-- An evaluation with a trip on: kept by the differential condition, by a peer's request, by current and by a seal-in of 2; and ended,
ASSERTED and TEST ASSERTED, at a seal-in of 1 with no cause, breaker failure coming in its step 4 by the contact alone or not. -/
theorem witness_ReleaseEndsTrip_evaluation :
    (tripping .service asserted).tu.trip ≠ .idle ∧
    (∃ ph, (∃ x ∈ (topology true).ownZones, zoneOperates (topology true) x ph = true) ∧ ((topology true).chk.get ph).operate = true) ∧
    (let e : PeerEntry := { PeerEntry.reset with declared := some .service, backtrip := ⟨true, false, false, false⟩ }
     let s := (zones false .setBack).setEntry 6 e
     (6 : Bay) ≠ conf.bay ∧ (s.entry 6).declared ≠ some .test ∧ (s.entry 6).declared ≠ some .blocked ∧
      (s.entry 6).declared ≠ some .isolated ∧ (∀ x, (s.entry 6).backtrip.get x = true → conf.present.get x = true) ∧
      (s.entry 6).backtrip.get .a1 = true ∧ (ownSections s).get .a1 = true) ∧
    currentPresent conf [] = true ∧ 1 < 2 ∧
    (∀ u ∈ [asserted, { asserted with trip := .testAsserted, coil1 := .off }, { asserted with bfTimer := 199 }],
      let s : State := { tripping .service { u with sealIn := 1 } with
        su := { station.su with peak := [⟨⟨0, 0, 0⟩, ⟨.valid, .valid, .valid⟩⟩] } }
      s.tu.trip ≠ .idle ∧ s.ze.topo = none ∧ (∀ b : Bay, (s.entry b).backtrip = noSects) ∧ currentPresent conf s.su.peak = false ∧
        ¬ 1 < s.tu.sealIn ∧ s.tu.bf = .timing) ∧
    (conf.tBf ≤ 199 + 1 ∧ ¬ conf.tBf ≤ 198 + 1 ∧ conf.breakerCheck = true ∧ station.ciu.derived = some ⟨.closed, .opened, .closed⟩) := by
  refine ⟨by decide, ⟨.l1, ⟨.a1, by decide, by decide⟩, rfl⟩, ?_, by decide, by decide, ?_, by decide⟩
  · refine ⟨by decide, by decide, by decide, by decide, ?_, rfl, rfl⟩
    intro x; cases x <;> decide
  · decide

/-- Steps 3 and 4 at an evaluation that keeps the trip: the retrip made at its timer's end and breaker failure, in ASSERTED and in TEST
ASSERTED (R147, R148). -/
theorem witness_ReleaseEndsTrip_steps :
    let due : TripUnit := { asserted with sealIn := 9, retrip := 39, bfTimer := 199 }
    let s (u : TripUnit) : State := { tripping .service u with ze := (zones false .setBack).ze }
    conf.tRetrip = 39 + 1 ∧ conf.tBf = 199 + 1 ∧ 1 < due.sealIn ∧
    (let t := (tripEvaluation conf 0 (s due)).tu
     t.trip = .asserted ∧ t.retripMade = true ∧ t.coil2 = .trip ∧ t.bf = .failed ∧ t.backtrip = ⟨true, true, false, false⟩) ∧
    (let t := tripEvaluation conf 0 (s { due with trip := .testAsserted, coil1 := .off })
     t.tu.retripMade = true ∧ t.tu.coil2 = .off ∧ t.tu.bf = .failed ∧ t.tu.backtrip = noSects ∧ t.mp = station.mp) ∧
    (let t := (tripEvaluation conf 0 (s { due with retrip := 38, bfTimer := 198 })).tu
     t.retripMade = false ∧ t.coil2 = .off ∧ t.bf = .timing) := by decide

/-- EPOCH with a trip on, in the state it was asserted in and in another. -/
theorem witness_ReleaseEndsTrip_epoch :
    (let s := tripping .service asserted
     Runs conf s ∧ TripSound s ∧ s.tu.trip ≠ .idle ∧ ∀ ph ch, (s.su.chans.get ph).get ch ≠ .converting) ∧
    (let s := tripping .test { asserted with trip := .testAsserted, coil1 := .off }
     Runs conf s ∧ TripSound s ∧ s.tu.trip ≠ .idle) ∧
    gives (.epoch made false order) ((tripping .service asserted).updSc fun u => { u with qualified := true })
      (fun t => t.tu.trip == .asserted && t.tu.coil1 == .trip) = true ∧
    gives (.epoch made false order) (tripping .service asserted) (fun t => t.tu.trip == .idle && t.tu.coil1 == .supervision) = true ∧
    gives (.epoch made false order) ((tripping .service asserted).updSu fun u => { u with convFail := true })
      (fun t => t.tu.trip == .idle && t.tu.coil1 == .off) = true := by
  refine ⟨⟨⟨rfl, rfl⟩, by constructor <;> decide, by decide, by intro ph ch; cases ph <;> cases ch <;> decide⟩,
    ⟨⟨rfl, rfl⟩, by constructor <;> decide, by decide⟩, ?_⟩
  decide +kernel

theorem witness_StationStateChoice : station.ciu.cond = some ⟨false, false, false⟩ ∧ Runs conf station := ⟨rfl, rfl, rfl⟩

/-- R167, R168: EPOCH sets LISTEN TIMEOUT at 40,000 and ISOLATION BREACH while OOS is active with an isolator CLOSED, and neither below. -/
theorem test_flags_of_the_choice :
    let oos : Contacts := { made with oos := true }
    (gives (.epoch made false order) (station.updSc fun u => { u with listen := 39999 }) fun t => t.mp.flags == 1 <<< 15) = true ∧
    (gives (.epoch made false order) (station.updSc fun u => { u with listen := 39998 }) fun t => t.mp.flags == 0) = true ∧
    (gives (.epoch oos false order) { station with ciu := { station.ciu with accepted := some oos } } fun t =>
      t.mp.flags == 1 <<< 13 && decide (t.sc.station = .running .listen)) = true := by
  decide +kernel

theorem witness_MarksOfTheController :
    (let s := station.updSc fun u => { u with qualCount := 400, listen := 40000 }
     Runs conf s ∧ s.sc.qualCount = 400 ∧ s.sc.listen = 40000) ∧ Runs conf station ∧ station.sc.listen ≠ 40000 := by
  and_intros <;> first | exact ⟨rfl, rfl⟩ | decide

/-- The state after reset with the reset condition as given and a monitor and timer in START. -/
def starting (confirmed : Bool) (powerUp : Nat) : State :=
  State.reset.updSc fun u => { u with holdSupply := false, holdPin := false, confirmed := confirmed, powerUp := powerUp }

theorem witness_StartLeadsToConfig :
    (starting true 0).held = false ∧ (starting true 0).sc.station = .start ∧ (starting true 0).sc.confirmed = true ∧
    (starting false 0).held = false ∧ (starting false 0).sc.confirmed = false ∧ (starting false 0).sc.powerUp ≠ 2560000 ∧
    (starting false 2560000).held = false ∧ (starting false 2560000).sc.station = .start ∧
    (starting false 2560000).sc.confirmed = false ∧ (starting false 2560000).sc.powerUp = 2560000 := by decide

/-- The station in a stopped state, with its block as given. -/
def stopped (st : Station) (block : List Byte) : State :=
  { State.reset with
    sc := { State.reset.sc with station := st, confirmed := true, reference := true, holdSupply := false, holdPin := false }
    cs := { State.reset.cs with block := block } }

theorem witness_ConfigCheckOutcomes :
    ((stopped .config (blockBytes conf)).sc.station = .config ∧ (stopped .config (blockBytes conf)).cs.cut = false ∧
      goodBlock (stopped .config (blockBytes conf)).cs.block = some conf) ∧
    (stopped .config (List.replicate 64 0)).sc.station = .config ∧
    goodBlock (stopped .config (List.replicate 64 0)).cs.block = none :=
  ⟨⟨rfl, rfl, test_own_block_is_good⟩, rfl, test_zero_block_is_bad⟩

/-- The ports at a start of epochs, East with its receive signal present and West without (R34). -/
theorem witness_ConfigCheckOutcomes_ring :
    let s := { stopped .config (blockBytes conf) with ri := { State.reset.ri with east := .reset true, west := .reset false } }
    (s.port .east).link = .down ∧ (s.port .east).hold = 0 ∧ (s.port .east).rx = true ∧ (s.port .east).tx = none ∧
    (s.port .east).answer = none ∧ (s.port .west).link = .down ∧ (s.port .west).rx = false := by
  intro s; exact ⟨rfl, rfl, rfl, rfl, rfl, rfl, rfl⟩

/-- R161, R170: at epoch 0 the duplicate quiet count is tested after its advance; OOS with both isolators OPEN, TST and the maintenance
flag come after the causes. -/
theorem test_choice_at_start :
    let s := stopped .config []
    let k : Contacts := ⟨false, true, false, true, false, true, true, true⟩
    choiceAtStart conf k (s.updSc fun u => { u with dupQuiet := 3998 }) = .blocked ∧
    choiceAtStart conf k (s.updSc fun u => { u with dupQuiet := 3999 }) = .isolated ∧
    choiceAtStart conf k (s.updSu fun u => { u with convFail := true }) = .blocked ∧
    choiceAtStart conf { k with q1b := false } s = .test ∧ choiceAtStart conf made s = .listen ∧
    choiceAtStart conf made (s.updSc fun u => { u with maintTest := true }) = .test := by decide

/-- A loss with a trip ASSERTED, its record open; and one with a supervision pulse under way. -/
theorem witness_ReferenceLossStopsEpochs_trip :
    (let s := tripping .service { asserted with held := some (tripRecord none), recorded := true }
     Runs conf s ∧ TripSound s ∧ s.held = false ∧ s.sc.confirmed = true ∧ s.sc.station = .running .service ∧
       s.sc.resetPending = false ∧ s.su.phase ≤ 9999 ∧ s.tu.trip ≠ .idle) ∧
    (let s := tripping .service { State.reset.tu with coil1 := .supervision, pulse := some 3 }
     Runs conf s ∧ TripSound s ∧ s.held = false ∧ s.sc.confirmed = true ∧ s.sc.station = .running .service ∧
       s.sc.resetPending = false ∧ s.su.phase ≤ 9999 ∧ s.tu.pulse ≠ none) :=
  ⟨⟨⟨rfl, rfl⟩, by constructor <;> decide, by decide, rfl, rfl, rfl, by decide, by decide⟩,
   ⟨rfl, rfl⟩, by constructor <;> decide, by decide, rfl, rfl, rfl, by decide, by decide⟩

theorem witness_ReferenceLossStopsEpochs :
    Runs conf station ∧ TripSound station ∧ station.held = false ∧ station.sc.confirmed = true ∧
    station.sc.station = .running .listen ∧ station.sc.resetPending = false ∧ station.su.phase ≤ 9999 ∧ 9999 < 10000 :=
  ⟨⟨rfl, rfl⟩, by constructor <;> decide, by decide, rfl, rfl, rfl, by decide, by decide⟩

/-- R35, R62: the stop takes an UP port DOWN with its flag and keeps its closure state; a port already DOWN only loses its hold. -/
theorem test_reference_loss_ports :
    (gives (.referenceLoss 0) { station with ri := { State.reset.ri with
        east := { upPort with opened := true, departed := [1, 2], tx := some ⟨[], 0, 128⟩ }, west := { PortState.reset true with hold := 9 } } }
      fun t => decide ((t.port .east).link = .down ∧ (t.port .east).opened = true ∧ (t.port .east).departed = [] ∧
        (t.port .east).ctr.linkDownEvents = 1 ∧ (t.port .west).hold = 0 ∧ (t.port .west).ctr.linkDownEvents = 0) &&
        t.mp.flags == 9) = true := by
  decide +kernel

/-- A loss while the response to RESET is being sent, the trip's record open. -/
theorem witness_ReferenceLossStopsEpochs_reset :
    let s := (tripping .test { asserted with
      trip := .testAsserted, coil1 := .off, held := some (tripRecord none), recorded := true }).updSc fun u => { u with resetPending := true }
    Runs conf s ∧ RecordSound s ∧ s.held = false ∧ s.sc.confirmed = true ∧ s.sc.station = .running .test ∧ s.sc.resetPending = true ∧
      s.cs.commit ≠ .busy ∧ s.su.phase ≤ 9999 :=
  ⟨⟨rfl, rfl⟩, ⟨⟨fun _ => ⟨_, rfl, rfl⟩, fun _ => rfl⟩, by intro _; decide⟩, by decide, rfl, rfl, rfl, by decide, by decide⟩

/-- The same in CONFIG and in FAULT; and a CONFIRMED monitor, with counts just outside its limits and no edge. -/
theorem witness_ReferenceLossElsewhere_confirmed :
    (∀ st ∈ [Station.config, .fault],
      let s := (stopped st []).updSc fun u => { u with resetPending := true }
      s.su.gen = .stopped ∧ s.held = false ∧ s.sc.confirmed = true ∧ s.sc.resetPending = true ∧
        (s.sc.station = .config ∨ s.sc.station = .fault) ∧ s.cs.commit ≠ .busy) ∧
    (station.held = false ∧ station.sc.confirmed = true ∧ station.sc.lastCycle = some 16 ∧ station.su.phase < 10000) ∧
    ∀ count ∈ [some 11, some 21, some 65, none], ∀ n, count = some n → 64 < n ∨ n + 4 < 16 ∨ 16 + 4 < n := by
  refine ⟨by decide, by decide, ?_⟩
  intro count hc n h; simp at hc; rcases hc with rfl | rfl | rfl | rfl <;> simp_all
  all_goals omega

/-- R162: only the first cycle after a reset or a loss has nothing to be compared with. A bad cycle after REFERENCE_CONFIRMED is a loss. -/
theorem test_bad_cycle_after_confirmation :
    gives (.referenceConfirmed made) (starting false 0) (fun t => t.sc.confirmed &&
      gives (.badReferenceCycle (some 21)) t (fun u => !u.sc.confirmed) &&
      gives (.badReferenceCycle (some 20)) t (fun u => u.sc.confirmed)) = true := by decide +kernel

theorem witness_ReferenceLossElsewhere :
    (∀ st, (stopped st []).su.gen = .stopped ∧ (stopped st []).held = false ∧ (stopped st []).sc.confirmed = true ∧
      (stopped st []).sc.resetPending = false ∧ (stopped st []).sc.station = st) ∧
    (let s := (starting false 0).updSc fun u => { u with lastCycle := some 59 }
     s.held = false ∧ s.sc.confirmed = false ∧ s.sc.lastCycle = some 59 ∧ 64 ≤ 64 ∧ 59 + 4 < 64 ∧ 54 + 4 < 59) ∧
    (∀ n, some 65 = some n → 64 < n) ∧ ∀ n, (none : Option Nat) = some n → 64 < n :=
  ⟨fun _ => ⟨rfl, rfl, rfl, rfl, rfl⟩, by decide, by intro n h; cases h; decide, by intro n h; cases h⟩

/-- R162: a count of 64 cycles that agrees with the count before it is good, and one of 65 is a missing edge. -/
theorem test_edge_within_64 :
    edgeInTime (some 64) = some 64 ∧ edgeInTime (some 65) = none ∧ cycleGood 60 64 = true ∧ cycleGood 59 64 = false := by decide

/-- The station after a reference loss. -/
def lost (st : Station) : State := (inState .blocked).updSc fun u => { u with station := st, confirmed := false, reference := false }

theorem witness_ReconfirmationRestartsEpochs :
    (lost .fault).held = false ∧ (lost .fault).sc.confirmed = false ∧ (lost .fault).sc.station = .fault ∧
    (lost (.running .blocked)).held = false ∧ (lost (.running .blocked)).sc.confirmed = false ∧
    (lost (.running .blocked)).sc.station = .running .blocked ∧ (lost (.running .blocked)).cs.inUse = some conf ∧
    (lost (.running .blocked)).tu.trip = .idle := by decide

/-- The ports at the restart of epochs (R34), with one receive signal. -/
theorem witness_ReconfirmationRestartsEpochs_ring :
    gives (.referenceConfirmed made)
      { lost (.running .blocked) with ri := { State.reset.ri with east := .reset true, west := .reset false } } (fun t =>
      (t.port .east).link == .probing && (t.port .east).echoDue && ((settle t).port .east).echoNum == 1 &&
      ((settle t).port .east).tx == some ⟨echoBytes 2 1 1 0, 0, 48⟩ && (t.port .west).link == .down) = true := by decide +kernel

theorem witness_ResetsTaken : station.cs.commit ≠ .busy := by decide

theorem witness_CutCommitLeadsToFault :
    (station.updCs fun u => { u with commit := .busy }).cs.commit = .busy ∧
    Instr.resetPinAsserted ∈ [Instr.powerOnReset, .supplyReset, .resetPinAsserted] ∧
    (let s := { (station.updCs fun u => { u with commit := .busy }) with
        mp := { Maint.reset with receiver := .responding }, sc := { station.sc with resetPending := true } }
     s.cs.commit = .busy ∧ s.mp.receiver = .responding ∧ s.sc.resetPending = true ∧ s.held = false ∧ s.sc.confirmed = true ∧
      s.sc.station ≠ .start) ∧
    (stopped .config []).sc.station = .config := by decide

/-! ## Witnesses: sections 10 and 11 -/

/-- The station with its Maintenance Port and store as given. -/
def served (m : Maint) (c : CommitState) : State := { station with mp := m, cs := { station.cs with commit := c } }

theorem station_listens : Listens station := ⟨rfl, by decide, rfl⟩

theorem witness_RequestGate :
    ((lost .fault).sc.reference = false ∧ (starting true 0).sc.station = .start) ∧
    (station.sc.reference = true ∧ station.sc.station ≠ .start ∧
      (served { Maint.reset with receiver := .responding } .idle).mp.receiver = .responding ∧
      64 < (List.replicate 65 (0 : Byte)).length) ∧
    Listens station ∧ (List.replicate 64 (0 : Byte)).length ≤ 64 ∧ (List.replicate 64 (0 : Byte)).length ≠ 0 ∧
    (List.replicate 64 (0 : Byte)).length ≠ 1 ∧ (List.replicate 64 (0 : Byte)).length ≠ 2 ∧ ([0] : List Byte).length < 2 := by
  and_intros <;> first | exact station_listens | decide

/-- R181, R188: the bytes of a request and its command, at the ends of the code table. -/
theorem test_line_requests :
    lineRequest [1, 0] false 0 = .status [] ∧ lineRequest [2, 2, 9, 0] false 77 = .select [9, 0] 77 ∧
    lineRequest [11, 0] true 0 = .commit [] true ∧ lineRequest [12, 0] false 0 = .reset [] ∧
    lineRequest [0, 0] false 0 = .unknown 0 [] ∧ lineRequest [13, 1, 5] false 0 = .unknown 13 [5] ∧
    lineRequest [1, 1] false 0 = .requestDiscarded .lengthDiffers ∧ lineRequest [1] false 0 = .requestDiscarded .sizeOutside := by decide

theorem witness_SelectThenReadReturnsCapture :
    Listens station ∧ ((2 : Byte).toNat = tableOrder.idxOf .peer + 1 ∧ (9 : Byte).toNat = tableOrder.idxOf .configStored + 1) ∧
    ((24 : Byte).toNat ∈ tableIndexes .peer ∧ (1 : Byte).toNat ∈ tableIndexes .peer ∧ (4 : Byte).toNat ∈ tableIndexes .zone ∧
      (2 : Byte).toNat ∈ tableIndexes .link ∧ (0 : Byte).toNat ∈ tableIndexes .alarms) ∧ station.cs.commit ≠ .busy ∧
    (Listens (served Maint.reset .busy) ∧ (served Maint.reset .busy).cs.commit = .busy) ∧
    (64 < (65 : Byte).toNat ∧ 1 ≤ (64 : Byte).toNat ∧ (64 : Byte).toNat ≤ 64) ∧ station.mp.selection = none ∧
    (let s := served { Maint.reset with selection := some ⟨.configStored, 0, [1, 2, 3], 2⟩ } .busy
     Listens s ∧ s.mp.selection = some ⟨.configStored, 0, [1, 2, 3], 2⟩ ∧ s.cs.commit = .busy) ∧
    (let s := served { Maint.reset with selection := some ⟨.configStored, 0, [1, 2, 3], 2⟩ } .done
     Listens s ∧ s.mp.selection = some ⟨.configStored, 0, [1, 2, 3], 2⟩ ∧ s.cs.commit ≠ .busy) := by
  and_intros <;> first | decide

/-- 11.5: an ALARMS table with CLOCK and LINK DOWN set, CLOCK's cause held and every flag enabled; the first fields of LINK and of PEER at
reset; and the size of COUNTERS. -/
theorem test_tables :
    (let s := { ringUp with mp := { station.mp with flags := 9#19 }, sc := { station.sc with confirmed := false } }
     (alarmsTable s).take 9 = [0, 0, 9, 0, 0, 1, 7, 255, 255]) ∧
    (linkTable 0 upPort).take 10 = [2, 0, 0, 1, 0, 100, 0, 0, 0, 0] ∧
    (peerTable .reset).take 13 = [0, 0, 255, 255, 0, 255, 255, 255, 0, 255, 255, 15, 255] ∧
    (countersTable station).length = 2 * (5 + 20 + 20 + 12 + 2) := by decide

/-- 11.5, STATUS summary: LISTEN, no cause, RING OPEN (bit 5), POR, IDLE, EMPTY, DONE, epoch 0x01020304. -/
theorem test_status_summary :
    let s := station.updSu fun u => { u with epoch := 0x01020304 }
    statusSummary { s with mp := { s.mp with flags := 0x20 }, cs := { s.cs with commit := .done } } =
      [3, 0, 0, 0, 0x20, 8, 0, 0, 2, 1, 2, 3, 4] := by decide

/-- 11.5, trip record: both ends of its layout, for a differential trip of zone A2 in L1 and for a backtrip from bay 7, closed. -/
theorem test_trip_record_bytes :
    (let sums (n : Nat) : PerPhase Sums := ⟨⟨n, n + 1⟩, ⟨n + 2, n + 3⟩, ⟨n + 4, n + 5⟩⟩
     let d := recordBytes ⟨65535, 7, true, .differential ⟨true, false, false⟩ ⟨.a2, ⟨false, true, false, false⟩, sums 16777210, sums 10⟩, none⟩
     num2 d 1 = 65535 ∧ num4 d 3 = 7 ∧ (d.drop 7).take 5 = [1, 5, 4, 2, 4] ∧ num3 d 12 = 16777210 ∧ num3 d 27 = 16777215 ∧
       num3 d 30 = 10 ∧ num3 d 45 = 15 ∧ d.drop 48 = List.replicate 10 0) ∧
    (recordBytes (tripRecord (some ⟨200, .stateChange, true, false⟩))).drop 48 = [7, 8, 1, 0, 0, 0, 200, 2, 1, 0] := by decide

theorem witness_TakeRecordEmptiesOnlyClosed :
    (Listens station ∧ station.tu.held = none) ∧
    (let s := tripping .service { asserted with held := some (tripRecord none), recorded := true }
     Listens s ∧ s.tu.held = some (tripRecord none) ∧ (tripRecord none).closed = none) ∧
    (let s := tripping .service { State.reset.tu with held := some (tripRecord (some ⟨200, .release, false, false⟩)) }
     Listens s ∧ s.tu.held = some (tripRecord (some ⟨200, .release, false, false⟩)) ∧
      (tripRecord (some ⟨200, .release, false, false⟩)).closed ≠ none) := by
  and_intros <;> first | decide

theorem witness_ClearAlarmsKeepsHeldCauses : Listens station := station_listens

theorem witness_ClearCountersPeerAndTest :
    Listens station ∧ 24 < (25 : Byte).toNat ∧ bayNumber 23 = (24 : Byte).toNat ∧ (station.entry 23).presence ≠ .conflict ∧
    Listens (withPeer { PeerEntry.reset with presence := .conflict }) ∧ bayNumber 6 = (7 : Byte).toNat ∧
    ((withPeer { PeerEntry.reset with presence := .conflict }).entry 6).presence = .conflict := by
  and_intros <;> first | decide

theorem witness_StageCommitAndEnd :
    (Listens station ∧ StoreSized station ∧ (List.replicate 62 (0 : Byte)).length ≤ 62 ∧ 63 < (64 : Byte).toNat ∧
      ((63 : Byte).toNat ≤ 63 ∧ 64 < (63 : Byte).toNat + (1 + 1)) ∧ (63 : Byte).toNat + (0 + 1) ≤ 64 ∧ station.cs.commit ≠ .busy) ∧
    (Listens (served Maint.reset .busy) ∧ StoreSized (served Maint.reset .busy) ∧ (served Maint.reset .busy).cs.commit = .busy) ∧
    (List.replicate 64 (0 : Byte)).length = 64 := by
  and_intros <;> first | exact ⟨rfl, rfl⟩ | decide

theorem witness_ResetFollowsItsResponse :
    (Listens (inState .service) ∧ (inState .service).sc.station = .running .service) ∧
    (Listens station ∧ station.sc.station ≠ .running .service) ∧
    (let s := served { Maint.reset with receiver := .responding } .idle
     s.mp.receiver = .responding ∧ s.sc.resetPending = false) ∧
    (let s := (served { Maint.reset with receiver := .responding } .idle).updSc fun u => { u with resetPending := true }
     s.mp.receiver = .responding ∧ s.sc.resetPending = true ∧ s.cs.commit ≠ .busy) := by
  and_intros <;> first | decide

/-! ## Witnesses: the invariants -/

theorem witness_TripsStaySound : TripSound station ∧ RecordSound station ∧ step station = .next (tick station) :=
  ⟨by constructor <;> decide, by constructor <;> simp [station, State.reset, TripUnit.reset], rfl⟩

theorem witness_TripsStaySound_trip :
    TripSound (tripping .service asserted) ∧
    RecordSound (tripping .service { asserted with held := some (tripRecord none), recorded := true }) :=
  ⟨by constructor <;> decide, ⟨⟨fun _ => ⟨_, rfl, rfl⟩, fun _ => rfl⟩, by intro _; decide⟩⟩

theorem witness_ModesStaySound : ModeSound station ∧ CopyGood station ∧ ResetWaits station := by
  refine ⟨?_, ?_, ?_⟩
  · constructor
    · exact ⟨fun _ => ⟨⟨_, rfl⟩, rfl⟩, fun _ => rfl⟩
    · intro _; exact ⟨rfl, rfl⟩
    · intro h; exact absurd h (by decide)
    · exact ⟨fun _ => ⟨_, rfl⟩, fun _ => rfl⟩
    · decide
    · intro h; exact absurd h (by decide)
    · intro h; exact absurd h (by decide)
    · intro h; exact absurd h (by decide)
    · intro _; rfl
  · intro c h; cases h; decide
  · intro h; exact absurd h (by decide)

theorem witness_RingStaysSound : RingSound ringUp.ri := by
  refine ⟨?_, by decide⟩
  intro p; cases p <;> constructor <;> simp [ringUp, upPort, Ring.port, PortState.reset, portNumbers, PortCounters.zero]

/-- The converting station with the own frame of the epoch before waiting behind two listed ones. -/
def inOrder : State :=
  { converting with ri := { ringUp.ri with
      east := { upPort with own := some ⟨{ peerFrame with source := 2, seqNo := 0xFFFF }, 0⟩, departed := [0xFFF8, 0xFFFE] } } }

theorem witness_RingStaysSound_order :
    ModeSound inOrder ∧ SamplingSound inOrder.su ∧ RingSound inOrder.ri ∧ StopsDark inOrder ∧ ListsRecent inOrder ∧
    FramesInOrder inOrder := by
  refine ⟨?_, ?_, ⟨?_, by decide⟩, fun h => absurd h (by decide), ?_, ?_⟩
  · obtain ⟨h, -, -⟩ := witness_ModesStaySound
    exact ⟨h.1, h.2, h.3, h.4, h.5, h.6, fun h => absurd h (by decide), h.8, h.9⟩
  · exact { phase := by decide, time := by decide, flight := fun _ => ⟨fun ph ch => by cases ph <;> cases ch <;> decide, _, rfl, rfl, rfl⟩,
            runs := fun ph => by cases ph <;> decide, clear := by decide, clear_flag := by decide, peak := by decide,
            counters := by decide }
  · intro p; cases p <;> constructor <;>
      simp [inOrder, ringUp, upPort, Ring.port, PortState.reset, portNumbers, PortCounters.zero]
  · intro p e he
    have : e = 0xFFF8 ∨ e = 0xFFFE := by
      cases p
      · have he : e ∈ [(0xFFF8 : BitVec 16), 0xFFFE] := he
        simpa using he
      · cases he
    rcases this with rfl | rfl <;> exact Nat.le_of_ble_eq_true rfl
  · have h : Converting inOrder := ⟨.l1, .a, rfl⟩
    refine ⟨fun p => by cases p <;> decide +kernel, fun _ _ p => by cases p <;> decide +kernel, fun _ p o ho => ?_⟩
    cases p <;> cases ho
    exact ⟨by decide +kernel, fun _ => by decide +kernel, fun g => absurd h g⟩

theorem witness_PeersStaySound : PeersSound station.pt ∧ OwnNotInConflict station := by
  refine ⟨⟨by decide, ?_⟩, ?_⟩
  · intro e he
    have : e = .reset := by simpa [station, State.reset, Peers.reset] using he
    subst this; constructor <;> simp [PeerEntry.reset]
  · intro b _; revert b; decide

theorem witness_PeersStaySound_own :
    let slot (t : Ticks) : Slot := ⟨0xFFFF, t, ⟨0, 0, 0⟩, ⟨.valid, .valid, .valid⟩, ⟨.closed, .opened, .closed⟩, .listen⟩
    let s := converting.setEntry 1 { PeerEntry.reset with presence := .joining, joinRun := 2, history := [slot (-20000), slot (-10000)] }
    PeersSound s.pt ∧ OwnInOrder s := by
  refine ⟨⟨rfl, ?_⟩, ?_⟩
  · intro e he
    rcases List.mem_or_eq_of_mem_set he with h | h
    · have : e = .reset := by simpa [converting, station, State.reset, Peers.reset] using h
      subst this; constructor <;> simp [PeerEntry.reset]
    · subst h; constructor <;> simp [PeerEntry.reset]
  · intro c x hr hx
    have : c = conf := by have := hr.2; cases this; rfl
    subst this; cases hx
    exact ⟨fun _ => by decide, fun g => absurd ⟨.l1, .a, rfl⟩ g⟩

theorem witness_RangesAreKept :
    SamplingSound inOrder.su ∧ ZonesSound station.ze ∧ TripRanges station.tu ∧ ControllerSound station.sc ∧ StoreSized station := by
  refine ⟨witness_RingStaysSound_order.2.1, ⟨?_, ?_⟩, ?_, by constructor <;> decide, ⟨rfl, rfl⟩⟩
  · intro x ph; cases x <;> cases ph <;> constructor <;> decide
  · intro ph; cases ph <;> constructor <;> decide
  · constructor <;> simp [station, State.reset, TripUnit.reset, tripNumbers, TripCounters.zero]

/-- A zone of A1 and A2 whose phase L1 is in ONSET in both, and sections B1 and B2 not present. -/
theorem witness_RangesAreKept_zones :
    let z : ZoneState := ⟨.onset, 3, some 1, 0, 0, 0, 0⟩
    let s := (zones true z).updZe fun e => { e with sects := { e.sects with a2 := e.sects.a1 } }
    ZonesTogether s ∧ ZonesTimed s ∧ CopyGood s ∧ ContactsSound s.ciu ∧ s.mp.portErrors ≤ 65535 := by
  refine ⟨⟨?_, ?_, ?_, ?_⟩, ?_, witness_ModesStaySound.2.1, ⟨by decide, by decide⟩, by decide⟩
  · intro t ht w hw x y; cases ht; simp [topology] at hw; subst hw; cases x <;> cases y <;> decide
  · intro t ht w hw v hv x; cases ht; simp [topology] at hw hv; subst hw hv; intros; rfl
  · intro c t hc ht x; cases hc; cases ht; cases x <;> decide
  · intro x h ph
    have := h _ rfl _ (List.mem_singleton.2 rfl)
    cases x <;> cases ph <;> first | rfl | exact absurd this (by decide)
  · intro c hc ph; cases hc
    exact ⟨fun x => by cases x <;> cases ph <;> constructor <;> simp [zones, topology, station, State.reset, State.updZe,
      ZoneEngine.reset, PerSect.get, PerPhase.get, ZoneState.setBack, conf], by cases ph <;> constructor <;> simp [zones, topology,
      station, State.reset, State.updZe, ZoneEngine.reset, PerPhase.get, ZoneState.setBack, conf]⟩

end Sys2Proof.Tests
end

/-! PROOFS. Sampling (section 1): how a raw result is read and held (R6), and the disagreement runs at an own sample event (R10). -/

namespace Sys2Proof.Machine

open Sys2Proof

/-! ## The own sample event leaves the channels and counts the runs -/

theorem takeRecordSu_chans (r : Record) (s : State) : (takeRecordSu r s).su.chans = s.su.chans := by
  simp only [takeRecordSu, converterRecoveryOp, clearRunOp, converterFailureOp]
  split <;> split <;> simp [raise]

/-- The own sample event reads the channels and writes none. -/
theorem ownSampleEvent_chans (c : Settings) (s : State) : (ownSampleEvent c s).su.chans = s.su.chans := by
  cases hf : s.su.flight with
  | none => simp [ownSampleEvent, hf]
  | some f => rw [ownSampleEvent_su hf, takeRecordSu_chans]

/-- From Sampling Unit u to v, an own sample event of flight f records x and counts its disagreement runs (R10, R14). -/
def RunsCounted (f : Flight) (u v : Sampling) (x : Record) : Prop :=
  v.record = some x ∧ x.epoch = f.epoch ∧ ∀ q, v.disRun.get q = if x.val.get q = .valid then 0 else min (u.disRun.get q + 1) 16

/-- R10 at the event itself, in whatever place it comes. -/
theorem ownSampleEvent_runsCounted (c : Settings) {s : State} {f : Flight} (h : s.su.flight = some f) :
    RunsCounted f s.su (ownSampleEvent c s).su (makeRecord c f s.su.chans) := by
  obtain ⟨hrecord, hruns⟩ := ownSampleEvent_runs c s f h
  exact ⟨hrecord, rfl, fun q => by rw [hruns, nextRuns_get]⟩

/-! ## A completion -/

@[simp] theorem atMoment_disRun (m : Nat) (s : State) : (atMoment m s).su.disRun = s.su.disRun := by
  unfold atMoment; split_ifs <;> rfl

/-- The state at a completion's moment with its channel completed, before the own sample event where it is the last. -/
def afterCompletion (ph : Phase) (ch : Channel) (raw : BitVec 16) (m : Nat) (s : State) : State :=
  (atMoment (min m 9999) s).updSu fun u => { u with chans := u.chans.upd (ChanPair.complete ch (readRaw raw)) ph }

section
variable (ph : Phase) (ch : Channel) (raw : BitVec 16) (m : Nat) (s : State)

@[simp] theorem afterCompletion_chans :
    (afterCompletion ph ch raw m s).su.chans = s.su.chans.upd (ChanPair.complete ch (readRaw raw)) ph := by
  simp [afterCompletion]

@[simp] theorem afterCompletion_flight : (afterCompletion ph ch raw m s).su.flight = s.su.flight := by simp [afterCompletion]

@[simp] theorem afterCompletion_disRun : (afterCompletion ph ch raw m s).su.disRun = s.su.disRun := by simp [afterCompletion]
end

/-- What the completion of a CONVERTING channel does: the sixth one is the own sample event (R4). -/
theorem exec_conversionComplete {c : Settings} {ph : Phase} {ch : Channel} {s : State} (raw : BitVec 16) (m : Nat) (hr : Runs c s)
    (hc : (s.su.chans.get ph).get ch = .converting) :
    exec (.conversionComplete ph ch raw m) s = .next (if allDone (afterCompletion ph ch raw m s).su.chans
      then ownSampleEvent c (afterCompletion ph ch raw m s) else afterCompletion ph ch raw m s) := by
  have hconv : (((atMoment (min m 9999) s).su.chans.get ph).get ch).isConverting = true := by rw [atMoment_chans, hc]; rfl
  simp only [exec, execConversionComplete]
  rw [whileRunning_eq hr, advanceTo_eq hr.1, completeOp, if_pos hconv]
  rfl

/-- A completion is the last when every other channel is DONE. -/
theorem afterCompletion_allDone {ph : Phase} {ch : Channel} {s : State} (raw : BitVec 16) (m : Nat)
    (hc : (s.su.chans.get ph).get ch = .converting)
    (hd : ∀ ph' ch', (ph', ch') ≠ (ph, ch) → ∃ x, (s.su.chans.get ph').get ch' = .done x) :
    allDone (afterCompletion ph ch raw m s).su.chans = true := by
  rw [allDone_iff, afterCompletion_chans]
  intro ph' ch'
  by_cases e : (ph', ch') = (ph, ch)
  · cases e
    rw [upd_get_same _ _ _ _ hc]
    rfl
  · obtain ⟨x, hx⟩ := hd _ _ e
    rw [upd_get_ne _ _ _ _ _ _ e, hx]
    rfl

/-- A completed channel holds the code as read, also through the own sample event of the last completion (R6). -/
theorem conversionComplete_holds {c : Settings} {ph : Phase} {ch : Channel} {s : State} (raw : BitVec 16) (m : Nat) (hr : Runs c s)
    (hc : (s.su.chans.get ph).get ch = .converting) :
    ∃ t, exec (.conversionComplete ph ch raw m) s = .next t ∧ (t.su.chans.get ph).get ch = .done (readRaw raw) := by
  refine ⟨_, exec_conversionComplete raw m hr hc, ?_⟩
  have held : ((afterCompletion ph ch raw m s).su.chans.get ph).get ch = .done (readRaw raw) := by
    rw [afterCompletion_chans, upd_get_same _ _ _ _ hc]
  split
  · rw [ownSampleEvent_chans, held]
  · exact held

/-- R10 at the last completion of an epoch (R4), whatever its moment operand: no bound on m as in `CompletesLast`. -/
theorem lastCompletion_runsCounted {c : Settings} {ph : Phase} {ch : Channel} {s : State} {f : Flight} (raw : BitVec 16) (m : Nat)
    (hr : Runs c s) (hf : s.su.flight = some f) (hc : (s.su.chans.get ph).get ch = .converting)
    (hd : ∀ ph' ch', (ph', ch') ≠ (ph, ch) → ∃ x, (s.su.chans.get ph').get ch' = .done x) :
    ∃ t x, exec (.conversionComplete ph ch raw m) s = .next t ∧ RunsCounted f s.su t.su x := by
  have hexec := exec_conversionComplete raw m hr hc
  rw [if_pos (afterCompletion_allDone raw m hc hd)] at hexec
  have hflight : (afterCompletion ph ch raw m s).su.flight = some f := by rw [afterCompletion_flight, hf]
  have counted := ownSampleEvent_runsCounted c hflight
  rw [RunsCounted, afterCompletion_disRun] at counted
  exact ⟨_, _, hexec, counted⟩

/-! ## A late event -/

/-- R10 at an epoch that finds a channel still CONVERTING (R5), for each order of the epoch's parts: the record is made of the
channels as the epoch found them. -/
theorem lateEpoch_runsCounted {c : Settings} {s : State} {f : Flight} (k : Contacts) (tcs : Bool) (o : EpochOrder) (hr : Runs c s)
    (hf : s.su.flight = some f) (hc : ∃ ph ch, (s.su.chans.get ph).get ch = .converting) :
    ∃ t, exec (.epoch k tcs o) s = .next t ∧ RunsCounted f s.su t.su (makeRecord c f s.su.chans) := by
  obtain ⟨z, y, hz, hparts, hy, -⟩ := epochParts_su c k tcs o (arbitrateBoth c s)
  have hexec : exec (.epoch k tcs o) s = .next (startConversions y) := by
    simp only [exec, execEpoch]
    rw [whileRunning_eq hr, epochEvent, hparts]
  have zflight : z.su.flight = some f := by rw [hz]; simpa [clockEpoch] using hf
  have zchans : z.su.chans = s.su.chans := by rw [hz]; simp [clockEpoch]
  have zruns : z.su.disRun = s.su.disRun := by rw [hz]; simp [clockEpoch]
  have hlate : lateEvent c z = ownSampleEvent c z := if_pos (by rwa [zchans, anyConverting_iff])
  have counted := ownSampleEvent_runsCounted c zflight
  rw [← hlate, ← hy, RunsCounted, zchans, zruns] at counted
  exact ⟨_, hexec, counted⟩

/-! ## The obligations -/

/-- Settles O7. -/
theorem rawResultReading : Obligations.RawResultReading := by
  refine ⟨fun raw => ?_, fun ph ch raw m c s hr hc => conversionComplete_holds raw m hr hc, fun c rawA rawB => ?_⟩
  · obtain ⟨hlow, hhigh⟩ := readRaw_range raw
    exact ⟨hlow, hhigh, fun h => by rw [readRaw_eq, if_pos h], fun h => by rw [readRaw_eq, if_neg h]⟩
  · simp only [testPhase, disagrees, decide_eq_true_eq]

/-- Settles O8: both kinds of own sample event are one operation on the runs, `ownSampleEvent_runsCounted`. -/
theorem disagreementRuns : Obligations.DisagreementRuns := by
  refine ⟨fun c ph ch raw m s f hr hf hc hd => lastCompletion_runsCounted raw m hr hf hc hd, fun c k tcs o s f hr hf hc => ?_⟩
  obtain ⟨t, hexec, hrecord, hepoch, hruns⟩ := lateEpoch_runsCounted k tcs o hr hf hc
  exact ⟨t, _, hexec, hrecord, hepoch, record_missing_iff c f s.su.chans, hruns⟩

end Sys2Proof.Machine

/-! PROOFS. What a step is made of: at most one move of time, which ends the tick that is left in the arbiters' choice, then at most one
epoch, and then operations of the blocks. An invariant that each of these keeps is kept by every step. -/

namespace Sys2Proof.Machine

open Sys2Proof

/-! ## The move of time and the operations -/

/-- How time moves on before a command's own operation: not at all, to the end of the tick, or to a later moment of the epoch. -/
inductive Lead : State → State → Prop
  | stay (s : State) : Lead s s
  | settled (s : State) : Lead s (settle s)
  | later (n : Nat) (s : State) : s.su.gen = .running → s.su.phase + n < 10000 → Lead s (passTicks n (settle s))

/-- The class changes that a row of section 7 makes of a zone phase. -/
inductive PhaseRow (c : Settings) : (ZoneState → ZoneState) → Prop
  | windowEnd (op : Bool) : PhaseRow c (windowEndZ c op)
  | stabExpiry : PhaseRow c stabExpiryZ
  | evolveRelease : PhaseRow c (evolveReleaseZ c)
  | quietReturn : PhaseRow c quietReturnZ

/-- One operation of a command or of an idle tick, with what is known where it is made. -/
inductive Move : State → State → Prop
  | complete {s : State} {c : Settings} (ph : Phase) (ch : Channel) (raw : BitVec 16) : Runs c s → Move s (completeOp c ph ch raw s)
  | converterFailure {s : State} : Move s (converterFailureOp s)
  | converterRecovery {s : State} : Move s (converterRecoveryOp s)
  | discrepancy {s : State} {c : Settings} (pr : DevPair) : Runs c s → Move s (discrepancyOp c pr s)
  | endZone {s : State} {c : Settings} (b : Bay) : Runs c s → Move s (endZoneOp c b s)
  | zonePhase {s : State} {c : Settings} (z : ZoneRef) (ph : Phase) {f : ZoneState → ZoneState} :
      Runs c s → PhaseRow c f → Move s (s.updZe (updZonePhase z ph f))
  | zoneBlocked {s : State} (z : ZoneRef) (ph : Phase) : Move s (zoneBlockedOp z ph s)
  | retrip {s : State} {c : Settings} : Runs c s → Move s (retripOp c s)
  | breakerFailure {s : State} {c : Settings} : Runs c s → Move s (breakerFailureOp c s)
  | pulseDue {s : State} : Move s (pulseDueOp s)
  | pulseEnd {s : State} : Move s (pulseEndOp s)
  | pins {s : State} (f : Pins → Pins) : Move s (s.updPins f)
  | qualified {s : State} {c : Settings} : Runs c s → Move s (qualifiedOp s)
  | listenTimeout {s : State} : Move s (listenTimeoutOp s)
  | signal {s : State} (p : Port) (present : Bool) : Move s (setRx p present s)
  | probe {s : State} {c : Settings} (p : Port) : Runs c s → Move s (probeOp p s)
  | signalLost {s : State} {c : Settings} (p : Port) : Runs c s → Move s (signalLostOp p s)
  | echoDue {s : State} {c : Settings} (p : Port) : Runs c s → Move s (echoDueOp (s.port p).link p s)
  | echoTimeout {s : State} {c : Settings} (p : Port) : Runs c s → Move s (echoTimeoutOp p s)
  | receive {s : State} {c : Settings} (p : Port) (bytes : List Byte) : Runs c s → Move s (receiveFrame c p bytes s)
  | transmissionEnd {s : State} {c : Settings} (p : Port) : Runs c s → Move s (transmissionEndOp p s)
  | peerStale {s : State} {c : Settings} (b : Bay) : Runs c s → Move s (peerStaleOp c b s)
  | peerAbsent {s : State} {c : Settings} (b : Bay) : Runs c s → Move s (peerAbsentOp c b s)
  | joiningReset {s : State} {c : Settings} (b : Bay) : Runs c s → Move s (joiningResetOp c b s)
  | powerUpTick {s : State} : s.sc.powerUp < powerUpLimit → Move s (s.updSc fun u => { u with powerUp := u.powerUp + 1 })
  | powerUp {s : State} : Move s (powerUpOp s)
  | waitTick {s : State} : s.sc.wait < waitLimit → Move s (s.updSc fun u => { u with wait := u.wait + 1 })
  | wait {s : State} : Move s (waitOp s)
  | measured {s : State} (n r : Nat) : r = s.sc.goodRun ∨ r ≤ 1024 →
      Move s (s.updSc fun u => { u with goodRun := r, lastCycle := some n })
  | confirm {s : State} (k : Contacts) : Move s (confirmOp k s)
  | loss {s : State} : Move s (referenceLossOp s)
  | configCheck {s : State} (k : Contacts) : Move s (configCheckOp k s)
  | supplyLevel {s : State} (low : Bool) : Move s (s.updSc fun u => { u with supplyLow := low })
  | flag {s : State} (a : Alarm) : Move s (raise a s)
  | reset {s : State} (k : ResetKind) : Move s (takeReset k s)
  | resetEnd {s : State} : Move s (s.updSc fun u => { u with holdSupply := false, holdPin := false })
  | commitDone {s : State} (readBack : List Byte) : Move s (commitDoneOp readBack s)
  | portError {s : State} : Move s (portError s)
  | respond {s : State} (code : ReplyCode) (data : List Byte) : Move s (respond code data s)
  | selection {s : State} (x : Option Selection) : Move s (s.updMp fun m => { m with selection := x })
  | takeRecord {s : State} : Move s (takeRecordAct s)
  | clearAlarms {s : State} : Move s (clearAlarmsAct s)
  | clearCounters {s : State} : Move s (clearCountersAct s)
  | clearPeer {s : State} (b : Bay) : (s.entry b).presence = .conflict → Move s (s.setEntry b (clearedEntry (s.entry b)))
  | test {s : State} (on : Bool) : Move s (s.updSc fun u => { u with maintTest := on })
  | stage {s : State} (offset : Nat) (data : List Byte) : offset + data.length ≤ 64 →
      Move s (s.updCs fun u => { u with staging := stageBytes offset data u.staging })
  | commit {s : State} : Move s (s.updCs fun u => { u with commit := .busy })
  | resetRequest {s : State} : Move s (resetAct s)
  | responseEnd {s : State} : Move s (cutResponse s)

/-- An epoch at most: none fires, or one does all its parts. -/
inductive Fires : State → State → Prop
  | none (s : State) : Fires s s
  | epoch {s : State} {c : Settings} (k : Contacts) (tcs : Bool) (o : EpochOrder) : Runs c s → Fires s (epochParts c k tcs o s)

/-- Operations one after the other. -/
abbrev Moves : State → State → Prop := Relation.ReflTransGen Move

/-- What a command or an idle tick makes of a state: a move of time, an epoch at most, and then operations. -/
def Reaches (s t : State) : Prop := ∃ u v, Lead s u ∧ Fires u v ∧ Moves v t

theorem Lead.reaches {s u t : State} (hl : Lead s u) (hm : Moves u t) : Reaches s t := ⟨u, u, hl, .none u, hm⟩

theorem Move.moves {s t : State} (h : Move s t) : Moves s t := .single h

theorem Moves.reaches {s t : State} (h : Moves s t) : Reaches s t := (Lead.stay s).reaches h

theorem Move.reaches {s t : State} (h : Move s t) : Reaches s t := h.moves.reaches

/-! ## Time -/

theorem advanceTo_lead (m : Nat) (s : State) : Lead s (advanceTo m s) := by
  simp only [advanceTo]
  cases hg : s.su.gen with
  | stopped => exact .stay s
  | running =>
    dsimp only
    split
    · exact .stay s
    · next hn => exact .later _ s hg (by omega)

theorem advanceTo_runs {c : Settings} {m : Nat} {s : State} (h : Runs c s) : Runs c (advanceTo m s) := by
  rw [advanceTo_eq h.1]
  exact atMoment_runs h

theorem runs_of_running {c : Settings} {s : State} (h : s.running = some c) : Runs c s := by
  unfold State.running at h
  cases hg : s.su.gen with
  | running => rw [hg] at h; exact ⟨hg, h⟩
  | stopped => rw [hg] at h; cases h

/-- A command of a running station reaches what its meaning does once its moment has come, and a stopped one stays. -/
theorem whileRunning_reaches {f : Settings → State → State} {s : State} (h : ∀ c, Runs c s → Reaches s (f c s)) :
    Reaches s (whileRunning f s) := by
  unfold whileRunning
  split
  · next c hc => exact h c (runs_of_running hc)
  · exact Moves.reaches .refl

theorem whileRunning_move {f : Settings → State → State} {s : State} (h : ∀ c, Runs c s → Move s (f c s)) :
    Reaches s (whileRunning f s) := whileRunning_reaches fun c hc => (h c hc).reaches

theorem receive_reaches (p : Port) (bytes : List Byte) (m : Nat) (s : State) :
    Reaches s (whileRunning (fun c s => receiveFrame c p bytes (advanceTo m s)) s) :=
  whileRunning_reaches fun _ hc => (advanceTo_lead m s).reaches (Move.receive p bytes (advanceTo_runs hc)).moves

/-- The operations of a running station on a state that is no later than its moves. -/
theorem whileRunning_moves {f : Settings → State → State} {s : State} (h : ∀ c, Runs c s → Move s (f c s)) :
    Moves s (whileRunning f s) := by
  unfold whileRunning
  split
  · next c hc => exact (h c (runs_of_running hc)).moves
  · exact .refl

/-! ## The Maintenance Port -/

theorem takeCommand_moves {al : Nat → Bool} {p : List Byte} {act : State → State} {s : State} (h : Moves s (act s)) :
    Moves s (takeCommand al p act s) :=
  takeCommand_pres .refl (Move.portError).moves (Move.respond _ _).moves fun _ => h

theorem takeCommand_reaches {al : Nat → Bool} {p : List Byte} {act : State → State} {s : State} (h : Moves s (act s)) :
    Reaches s (takeCommand al p act s) := (takeCommand_moves h).reaches

theorem selectAct_moves (table index : Nat) (s : State) : Moves s (selectAct table index s) := by
  unfold selectAct
  split
  · exact (Move.respond _ _).moves
  · split
    · exact (Move.respond _ _).moves
    · split
      · exact (Move.respond _ _).moves
      · exact (Move.selection _).moves.tail (.respond _ _)

theorem readAct_moves (n : Nat) (s : State) : Moves s (readAct n s) := by
  unfold readAct
  split
  · exact (Move.respond _ _).moves
  · split
    · exact (Move.respond _ _).moves
    · split
      · exact (Move.respond _ _).moves
      · exact (Move.selection _).moves.tail (.respond _ _)

theorem clearPeerAct_moves (n : Nat) (s : State) : Moves s (clearPeerAct n s) := by
  unfold clearPeerAct
  split
  · exact (Move.respond _ _).moves
  · split
    · next hc => exact (Move.clearPeer _ hc).moves.tail (.respond _ _)
    · exact (Move.respond _ _).moves

theorem stageAct_moves (offset : Nat) (data : List Byte) (s : State) : Moves s (stageAct offset data s) := by
  unfold stageAct
  split
  · exact (Move.respond _ _).moves
  · split
    · exact (Move.respond _ _).moves
    · next hl =>
      split
      · exact (Move.respond _ _).moves
      · exact (Move.stage offset data (by omega)).moves.tail (.respond _ _)

theorem commitAct_moves (s : State) : Moves s (commitAct s) := by
  unfold commitAct
  split
  · exact (Move.respond _ _).moves
  · split
    · exact (Move.respond _ _).moves
    · split
      · exact (Move.respond _ _).moves
      · exact Move.commit.moves.tail (.respond _ _)

/-! ## The clock of the Sampling Unit at an own sample event -/

section
variable (v : PerPhase Validity) (r : Record) (c : Settings) (s : State)

/-- An own sample event moves no clock and starts no conversion: what it changes of the Sampling Unit are the record, the runs and the
counts (R4, R10 to R16). -/
theorem takeRecordSu_clock : let t := takeRecordSu r s
    t.su.gen = s.su.gen ∧ t.su.lt = s.su.lt ∧ t.su.phase = s.su.phase ∧ t.su.epoch = s.su.epoch ∧ t.su.flight = s.su.flight := by
  simp only [takeRecordSu, converterRecoveryOp, clearRunOp, converterFailureOp]
  split <;> split <;> simp [raise]

theorem ownSampleEvent_clock : let t := ownSampleEvent c s
    t.su.gen = s.su.gen ∧ t.su.lt = s.su.lt ∧ t.su.phase = s.su.phase ∧ t.su.epoch = s.su.epoch ∧ t.su.flight = s.su.flight := by
  cases hf : s.su.flight with
  | none => simp [ownSampleEvent, hf]
  | some f =>
    dsimp only
    rw [ownSampleEvent_su hf]
    simpa only [hf] using takeRecordSu_clock (makeRecord c f s.su.chans) s

@[simp] theorem ownSampleEvent_gen : (ownSampleEvent c s).su.gen = s.su.gen := (ownSampleEvent_clock c s).1
@[simp] theorem ownSampleEvent_lt : (ownSampleEvent c s).su.lt = s.su.lt := (ownSampleEvent_clock c s).2.1
@[simp] theorem ownSampleEvent_phase : (ownSampleEvent c s).su.phase = s.su.phase := (ownSampleEvent_clock c s).2.2.1
@[simp] theorem ownSampleEvent_epoch : (ownSampleEvent c s).su.epoch = s.su.epoch := (ownSampleEvent_clock c s).2.2.2.1
@[simp] theorem ownSampleEvent_flight : (ownSampleEvent c s).su.flight = s.su.flight := (ownSampleEvent_clock c s).2.2.2.2

@[simp] theorem lateEvent_gen : (lateEvent c s).su.gen = s.su.gen := by unfold lateEvent; split <;> simp
@[simp] theorem lateEvent_lt : (lateEvent c s).su.lt = s.su.lt := by unfold lateEvent; split <;> simp
@[simp] theorem lateEvent_phase : (lateEvent c s).su.phase = s.su.phase := by unfold lateEvent; split <;> simp
@[simp] theorem lateEvent_epoch : (lateEvent c s).su.epoch = s.su.epoch := by unfold lateEvent; split <;> simp
@[simp] theorem lateEvent_flight : (lateEvent c s).su.flight = s.su.flight := by unfold lateEvent; split <;> simp
@[simp] theorem lateEvent_chans : (lateEvent c s).su.chans = s.su.chans := by
  unfold lateEvent; split <;> simp [ownSampleEvent_chans]
end

/-! ## The reference and the idle tick -/

theorem measureCycle_moves (k : Contacts) (count : Option Nat) (s : State) : Moves s (measureCycle k count s) := by
  unfold measureCycle
  split
  · exact .refl
  · split
    · next n m _ _ =>
      split
      · split
        · exact (Move.measured n s.sc.goodRun (.inl rfl)).moves
        · have hcount : Moves s (s.updSc fun u => { u with goodRun := upTo 1024 u.goodRun, lastCycle := some n }) :=
            (Move.measured n (upTo 1024 s.sc.goodRun) (.inr (by simp only [upTo]; omega))).moves
          dsimp only
          split
          · exact hcount.tail (.confirm k)
          · exact hcount
      · split
        · exact Move.loss.moves
        · exact (Move.measured n 0 (.inr (by omega))).moves
    · next n _ _ =>
      split
      · exact Move.loss.moves
      · exact (Move.measured n 0 (.inr (by omega))).moves
    · exact Move.loss.moves

theorem tickStart_moves (s : State) : Moves s (tickStart s) := by
  unfold tickStart
  split
  · split
    · next hp =>
      dsimp only
      split
      · exact (Move.powerUpTick hp).moves.tail .powerUp
      · exact (Move.powerUpTick hp).moves
    · split
      · next hw =>
        have hlt : s.sc.wait < waitLimit := of_decide_eq_true (Bool.and_eq_true_iff.1 hw).2
        dsimp only
        split
        · exact (Move.waitTick hlt).moves.tail .wait
        · exact (Move.waitTick hlt).moves
      · exact .refl
  · exact .refl

theorem tickStopped_moves (s : State) : Moves s (tickStopped s) := by
  unfold tickStopped
  dsimp only
  split
  · exact tickStart_moves s
  · exact (tickStart_moves s).trans (measureCycle_moves _ _ _)

theorem tickEcho_moves {c : Settings} (p : Port) {s : State} (h : Runs c s) : Moves s (tickEcho p s) := by
  unfold tickEcho
  split
  · exact (Move.echoTimeout p h).moves
  · exact .refl

theorem tickTransmission_moves {c : Settings} (p : Port) {s : State} (h : Runs c s) : Moves s (tickTransmission p s) := by
  unfold tickTransmission
  split
  · split
    · exact (Move.transmissionEnd p h).moves
    · exact .refl
  · exact .refl

theorem clockTick_runs {c : Settings} {s : State} (h : Runs c s) : Runs c (clockTick c s) := by
  unfold clockTick
  split
  · obtain ⟨z, y, hz, hparts, hy, -⟩ := epochParts_su c s.pins.contacts s.pins.tcs idleOrder s
    refine ⟨?_, by simpa using h.2⟩
    rw [hparts]
    simp [hy, hz, clockEpoch, h.1, startConversions]
  · exact ⟨by simpa [passTicks] using h.1, by simpa [passTicks] using h.2⟩

theorem tickRunning_reaches {c : Settings} {s : State} (h : Runs c s) : Reaches s (tickRunning c s) := by
  have harb : arbitrateBoth c s = settle s := (settle_eq h).symm
  have hrun : Runs c (settle s) := runs_next h (by simp) (by simp)
  have hclock : Runs c (clockTick c (settle s)) := clockTick_runs hrun
  have heast : Runs c (tickEcho .east (clockTick c (settle s))) := runs_next hclock (by simp) (by simp)
  have hwest : Runs c (tickEcho .west (tickEcho .east (clockTick c (settle s)))) := runs_next heast (by simp) (by simp)
  have hends : Moves (clockTick c (settle s)) (tickRunning c s) := by
    unfold tickRunning
    rw [harb]
    exact (tickEcho_moves .east hclock).trans ((tickEcho_moves .west heast).trans
      ((tickTransmission_moves .east hwest).trans (tickTransmission_moves .west (runs_next hwest (by simp) (by simp)))))
  by_cases hp : s.su.phase + 1 ≥ 10000
  · have hepoch : clockTick c (settle s) = epochParts c (settle s).pins.contacts (settle s).pins.tcs idleOrder (settle s) :=
      if_pos (by simpa [epochTicks] using hp)
    exact ⟨_, _, .settled s, hepoch ▸ .epoch _ _ _ hrun, hends⟩
  · have htick : clockTick c (settle s) = passTicks 1 (settle s) := if_neg (by simpa [epochTicks] using hp)
    exact (Lead.later 1 s h.1 (by omega)).reaches (htick ▸ hends)

theorem tick_reaches (s : State) : Reaches s (tick s) := by
  unfold tick
  split
  · exact Moves.reaches .refl
  · split
    · next c hc => exact tickRunning_reaches (runs_of_running hc)
    · exact (tickStopped_moves s).reaches

/-! ## Commands and steps -/

theorem epochEvent_reaches (k : Contacts) (tcs : Bool) (o : EpochOrder) (s : State) :
    Reaches s (whileRunning (fun c => epochEvent c k tcs o) s) :=
  whileRunning_reaches fun c hc => by
    have hrun : Runs c (settle s) := runs_next hc (by simp) (by simp)
    exact ⟨_, _, .settled s, .epoch k tcs o hrun, by simpa only [epochEvent, ← settle_eq hc] using .refl⟩

theorem onsetEnd_moves {c : Settings} (z : ZoneRef) (ph : Phase) {s : State} (h : Runs c s) : Moves s (onsetEndOp c z ph s) := by
  unfold onsetEndOp
  split
  · exact (Move.zonePhase z ph h (.windowEnd _)).moves
  · exact .refl

theorem echoTimeout_reaches (p : Port) (s : State) :
    Reaches s (whileRunning (fun _ s =>
      match (s.port p).outstanding with
      | some _ => echoTimeoutOp p (advanceToTimeout p s)
      | none => s) s) :=
  whileRunning_reaches fun c hc => by
    split
    · exact (advanceTo_lead _ s).reaches (Move.echoTimeout p (advanceTo_runs hc)).moves
    · exact Moves.reaches .refl

theorem transmissionEnd_reaches (p : Port) (s : State) :
    Reaches s (whileRunning (fun c s =>
      match ((arbitrateBoth c s).port p).tx with
      | some x => transmissionEndOp p (advanceToEnd x s)
      | none => s) s) :=
  whileRunning_reaches fun c hc => by
    split
    · exact (advanceTo_lead _ s).reaches (Move.transmissionEnd p (advanceTo_runs hc)).moves
    · exact Moves.reaches .refl

/-- Every command answers a next state, which a move of time and operations reach. -/
theorem exec_reaches (i : Instr) (s : State) : ∃ t, exec i s = .next t ∧ Reaches s t := by
  cases i with
  | epoch k tcs o => exact ⟨_, rfl, epochEvent_reaches k tcs o s⟩
  | conversionComplete ph ch raw m =>
    exact ⟨_, rfl, whileRunning_reaches fun c hc => (advanceTo_lead m s).reaches (Move.complete ph ch raw (advanceTo_runs hc)).moves⟩
  | retrip => exact ⟨_, rfl, whileRunning_move fun _ => .retrip⟩
  | breakerFailure => exact ⟨_, rfl, whileRunning_move fun _ => .breakerFailure⟩
  | endZoneTimeout b => exact ⟨_, rfl, whileRunning_move fun _ => .endZone b⟩
  | onsetWindowEnd z ph => exact ⟨_, rfl, whileRunning_reaches fun _ hc => (onsetEnd_moves z ph hc).reaches⟩
  | stabilisationExpiry z ph => exact ⟨_, rfl, whileRunning_move fun _ hc => .zonePhase z ph hc .stabExpiry⟩
  | evolveRelease z ph => exact ⟨_, rfl, whileRunning_move fun _ hc => .zonePhase z ph hc .evolveRelease⟩
  | quietReturn z ph => exact ⟨_, rfl, whileRunning_move fun _ hc => .zonePhase z ph hc .quietReturn⟩
  | zoneBlocked z ph => exact ⟨_, rfl, whileRunning_move fun _ _ => .zoneBlocked z ph⟩
  | converterFailure => exact ⟨_, rfl, whileRunning_move fun _ _ => .converterFailure⟩
  | converterRecovery => exact ⟨_, rfl, whileRunning_move fun _ _ => .converterRecovery⟩
  | isolatorDiscrepancy pr => exact ⟨_, rfl, whileRunning_move fun _ => .discrepancy pr⟩
  | receiveSignalPresent p m =>
    exact ⟨_, rfl, (advanceTo_lead m s).reaches (.head (.signal p true) (whileRunning_moves fun _ => .probe p))⟩
  | receiveSignalLost p m =>
    exact ⟨_, rfl, (advanceTo_lead m s).reaches (.head (.signal p false) (whileRunning_moves fun _ => .signalLost p))⟩
  | holdEnd p => exact ⟨_, rfl, whileRunning_move fun _ => .probe p⟩
  | echoDue p => exact ⟨_, rfl, whileRunning_move fun _ => .echoDue p⟩
  | echoTimeout p => exact ⟨_, rfl, echoTimeout_reaches p s⟩
  | echoRequestReceived p bytes m => exact ⟨_, rfl, receive_reaches p bytes m s⟩
  | echoAnswerReceived p bytes m => exact ⟨_, rfl, receive_reaches p bytes m s⟩
  | bayFrameReceived p bytes m => exact ⟨_, rfl, receive_reaches p bytes m s⟩
  | peerStale b => exact ⟨_, rfl, whileRunning_move fun _ => .peerStale b⟩
  | peerAbsent b => exact ⟨_, rfl, whileRunning_move fun _ => .peerAbsent b⟩
  | joiningRunReset b => exact ⟨_, rfl, whileRunning_move fun _ => .joiningReset b⟩
  | transmissionEnd p => exact ⟨_, rfl, transmissionEnd_reaches p s⟩
  | quietRunEnd f => exact ⟨_, rfl, Moves.reaches .refl⟩
  | supervisionPulseDue =>
    refine ⟨_, rfl, whileRunning_reaches fun _ _ => ?_⟩
    split
    · exact Moves.reaches .refl
    · exact Move.pulseDue.reaches
  | supervisionPulseEnd tcs => exact ⟨_, rfl, whileRunning_reaches fun _ _ => Moves.reaches ((Move.pins _).moves.tail .pulseEnd)⟩
  | qualified => exact ⟨_, rfl, whileRunning_move fun _ => .qualified⟩
  | listenTimeout => exact ⟨_, rfl, whileRunning_move fun _ _ => .listenTimeout⟩
  | duplicateConflictEnd => exact ⟨_, rfl, Moves.reaches .refl⟩
  | referenceConfirmed k => exact ⟨_, rfl, (Move.confirm k).reaches⟩
  | referenceLoss m => exact ⟨_, rfl, (advanceTo_lead m s).reaches Move.loss.moves⟩
  | powerUpTimeout => exact ⟨_, rfl, Move.powerUp.reaches⟩
  | confirmationWaitTimeout => exact ⟨_, rfl, Move.wait.reaches⟩
  | configCheckDone k => exact ⟨_, rfl, (Move.configCheck k).reaches⟩
  | supplyLow => exact ⟨_, rfl, Moves.reaches ((Move.supplyLevel true).moves.tail (.flag _))⟩
  | supplyNormal => exact ⟨_, rfl, (Move.supplyLevel false).reaches⟩
  | supplyReset => exact ⟨_, rfl, (Move.reset .supply).reaches⟩
  | powerOnReset => exact ⟨_, rfl, (Move.reset .powerOn).reaches⟩
  | resetPinAsserted => exact ⟨_, rfl, (Move.reset .pin).reaches⟩
  | resetEnd => exact ⟨_, rfl, Move.resetEnd.reaches⟩
  | commitDone readBack => exact ⟨_, rfl, (Move.commitDone readBack).reaches⟩
  | requestDiscarded d =>
    refine ⟨_, rfl, ?_⟩
    split
    · exact Move.portError.reaches
    · exact Moves.reaches .refl
  | unknown code p => exact ⟨_, rfl, takeCommand_reaches (Move.respond _ _).moves⟩
  | status p => exact ⟨_, rfl, takeCommand_reaches (Move.respond _ _).moves⟩
  | select p m => exact ⟨_, rfl, (advanceTo_lead m s).reaches (takeCommand_moves (selectAct_moves _ _ _))⟩
  | read p => exact ⟨_, rfl, takeCommand_reaches (readAct_moves _ _)⟩
  | takeRecord p => exact ⟨_, rfl, takeCommand_reaches Move.takeRecord.moves⟩
  | clearAlarms p => exact ⟨_, rfl, takeCommand_reaches Move.clearAlarms.moves⟩
  | clearCounters p => exact ⟨_, rfl, takeCommand_reaches Move.clearCounters.moves⟩
  | clearPeer p => exact ⟨_, rfl, takeCommand_reaches (clearPeerAct_moves _ _)⟩
  | testOn p => exact ⟨_, rfl, takeCommand_reaches ((Move.test true).moves.tail (.respond _ _))⟩
  | testOff p => exact ⟨_, rfl, takeCommand_reaches ((Move.test false).moves.tail (.respond _ _))⟩
  | stage p => exact ⟨_, rfl, takeCommand_reaches (stageAct_moves _ _ _)⟩
  | commit p cfgen =>
    exact ⟨_, rfl, Moves.reaches (.head (.pins fun q => { q with cfgen := cfgen }) (takeCommand_moves (commitAct_moves _)))⟩
  | reset p => exact ⟨_, rfl, takeCommand_reaches Move.resetRequest.moves⟩
  | responseSent =>
    refine ⟨_, rfl, ?_⟩
    unfold responseSentOp
    split
    · exact Move.responseEnd.reaches
    · exact Moves.reaches .refl
  | badReferenceCycle n => exact ⟨_, rfl, (measureCycle_moves _ _ _).reaches⟩

theorem step_reaches {s t : State} (h : step s = .next t) : ∃ rest, Reaches { s with pending := rest } t := by
  unfold step at h
  split at h
  · next hp =>
    obtain rfl : tick s = t := Host.Outcome.next.inj h
    exact ⟨s.pending, tick_reaches s⟩
  · next i rest hp =>
    obtain ⟨u, hu, hr⟩ := exec_reaches i { s with pending := rest }
    obtain rfl : u = t := Host.Outcome.next.inj (hu.symm.trans h)
    exact ⟨rest, hr⟩

theorem Moves.keep {P : State → Prop} {s t : State} (hm : Moves s t) (h : ∀ s t, Move s t → P s → P t) (hs : P s) : P t := by
  induction hm with
  | refl => exact hs
  | tail _ hstep ih => exact h _ _ hstep ih

/-- An invariant that the queue does not touch and that every move of time, every epoch and every operation keeps is kept by every
step. -/
theorem step_keeps {P : State → Prop} (hqueue : ∀ s rest, P s → P { s with pending := rest }) (hlead : ∀ s t, Lead s t → P s → P t)
    (hepoch : ∀ c k tcs o s, Runs c s → P s → P (epochParts c k tcs o s)) (hmove : ∀ s t, Move s t → P s → P t)
    {s t : State} (hs : P s) (h : step s = .next t) : P t := by
  obtain ⟨rest, u, v, hl, hf, hm⟩ := step_reaches h
  have hu : P u := hlead _ _ hl (hqueue s rest hs)
  refine hm.keep hmove ?_
  cases hf with
  | none => exact hu
  | epoch k tcs o hr => exact hepoch _ k tcs o _ hr hu

end Sys2Proof.Machine

/-! PROOFS. Which blocks the operations of the Maintenance Port, of START and of a completion leave alone, and how a property passes
through the operations that are built from others. -/

namespace Sys2Proof.Machine

open Sys2Proof

/-! ## Blocks left alone -/

section
variable (p : Port) (b : Bool) (s : State)
@[simp] theorem setRx_su : (setRx p b s).su = s.su := by simp [setRx]
@[simp] theorem setRx_ciu : (setRx p b s).ciu = s.ciu := by simp [setRx]
@[simp] theorem setRx_pt : (setRx p b s).pt = s.pt := by simp [setRx]
@[simp] theorem setRx_au : (setRx p b s).au = s.au := by simp [setRx]
@[simp] theorem setRx_ze : (setRx p b s).ze = s.ze := by simp [setRx]
@[simp] theorem setRx_tu : (setRx p b s).tu = s.tu := by simp [setRx]
@[simp] theorem setRx_sc : (setRx p b s).sc = s.sc := by simp [setRx]
@[simp] theorem setRx_cs : (setRx p b s).cs = s.cs := by simp [setRx]
@[simp] theorem setRx_pins : (setRx p b s).pins = s.pins := by simp [setRx]
@[simp] theorem setRx_free : (setRx p b s).free = s.free := by simp [setRx]
@[simp] theorem setRx_pending : (setRx p b s).pending = s.pending := by simp [setRx]
@[simp] theorem setRx_mp : (setRx p b s).mp = s.mp := by simp [setRx]
end

section
variable (p : Port) (s : State)
@[simp] theorem signalLostOp_su : (signalLostOp p s).su = s.su := by unfold signalLostOp; split <;> simp
@[simp] theorem signalLostOp_ciu : (signalLostOp p s).ciu = s.ciu := by unfold signalLostOp; split <;> simp
@[simp] theorem signalLostOp_pt : (signalLostOp p s).pt = s.pt := by unfold signalLostOp; split <;> simp
@[simp] theorem signalLostOp_au : (signalLostOp p s).au = s.au := by unfold signalLostOp; split <;> simp
@[simp] theorem signalLostOp_ze : (signalLostOp p s).ze = s.ze := by unfold signalLostOp; split <;> simp
@[simp] theorem signalLostOp_tu : (signalLostOp p s).tu = s.tu := by unfold signalLostOp; split <;> simp
@[simp] theorem signalLostOp_sc : (signalLostOp p s).sc = s.sc := by unfold signalLostOp; split <;> simp
@[simp] theorem signalLostOp_cs : (signalLostOp p s).cs = s.cs := by unfold signalLostOp; split <;> simp
@[simp] theorem signalLostOp_pins : (signalLostOp p s).pins = s.pins := by unfold signalLostOp; split <;> simp
@[simp] theorem signalLostOp_free : (signalLostOp p s).free = s.free := by unfold signalLostOp; split <;> simp
@[simp] theorem signalLostOp_pending : (signalLostOp p s).pending = s.pending := by unfold signalLostOp; split <;> simp
@[simp] theorem signalLostOp_receiver : (signalLostOp p s).mp.receiver = s.mp.receiver := by unfold signalLostOp; split <;> simp
@[simp] theorem signalLostOp_portErrors : (signalLostOp p s).mp.portErrors = s.mp.portErrors := by unfold signalLostOp; split <;> simp
end

section
variable (r : ReplyCode) (d : List Byte) (s : State)
@[simp] theorem respond_su : (respond r d s).su = s.su := by simp [respond]
@[simp] theorem respond_ciu : (respond r d s).ciu = s.ciu := by simp [respond]
@[simp] theorem respond_ri : (respond r d s).ri = s.ri := by simp [respond]
@[simp] theorem respond_pt : (respond r d s).pt = s.pt := by simp [respond]
@[simp] theorem respond_au : (respond r d s).au = s.au := by simp [respond]
@[simp] theorem respond_ze : (respond r d s).ze = s.ze := by simp [respond]
@[simp] theorem respond_tu : (respond r d s).tu = s.tu := by simp [respond]
@[simp] theorem respond_sc : (respond r d s).sc = s.sc := by simp [respond]
@[simp] theorem respond_cs : (respond r d s).cs = s.cs := by simp [respond]
@[simp] theorem respond_pins : (respond r d s).pins = s.pins := by simp [respond]
@[simp] theorem respond_free : (respond r d s).free = s.free := by simp [respond]
@[simp] theorem respond_pending : (respond r d s).pending = s.pending := by simp [respond]
end

section
variable (s : State)
@[simp] theorem portError_su : (portError s).su = s.su := by simp [portError]
@[simp] theorem portError_ciu : (portError s).ciu = s.ciu := by simp [portError]
@[simp] theorem portError_ri : (portError s).ri = s.ri := by simp [portError]
@[simp] theorem portError_pt : (portError s).pt = s.pt := by simp [portError]
@[simp] theorem portError_au : (portError s).au = s.au := by simp [portError]
@[simp] theorem portError_ze : (portError s).ze = s.ze := by simp [portError]
@[simp] theorem portError_tu : (portError s).tu = s.tu := by simp [portError]
@[simp] theorem portError_sc : (portError s).sc = s.sc := by simp [portError]
@[simp] theorem portError_cs : (portError s).cs = s.cs := by simp [portError]
@[simp] theorem portError_pins : (portError s).pins = s.pins := by simp [portError]
@[simp] theorem portError_free : (portError s).free = s.free := by simp [portError]
@[simp] theorem portError_pending : (portError s).pending = s.pending := by simp [portError]
end

section
variable (s : State)
@[simp] theorem leaveStart_su : (leaveStart s).su = s.su := by unfold leaveStart; split <;> simp
@[simp] theorem leaveStart_ciu : (leaveStart s).ciu = s.ciu := by unfold leaveStart; split <;> simp
@[simp] theorem leaveStart_ri : (leaveStart s).ri = s.ri := by unfold leaveStart; split <;> simp
@[simp] theorem leaveStart_pt : (leaveStart s).pt = s.pt := by unfold leaveStart; split <;> simp
@[simp] theorem leaveStart_au : (leaveStart s).au = s.au := by unfold leaveStart; split <;> simp
@[simp] theorem leaveStart_ze : (leaveStart s).ze = s.ze := by unfold leaveStart; split <;> simp
@[simp] theorem leaveStart_tu : (leaveStart s).tu = s.tu := by unfold leaveStart; split <;> simp
@[simp] theorem leaveStart_cs : (leaveStart s).cs = s.cs := by unfold leaveStart; split <;> simp
@[simp] theorem leaveStart_pins : (leaveStart s).pins = s.pins := by unfold leaveStart; split <;> simp
@[simp] theorem leaveStart_free : (leaveStart s).free = s.free := by unfold leaveStart; split <;> simp
@[simp] theorem leaveStart_pending : (leaveStart s).pending = s.pending := by unfold leaveStart; split <;> simp
@[simp] theorem leaveStart_mp : (leaveStart s).mp = s.mp := by unfold leaveStart; split <;> simp
end

section
variable (s : State)
@[simp] theorem powerUpOp_su : (powerUpOp s).su = s.su := by unfold powerUpOp; split <;> simp
@[simp] theorem powerUpOp_ciu : (powerUpOp s).ciu = s.ciu := by unfold powerUpOp; split <;> simp
@[simp] theorem powerUpOp_ri : (powerUpOp s).ri = s.ri := by unfold powerUpOp; split <;> simp
@[simp] theorem powerUpOp_pt : (powerUpOp s).pt = s.pt := by unfold powerUpOp; split <;> simp
@[simp] theorem powerUpOp_au : (powerUpOp s).au = s.au := by unfold powerUpOp; split <;> simp
@[simp] theorem powerUpOp_ze : (powerUpOp s).ze = s.ze := by unfold powerUpOp; split <;> simp
@[simp] theorem powerUpOp_tu : (powerUpOp s).tu = s.tu := by unfold powerUpOp; split <;> simp
@[simp] theorem powerUpOp_cs : (powerUpOp s).cs = s.cs := by unfold powerUpOp; split <;> simp
@[simp] theorem powerUpOp_pins : (powerUpOp s).pins = s.pins := by unfold powerUpOp; split <;> simp
@[simp] theorem powerUpOp_free : (powerUpOp s).free = s.free := by unfold powerUpOp; split <;> simp
@[simp] theorem powerUpOp_pending : (powerUpOp s).pending = s.pending := by unfold powerUpOp; split <;> simp
@[simp] theorem powerUpOp_mp : (powerUpOp s).mp = s.mp := by unfold powerUpOp; split <;> simp
end

section
variable (s : State)
@[simp] theorem waitOp_su : (waitOp s).su = s.su := by unfold waitOp; split <;> simp [raise]
@[simp] theorem waitOp_ciu : (waitOp s).ciu = s.ciu := by unfold waitOp; split <;> simp [raise]
@[simp] theorem waitOp_ri : (waitOp s).ri = s.ri := by unfold waitOp; split <;> simp [raise]
@[simp] theorem waitOp_pt : (waitOp s).pt = s.pt := by unfold waitOp; split <;> simp [raise]
@[simp] theorem waitOp_au : (waitOp s).au = s.au := by unfold waitOp; split <;> simp [raise]
@[simp] theorem waitOp_ze : (waitOp s).ze = s.ze := by unfold waitOp; split <;> simp [raise]
@[simp] theorem waitOp_tu : (waitOp s).tu = s.tu := by unfold waitOp; split <;> simp [raise]
@[simp] theorem waitOp_cs : (waitOp s).cs = s.cs := by unfold waitOp; split <;> simp [raise]
@[simp] theorem waitOp_pins : (waitOp s).pins = s.pins := by unfold waitOp; split <;> simp [raise]
@[simp] theorem waitOp_free : (waitOp s).free = s.free := by unfold waitOp; split <;> simp [raise]
@[simp] theorem waitOp_pending : (waitOp s).pending = s.pending := by unfold waitOp; split <;> simp [raise]
@[simp] theorem waitOp_receiver : (waitOp s).mp.receiver = s.mp.receiver := by unfold waitOp; split <;> simp [raise]
@[simp] theorem waitOp_portErrors : (waitOp s).mp.portErrors = s.mp.portErrors := by unfold waitOp; split <;> simp [raise]
end

section
variable (l : List Byte) (s : State)
@[simp] theorem commitDoneOp_su : (commitDoneOp l s).su = s.su := by unfold commitDoneOp; split <;> simp
@[simp] theorem commitDoneOp_ciu : (commitDoneOp l s).ciu = s.ciu := by unfold commitDoneOp; split <;> simp
@[simp] theorem commitDoneOp_ri : (commitDoneOp l s).ri = s.ri := by unfold commitDoneOp; split <;> simp
@[simp] theorem commitDoneOp_pt : (commitDoneOp l s).pt = s.pt := by unfold commitDoneOp; split <;> simp
@[simp] theorem commitDoneOp_au : (commitDoneOp l s).au = s.au := by unfold commitDoneOp; split <;> simp
@[simp] theorem commitDoneOp_ze : (commitDoneOp l s).ze = s.ze := by unfold commitDoneOp; split <;> simp
@[simp] theorem commitDoneOp_tu : (commitDoneOp l s).tu = s.tu := by unfold commitDoneOp; split <;> simp
@[simp] theorem commitDoneOp_sc : (commitDoneOp l s).sc = s.sc := by unfold commitDoneOp; split <;> simp
@[simp] theorem commitDoneOp_pins : (commitDoneOp l s).pins = s.pins := by unfold commitDoneOp; split <;> simp
@[simp] theorem commitDoneOp_free : (commitDoneOp l s).free = s.free := by unfold commitDoneOp; split <;> simp
@[simp] theorem commitDoneOp_pending : (commitDoneOp l s).pending = s.pending := by unfold commitDoneOp; split <;> simp
@[simp] theorem commitDoneOp_mp : (commitDoneOp l s).mp = s.mp := by unfold commitDoneOp; split <;> simp
end

section
variable (c : Settings) (ph : Phase) (ch : Channel) (raw : BitVec 16) (s : State)
@[simp] theorem completeOp_ciu : (completeOp c ph ch raw s).ciu = s.ciu := by simp only [completeOp]; (repeat' split) <;> simp
@[simp] theorem completeOp_sc : (completeOp c ph ch raw s).sc = s.sc := by simp only [completeOp]; (repeat' split) <;> simp
@[simp] theorem completeOp_cs : (completeOp c ph ch raw s).cs = s.cs := by simp only [completeOp]; (repeat' split) <;> simp
@[simp] theorem completeOp_pins : (completeOp c ph ch raw s).pins = s.pins := by simp only [completeOp]; (repeat' split) <;> simp
@[simp] theorem completeOp_free : (completeOp c ph ch raw s).free = s.free := by simp only [completeOp]; (repeat' split) <;> simp
@[simp] theorem completeOp_pending : (completeOp c ph ch raw s).pending = s.pending := by simp only [completeOp]; (repeat' split) <;> simp
@[simp] theorem completeOp_receiver : (completeOp c ph ch raw s).mp.receiver = s.mp.receiver := by
  simp only [completeOp]; (repeat' split) <;> simp
@[simp] theorem completeOp_portErrors : (completeOp c ph ch raw s).mp.portErrors = s.mp.portErrors := by
  simp only [completeOp]; (repeat' split) <;> simp
end

/-! ## A start of epochs, block by block -/

/-- The blocks at a start of epochs before the ports probe and the state of epoch 0 is chosen (R1, R21, R82, R118, R160, R166). -/
def startBlocks (c : Settings) (k : Contacts) (s : State) : State :=
  (((((peerRestart c (initialAcceptance c k ((s.updSu samplingStart).updPins fun p => { p with contacts := k }))).updZe
    zoneRestart).updAu fun _ => { latest := none }).updTu fun u => { u with supCount := 0, pulseNew := false }).updSc fun u =>
      { u with qualified := false, qualCount := 0 })

theorem startEpochs_eq (c : Settings) (k : Contacts) (s : State) : startEpochs c k s =
    startConversions (choiceStage c (ringStart (quietEpoch (peerEpoch c (startBlocks c k s))))) := rfl

section
variable (c : Settings) (k : Contacts) (s : State)
@[simp] theorem startBlocks_su : (startBlocks c k s).su = samplingStart s.su := by simp [startBlocks]
@[simp] theorem startBlocks_ciu : (startBlocks c k s).ciu = (initialAcceptance c k s).ciu := by
  simp [startBlocks, initialAcceptance]
@[simp] theorem startBlocks_ri : (startBlocks c k s).ri = s.ri := by simp [startBlocks]
@[simp] theorem startBlocks_pt : (startBlocks c k s).pt = (peerRestart c s).pt := by
  simp [startBlocks, peerRestart, State.setEntry, State.entry]
@[simp] theorem startBlocks_au : (startBlocks c k s).au = { latest := none } := by simp [startBlocks]
@[simp] theorem startBlocks_ze : (startBlocks c k s).ze = zoneRestart s.ze := by simp [startBlocks]
@[simp] theorem startBlocks_tu : (startBlocks c k s).tu = { s.tu with supCount := 0, pulseNew := false } := by simp [startBlocks]
@[simp] theorem startBlocks_sc : (startBlocks c k s).sc = { s.sc with qualified := false, qualCount := 0 } := by
  simp [startBlocks]
@[simp] theorem startBlocks_cs : (startBlocks c k s).cs = s.cs := by simp [startBlocks]
@[simp] theorem startBlocks_mp : (startBlocks c k s).mp = s.mp := by simp [startBlocks]
end

/-! ## How a property passes through an operation -/

section
variable {P : State → Prop} {s : State}

theorem completeOp_pres {c : Settings} {ph : Phase} {ch : Channel} {raw : BitVec 16} (hs : P s)
    (held : P (s.updSu fun u => { u with chans := u.chans.upd (ChanPair.complete ch (readRaw raw)) ph }))
    (own : ∀ s, P s → P (ownSampleEvent c s)) : P (completeOp c ph ch raw s) := by
  simp only [completeOp]
  split
  · split
    · exact own _ held
    · exact held
  · exact hs

/-- The own sample event, stage by stage: the record, the own entry, the own frames and the evaluation (R15, R99). -/
theorem ownSampleEvent_pres {c : Settings} (hs : P s) (record : ∀ x s, P s → P (takeRecordSu x s))
    (feed : ∀ x r s, P s → P (feedOwn c x r s)) (place : ∀ o s, P s → P (placeOwn o s))
    (align : ∀ x s, P s → P (s.updAu fun _ => x))
    (zones : ∀ k tau b s, P s → P (s.updZe (evaluateZones c k tau b s.pt)))
    (blocked : ∀ s, P s → P (zoneBlockedAll s)) (trip : ∀ k s, P s → P (tripEvaluation c k s)) : P (ownSampleEvent c s) := by
  unfold ownSampleEvent
  split
  · exact hs
  · exact trip _ _ (blocked _ (zones _ _ _ _ (align _ _ (place _ _ (feed _ _ _ (record _ _ hs))))))

theorem lateEvent_pres {c : Settings} (hs : P s) (own : P s → P (ownSampleEvent c s)) : P (lateEvent c s) := by
  unfold lateEvent
  split
  · exact own hs
  · exact hs

/-- An epoch, part by part, in whatever order its operand gives (R161). -/
theorem epochParts_pres {c : Settings} {k : Contacts} {tcs : Bool} {o : EpochOrder} (hs : P s)
    (clock : P s → P (clockEpoch k tcs s)) (contacts : ∀ n s, P s → P (contactEpoch c k n s))
    (late : ∀ s, P s → P (lateEvent c s)) (peers : ∀ s, P s → P (peerEpoch c s)) (ring : ∀ s, P s → P (ringEpoch s))
    (choice : ∀ s, P s → P (choiceStage c s)) (supervision : ∀ r s, P s → P (supervisionEpoch r s))
    (conversions : ∀ s, P s → P (startConversions s)) : P (epochParts c k tcs o s) :=
  conversions _ (stageIf_pres ring (stageIf_pres peers (stageIf_pres late (supervision _ _ (stageIf_pres late
    (choice _ (stageIf_pres ring (stageIf_pres peers (stageIf_pres late (contacts _ _ (clock hs)))))))))))

theorem peerEpoch_pres {c : Settings} (age : ∀ b s, P s → P (ageEntry c b s)) (hs : P s) : P (peerEpoch c s) :=
  foldl_pres (fun s b => age b s) _ hs

theorem zoneBlockedAll_pres (hs : P s) (blocked : ∀ z ph s, P s → P (zoneBlockedOp z ph s)) : P (zoneBlockedAll s) := by
  unfold zoneBlockedAll
  exact foldl_pres (fun s (x : ZoneRef × Phase) => blocked x.1 x.2 s) _ hs

/-- A change of a port's counters that keeps their range (R60). -/
def CountersKept (f : PortCounters → PortCounters) : Prop :=
  ∀ k, (∀ n ∈ portNumbers k, n ≤ 65535) → ∀ n ∈ portNumbers (f k), n ≤ 65535

theorem bump_le (n : Nat) : bump n ≤ 65535 := by simp only [bump]; omega

theorem forall_portNumbers {k : PortCounters} {p : Nat → Prop} : (∀ n ∈ portNumbers k, p n) ↔
      p k.framesReceived ∧ p k.checkFailures ∧ p k.notUpDrops ∧ p k.hopDrops ∧ p k.ownReturns ∧ p k.duplicateBays ∧
      p k.foreignFrames ∧ p k.unexpectedBays ∧ p k.transitOverflows ∧ p k.latencyDrops ∧ p k.agedDrops ∧ p
      k.linkDownDrops ∧ p k.forwarded ∧ p k.ownSent ∧ p k.ownOverruns ∧ p k.goodEchoes ∧ p k.echoLosses ∧ p
      k.staleEchoes ∧ p k.linkDownEvents ∧ p k.ringOpenEvents := by
  simp only [portNumbers, List.forall_mem_cons, List.not_mem_nil, false_implies, implies_true, and_true]

/-- A bay frame that an UP port takes in, by what its fields say (R43 to R52). -/
theorem takeBay_pres {c : Settings} {p : Port} {f : BayFrame} {a : Ticks} (hs : P s)
    (counted : ∀ g s, CountersKept g → P s → P (s.updPort p fun q => { q with ctr := g q.ctr }))
    (returned : ∀ n s, P s → P (ownReturn p n s)) (duplicate : ∀ s, P s → P (duplicateBay p s))
    (queue : ∀ x s, P s → P (queueTransit (otherPort p) x s))
    (unexpected : ∀ n s, P s → P (s.updRi fun r => { r with unexpectedQuiet := 0, unexpectedDetail := some n }))
    (flag : ∀ a s, P s → P (raise a s)) (take : ∀ b f t s, P s → P (takeFrame c b f t p s)) : P (takeBay c p f a s) := by
  have received := counted (fun k => { k with framesReceived := bump k.framesReceived }) s
    (fun k h => by rw [forall_portNumbers] at h ⊢; simp only [h, bump_le, and_self]) hs
  unfold takeBay
  dsimp only
  split
  · split
    · exact returned _ _ received
    · exact duplicate _ received
  · split
    · exact counted (fun k => { k with hopDrops := bump k.hopDrops }) _
        (fun k h => by rw [forall_portNumbers] at h ⊢; simp only [h, bump_le, and_self]) received
    · have queued := queue ⟨{ f with hops := f.hops + 1 }, a, (s.port p).delay.getD 0⟩ _ received
      unfold deliver
      split
      · exact counted (fun k => { k with foreignFrames := bump k.foreignFrames }) _
          (fun k h => by rw [forall_portNumbers] at h ⊢; simp only [h, bump_le, and_self]) queued
      · split
        · exact take _ _ _ _ queued
        · exact flag _ _ (unexpected _ _ (counted (fun k => { k with unexpectedBays := bump k.unexpectedBays }) _
            (fun k h => by rw [forall_portNumbers] at h ⊢; simp only [h, bump_le, and_self]) queued))

/-- The reception of a frame, by what it makes of the bytes (R43). -/
theorem receiveFrame_pres {c : Settings} {p : Port} {bytes : List Byte} (hs : P s)
    (counted : ∀ g s, CountersKept g → P s → P (s.updPort p fun q => { q with ctr := g q.ctr }))
    (request : ∀ n a, P (takeRequest p n a s)) (answer : ∀ n t a, P (takeAnswer p n t a s))
    (bay : ∀ f a, (s.port p).link = .up → P (takeBay c p f a s)) : P (receiveFrame c p bytes s) := by
  unfold receiveFrame
  dsimp only
  split
  · split
    · exact counted (fun k => { k with checkFailures := bump k.checkFailures }) _
        (fun k h => by rw [forall_portNumbers] at h ⊢; simp only [h, bump_le, and_self]) hs
    · exact request _ _
    · exact answer _ _ _
    · split
      · next hup => exact bay _ _ hup
      · exact counted (fun k => { k with notUpDrops := bump k.notUpDrops }) _
          (fun k h => by rw [forall_portNumbers] at h ⊢; simp only [h, bump_le, and_self]) hs
  · exact hs

/-- A response that is cut off, with the reset that RESET asked for (R181, R173). -/
theorem cutResponse_pres (hidle : P (s.updMp fun m => { m with receiver := .idle, request := [], response := [] }))
    (hreset : ∀ s, P s → P (takeReset .command s)) : P (cutResponse s) := by
  unfold cutResponse
  dsimp only
  split
  · exact hreset _ hidle
  · exact hidle

/-- The monitor confirmed, in the state the station is in (R162, R163, R165, R171). -/
theorem confirmOp_pres {k : Contacts} (hs : P s) (hconfirm : s.sc.confirmed = false → P (s.updSc confirmed))
    (hstart : s.sc.confirmed = false → s.sc.station = .start → P (leaveStart (s.updSc confirmed)))
    (hfault : s.sc.confirmed = false → s.sc.station = .fault →
      P ((s.updSc confirmed).updSc fun u => { u with reference := true }))
    (hclear : ∀ r, s.held = false → s.sc.confirmed = false → s.sc.station = .running r → s.cs.inUse = none →
      P ((s.updSc confirmed).updSc fun u => { u with reference := true, causes := { u.causes with clock := false } }))
    (hrun : ∀ r c, s.held = false → s.sc.confirmed = false → s.sc.station = .running r → s.cs.inUse = some c → P (startEpochs c k
      ((s.updSc confirmed).updSc fun u => { u with reference := true, causes := { u.causes with clock := false } }))) :
    P (confirmOp k s) := by
  unfold confirmOp
  split
  · exact hs
  · next hc =>
    obtain ⟨hheld, hconf⟩ : s.held = false ∧ s.sc.confirmed = false := by simpa using hc
    have hst : (s.updSc confirmed).sc.station = s.sc.station := rfl
    dsimp only
    split
    · next h => exact hstart hconf (hst ▸ h)
    · next h => exact hfault hconf (hst ▸ h)
    · next r h =>
      split
      · next c hin => exact hrun r c hheld hconf (hst ▸ h) hin
      · next hin => exact hclear r hheld hconf (hst ▸ h) hin
    · exact hconfirm hconf

/-- A reference loss, in the state the station is in (R162, R171). -/
theorem referenceLossOp_pres (hs : P s) (hun : (s.sc.confirmed = true → s.sc.station = .start) → P (s.updSc unconfirm))
    (hconfig : s.sc.station = .config → P (cutResponse (raise .clock ((s.updSc unconfirm).updSc fun u =>
      { u with station := .start, reference := false, powerUp := powerUpLimit, wait := 0 }))))
    (hfault : s.sc.station = .fault →
      P (cutResponse (raise .clock ((s.updSc unconfirm).updSc fun u => { u with reference := false }))))
    (hrun : ∀ r, s.sc.station = .running r → P (cutResponse (lossRunning (s.updSc unconfirm)))) : P (referenceLossOp s) := by
  unfold referenceLossOp
  split
  · exact hs
  · split
    · next hc => exact hun fun h => by simp [h] at hc
    · have hst : (s.updSc unconfirm).sc.station = s.sc.station := rfl
      dsimp only
      split
      · next h => exact hun fun _ => hst ▸ h
      · next h => exact hconfig (hst ▸ h)
      · next h => exact hfault (hst ▸ h)
      · next r h => exact hrun r (hst ▸ h)

/-- The check of the configuration block, good or bad (R164, R165). -/
theorem configCheckOp_pres {k : Contacts} (hs : P s)
    (hgood : ∀ c, s.sc.station = .config → goodBlock s.cs.block = some c →
      P (startEpochs c k (s.updCs fun u => { u with inUse := some c })))
    (hbad : s.sc.station = .config → P (raise .config (s.updSc fun u => { u with station := .fault }))) :
    P (configCheckOp k s) := by
  unfold configCheckOp
  split
  · next hst =>
    split
    · next c hc =>
      split at hc
      · cases hc
      · exact hgood c hst hc
    · exact hbad hst
  · exact hs

end

end Sys2Proof.Machine


/-! PROOFS. The coils, the trip state, breaker failure and the trip record stay in agreement (section 8). -/

namespace Sys2Proof.Machine

open Sys2Proof

/-! ## The peer table's operations as the Trip Unit sees them -/

/-- A delivered frame stores an entry, may set a flag, and may hand on a backtrip request (R64). -/
theorem takeFrame_pres {P : State → Prop} {c : Settings} {b : Bay} {f : BayFrame} {t : Ticks} {p : Port} {s : State} (hs : P s)
    (entry : ∀ e s, P s → P (s.setEntry b e)) (flag : ∀ a s, P s → P (raise a s))
    (backtrip : ∀ n d x s, P s → P (backtripRequest c n d x s)) : P (takeFrame c b f t p s) := by
  unfold takeFrame
  dsimp only
  split
  · exact entry _ _ hs
  · exact flag _ _ (entry _ _ hs)
  · exact entry _ _ hs
  · exact entry _ _ hs
  · split
    · exact entry _ _ hs
    · exact backtrip _ _ _ _ (entry _ _ hs)

/-- A received frame reaches the Trip Unit only as a backtrip request: every other operation leaves it and the station state. -/
theorem receiveFrame_tripPres {P : State → Prop} {c : Settings} {p : Port} {bytes : List Byte} {s : State} (hs : P s)
    (same : ∀ s t, t.tu = s.tu → t.sc.station = s.sc.station → P s → P t)
    (backtrip : ∀ n d x s, P s → P (backtripRequest c n d x s)) : P (receiveFrame c p bytes s) := by
  have counted : ∀ g s, CountersKept g → P s → P (s.updPort p fun q => { q with ctr := g q.ctr }) :=
    fun _ s _ => same s _ rfl rfl
  have flag : ∀ a s, P s → P (raise a s) := fun _ s => same s _ rfl rfl
  refine receiveFrame_pres hs counted (fun _ _ => same s _ (by simp) (by simp) hs) (fun _ _ _ => same s _ (by simp) (by simp) hs)
    fun f a _ => takeBay_pres hs counted (fun _ s => same s _ (by simp) (by simp))
      (fun s => same s _ (by simp) (by simp [duplicateBay, raise])) (fun _ s => same s _ (by simp) (by simp))
      (fun _ s => same s _ rfl rfl) flag fun b f t s hs => takeFrame_pres hs (fun _ s => same s _ rfl rfl) flag backtrip

/-! ## Coils and trips (R140, R144, R148, R150, R152) -/

theorem TripSound.same {s t : State} (hs : TripSound s) (h : t.tu = s.tu) (h2 : t.sc.station = s.sc.station) : TripSound t :=
  tripSound_of h h2 hs

theorem resetTrip_tripSound (held : Option TripRecord) (n : Nat) (s : State) (h : s.tu = .reset held n) : TripSound s := by
  constructor <;> simp [h, TripUnit.reset]

theorem takeReset_tripSound (k : ResetKind) (s : State) : TripSound (takeReset k s) := by
  have htu : (takeReset k s).tu = tripReset k s := by
    unfold takeReset raiseIf; dsimp only; split <;> rfl
  unfold tripReset at htu
  split at htu <;> exact resetTrip_tripSound _ _ _ htu

theorem ownSampleEvent_tripSound {c : Settings} {s : State} (hs : TripSound s) : TripSound (ownSampleEvent c s) :=
  ownSampleEvent_pres hs (fun _ s => tripSound_of (by simp) (by simp)) (fun _ _ s => tripSound_of (by simp) (by simp))
    (fun _ s => tripSound_of (by simp) (by simp)) (fun _ s => tripSound_of rfl rfl) (fun _ _ _ s => tripSound_of rfl rfl)
    (fun s => tripSound_of (by simp) (by simp)) fun _ _ => tripEvaluation_tripSound

theorem epochParts_tripSound {c : Settings} {k : Contacts} {tcs : Bool} {o : EpochOrder} {s : State} (hs : TripSound s) :
    TripSound (epochParts c k tcs o s) :=
  epochParts_pres hs (tripSound_of_fields rfl rfl rfl rfl rfl rfl rfl) (fun _ _ => tripSound_of (by simp) (by simp))
    (fun _ h => lateEvent_pres h ownSampleEvent_tripSound) (fun _ => tripSound_of (by simp) (by simp))
    (fun _ => tripSound_of (by simp) (by simp)) (fun _ => choiceStage_tripSound) (fun _ _ => supervisionEpoch_tripSound)
    (fun _ => tripSound_of (by simp) (by simp))

/-- At a start of epochs the choice of the state finds the trip as it was. -/
theorem startEpochs_tripSound {c : Settings} {k : Contacts} {s : State} (hs : TripSound s) : TripSound (startEpochs c k s) := by
  rw [startEpochs_eq]
  refine tripSound_of (startConversions_tu _) (by simp) (choiceStage_tripSound ?_)
  exact tripSound_of_fields (by simp) (by simp) (by simp) (by simp) (by simp) (by simp) (by simp) hs

/-- A stop of epochs releases a trip before the station is BLOCKED. -/
theorem lossRunning_tripSound {s : State} (hs : TripSound s) : TripSound (lossRunning s) := by
  obtain ⟨hstop, hidle⟩ := tripStop_tripSound hs.coil1_asserted hs.pulse_supervision hs
  exact tripSound_idle hstop hidle (by simp [lossRunning, raise])

theorem not_tripping {s : State} (hs : TripSound s) (h1 : s.sc.station ≠ .running .service) (h2 : s.sc.station ≠ .running .test) :
    s.tu.trip = .idle := by
  cases ht : s.tu.trip with
  | idle => rfl
  | asserted => exact absurd (hs.asserted_service ht) h1
  | testAsserted => exact absurd (hs.test_test ht) h2

/-- A station that is in none of the states of a trip may change its state. -/
theorem tripSound_elsewhere {s t : State} {x : Station} (hs : TripSound s) (hx : s.sc.station = x) (h : t.tu = s.tu)
    (h1 : x ≠ .running .service) (h2 : x ≠ .running .test) : TripSound t :=
  tripSound_idle hs (not_tripping hs (hx ▸ h1) (hx ▸ h2)) h

theorem leaveStart_tripSound {s : State} (hs : TripSound s) : TripSound (leaveStart s) := by
  by_cases h : s.sc.station = .start
  · exact tripSound_elsewhere hs h (by simp) (by decide) (by decide)
  · have : leaveStart s = s := if_neg fun hc => h hc.1
    rwa [this]

theorem powerUpOp_tripSound {s : State} (hs : TripSound s) : TripSound (powerUpOp s) := by
  unfold powerUpOp
  split
  · exact leaveStart_tripSound (hs.same rfl rfl)
  · exact hs

theorem waitOp_station (s : State) : (waitOp s).sc.station = s.sc.station := by
  unfold waitOp; split <;> rfl

theorem qualifiedOp_station (s : State) : (qualifiedOp s).sc.station = s.sc.station := by
  unfold qualifiedOp; split <;> rfl

theorem cutResponse_tripSound {s : State} (hs : TripSound s) : TripSound (cutResponse s) :=
  cutResponse_pres (hs.same rfl rfl) fun _ _ => takeReset_tripSound _ _

theorem move_tripSound {s t : State} (h : Move s t) (hs : TripSound s) : TripSound t := by
  cases h with
  | complete ph ch raw _ => exact completeOp_pres hs (hs.same rfl rfl) fun _ => ownSampleEvent_tripSound
  | retrip _ => exact retripOp_tripSound hs
  | breakerFailure _ => exact breakerFailureOp_tripSound hs
  | pulseDue => exact pulseDueOp_tripSound hs
  | pulseEnd => exact pulseEndOp_tripSound hs
  | receive p bytes _ =>
    exact receiveFrame_tripPres hs (fun _ _ => tripSound_of) fun _ _ _ _ => backtripRequest_tripSound
  | powerUp => exact powerUpOp_tripSound hs
  | wait => exact tripSound_of (by simp) (waitOp_station s) hs
  | qualified _ => exact tripSound_of (by simp) (qualifiedOp_station s) hs
  | confirm k =>
    exact confirmOp_pres hs (fun _ => hs.same rfl rfl) (fun _ _ => leaveStart_tripSound (hs.same rfl rfl))
      (fun _ _ => hs.same rfl rfl) (fun _ _ _ _ _ => hs.same rfl rfl)
      fun _ _ _ _ _ _ => startEpochs_tripSound (hs.same rfl rfl)
  | loss =>
    exact referenceLossOp_pres hs (fun _ => hs.same rfl rfl)
      (fun h => cutResponse_tripSound (tripSound_elsewhere hs h rfl (by decide) (by decide)))
      (fun _ => cutResponse_tripSound (hs.same rfl rfl))
      fun _ _ => cutResponse_tripSound (lossRunning_tripSound (hs.same rfl rfl))
  | configCheck k =>
    exact configCheckOp_pres hs (fun _ _ _ => startEpochs_tripSound (hs.same rfl rfl))
      fun h => tripSound_elsewhere hs h rfl (by decide) (by decide)
  | reset k => exact takeReset_tripSound k s
  | takeRecord => exact tripSound_of_fields (s := s) rfl rfl rfl rfl rfl rfl rfl hs
  | clearCounters => exact tripSound_of_fields (s := s) rfl rfl rfl rfl rfl rfl rfl hs
  | resetRequest => exact tripSound_of (by unfold resetAct; split <;> simp) (by unfold resetAct; split <;> simp) hs
  | responseEnd => exact cutResponse_tripSound hs
  | clearAlarms => exact hs.same rfl rfl
  | _ => exact tripSound_of (by simp) (by simp) hs

theorem lead_tripSound {s t : State} (h : Lead s t) (hs : TripSound s) : TripSound t := by
  cases h with
  | stay => exact hs
  | settled => exact tripSound_of (by simp) (by simp) hs
  | later n _ _ => exact tripSound_of (by simp [passTicks]) (by simp [passTicks]) hs

/-! ## The trip record (R155 to R158) -/

theorem recordSound_of_fields {s t : State} (h1 : t.tu.held = s.tu.held) (h2 : t.tu.recorded = s.tu.recorded)
    (h3 : t.tu.trip = s.tu.trip) (hs : RecordSound s) : RecordSound t := by
  constructor
  · rw [h1, h2]; exact hs.recorded_open
  · rw [h2, h3]; exact hs.recorded_on

theorem RecordSound.same {s t : State} (hs : RecordSound s) (h : t.tu = s.tu) : RecordSound t := recordSound_of h hs

theorem RecordSound.sameFields {s t : State} (hs : RecordSound s) (h1 : t.tu.held = s.tu.held)
    (h2 : t.tu.recorded = s.tu.recorded) (h3 : t.tu.trip = s.tu.trip) : RecordSound t := recordSound_of_fields h1 h2 h3 hs

/-- A trip that ends has its record closed, when it had one (R158). -/
theorem endedRecord_closed {s : State} (hs : RecordSound s) (how : TripEnd) (r : TripRecord) (hr : endedRecord how s = some r) :
    r.closed ≠ none := by
  unfold endedRecord at hr
  split at hr
  · obtain ⟨x, -, rfl⟩ := Option.map_eq_some_iff.1 hr
    simp
  · next hrec => exact fun hopen => hrec (hs.recorded_open.2 ⟨r, hr, hopen⟩)

theorem releaseTrip_recordSound {s : State} (how : TripEnd) (hs : RecordSound s) : RecordSound (releaseTrip how s) := by
  have hheld : (releaseTrip how s).tu.held = endedRecord how s := by simp [releaseTrip, closeRecord_held]
  refine ⟨⟨fun h => absurd h (by simp [releaseTrip]), ?_⟩, fun h => absurd h (by simp [releaseTrip])⟩
  rintro ⟨r, hr, hopen⟩
  exact absurd hopen (endedRecord_closed hs how r (hheld ▸ hr))

/-- A trip that is asserted opens its record in an EMPTY latch; a latch that is HELD then holds a closed one (R155). -/
theorem assertTrip_recordSound {s : State} (c : Settings) (test : Bool) (q : TripCause) (k : EpochNo) (hidle : s.tu.trip = .idle)
    (hs : RecordSound s) : RecordSound (assertTrip c test q k s) := by
  obtain ⟨hasserted, htaken⟩ := assertTrip_spec c test q k s
  have hon : (assertTrip c test q k s).tu.trip ≠ .idle := by rw [hasserted.trip]; split <;> simp
  refine ⟨?_, fun _ => hon⟩
  cases hheld : s.tu.held with
  | none =>
    obtain ⟨hrecord, -, hrec, -⟩ := htaken.captured hheld
    exact ⟨fun _ => ⟨_, hrecord, rfl⟩, fun _ => hrec⟩
  | some r =>
    obtain ⟨hsame, -, hrec, -⟩ := htaken.overrun (by simp [hheld])
    rw [hrec, hsame, ← hs.recorded_open]
    exact ⟨fun h => absurd h (by decide), fun h => absurd hidle (hs.recorded_on h)⟩

theorem assertIfAllowed_recordSound {c : Settings} {q : TripCause} {k : EpochNo} {s : State} (hs : RecordSound s) :
    RecordSound (assertIfAllowed c q k s) := by
  unfold assertIfAllowed
  split
  · next h _ => exact assertTrip_recordSound c false q k h hs
  · next h _ => exact assertTrip_recordSound c true q k h hs
  · exact hs

theorem retripOp_recordSound {c : Settings} {s : State} (hs : RecordSound s) : RecordSound (retripOp c s) := by
  unfold retripOp
  split
  · exact hs.sameFields rfl rfl rfl
  · exact hs

theorem breakerFailureOp_recordSound {c : Settings} {s : State} (hs : RecordSound s) : RecordSound (breakerFailureOp c s) := by
  unfold breakerFailureOp
  split
  · split
    · exact hs.sameFields rfl rfl rfl
    · exact hs.sameFields rfl rfl rfl
    · exact hs
  · exact hs

theorem abandonPulse_recordSound {s : State} (hs : RecordSound s) : RecordSound (abandonPulse s) := by
  unfold abandonPulse
  split
  · exact hs.sameFields rfl rfl rfl
  · exact hs

theorem pulseDueOp_recordSound {s : State} (hs : RecordSound s) : RecordSound (pulseDueOp s) := by
  unfold pulseDueOp
  split
  · split <;> exact hs.sameFields rfl rfl rfl
  · exact hs

theorem pulseEndOp_recordSound {s : State} (hs : RecordSound s) : RecordSound (pulseEndOp s) := by
  unfold pulseEndOp
  split
  · exact hs
  · dsimp only
    split
    · split
      · exact hs.sameFields rfl rfl rfl
      · exact recordSound_of_fields (by simp) (by simp) (by simp) hs
    · exact hs

theorem releaseOp_recordSound {c : Settings} {a : Bool} {s : State} (hs : RecordSound s) : RecordSound (releaseOp c a s) := by
  unfold releaseOp
  split
  · split
    · exact (releaseTrip_recordSound .release hs).sameFields rfl rfl rfl
    · exact releaseTrip_recordSound _ hs
    · exact hs
  · exact hs

theorem tripEvaluation_recordSound {c : Settings} {k : EpochNo} {s : State} (hs : RecordSound s) :
    RecordSound (tripEvaluation c k s) := by
  unfold tripEvaluation
  split
  · split
    · exact assertIfAllowed_recordSound hs
    · exact hs
  · exact releaseOp_recordSound (breakerFailureOp_recordSound (retripOp_recordSound (hs.sameFields rfl rfl rfl)))

theorem backtripRequest_recordSound {c : Settings} {n : Nat} {d : RunState} {x : SectSet} {s : State} (hs : RecordSound s) :
    RecordSound (backtripRequest c n d x s) := by
  unfold backtripRequest
  dsimp only
  split
  · exact hs.sameFields rfl rfl rfl
  · split
    · exact hs.sameFields rfl rfl rfl
    · exact assertIfAllowed_recordSound (hs.sameFields rfl rfl rfl)

theorem stateRelease_recordSound {r : RunState} {s : State} (hs : RecordSound s) : RecordSound (stateRelease r s) := by
  unfold stateRelease
  split
  · split
    · exact hs
    · split
      · exact releaseTrip_recordSound _ hs
      · exact (releaseTrip_recordSound .stateChange hs).sameFields rfl rfl rfl
  · split
    · exact hs
    · exact releaseTrip_recordSound _ hs
  · exact hs

theorem choiceStage_recordSound {c : Settings} {s : State} (hs : RecordSound s) : RecordSound (choiceStage c s) := by
  unfold choiceStage tripAtChoice
  dsimp only
  split
  · exact abandonPulse_recordSound (stateRelease_recordSound (recordSound_of (by simp) hs))
  · exact stateRelease_recordSound (recordSound_of (by simp) hs)

theorem supervisionEpoch_recordSound {r : RunState} {s : State} (hs : RecordSound s) : RecordSound (supervisionEpoch r s) := by
  unfold supervisionEpoch
  split
  · exact hs
  · exact pulseDueOp_recordSound (pulseEndOp_recordSound (hs.sameFields rfl rfl rfl))

theorem tripStop_recordSound {s : State} (hs : RecordSound s) : RecordSound (tripStop s) := by
  unfold tripStop
  dsimp only
  split
  · exact abandonPulse_recordSound hs
  · exact abandonPulse_recordSound (releaseTrip_recordSound _ hs)

theorem takeReset_recordSound {k : ResetKind} {s : State} (hs : RecordSound s) : RecordSound (takeReset k s) := by
  have htu : (takeReset k s).tu = tripReset k s := by
    unfold takeReset raiseIf; dsimp only; split <;> rfl
  unfold tripReset at htu
  rw [closeRecord_held] at htu
  constructor
  · rw [htu]
    split
    · exact ⟨fun h => Bool.noConfusion h, fun ⟨r, hr, hopen⟩ => absurd hopen (endedRecord_closed hs .reset r hr)⟩
    · exact ⟨fun h => absurd h (by decide), fun ⟨r, hr, _⟩ => absurd hr (by simp [TripUnit.reset])⟩
  · rw [htu]
    split <;> exact fun h => Bool.noConfusion h

theorem ownSampleEvent_recordSound {c : Settings} {s : State} (hs : RecordSound s) : RecordSound (ownSampleEvent c s) :=
  ownSampleEvent_pres hs (fun _ s => recordSound_of (by simp)) (fun _ _ s => recordSound_of (by simp))
    (fun _ s => recordSound_of (by simp)) (fun _ s => recordSound_of rfl) (fun _ _ _ s => recordSound_of rfl)
    (fun s => recordSound_of (by simp)) fun _ _ => tripEvaluation_recordSound

theorem epochParts_recordSound {c : Settings} {k : Contacts} {tcs : Bool} {o : EpochOrder} {s : State} (hs : RecordSound s) :
    RecordSound (epochParts c k tcs o s) :=
  epochParts_pres hs (recordSound_of_fields rfl rfl rfl) (fun _ _ => recordSound_of (by simp))
    (fun _ h => lateEvent_pres h ownSampleEvent_recordSound) (fun _ => recordSound_of (by simp))
    (fun _ => recordSound_of (by simp)) (fun _ => choiceStage_recordSound) (fun _ _ => supervisionEpoch_recordSound)
    (fun _ => recordSound_of (by simp))

theorem startEpochs_recordSound {c : Settings} {k : Contacts} {s : State} (hs : RecordSound s) :
    RecordSound (startEpochs c k s) := by
  rw [startEpochs_eq]
  exact recordSound_of (startConversions_tu _) (choiceStage_recordSound (recordSound_of_fields (by simp) (by simp) (by simp) hs))

theorem lossRunning_recordSound {s : State} (hs : RecordSound s) : RecordSound (lossRunning s) :=
  recordSound_of (by simp [lossRunning, raise]) (tripStop_recordSound hs)

theorem cutResponse_recordSound {s : State} (hs : RecordSound s) : RecordSound (cutResponse s) :=
  cutResponse_pres (hs.same rfl) fun _ => takeReset_recordSound

/-- TAKE RECORD empties the latch of a closed record alone (R157). -/
theorem takeRecordAct_recordSound {s : State} (hs : RecordSound s) : RecordSound (takeRecordAct s) := by
  have hheld : ∀ r, (takeRecordAct s).tu.held = some r ↔ s.tu.held = some r ∧ r.closed = none := fun r => by
    simp [takeRecordAct, Option.filter_eq_some_iff]
  refine ⟨?_, hs.recorded_on⟩
  have hrec : (takeRecordAct s).tu.recorded = s.tu.recorded := rfl
  rw [hrec, hs.recorded_open]
  exact ⟨fun ⟨r, hr, hopen⟩ => ⟨r, (hheld r).2 ⟨hr, hopen⟩, hopen⟩, fun ⟨r, hr, hopen⟩ => ⟨r, ((hheld r).1 hr).1, hopen⟩⟩

theorem move_recordSound {s t : State} (h : Move s t) (hs : RecordSound s) : RecordSound t := by
  cases h with
  | complete ph ch raw _ => exact completeOp_pres hs (hs.same rfl) fun _ => ownSampleEvent_recordSound
  | retrip _ => exact retripOp_recordSound hs
  | breakerFailure _ => exact breakerFailureOp_recordSound hs
  | pulseDue => exact pulseDueOp_recordSound hs
  | pulseEnd => exact pulseEndOp_recordSound hs
  | receive p bytes _ =>
    exact receiveFrame_tripPres hs (fun _ _ h _ => recordSound_of h) fun _ _ _ _ => backtripRequest_recordSound
  | confirm k =>
    exact confirmOp_pres hs (fun _ => hs.same rfl) (fun _ _ => recordSound_of (by simp) hs)
      (fun _ _ => hs.same rfl) (fun _ _ _ _ _ => hs.same rfl)
      fun _ _ _ _ _ _ => startEpochs_recordSound (hs.same rfl)
  | loss =>
    exact referenceLossOp_pres hs (fun _ => hs.same rfl) (fun _ => cutResponse_recordSound (hs.same rfl))
      (fun _ => cutResponse_recordSound (hs.same rfl))
      fun _ _ => cutResponse_recordSound (lossRunning_recordSound (hs.same rfl))
  | configCheck k =>
    exact configCheckOp_pres hs (fun _ _ _ => startEpochs_recordSound (hs.same rfl)) fun _ => hs.same rfl
  | reset k => exact takeReset_recordSound hs
  | takeRecord => exact takeRecordAct_recordSound hs
  | clearCounters => exact hs.sameFields rfl rfl rfl
  | resetRequest => exact recordSound_of (by unfold resetAct; split <;> simp) hs
  | responseEnd => exact cutResponse_recordSound hs
  | clearAlarms => exact hs.same rfl
  | _ => exact recordSound_of (by simp) hs

theorem lead_recordSound {s t : State} (h : Lead s t) (hs : RecordSound s) : RecordSound t := by
  cases h with
  | stay => exact hs
  | settled => exact recordSound_of (by simp) hs
  | later n _ _ => exact recordSound_of (by simp [passTicks]) hs

/-- Settles O56. -/
theorem tripsStaySound : Obligations.TripsStaySound :=
  ⟨fun _ _ => step_keeps (fun _ _ hs => hs.same rfl rfl) (fun _ _ => lead_tripSound) (fun _ _ _ _ _ _ => epochParts_tripSound)
     fun _ _ => move_tripSound,
   fun _ _ => step_keeps (fun _ _ hs => hs.same rfl) (fun _ _ => lead_recordSound) (fun _ _ _ _ _ _ => epochParts_recordSound)
     fun _ _ => move_recordSound⟩

end Sys2Proof.Machine

/-! PROOFS. The station state, the clock, the in-use copy and the causes stay in agreement (section 9). -/

namespace Sys2Proof.Machine

open Sys2Proof

/-! ## What the choice of an epoch writes of the Station Controller -/

theorem testQualification_form (c : Settings) (s : State) : (testQualification c s).sc =
    { s.sc with qualified := (testQualification c s).sc.qualified, qualCount := (testQualification c s).sc.qualCount } := by
  unfold testQualification qualifiedOp
  split_ifs <;> rfl

/-- The state of the Station Controller that the choice of R161 reads: the duplicate quiet count and the qualification of R166 taken. -/
def atChoice (c : Settings) (s : State) : State := testQualification c (s.updSc fun u => { u with dupQuiet := upTo 4000 u.dupQuiet })

theorem choiceStage_sc (c : Settings) (s : State) :
    (choiceStage c s).sc = (enterState (chosenState (atChoice c s)) (atChoice c s)).sc := by
  simp [choiceStage, atChoice]

/-- The choice writes no field of the Station Controller but these. -/
theorem choiceStage_sc_form (c : Settings) (s : State) : ∃ st ca q n l d k, (choiceStage c s).sc =
    { s.sc with station := st, causes := ca, qualified := q, qualCount := n, listen := l, dupQuiet := d, stateChanges := k } := by
  let u := (choiceStage c s).sc
  refine ⟨u.station, u.causes, u.qualified, u.qualCount, u.listen, u.dupQuiet, u.stateChanges, ?_⟩
  simp only [u]
  rw [choiceStage_sc]
  simp only [enterState, State.updSc_sc, atChoice]
  rw [testQualification_form]
  rfl

theorem chosenState_blocked_iff (s : State) : chosenState s = .blocked ↔ blockedCauses s ≠ noCauses := by
  have hnone : blockedCauses s ≠ noCauses ↔ ((blockedCauses s).converter || (blockedCauses s).duplicate) = true := by
    cases hc : s.su.convFail <;> simp [blockedCauses, noCauses, hc]
  rw [hnone]
  unfold chosenState
  split
  · next h => simp [h]
  · next h =>
    refine iff_of_false ?_ h
    repeat' split
    all_goals simp

theorem startConversions_keeps (s : State) :
    (startConversions s).su.gen = s.su.gen ∧ (startConversions s).su.lt = s.su.lt ∧ (startConversions s).su.phase = s.su.phase ∧
    (startConversions s).su.epoch = s.su.epoch := ⟨rfl, rfl, rfl, rfl⟩

@[simp] theorem startConversions_gen (s : State) : (startConversions s).su.gen = s.su.gen := rfl
@[simp] theorem clockEpoch_gen (k : Contacts) (tcs : Bool) (s : State) : (clockEpoch k tcs s).su.gen = s.su.gen := rfl

theorem startEpochs_gen (c : Settings) (k : Contacts) (s : State) : (startEpochs c k s).su.gen = .running := by
  rw [startEpochs_eq]
  simp [samplingStart]

/-- A duplicate bay sets the quiet count back; a received frame changes nothing else of the Station Controller (R46, R170). -/
theorem receiveFrame_sc (c : Settings) (p : Port) (bytes : List Byte) (s : State) :
    ∃ n, (n = s.sc.dupQuiet ∨ n = 0) ∧ (receiveFrame c p bytes s).sc = { s.sc with dupQuiet := n } := by
  have same : ∀ s t : State, t.sc = s.sc → ∃ n, (n = s.sc.dupQuiet ∨ n = 0) ∧ t.sc = { s.sc with dupQuiet := n } :=
    fun s t h => ⟨s.sc.dupQuiet, .inl rfl, h⟩
  have after : ∀ t u : State, u.sc = t.sc → (∃ n, (n = s.sc.dupQuiet ∨ n = 0) ∧ t.sc = { s.sc with dupQuiet := n }) →
      ∃ n, (n = s.sc.dupQuiet ∨ n = 0) ∧ u.sc = { s.sc with dupQuiet := n } := fun t u h => by rw [h]; exact id
  refine receiveFrame_pres (P := fun t => ∃ n, (n = s.sc.dupQuiet ∨ n = 0) ∧ t.sc = { s.sc with dupQuiet := n })
    (same s s rfl) (fun _ t _ => after t _ rfl) (fun _ _ => same s _ (by simp)) (fun _ _ _ => same s _ (by simp)) fun f a _ =>
    takeBay_pres (same s s rfl) (fun _ t _ => after t _ rfl) (fun _ t => after t _ (by simp)) ?_ (fun _ t => after t _ (by simp))
      (fun _ t => after t _ rfl) (fun _ t => after t _ rfl) fun _ _ _ t => after t _ (by simp)
  rintro t ⟨n, -, ht⟩
  exact ⟨0, .inr rfl, by simp [duplicateBay, raise, ht]⟩

/-! ## The modes -/

/-- What `ModeSound` reads of a state. -/
structure SameMode (s t : State) : Prop where
  gen : t.su.gen = s.su.gen
  copy : t.cs.inUse = s.cs.inUse
  station : t.sc.station = s.sc.station
  causes : t.sc.causes = s.sc.causes
  clock : t.sc.reference = s.sc.reference ∧ t.sc.confirmed = s.sc.confirmed ∧ t.sc.lastCycle.isSome = s.sc.lastCycle.isSome
  qualification : t.sc.qualified = s.sc.qualified ∧ t.sc.qualCount = s.sc.qualCount
  held : t.held = s.held

theorem SameMode.sound {s t : State} (h : SameMode s t) (hs : ModeSound s) : ModeSound t := by
  obtain ⟨hgen, hcopy, hst, hcauses, ⟨href, hconf, hcycle⟩, ⟨hq, hqc⟩, hheld⟩ := h
  obtain ⟨h1, h2, h3, h4, h5, h6, h7, h8, h9⟩ := hs
  constructor <;> simp only [hgen, hcopy, hst, hcauses, href, hconf, hcycle, hq, hqc, hheld] <;> assumption

theorem ModeSound.same {s t : State} (hs : ModeSound s) (h : SameMode s t) : ModeSound t := h.sound hs

/-- An operation that leaves the Station Controller, the Configuration Store and the generator leaves the mode. -/
theorem sameMode_of {s t : State} (hgen : t.su.gen = s.su.gen) (hcs : t.cs = s.cs) (hsc : t.sc = s.sc) : SameMode s t := by
  constructor <;> simp [State.held, hgen, hcs, hsc]

/-- Epochs run on the reference, with an in-use copy, out of reset. -/
structure OnClock (s : State) : Prop where
  gen : s.su.gen = .running
  copy : s.cs.inUse.isSome = true
  clock : s.sc.reference = true ∧ s.sc.confirmed = true ∧ s.sc.lastCycle.isSome = true
  held : s.held = false

theorem ModeSound.onClock {s : State} (hs : ModeSound s) (hg : s.su.gen = .running) : OnClock s := by
  obtain ⟨⟨r, hst⟩, -⟩ := hs.running_iff.1 hg
  obtain ⟨href, hconf⟩ := hs.running_clock hg
  refine ⟨hg, hs.copy_iff.2 ⟨r, hst⟩, ⟨href, hconf, hs.confirmed_cycle hconf⟩, ?_⟩
  by_contra hheld
  rw [hs.held_start (by simpa using hheld)] at hst
  cases hst

theorem SameMode.onClock {s t : State} (h : SameMode s t) (hs : OnClock s) : OnClock t := by
  obtain ⟨hgen, hcopy, -, -, ⟨href, hconf, hcycle⟩, -, hheld⟩ := h
  obtain ⟨h1, h2, h3, h4⟩ := hs
  constructor <;> simp only [hgen, hcopy, href, hconf, hcycle, hheld] <;> assumption

/-- The choice of R161 leaves a sound mode, whatever the station state before. -/
theorem choiceStage_modeSound {c : Settings} {s : State} (hs : OnClock s) : ModeSound (choiceStage c s) ∧ OnClock (choiceStage c s) := by
  obtain ⟨hgen, hcopy, ⟨href, hconf, hcycle⟩, hheld⟩ := hs
  have hclock : OnClock (choiceStage c s) := by
    obtain ⟨st, ca, q, n, l, d, k, hform⟩ := choiceStage_sc_form c s
    refine ⟨by simpa using hgen, by simpa using hcopy, ?_, ?_⟩
    · rw [hform]; exact ⟨href, hconf, hcycle⟩
    · rw [State.held, hform]; exact hheld
  refine ⟨?_, hclock⟩
  have hst : (choiceStage c s).sc.station = .running (chosenState (atChoice c s)) := by rw [choiceStage_sc]; rfl
  have hcauses : (choiceStage c s).sc.causes =
      if chosenState (atChoice c s) = .blocked then blockedCauses (atChoice c s) else noCauses := by rw [choiceStage_sc]; rfl
  have hqual : chosenState (atChoice c s) = .blocked →
      (choiceStage c s).sc.qualified = false ∧ (choiceStage c s).sc.qualCount = 0 := fun h => by
    rw [choiceStage_sc]; simp [enterState, h]
  have hrunning : (choiceStage c s).sc.station = .running .blocked ↔ chosenState (atChoice c s) = .blocked := by
    rw [hst]; simp
  refine ⟨⟨fun _ => ⟨⟨_, hst⟩, ?_⟩, fun _ => hclock.gen⟩, fun _ => ⟨hclock.clock.1, hclock.clock.2.1⟩, fun h => ?_,
    ⟨fun _ => ⟨_, hst⟩, fun _ => hclock.copy⟩, ?_, fun h => hqual (hrunning.1 h), fun h => ?_, fun h => ?_,
    fun _ => hclock.clock.2.2⟩
  · rw [hcauses]; split <;> rfl
  · rw [hst] at h; cases h
  · rw [hrunning, hcauses]
    split
    · next h => exact iff_of_true ((chosenState_blocked_iff _).1 h) h
    · next h => simp [h]
  · rw [hclock.gen] at h; cases h
  · rw [hclock.held] at h; cases h

theorem epochParts_modeSound {c : Settings} {k : Contacts} {tcs : Bool} {o : EpochOrder} {s : State} (hs : ModeSound s)
    (hr : Runs c s) : ModeSound (epochParts c k tcs o s) := by
  have same : ∀ s t, SameMode s t → ModeSound s ∧ OnClock s → ModeSound t ∧ OnClock t :=
    fun s t h hs => ⟨h.sound hs.1, h.onClock hs.2⟩
  refine (epochParts_pres (P := fun s => ModeSound s ∧ OnClock s) ⟨hs, hs.onClock hr.1⟩ (same _ _ (sameMode_of (by simp) rfl rfl))
    (fun _ s => same s _ (sameMode_of (by simp) (by simp) (by simp))) (fun s => same s _ (sameMode_of (by simp) (by simp) (by simp)))
    (fun s => same s _ (sameMode_of (by simp) (by simp) (by simp))) (fun s => same s _ (sameMode_of (by simp) (by simp) (by simp)))
    (fun s hs => choiceStage_modeSound hs.2) (fun _ s => same s _ (sameMode_of (by simp) (by simp) (by simp)))
    (fun s => same s _ (sameMode_of (by simp) (by simp) (by simp)))).1

theorem startEpochs_modeSound {c : Settings} {k : Contacts} {s : State} (hcopy : s.cs.inUse.isSome = true)
    (hclock : s.sc.reference = true ∧ s.sc.confirmed = true ∧ s.sc.lastCycle.isSome = true) (hheld : s.held = false) :
    ModeSound (startEpochs c k s) := by
  rw [startEpochs_eq]
  refine (choiceStage_modeSound ?_).1.same (sameMode_of (startConversions_gen _) (startConversions_cs _) (startConversions_sc _))
  constructor
  · simp [samplingStart]
  · simpa using hcopy
  · simpa using hclock
  · simpa [State.held] using hheld

/-- The state after a reset is that of a station in START. -/
theorem takeReset_modeSound (k : ResetKind) (s : State) : ModeSound (takeReset k s) := by
  have hsc : (takeReset k s).sc = .reset (k.isSupply || s.sc.supplyLow) (nextCauses k s.sc.cause) (k.isSupply || s.sc.holdSupply)
      (decide (k = .pin) || s.sc.holdPin) := by simp [takeReset]
  have hsu : (takeReset k s).su = .reset := by simp [takeReset]
  have hcs : (takeReset k s).cs.inUse = none := by
    simp only [takeReset, raiseIf_cs, storeReset]; split <;> rfl
  constructor <;> simp [hsc, hsu, hcs, Controller.reset, Sampling.reset, noCauses]

theorem cutResponse_modeSound {s : State} (hs : ModeSound s) : ModeSound (cutResponse s) :=
  cutResponse_pres (hs.same (sameMode_of rfl rfl rfl)) fun _ _ => takeReset_modeSound _ _

/-- While the station is in none of the running states it holds no copy, no cause and no qualification, and its epochs are stopped. -/
theorem ModeSound.elsewhere {s : State} (hs : ModeSound s) (h : ∀ r, s.sc.station ≠ .running r) :
    s.su.gen = .stopped ∧ s.cs.inUse = none ∧ s.sc.causes = noCauses ∧ s.sc.qualified = false ∧ s.sc.qualCount = 0 := by
  have hgen : s.su.gen = .stopped := by
    cases hg : s.su.gen with
    | stopped => rfl
    | running => exact absurd (hs.running_iff.1 hg).1.choose_spec (h _)
  refine ⟨hgen, ?_, ?_, hs.stopped_unqualified hgen⟩
  · by_contra hc
    obtain ⟨r, hr⟩ := hs.copy_iff.1 (by simpa [Option.isSome_iff_ne_none] using hc)
    exact h r hr
  · by_contra hc
    exact h _ (hs.causes_iff.1 hc)

/-- A change among START, CONFIG and FAULT keeps the mode sound, when CONFIG is entered on a confirmed reference. -/
theorem modeSound_elsewhere {s t : State} (hs : ModeSound s) (h : ∀ r, s.sc.station ≠ .running r) (ht : ∀ r, t.sc.station ≠ .running r)
    (hgen : t.su.gen = s.su.gen) (hcopy : t.cs.inUse = s.cs.inUse) (hcauses : t.sc.causes = s.sc.causes)
    (hqual : t.sc.qualified = s.sc.qualified ∧ t.sc.qualCount = s.sc.qualCount)
    (hconfig : t.sc.station = .config → t.sc.reference = true ∧ t.sc.confirmed = true) (hheld : t.held = true → t.sc.station = .start)
    (hcycle : t.sc.confirmed = true → t.sc.lastCycle.isSome = true) : ModeSound t := by
  obtain ⟨e1, e2, e3, e4⟩ := hs.elsewhere h
  rw [← hgen] at e1; rw [← hcopy] at e2; rw [← hcauses] at e3; rw [← hqual.1, ← hqual.2] at e4
  refine ⟨?_, ?_, hconfig, ?_, ?_, fun hb => absurd hb (ht _), fun _ => e4, hheld, hcycle⟩
  · exact iff_of_false (by simp [e1]) fun hr => ht _ hr.1.choose_spec
  · simp [e1]
  · exact iff_of_false (by simp [e2]) fun hr => ht _ hr.choose_spec
  · exact iff_of_false (by simp [e3]) (ht _)

theorem station_ne_running {s : State} {x : Station} (h : s.sc.station = x) (hx : ∀ r, x ≠ .running r) (r : RunState) :
    s.sc.station ≠ .running r := h ▸ hx r

theorem leaveStart_modeSound {s : State} (hs : ModeSound s) : ModeSound (leaveStart s) := by
  unfold leaveStart
  split
  · next h =>
    obtain ⟨hst, hheld, -, hconf⟩ := h
    exact modeSound_elsewhere hs (station_ne_running hst (by simp)) (by simp) rfl rfl rfl ⟨rfl, rfl⟩ (fun _ => ⟨rfl, hconf⟩)
      (fun h => absurd h (by simpa [State.held] using hheld)) hs.confirmed_cycle
  · exact hs

theorem lossRunning_modeSound {s : State} (hcopy : s.cs.inUse.isSome = true) (hheld : s.held = false)
    (hcycle : s.sc.confirmed = false) : ModeSound (lossRunning s) := by
  have hsu : (lossRunning s).su.gen = .stopped := rfl
  obtain ⟨n, hsc⟩ : ∃ n, (lossRunning s).sc = { s.sc with
      station := .running .blocked, causes := { s.sc.causes with clock := true }, reference := false, qualified := false
      qualCount := 0, listen := 0, stateChanges := n } := ⟨_, by simp only [lossRunning, raise]; simp; rfl⟩
  have hcs : (lossRunning s).cs = s.cs := by simp [lossRunning, raise]
  constructor <;> simp_all [State.held, noCauses]

theorem confirmOp_modeSound {k : Contacts} {s : State} (hs : ModeSound s) : ModeSound (confirmOp k s) := by
  have hstopped : s.sc.confirmed = false → s.su.gen = .stopped := fun hc => by
    cases hg : s.su.gen with
    | stopped => rfl
    | running => rw [(hs.running_clock hg).2] at hc; cases hc
  have hset : s.sc.confirmed = false → ModeSound (s.updSc confirmed) := fun hc => by
    obtain ⟨h1, h2, h3, h4, h5, h6, h7, h8, h9⟩ := hs
    constructor <;> simp_all [confirmed, State.held]
  refine confirmOp_pres hs hset (fun hc _ => leaveStart_modeSound (hset hc)) (fun hc hst => ?_) (fun r _ hc hst hin => ?_)
    fun r c hheld _ _ hin => startEpochs_modeSound (by simp [hin]) ⟨rfl, rfl, rfl⟩ (by simpa [State.held, confirmed] using hheld)
  · exact modeSound_elsewhere (hset hc) (station_ne_running hst (by simp)) (station_ne_running hst (by simp)) rfl rfl rfl ⟨rfl, rfl⟩
      (fun h => ⟨rfl, rfl⟩) (hset hc).held_start (hset hc).confirmed_cycle
  · have := hs.copy_iff.2 ⟨r, hst⟩
    simp [hin] at this

theorem referenceLossOp_modeSound {s : State} (hs : ModeSound s) : ModeSound (referenceLossOp s) := by
  by_cases hheld : s.held = true
  · rwa [referenceLossOp, if_pos hheld]
  have hheld : s.held = false := by simpa using hheld
  refine referenceLossOp_pres hs (fun h => ?_) (fun h => ?_) (fun h => ?_) fun r h => ?_
  · by_cases hc : s.sc.confirmed = true
    · have hst := station_ne_running (h hc) (by simp)
      exact modeSound_elsewhere hs hst hst rfl rfl rfl ⟨rfl, rfl⟩ (fun hcfg => by have := h hc; simp_all [unconfirm])
        (fun _ => h hc) (by simp [unconfirm])
    · obtain ⟨h1, h2, h3, h4, h5, h6, h7, h8, h9⟩ := hs
      constructor <;> simp_all [unconfirm, State.held]
  · exact cutResponse_modeSound (modeSound_elsewhere hs (station_ne_running h (by simp)) (by simp [raise]) rfl rfl rfl ⟨rfl, rfl⟩
      (by simp [raise]) (by simp [raise]) (by simp [raise, unconfirm]))
  · exact cutResponse_modeSound (modeSound_elsewhere hs (station_ne_running h (by simp)) (by simp [raise, unconfirm, h]) rfl rfl rfl
      ⟨rfl, rfl⟩ (by simp [raise, unconfirm, h]) (fun hh => by simp_all [raise, unconfirm, State.held]) (by simp [raise, unconfirm]))
  · exact cutResponse_modeSound (lossRunning_modeSound (hs.copy_iff.2 ⟨r, h⟩) (by simpa [State.held, unconfirm] using hheld) rfl)

theorem configCheckOp_modeSound {k : Contacts} {s : State} (hs : ModeSound s) : ModeSound (configCheckOp k s) := by
  have hout : s.sc.station = .config → s.held = false := fun h => by
    cases hh : s.held with
    | false => rfl
    | true => rw [hs.held_start hh] at h; cases h
  refine configCheckOp_pres hs (fun c h _ => ?_) fun h => ?_
  · obtain ⟨href, hconf⟩ := hs.config_clock h
    exact startEpochs_modeSound rfl ⟨href, hconf, hs.confirmed_cycle hconf⟩ (hout h)
  · exact modeSound_elsewhere hs (station_ne_running h (by simp)) (by simp [raise]) rfl rfl rfl ⟨rfl, rfl⟩ (by simp [raise])
      (fun hh => absurd hh (by simpa [raise, State.held] using hout h)) hs.confirmed_cycle

theorem qualifiedOp_modeSound {c : Settings} {s : State} (hs : ModeSound s) (hr : Runs c s) : ModeSound (qualifiedOp s) := by
  unfold qualifiedOp
  split
  · next hq =>
    have hnot : s.sc.station ≠ .running .blocked := fun hb => by have := (hs.blocked_unqualified hb).2; omega
    obtain ⟨h1, h2, h3, h4, h5, h6, h7, h8, h9⟩ := hs
    constructor <;> simp_all [State.held, hr.1]
  · exact hs

theorem move_modeSound {s t : State} (h : Move s t) (hs : ModeSound s) : ModeSound t := by
  have same : ∀ {t : State}, t.su.gen = s.su.gen → t.cs.inUse = s.cs.inUse → t.sc = s.sc → ModeSound t := fun hgen hcopy hsc =>
    hs.same ⟨hgen, hcopy, by rw [hsc], by rw [hsc], by rw [hsc]; exact ⟨rfl, rfl, rfl⟩, by rw [hsc]; exact ⟨rfl, rfl⟩, by
      rw [State.held, hsc]; rfl⟩
  have sameSc : ∀ f : Controller → Controller, (f s.sc).station = s.sc.station → (f s.sc).causes = s.sc.causes →
      (f s.sc).reference = s.sc.reference ∧ (f s.sc).confirmed = s.sc.confirmed ∧
        (f s.sc).lastCycle.isSome = s.sc.lastCycle.isSome →
      (f s.sc).qualified = s.sc.qualified ∧ (f s.sc).qualCount = s.sc.qualCount →
      (f s.sc).holdSupply = s.sc.holdSupply ∧ (f s.sc).holdPin = s.sc.holdPin → ModeSound (s.updSc f) :=
    fun f h1 h2 h3 h4 h5 => hs.same ⟨rfl, rfl, h1, h2, h3, h4, by simp [State.held, h5]⟩
  cases h with
  | complete ph ch raw _ =>
    exact completeOp_pres hs (same rfl rfl rfl) fun s hs => hs.same (sameMode_of (by simp) (by simp) (by simp))
  | converterFailure => exact same (by unfold converterFailureOp; split <;> rfl) (by simp) (by simp)
  | converterRecovery => exact same (by unfold converterRecoveryOp; split <;> rfl) (by simp) (by simp)
  | receive p bytes _ =>
    obtain ⟨n, -, hsc⟩ := receiveFrame_sc _ p bytes s
    exact hs.same ⟨by simp, by simp, by rw [hsc], by rw [hsc], by rw [hsc]; exact ⟨rfl, rfl, rfl⟩, by rw [hsc]; exact ⟨rfl, rfl⟩, by
      rw [State.held, hsc]; rfl⟩
  | powerUp =>
    unfold powerUpOp
    split
    · exact leaveStart_modeSound (sameSc _ rfl rfl ⟨rfl, rfl, rfl⟩ ⟨rfl, rfl⟩ ⟨rfl, rfl⟩)
    · exact hs
  | powerUpTick _ => exact sameSc _ rfl rfl ⟨rfl, rfl, rfl⟩ ⟨rfl, rfl⟩ ⟨rfl, rfl⟩
  | waitTick _ => exact sameSc _ rfl rfl ⟨rfl, rfl, rfl⟩ ⟨rfl, rfl⟩ ⟨rfl, rfl⟩
  | wait =>
    unfold waitOp
    split
    · exact (sameSc (fun u => { u with wait := waitLimit }) rfl rfl ⟨rfl, rfl, rfl⟩ ⟨rfl, rfl⟩ ⟨rfl, rfl⟩).same
        (sameMode_of rfl rfl rfl)
    · exact hs
  | qualified hr => exact qualifiedOp_modeSound hs hr
  | measured n r _ =>
    obtain ⟨h1, h2, h3, h4, h5, h6, h7, h8, h9⟩ := hs
    constructor <;> simp_all [State.held]
  | confirm k => exact confirmOp_modeSound hs
  | loss => exact referenceLossOp_modeSound hs
  | configCheck k => exact configCheckOp_modeSound hs
  | supplyLevel low => exact sameSc _ rfl rfl ⟨rfl, rfl, rfl⟩ ⟨rfl, rfl⟩ ⟨rfl, rfl⟩
  | reset k => exact takeReset_modeSound k s
  | resetEnd =>
    obtain ⟨h1, h2, h3, h4, h5, h6, h7, h8, h9⟩ := hs
    constructor <;> simp_all [State.held]
  | commitDone l => exact same (by simp) (by unfold commitDoneOp; split <;> rfl) (by simp)
  | clearAlarms => exact hs.same ⟨rfl, rfl, rfl, rfl, ⟨rfl, rfl, rfl⟩, ⟨rfl, rfl⟩, rfl⟩
  | clearCounters => exact hs.same ⟨rfl, rfl, rfl, rfl, ⟨rfl, rfl, rfl⟩, ⟨rfl, rfl⟩, rfl⟩
  | test on => exact sameSc _ rfl rfl ⟨rfl, rfl, rfl⟩ ⟨rfl, rfl⟩ ⟨rfl, rfl⟩
  | resetRequest =>
    unfold resetAct
    split
    · exact same (by simp) (by simp) (by simp)
    · exact (sameSc (fun u => { u with resetPending := true }) rfl rfl ⟨rfl, rfl, rfl⟩ ⟨rfl, rfl⟩ ⟨rfl, rfl⟩).same
        (sameMode_of (by simp) (by simp) (by simp))
  | responseEnd => exact cutResponse_modeSound hs
  | takeRecord => exact same rfl rfl rfl
  | _ => exact same (by simp) (by simp) (by simp)

theorem lead_sameMode {s t : State} (h : Lead s t) : SameMode s t := by
  cases h with
  | stay => exact sameMode_of rfl rfl rfl
  | settled => exact sameMode_of (by simp) (by simp) (by simp)
  | later n _ _ => exact sameMode_of (by simp [passTicks]) (by simp [passTicks]) (by simp [passTicks])

/-! ## The in-use copy (R175, R176) -/

theorem goodBlock_ok {bs : List Byte} {c : Settings} (h : goodBlock bs = some c) : c.ok = true := by
  unfold goodBlock at h
  split at h
  · split at h
    · split at h
      · next hok => exact Option.some.inj h ▸ hok
      · cases h
    · cases h
  · cases h

theorem CopyGood.same {s t : State} (hs : CopyGood s) (h : t.cs.inUse = s.cs.inUse) : CopyGood t := fun c hc => hs c (h ▸ hc)

theorem takeReset_noCopy (k : ResetKind) (s : State) : (takeReset k s).cs.inUse = none := by
  simp only [takeReset, raiseIf_cs, storeReset]; split <;> rfl

theorem cutResponse_copyGood {s : State} (hs : CopyGood s) : CopyGood (cutResponse s) :=
  cutResponse_pres (hs.same rfl) fun s _ c hc => by rw [takeReset_noCopy] at hc; cases hc

theorem move_copyGood {s t : State} (h : Move s t) (hs : CopyGood s) : CopyGood t := by
  cases h with
  | confirm k =>
    exact confirmOp_pres hs (fun _ => hs.same rfl) (fun _ _ => hs.same (by simp)) (fun _ _ => hs.same rfl)
      (fun _ _ _ _ _ => hs.same rfl) fun _ _ _ _ _ _ => hs.same (by simp)
  | loss =>
    exact referenceLossOp_pres hs (fun _ => hs.same rfl) (fun _ => cutResponse_copyGood (hs.same rfl))
      (fun _ => cutResponse_copyGood (hs.same rfl)) fun _ _ => cutResponse_copyGood (hs.same (by simp [lossRunning, raise]))
  | configCheck k =>
    refine configCheckOp_pres hs (fun c _ hgood x hx => ?_) fun _ => hs.same rfl
    rw [startEpochs_cs] at hx
    exact Option.some.inj hx ▸ goodBlock_ok hgood
  | reset k => exact fun c hc => by rw [takeReset_noCopy] at hc; cases hc
  | commitDone l => exact hs.same (by unfold commitDoneOp; split <;> rfl)
  | resetRequest => exact hs.same (by unfold resetAct; split <;> simp)
  | responseEnd => exact cutResponse_copyGood hs
  | takeRecord => exact hs.same rfl
  | clearAlarms => exact hs.same rfl
  | clearCounters => exact hs.same rfl
  | _ => exact hs.same (by simp)

/-! ## The reset behind a response (R173, R181) -/

theorem ResetWaits.same {s t : State} (hs : ResetWaits s) (h1 : t.sc.resetPending = s.sc.resetPending)
    (h2 : t.mp.receiver = s.mp.receiver) : ResetWaits t := fun h => h2 ▸ hs (h1 ▸ h)

theorem ResetWaits.none {s : State} (h : s.sc.resetPending = false) : ResetWaits s := fun hp => by rw [h] at hp; cases hp

theorem takeReset_notPending (k : ResetKind) (s : State) : (takeReset k s).sc.resetPending = false := by
  simp [takeReset, Controller.reset]

theorem cutResponse_resetWaits (s : State) : ResetWaits (cutResponse s) := by
  unfold cutResponse
  dsimp only
  split
  · exact .none (takeReset_notPending _ _)
  · next h => exact .none (by simpa using h)

theorem choiceStage_resetPending (c : Settings) (s : State) : (choiceStage c s).sc.resetPending = s.sc.resetPending := by
  obtain ⟨st, ca, q, n, l, d, k, hform⟩ := choiceStage_sc_form c s
  rw [hform]

theorem epochParts_resetPending (c : Settings) (k : Contacts) (tcs : Bool) (o : EpochOrder) (s : State) :
    (epochParts c k tcs o s).sc.resetPending = s.sc.resetPending :=
  epochParts_pres (P := fun t => t.sc.resetPending = s.sc.resetPending) rfl id (fun _ t h => by simpa using h)
    (fun t h => by simpa using h) (fun t h => by simpa using h) (fun t h => by simpa using h)
    (fun t h => by rw [choiceStage_resetPending, h]) (fun _ t h => by simpa using h) (fun t h => by simpa using h)

theorem startEpochs_resetPending (c : Settings) (k : Contacts) (s : State) :
    (startEpochs c k s).sc.resetPending = s.sc.resetPending := by
  rw [startEpochs_eq, startConversions_sc, choiceStage_resetPending]
  simp

theorem leaveStart_resetPending (s : State) : (leaveStart s).sc.resetPending = s.sc.resetPending := by
  unfold leaveStart; split <;> rfl

theorem move_resetWaits {s t : State} (h : Move s t) (hs : ResetWaits s) : ResetWaits t := by
  cases h with
  | receive p bytes _ =>
    obtain ⟨n, -, hsc⟩ := receiveFrame_sc _ p bytes s
    exact hs.same (by rw [hsc]) (by simp)
  | powerUp =>
    refine hs.same ?_ (by simp)
    unfold powerUpOp; split <;> simp [leaveStart_resetPending]
  | wait => refine hs.same ?_ (by simp); unfold waitOp; split <;> rfl
  | qualified _ => refine hs.same ?_ (by simp); unfold qualifiedOp; split <;> rfl
  | confirm k =>
    exact confirmOp_pres hs (fun _ => hs.same rfl rfl) (fun _ _ => hs.same (leaveStart_resetPending _) (by simp))
      (fun _ _ => hs.same rfl rfl) (fun _ _ _ _ _ => hs.same rfl rfl)
      fun _ _ _ _ _ _ => hs.same (startEpochs_resetPending _ _ _) (by simp)
  | loss =>
    exact referenceLossOp_pres hs (fun _ => hs.same rfl rfl) (fun _ => cutResponse_resetWaits _) (fun _ => cutResponse_resetWaits _)
      fun _ _ => cutResponse_resetWaits _
  | configCheck k =>
    exact configCheckOp_pres hs (fun _ _ _ => hs.same (startEpochs_resetPending _ _ _) (by simp)) fun _ => hs.same rfl rfl
  | reset k => exact .none (takeReset_notPending k s)
  | respond => exact fun _ => rfl
  | takeRecord => exact fun _ => rfl
  | clearAlarms => exact fun _ => rfl
  | clearCounters => exact fun _ => rfl
  | resetRequest => exact fun _ => by unfold resetAct; split <;> rfl
  | responseEnd => exact cutResponse_resetWaits s
  | commitDone l => exact hs.same (by simp) (by simp)
  | portError => exact hs.same rfl rfl
  | _ => exact hs.same (by simp) (by simp)

theorem lead_exchange {s t : State} (h : Lead s t) : t.sc = s.sc ∧ t.cs = s.cs ∧ t.mp.receiver = s.mp.receiver := by
  cases h with
  | stay => exact ⟨rfl, rfl, rfl⟩
  | settled => exact ⟨by simp, by simp, by simp⟩
  | later n _ _ => exact ⟨by simp [passTicks], by simp [passTicks], by simp [passTicks]⟩

/-- Settles O57. -/
theorem modesStaySound : Obligations.ModesStaySound := by
  refine ⟨fun _ _ => step_keeps (fun s _ hs => hs.same (sameMode_of rfl rfl rfl))
      (fun _ _ h => (lead_sameMode h).sound) (fun _ _ _ _ _ hr hs => epochParts_modeSound hs hr) fun _ _ => move_modeSound,
    fun _ _ => step_keeps (fun _ _ hs => hs.same rfl) (fun _ _ h hs => hs.same ?_) (fun _ _ _ _ _ _ hs => hs.same (by simp))
      fun _ _ => move_copyGood,
    fun _ _ => step_keeps (fun _ _ hs => hs.same rfl rfl) (fun _ _ h hs => hs.same ?_ ?_)
      (fun _ k tcs o s _ hs => hs.same (epochParts_resetPending _ k tcs o s) (by simp)) fun _ _ => move_resetWaits⟩
  · rw [(lead_exchange h).2.1]
  · rw [(lead_exchange h).1]
  · exact (lead_exchange h).2.2

end Sys2Proof.Machine

/-! PROOFS. The ranges of the Sampling Unit, the Contact Input Unit, the Trip Unit, the Station Controller, the Maintenance Port and the
Configuration Store (sections 1, 2, 8, 9, 10, 11). -/

namespace Sys2Proof.Machine

open Sys2Proof

/-! ## A property of the blocks that the clock's operations keep -/

/-- A property that reads neither the Station Controller nor, but for its count, the Maintenance Port, and that a start and a stop of
epochs, a reset and a new in-use copy keep. -/
structure ClockKept (P : State → Prop) : Prop where
  sc : ∀ f s, P s → P (s.updSc f)
  mp : ∀ f s, (∀ m, (f m).portErrors = m.portErrors) → P s → P (s.updMp f)
  reset : ∀ k s, P s → P (takeReset k s)
  start : ∀ c k s, P s → P (startEpochs c k s)
  stop : ∀ s, P s → P (lossRunning s)
  copy : ∀ c s, P s → P (s.updCs fun u => { u with inUse := some c })

section
variable {P : State → Prop} {s : State} (h : ClockKept P) (hs : P s)
include h hs

theorem ClockKept.leaveStart : P (leaveStart s) := by
  unfold Machine.leaveStart
  split
  · exact h.sc _ _ hs
  · exact hs

theorem ClockKept.confirm (k : Contacts) : P (confirmOp k s) :=
  confirmOp_pres hs (fun _ => h.sc _ _ hs) (fun _ _ => h.leaveStart (h.sc _ _ hs)) (fun _ _ => h.sc _ _ (h.sc _ _ hs))
    (fun _ _ _ _ _ => h.sc _ _ (h.sc _ _ hs)) fun _ _ _ _ _ _ => h.start _ _ _ (h.sc _ _ (h.sc _ _ hs))

theorem ClockKept.response : P (cutResponse s) := cutResponse_pres (h.mp _ _ (fun _ => rfl) hs) fun _ => h.reset _ _

theorem ClockKept.loss : P (referenceLossOp s) :=
  referenceLossOp_pres hs (fun _ => h.sc _ _ hs) (fun _ => h.response (h.mp _ _ (fun _ => rfl) (h.sc _ _ (h.sc _ _ hs))))
    (fun _ => h.response (h.mp _ _ (fun _ => rfl) (h.sc _ _ (h.sc _ _ hs)))) fun _ _ => h.response (h.stop _ (h.sc _ _ hs))

theorem ClockKept.configCheck (k : Contacts) : P (configCheckOp k s) :=
  configCheckOp_pres hs (fun _ _ _ => h.start _ _ _ (h.copy _ _ hs)) fun _ => h.mp _ _ (fun _ => rfl) (h.sc _ _ hs)

theorem ClockKept.resetRequest : P (resetAct s) := by
  unfold resetAct
  split
  · exact h.mp _ _ (fun _ => rfl) hs
  · exact h.mp _ _ (fun _ => rfl) (h.sc _ _ hs)
end

/-! ## The Sampling Unit (section 1) -/

/-- The part of `SamplingSound` that speaks of no clock and no conversion. -/
structure CountsSound (u : Sampling) : Prop where
  runs : ∀ ph, u.disRun.get ph ≤ 16
  clear : u.clearRun ≤ 4000
  clear_flag : u.convFail = false → u.clearRun = 0
  peak : u.peak.length ≤ 80
  counters : u.disagreeSamples ≤ 65535 ∧ u.missingSamples ≤ 65535 ∧ u.convFailures ≤ 65535

theorem SamplingSound.counts {u : Sampling} (h : SamplingSound u) : CountsSound u :=
  ⟨h.runs, h.clear, h.clear_flag, h.peak, h.counters⟩

theorem CountsSound.sampling {u : Sampling} (h : CountsSound u) (hphase : u.phase < 10000)
    (htime : u.lt = u.epoch * 10000 + BitVec.ofNat 32 u.phase)
    (hflight : u.gen = .running → (∀ ph ch, (u.chans.get ph).get ch ≠ .idle) ∧
      ∃ f, u.flight = some f ∧ f.epoch = u.epoch ∧ f.instant = u.lt - BitVec.ofNat 32 u.phase) : SamplingSound u :=
  ⟨hphase, htime, hflight, h.runs, h.clear, h.clear_flag, h.peak, h.counters⟩

theorem converterFailureOp_counts {s : State} (h : CountsSound s.su) : CountsSound (converterFailureOp s).su := by
  unfold converterFailureOp
  split
  · exact ⟨h.runs, Nat.zero_le _, fun _ => rfl, h.peak, h.counters.1, h.counters.2.1, bump_le _⟩
  · exact h

theorem converterRecoveryOp_counts {s : State} (h : CountsSound s.su) : CountsSound (converterRecoveryOp s).su := by
  unfold converterRecoveryOp
  split
  · exact ⟨h.runs, Nat.zero_le _, fun _ => rfl, h.peak, h.counters⟩
  · exact h

theorem clearRunOp_counts {v : PerPhase Validity} {s : State} (h : CountsSound s.su) : CountsSound (clearRunOp v s).su := by
  refine ⟨h.runs, ?_, fun hf => ?_, h.peak, h.counters⟩
  · simp only [clearRunOp, State.updSu_su, upTo]; split <;> omega
  · have hfail : s.su.convFail = false := hf
    simp [clearRunOp, hfail]

theorem joinPeak_length (x : Sample) (w : List Sample) (h : w.length ≤ 80) : (joinPeak x w).length ≤ 80 := by
  unfold joinPeak
  split <;> simp <;> omega

theorem takeRecordSu_countsSound {r : Record} {s : State} (h : CountsSound s.su) : CountsSound (takeRecordSu r s).su := by
  refine converterRecoveryOp_counts (clearRunOp_counts (converterFailureOp_counts ?_))
  refine ⟨fun ph => ?_, h.clear, h.clear_flag, joinPeak_length _ _ h.peak, ?_, ?_, h.counters.2.2⟩
  · rw [State.updSu_su, nextRuns_get]; split <;> omega
  · simp only [State.updSu_su, bumpBy]; omega
  · simp only [State.updSu_su, bumpBy]; omega

theorem ownSampleEvent_counts {c : Settings} {s : State} (h : CountsSound s.su) : CountsSound (ownSampleEvent c s).su := by
  cases hf : s.su.flight with
  | none => simpa [ownSampleEvent, hf] using h
  | some f => rw [ownSampleEvent_su hf]; exact takeRecordSu_countsSound h

/-- An operation that keeps the clock and the conversions keeps the Sampling Unit sound when it keeps the counts so. -/
theorem SamplingSound.sameClock {u v : Sampling} (h : SamplingSound u) (hgen : v.gen = u.gen) (hlt : v.lt = u.lt)
    (hphase : v.phase = u.phase) (hepoch : v.epoch = u.epoch) (hchans : v.chans = u.chans) (hflight : v.flight = u.flight)
    (hv : CountsSound v) : SamplingSound v :=
  hv.sampling (hphase ▸ h.phase) (by rw [hlt, hepoch, hphase]; exact h.time)
    (by rw [hgen, hchans, hflight, hepoch, hlt, hphase]; exact h.flight)

theorem converterFailureOp_sampling {s : State} (h : SamplingSound s.su) : SamplingSound (converterFailureOp s).su := by
  have := converterFailureOp_counts h.counts
  unfold converterFailureOp at this ⊢
  split <;> simp_all [raise]
  exact h.sameClock rfl rfl rfl rfl rfl rfl this

theorem converterRecoveryOp_sampling {s : State} (h : SamplingSound s.su) : SamplingSound (converterRecoveryOp s).su := by
  have := converterRecoveryOp_counts h.counts
  unfold converterRecoveryOp at this ⊢
  split <;> simp_all
  exact h.sameClock rfl rfl rfl rfl rfl rfl this

theorem ownSampleEvent_sampling {c : Settings} {s : State} (h : SamplingSound s.su) : SamplingSound (ownSampleEvent c s).su :=
  h.sameClock (by simp) (by simp) (by simp) (by simp) (ownSampleEvent_chans c s) (by simp) (ownSampleEvent_counts h.counts)

theorem complete_ne_idle {x : PerPhase ChanPair} {ph : Phase} {ch : Channel} {r : Int}
    (h : ∀ ph ch, (x.get ph).get ch ≠ .idle) (ph' : Phase) (ch' : Channel) :
    ((x.upd (ChanPair.complete ch r) ph).get ph').get ch' ≠ .idle := by
  have hc : ∀ y : Chan, y ≠ .idle → y.complete r ≠ .idle := fun y => by cases y <;> simp [Chan.complete]
  have := h ph' ch'
  cases ph <;> cases ph' <;> cases ch <;> cases ch' <;> first
    | exact this
    | exact hc _ this

theorem completeOp_sampling {c : Settings} {ph : Phase} {ch : Channel} {raw : BitVec 16} {s : State} (h : SamplingSound s.su) :
    SamplingSound (completeOp c ph ch raw s).su :=
  completeOp_pres (P := fun s => SamplingSound s.su) h
    (CountsSound.sampling ⟨h.runs, h.clear, h.clear_flag, h.peak, h.counters⟩ h.phase h.time fun hg =>
      ⟨complete_ne_idle (h.flight hg).1, (h.flight hg).2⟩)
    fun _ => ownSampleEvent_sampling

/-- At the start of the conversions the flight is that of the present instant, whose phase is 0. -/
theorem startConversions_sampling {s : State} (h : CountsSound s.su) (hphase : s.su.phase = 0)
    (htime : s.su.lt = s.su.epoch * 10000) : SamplingSound (startConversions s).su := by
  rw [startConversions_su]
  refine CountsSound.sampling ⟨h.runs, h.clear, h.clear_flag, h.peak, h.counters⟩ (by simp [hphase]) (by simp [hphase, htime])
    fun _ => ⟨fun ph ch => by cases ph <;> cases ch <;> simp [startedChans, PerPhase.get, ChanPair.get], _, rfl, rfl, ?_⟩
  simp [hphase]

/-- LT of the next epoch, from any phase of the present one (R1). -/
theorem nextEpoch_time {lt : Ticks} {e : EpochNo} {n : Nat} (h : lt = e * 10000 + BitVec.ofNat 32 n) (hn : n < 10000) :
    lt + BitVec.ofNat 32 (10000 - n) = (e + 1) * 10000 := by
  have hsum : BitVec.ofNat 32 n + BitVec.ofNat 32 (10000 - n) = (10000 : Ticks) := by
    rw [← BitVec.ofNat_add, Nat.add_sub_cancel' hn.le]; rfl
  calc lt + BitVec.ofNat 32 (10000 - n) = e * 10000 + (BitVec.ofNat 32 n + BitVec.ofNat 32 (10000 - n)) := by
        rw [h, BitVec.add_assoc]
    _ = (e + 1) * 10000 := by rw [hsum, add_mul, one_mul]

theorem epochParts_sampling {c : Settings} {k : Contacts} {tcs : Bool} {o : EpochOrder} {s : State} (h : SamplingSound s.su) :
    SamplingSound (epochParts c k tcs o s).su := by
  obtain ⟨z, y, hz, hparts, hy, -⟩ := epochParts_su c k tcs o s
  have hclock : CountsSound z.su := by rw [hz]; exact ⟨h.runs, h.clear, h.clear_flag, h.peak, h.counters⟩
  have hlate : CountsSound (lateEvent c z).su := lateEvent_pres (P := fun s => CountsSound s.su) hclock ownSampleEvent_counts
  rw [hparts]
  refine startConversions_sampling (hy ▸ hlate) ?_ ?_
  · rw [hy, lateEvent_phase, hz]; rfl
  · rw [hy, lateEvent_lt, lateEvent_epoch, hz]
    exact nextEpoch_time h.time h.phase

theorem resetSampling_sound : SamplingSound Sampling.reset :=
  CountsSound.sampling
    ⟨fun ph => by cases ph <;> exact Nat.zero_le _, Nat.zero_le _, fun _ => rfl, Nat.zero_le _, Nat.zero_le _, Nat.zero_le _,
      Nat.zero_le _⟩
    (by simp [Sampling.reset]) (by simp [Sampling.reset]) (fun h => by simp [Sampling.reset] at h)

theorem samplingKept : ClockKept fun s => SamplingSound s.su where
  sc _ _ hs := hs
  mp _ _ _ hs := hs
  copy _ _ hs := hs
  reset k s _ := by
    have : (takeReset k s).su = .reset := by simp [takeReset]
    rw [this]
    exact resetSampling_sound
  start c k s hs := by
    rw [startEpochs_eq]
    have hsu : (choiceStage c (ringStart (quietEpoch (peerEpoch c (startBlocks c k s))))).su = samplingStart s.su := by simp
    refine startConversions_sampling ?_ (by rw [hsu]; rfl) (by rw [hsu]; simp [samplingStart])
    rw [hsu]
    exact ⟨fun ph => by cases ph <;> simp [samplingStart, PerPhase.get], Nat.zero_le _, fun _ => rfl, Nat.zero_le _, hs.counters⟩
  stop s hs := by
    have : (lossRunning s).su = samplingStop s.su := by simp [lossRunning, raise]
    rw [this]
    exact CountsSound.sampling ⟨hs.runs, hs.clear, hs.clear_flag, hs.peak, hs.counters⟩ hs.phase hs.time
      (fun h => by simp [samplingStop] at h)

theorem move_sampling {s t : State} (h : Move s t) (hs : SamplingSound s.su) : SamplingSound t.su := by
  cases h with
  | complete ph ch raw _ => exact completeOp_sampling hs
  | converterFailure => exact converterFailureOp_sampling hs
  | converterRecovery => exact converterRecoveryOp_sampling hs
  | confirm k => exact samplingKept.confirm hs k
  | loss => exact samplingKept.loss hs
  | configCheck k => exact samplingKept.configCheck hs k
  | reset k => exact samplingKept.reset k s hs
  | responseEnd => exact samplingKept.response hs
  | resetRequest => exact samplingKept.resetRequest hs
  | clearCounters =>
    exact hs.sameClock (v := (clearCountersAct s).su) rfl rfl rfl rfl rfl rfl
      ⟨hs.runs, hs.clear, hs.clear_flag, hs.peak, Nat.zero_le _, Nat.zero_le _, Nat.zero_le _⟩
  | takeRecord => exact hs
  | clearAlarms => exact hs
  | _ => simpa using hs

theorem lead_sampling {s t : State} (h : Lead s t) (hs : SamplingSound s.su) : SamplingSound t.su := by
  cases h with
  | stay => exact hs
  | settled => simpa using hs
  | later n _ hg hn =>
    have hsu : (passTicks n (settle s)).su = { s.su with lt := s.su.lt + BitVec.ofNat 32 n, phase := s.su.phase + n } := by
      simp [passTicks]
    rw [hsu]
    refine CountsSound.sampling ⟨hs.runs, hs.clear, hs.clear_flag, hs.peak, hs.counters⟩ hn ?_ fun hgen => ⟨(hs.flight hgen).1, ?_⟩
    · change s.su.lt + _ = _
      rw [hs.time, BitVec.ofNat_add]; ring
    · obtain ⟨f, hf, he, hi⟩ := (hs.flight hgen).2
      refine ⟨f, hf, he, hi.trans ?_⟩
      change _ = s.su.lt + _ - _
      rw [BitVec.ofNat_add]; ring

/-! ## The Contact Input Unit (section 2) -/

theorem discrepancyOp_counts (c : Settings) (pr : DevPair) (s : State) :
    (discrepancyOp c pr s).ciu.changes = s.ciu.changes ∧ (discrepancyOp c pr s).ciu.bounces = s.ciu.bounces := by
  unfold discrepancyOp
  repeat' split
  all_goals exact ⟨rfl, rfl⟩

theorem filterTick_contacts {k : Contacts} {u : ContactUnit} (h : ContactsSound u) : ContactsSound (filterTick k u) := by
  unfold filterTick
  split
  · exact h
  · exact ⟨by simp only [bumpBy]; omega, by simp only [bumpBy]; omega⟩

theorem ContactsSound.same {u v : ContactUnit} (h : ContactsSound u) (h1 : v.changes = u.changes ∧ v.bounces = u.bounces) :
    ContactsSound v := by
  unfold ContactsSound
  rwa [h1.1, h1.2]

theorem contactEpoch_contacts {c : Settings} {k : Contacts} {n : EpochNo} {s : State} (h : ContactsSound s.ciu) :
    ContactsSound (contactEpoch c k n s).ciu := by
  have hfilter : ContactsSound (if n.toNat % c.filterTick = 0 then s.updCiu (filterTick k) else s).ciu := by
    split
    · exact filterTick_contacts h
    · exact h
  unfold contactEpoch
  dsimp only
  split
  · refine hfilter.same ?_
    simp only [discrepancyOp_counts, State.updCiu_ciu, and_self]
  · exact hfilter

theorem contactsKept : ClockKept fun s => ContactsSound s.ciu where
  sc _ _ hs := hs
  mp _ _ _ hs := hs
  copy _ _ hs := hs
  reset k s _ := by
    have : (takeReset k s).ciu = .reset := by simp [takeReset]
    rw [this]
    exact ⟨Nat.zero_le _, Nat.zero_le _⟩
  start c k s hs := hs.same (by simp [startEpochs_eq, initialAcceptance])
  stop s hs := by simpa [lossRunning, raise] using hs

theorem move_contacts {s t : State} (h : Move s t) (hs : ContactsSound s.ciu) : ContactsSound t.ciu := by
  cases h with
  | discrepancy pr _ => exact hs.same (discrepancyOp_counts _ _ _)
  | confirm k => exact contactsKept.confirm hs k
  | loss => exact contactsKept.loss hs
  | configCheck k => exact contactsKept.configCheck hs k
  | reset k => exact contactsKept.reset k s hs
  | responseEnd => exact contactsKept.response hs
  | resetRequest => exact contactsKept.resetRequest hs
  | clearCounters => exact ⟨Nat.zero_le _, Nat.zero_le _⟩
  | takeRecord => exact hs
  | clearAlarms => exact hs
  | _ => simpa using hs

section
variable {s t : State} (h : Lead s t)
include h

theorem lead_ciu : t.ciu = s.ciu := by cases h <;> simp [passTicks]
theorem lead_pt : t.pt = s.pt := by cases h <;> simp [passTicks]
theorem lead_ze : t.ze = s.ze := by cases h <;> simp [passTicks]
theorem lead_tu : t.tu = s.tu := by cases h <;> simp [passTicks]
theorem lead_sc : t.sc = s.sc := by cases h <;> simp [passTicks]
theorem lead_cs : t.cs = s.cs := by cases h <;> simp [passTicks]
theorem lead_portErrors : t.mp.portErrors = s.mp.portErrors := by cases h <;> simp [passTicks]
end

/-! ## The Maintenance Port and the Configuration Store (sections 10, 11) -/

theorem portErrorsKept : ClockKept fun s => s.mp.portErrors ≤ 65535 where
  sc _ _ hs := hs
  mp f s h hs := (h s.mp).symm ▸ hs
  copy _ _ hs := hs
  reset k s _ := by simp [takeReset, Maint.reset]
  start c k s hs := by simpa using hs
  stop s hs := by simpa [lossRunning, raise] using hs

theorem move_portErrors {s t : State} (h : Move s t) (hs : s.mp.portErrors ≤ 65535) : t.mp.portErrors ≤ 65535 := by
  cases h with
  | confirm k => exact portErrorsKept.confirm hs k
  | loss => exact portErrorsKept.loss hs
  | configCheck k => exact portErrorsKept.configCheck hs k
  | reset k => exact portErrorsKept.reset k s hs
  | responseEnd => exact portErrorsKept.response hs
  | resetRequest => exact portErrorsKept.resetRequest hs
  | portError => exact bump_le _
  | clearCounters => exact Nat.zero_le _
  | takeRecord => exact hs
  | clearAlarms => exact hs
  | respond => exact hs
  | flag => exact hs
  | _ => simpa using hs

theorem storeKept : ClockKept StoreSized where
  sc _ _ hs := hs
  mp _ _ _ hs := hs
  copy _ _ hs := hs
  reset k s hs := by
    have : (takeReset k s).cs = storeReset s := by simp [takeReset]
    rw [StoreSized, this, storeReset]
    split
    · simp [Store.reset]
    · exact ⟨hs.1, by simp [Store.reset]⟩
  start c k s hs := by simpa [StoreSized] using hs
  stop s hs := by simpa [StoreSized, lossRunning, raise] using hs

theorem move_store {s t : State} (h : Move s t) (hs : StoreSized s) : StoreSized t := by
  cases h with
  | confirm k => exact storeKept.confirm hs k
  | loss => exact storeKept.loss hs
  | configCheck k => exact storeKept.configCheck hs k
  | reset k => exact storeKept.reset k s hs
  | responseEnd => exact storeKept.response hs
  | resetRequest => exact storeKept.resetRequest hs
  | stage offset data hl => exact ⟨hs.1, (stageBytes_get offset data _ hs.2 hl).1⟩
  | commit => exact hs
  | commitDone l =>
    unfold commitDoneOp
    split
    · exact ⟨by simp [fitBlock], hs.2⟩
    · exact hs
  | takeRecord => exact hs
  | clearAlarms => exact hs
  | clearCounters => exact hs
  | _ => simpa [StoreSized] using hs

/-! ## The Trip Unit (section 8) -/

theorem forall_tripNumbers {k : TripCounters} {p : Nat → Prop} : (∀ n ∈ tripNumbers k, p n) ↔
      p k.differentialTrips ∧ p k.backtripTrips ∧ p k.testTrips ∧ p k.retrips ∧ p k.breakerFailures ∧ p k.backtripsReceived ∧
      p k.backtripsIgnored ∧ p k.backtripsUnmatched ∧ p k.supFailures ∧ p k.supSkips ∧ p k.supAbandons ∧ p k.recordOverruns := by
  simp only [tripNumbers, List.forall_mem_cons, List.not_mem_nil, false_implies, implies_true, and_true]

/-- The counters of the Trip Unit keep their range. -/
def TripCounted (k : TripCounters) : Prop := ∀ n ∈ tripNumbers k, n ≤ 65535

/-- A change of the Trip Unit that leaves pulse, supervision and record number, and counts no further than the counters go. -/
theorem TripRanges.counted {u v : TripUnit} (h : TripRanges u) (hctr : TripCounted u.ctr → TripCounted v.ctr)
    (h1 : v.supCount = u.supCount) (h2 : v.pulse = u.pulse) (h3 : v.supFails = u.supFails) (h4 : v.recNumber = u.recNumber) :
    TripRanges v :=
  ⟨hctr h.counters, h1 ▸ h.supCount, h2 ▸ h.pulse, h3 ▸ h.supFails, h4 ▸ h.recNumber⟩

theorem TripRanges.unpulsed {u v : TripUnit} (h : TripRanges u) (hctr : TripCounted u.ctr → TripCounted v.ctr)
    (h1 : v.supCount = u.supCount) (h2 : v.pulse = none) (h3 : v.supFails = u.supFails) (h4 : v.recNumber = u.recNumber) :
    TripRanges v :=
  ⟨hctr h.counters, h1 ▸ h.supCount, fun n hn => by simp [h2] at hn, h3 ▸ h.supFails, h4 ▸ h.recNumber⟩

theorem noPulse_range : ∀ n, (none : Option Nat) = some n → 1 ≤ n ∧ n ≤ 8 := fun _ h => by simp at h

theorem startPulse_ranges {s : State} (h : TripRanges s.tu) : TripRanges (startPulse s).tu :=
  ⟨h.counters, Nat.zero_le _, fun _ hn => Option.some.inj hn ▸ ⟨Nat.le_refl 1, by omega⟩, h.supFails, h.recNumber⟩

theorem abandonPulse_ranges {s : State} (h : TripRanges s.tu) : TripRanges (abandonPulse s).tu := by
  unfold abandonPulse
  split
  · exact h.unpulsed (fun hk => by simp only [TripCounted, forall_tripNumbers] at hk ⊢; simp only [State.updTu_tu, hk, bump_le, and_self])
      rfl rfl rfl rfl
  · exact h

theorem pulseDueOp_ranges {s : State} (h : TripRanges s.tu) : TripRanges (pulseDueOp s).tu := by
  unfold pulseDueOp
  split
  · split
    · refine ⟨?_, Nat.zero_le _, h.pulse, h.supFails, h.recNumber⟩
      have hk := h.counters
      rw [forall_tripNumbers] at hk ⊢; simp only [State.updTu_tu, hk, bump_le, and_self]
    · exact startPulse_ranges h
  · exact h

theorem pulseEndOp_ranges {s : State} (h : TripRanges s.tu) : TripRanges (pulseEndOp s).tu := by
  unfold pulseEndOp
  split
  · exact h
  · dsimp only
    split
    · have hk := h.counters
      rw [forall_tripNumbers] at hk
      split
      · exact ⟨h.counters, h.supCount, noPulse_range, Nat.zero_le _, h.recNumber⟩
      · rw [raiseIf_tu]
        refine ⟨?_, h.supCount, noPulse_range, ?_, h.recNumber⟩
        · rw [forall_tripNumbers]
          simp only [State.updTu_tu, hk, bump_le, and_self]
        · simp only [State.updTu_tu, upTo]
          omega
    · exact h

theorem supervisionEpoch_ranges {r : RunState} {s : State} (h : TripRanges s.tu) : TripRanges (supervisionEpoch r s).tu := by
  unfold supervisionEpoch
  split
  · exact h
  · refine pulseDueOp_ranges (pulseEndOp_ranges ⟨h.counters, ?_, fun n hn => ?_, h.supFails, h.recNumber⟩)
    · simp only [State.updTu_tu, upTo]; omega
    · obtain ⟨m, hm, rfl⟩ := Option.map_eq_some_iff.1 hn
      have := h.pulse m hm
      simp only [upTo]; omega

theorem closeRecord_ranges {how : TripEnd} {k : EpochNo} {u : TripUnit} (h : TripRanges u) : TripRanges (closeRecord how k u) := by
  rw [closeRecord_rest]
  exact h.counted id rfl rfl rfl rfl

theorem releaseTrip_ranges {how : TripEnd} {s : State} (h : TripRanges s.tu) : TripRanges (releaseTrip how s).tu :=
  (closeRecord_ranges (how := how) (k := s.su.epoch) h).counted id rfl rfl rfl rfl

theorem nextRecord_le (n : Nat) : nextRecord n ≤ 65535 := by
  unfold nextRecord; split <;> omega

theorem assertTrip_ranges {c : Settings} {test : Bool} {q : TripCause} {k : EpochNo} {s : State} (h : TripRanges s.tu) :
    TripRanges (assertTrip c test q k s).tu := by
  obtain ⟨hasserted, htaken⟩ := assertTrip_spec c test q k s
  have hk := h.counters
  rw [forall_tripNumbers] at hk
  refine ⟨?_, ?_, ?_, ?_, ?_⟩
  · rw [hasserted.counters, forall_tripNumbers]
    dsimp only
    refine ⟨?_, ?_, ?_, ?_, ?_, ?_, ?_, ?_, ?_, ?_, ?_, ?_⟩ <;> (try split) <;> first
      | exact Nat.min_le_right _ _
      | simp only [hk]
  · rw [hasserted.supervision.2.1]; exact h.supCount
  · rw [hasserted.supervision.1]
    split
    · exact h.pulse
    · exact noPulse_range
  · rw [hasserted.supervision.2.2]; exact h.supFails
  · cases hheld : s.tu.held with
    | none => rw [(htaken.captured hheld).2.1]; split <;> omega
    | some r => rw [(htaken.overrun (by simp [hheld])).2.1]; exact h.recNumber

theorem assertIfAllowed_ranges {c : Settings} {q : TripCause} {k : EpochNo} {s : State} (h : TripRanges s.tu) :
    TripRanges (assertIfAllowed c q k s).tu := by
  unfold assertIfAllowed
  split
  · exact assertTrip_ranges h
  · exact assertTrip_ranges h
  · exact h

theorem retripOp_ranges {c : Settings} {s : State} (h : TripRanges s.tu) : TripRanges (retripOp c s).tu := by
  unfold retripOp
  split
  · exact h.counted (fun hk => by simp only [TripCounted, forall_tripNumbers] at hk ⊢; simp only [State.updTu_tu, hk, bump_le, and_self])
      rfl rfl rfl rfl
  · exact h

theorem breakerFailureOp_ranges {c : Settings} {s : State} (h : TripRanges s.tu) : TripRanges (breakerFailureOp c s).tu := by
  unfold breakerFailureOp
  split
  · split
    · refine h.counted (fun hk => ?_) rfl rfl rfl rfl
      simp only [TripCounted, forall_tripNumbers] at hk ⊢
      simp only [raise, State.updMp_tu, State.updTu_tu, hk, bump_le, and_self]
    · exact h.counted id rfl rfl rfl rfl
    · exact h
  · exact h

theorem releaseOp_ranges {c : Settings} {a : Bool} {s : State} (h : TripRanges s.tu) : TripRanges (releaseOp c a s).tu := by
  unfold releaseOp
  split
  · split
    · exact startPulse_ranges (releaseTrip_ranges h)
    · exact releaseTrip_ranges h
    · exact h
  · exact h

theorem tripEvaluation_ranges {c : Settings} {k : EpochNo} {s : State} (h : TripRanges s.tu) :
    TripRanges (tripEvaluation c k s).tu := by
  unfold tripEvaluation
  split
  · split
    · exact assertIfAllowed_ranges h
    · exact h
  · exact releaseOp_ranges (breakerFailureOp_ranges (retripOp_ranges (s := tripTimers c s) (h.counted id rfl rfl rfl rfl)))

theorem backtripRequest_ranges {c : Settings} {n : Nat} {d : RunState} {x : SectSet} {s : State} (h : TripRanges s.tu) :
    TripRanges (backtripRequest c n d x s).tu := by
  have hreceived : TripRanges
      (s.updTu fun u => { u with ctr := { u.ctr with backtripsReceived := bump u.ctr.backtripsReceived } }).tu :=
    h.counted (fun hk => by simp only [TripCounted, forall_tripNumbers] at hk ⊢; simp only [State.updTu_tu, hk, bump_le, and_self])
      rfl rfl rfl rfl
  unfold backtripRequest
  dsimp only
  split
  · exact hreceived.counted (fun hk => by
      simp only [TripCounted, forall_tripNumbers] at hk ⊢; simp only [State.updTu_tu] at hk ⊢; simp only [hk, bump_le, and_self])
      rfl rfl rfl rfl
  · split
    · exact hreceived.counted (fun hk => by
        simp only [TripCounted, forall_tripNumbers] at hk ⊢; simp only [State.updTu_tu] at hk ⊢; simp only [hk, bump_le, and_self])
        rfl rfl rfl rfl
    · exact assertIfAllowed_ranges hreceived

theorem stateRelease_ranges {r : RunState} {s : State} (h : TripRanges s.tu) : TripRanges (stateRelease r s).tu := by
  unfold stateRelease
  split
  · split
    · exact h
    · split
      · exact releaseTrip_ranges h
      · exact startPulse_ranges (releaseTrip_ranges h)
  · split
    · exact h
    · exact releaseTrip_ranges h
  · exact h

theorem choiceStage_ranges {c : Settings} {s : State} (h : TripRanges s.tu) : TripRanges (choiceStage c s).tu := by
  unfold choiceStage tripAtChoice
  dsimp only
  split
  · exact abandonPulse_ranges (stateRelease_ranges (by simpa using h))
  · exact stateRelease_ranges (by simpa using h)

theorem tripStop_ranges {s : State} (h : TripRanges s.tu) : TripRanges (tripStop s).tu := by
  unfold tripStop
  dsimp only
  split
  · exact abandonPulse_ranges h
  · exact abandonPulse_ranges (releaseTrip_ranges h)

theorem ownSampleEvent_ranges {c : Settings} {s : State} (h : TripRanges s.tu) : TripRanges (ownSampleEvent c s).tu :=
  ownSampleEvent_pres (P := fun s => TripRanges s.tu) h (fun _ _ h => by simpa using h) (fun _ _ _ h => by simpa using h)
    (fun _ _ h => by simpa using h) (fun _ _ h => h) (fun _ _ _ _ h => h) (fun _ h => by simpa using h)
    fun _ _ => tripEvaluation_ranges

theorem epochParts_ranges {c : Settings} {k : Contacts} {tcs : Bool} {o : EpochOrder} {s : State} (h : TripRanges s.tu) :
    TripRanges (epochParts c k tcs o s).tu :=
  epochParts_pres (P := fun s => TripRanges s.tu) h (fun h => h.counted id rfl rfl rfl rfl) (fun _ _ h => by simpa using h)
    (fun _ h => lateEvent_pres (P := fun s => TripRanges s.tu) h ownSampleEvent_ranges) (fun _ h => by simpa using h)
    (fun _ h => by simpa using h) (fun _ => choiceStage_ranges) (fun _ _ => supervisionEpoch_ranges) (fun _ h => by simpa using h)

theorem resetTrip_ranges (held : Option TripRecord) {n : Nat} (h : n ≤ 65535) : TripRanges (TripUnit.reset held n) :=
  ⟨by rw [forall_tripNumbers]; simp [TripUnit.reset, TripCounters.zero], Nat.zero_le _, noPulse_range, Nat.zero_le _, h⟩

theorem rangesKept : ClockKept fun s => TripRanges s.tu where
  sc _ _ hs := hs
  mp _ _ _ hs := hs
  copy _ _ hs := hs
  reset k s hs := by
    have htu : (takeReset k s).tu = tripReset k s := by simp [takeReset]
    rw [htu, tripReset]
    split
    · exact resetTrip_ranges _ hs.recNumber
    · exact resetTrip_ranges _ (Nat.zero_le _)
  start c k s hs := by
    rw [startEpochs_eq, startConversions_tu]
    refine choiceStage_ranges ?_
    simp only [ringStart_tu, quietEpoch_tu, peerEpoch_tu, startBlocks_tu]
    exact ⟨hs.counters, Nat.zero_le _, hs.pulse, hs.supFails, hs.recNumber⟩
  stop s hs := by
    have : (lossRunning s).tu = (tripStop s).tu := by simp [lossRunning, raise]
    rw [this]
    exact tripStop_ranges hs

theorem receiveFrame_ranges {c : Settings} {p : Port} {bytes : List Byte} {s : State} (h : TripRanges s.tu) :
    TripRanges (receiveFrame c p bytes s).tu :=
  receiveFrame_tripPres (P := fun s => TripRanges s.tu) h (fun _ _ h _ hs => h ▸ hs) fun _ _ _ _ => backtripRequest_ranges

theorem move_ranges {s t : State} (h : Move s t) (hs : TripRanges s.tu) : TripRanges t.tu := by
  cases h with
  | complete ph ch raw _ =>
    exact completeOp_pres (P := fun s => TripRanges s.tu) hs hs fun _ => ownSampleEvent_ranges
  | retrip _ => exact retripOp_ranges hs
  | breakerFailure _ => exact breakerFailureOp_ranges hs
  | pulseDue => exact pulseDueOp_ranges hs
  | pulseEnd => exact pulseEndOp_ranges hs
  | receive p bytes _ => exact receiveFrame_ranges hs
  | confirm k => exact rangesKept.confirm hs k
  | loss => exact rangesKept.loss hs
  | configCheck k => exact rangesKept.configCheck hs k
  | reset k => exact rangesKept.reset k s hs
  | responseEnd => exact rangesKept.response hs
  | resetRequest => exact rangesKept.resetRequest hs
  | takeRecord => exact hs.counted id rfl rfl rfl rfl
  | clearAlarms => exact hs
  | clearCounters =>
    exact ⟨by rw [forall_tripNumbers]; simp [clearCountersAct, TripCounters.zero], hs.supCount, hs.pulse, hs.supFails, hs.recNumber⟩
  | _ => simpa using hs

/-! ## The Station Controller (section 9) -/

/-- A change of the Station Controller that leaves its counts. -/
theorem ControllerSound.same {u v : Controller} (h : ControllerSound u) (h1 : v.goodRun = u.goodRun) (h2 : v.powerUp = u.powerUp)
    (h3 : v.wait = u.wait) (h4 : v.qualCount = u.qualCount) (h5 : v.listen = u.listen) (h6 : v.dupQuiet = u.dupQuiet)
    (h7 : v.stateChanges = u.stateChanges) : ControllerSound v :=
  ⟨h1 ▸ h.goodRun, h2 ▸ h.powerUp, h3 ▸ h.wait, h4 ▸ h.qualCount, h5 ▸ h.listen, h6 ▸ h.dupQuiet, h7 ▸ h.stateChanges⟩

theorem atChoice_controller {c : Settings} {s : State} (h : ControllerSound s.sc) : ControllerSound (atChoice c s).sc := by
  have hq : ∀ t : State, ControllerSound t.sc → ControllerSound (qualifiedOp t).sc := fun t ht => by
    unfold qualifiedOp
    split
    · exact ht.same rfl rfl rfl rfl rfl rfl rfl
    · exact ht
  have hdup : ControllerSound (s.updSc fun u => { u with dupQuiet := upTo 4000 u.dupQuiet }).sc :=
    ⟨h.goodRun, h.powerUp, h.wait, h.qualCount, h.listen, by simp only [State.updSc_sc, upTo]; omega, h.stateChanges⟩
  unfold atChoice testQualification
  split
  · exact ⟨hdup.goodRun, hdup.powerUp, hdup.wait, Nat.zero_le _, hdup.listen, hdup.dupQuiet, hdup.stateChanges⟩
  · refine hq _ ⟨hdup.goodRun, hdup.powerUp, hdup.wait, ?_, hdup.listen, hdup.dupQuiet, hdup.stateChanges⟩
    simp only [State.updSc_sc]
    split
    · simp only [upTo]; omega
    · exact Nat.zero_le _

theorem choiceStage_controller {c : Settings} {s : State} (h : ControllerSound s.sc) : ControllerSound (choiceStage c s).sc := by
  rw [choiceStage_sc]
  have hc := atChoice_controller (c := c) h
  refine ⟨hc.goodRun, hc.powerUp, hc.wait, ?_, ?_, hc.dupQuiet, ?_⟩ <;> simp only [enterState, State.updSc_sc]
  · split
    · exact Nat.zero_le _
    · exact hc.qualCount
  · split
    · simp only [upTo]; omega
    · exact Nat.zero_le _
  · split
    · exact hc.stateChanges
    · exact bump_le _

theorem startEpochs_controller {c : Settings} {k : Contacts} {s : State} (h : ControllerSound s.sc) :
    ControllerSound (startEpochs c k s).sc := by
  rw [startEpochs_eq, startConversions_sc]
  refine choiceStage_controller ?_
  simp only [ringStart_sc, quietEpoch_sc, peerEpoch_sc, startBlocks_sc]
  exact ⟨h.goodRun, h.powerUp, h.wait, Nat.zero_le _, h.listen, h.dupQuiet, h.stateChanges⟩

theorem epochParts_controller {c : Settings} {k : Contacts} {tcs : Bool} {o : EpochOrder} {s : State} (h : ControllerSound s.sc) :
    ControllerSound (epochParts c k tcs o s).sc :=
  epochParts_pres (P := fun s => ControllerSound s.sc) h id (fun _ _ h => by simpa using h) (fun _ h => by simpa using h)
    (fun _ h => by simpa using h) (fun _ h => by simpa using h) (fun _ => choiceStage_controller) (fun _ _ h => by simpa using h)
    (fun _ h => by simpa using h)

theorem resetController_sound (low : Bool) (f : ResetCauses) (a b : Bool) : ControllerSound (Controller.reset low f a b) :=
  ⟨Nat.zero_le _, Nat.zero_le _, Nat.zero_le _, Nat.zero_le _, Nat.zero_le _, Nat.le_refl _, Nat.zero_le _⟩

theorem takeReset_controller (k : ResetKind) (s : State) : ControllerSound (takeReset k s).sc := by
  have hsc : (takeReset k s).sc = .reset (k.isSupply || s.sc.supplyLow) (nextCauses k s.sc.cause) (k.isSupply || s.sc.holdSupply)
      (decide (k = .pin) || s.sc.holdPin) := by simp [takeReset]
  rw [hsc]
  exact resetController_sound _ _ _ _

theorem cutResponse_controller {s : State} (h : ControllerSound s.sc) : ControllerSound (cutResponse s).sc :=
  cutResponse_pres (P := fun s => ControllerSound s.sc) h fun _ _ => takeReset_controller _ _

theorem leaveStart_controller {s : State} (h : ControllerSound s.sc) : ControllerSound (leaveStart s).sc := by
  unfold leaveStart
  split
  · exact h.same rfl rfl rfl rfl rfl rfl rfl
  · exact h

theorem lossRunning_controller {s : State} (h : ControllerSound s.sc) : ControllerSound (lossRunning s).sc := by
  obtain ⟨n, hn, hsc⟩ : ∃ n, n ≤ 65535 ∧ (lossRunning s).sc = { s.sc with
      station := .running .blocked, causes := { s.sc.causes with clock := true }, reference := false, qualified := false
      qualCount := 0, listen := 0, stateChanges := n } := by
    refine ⟨if s.sc.station = .running .blocked then s.sc.stateChanges else bump s.sc.stateChanges, ?_, by simp [lossRunning, raise]⟩
    split
    · exact h.stateChanges
    · exact bump_le _
  rw [hsc]
  exact ⟨h.goodRun, h.powerUp, h.wait, Nat.zero_le _, Nat.zero_le _, h.dupQuiet, hn⟩

theorem unconfirm_controller {u : Controller} (h : ControllerSound u) : ControllerSound (unconfirm u) :=
  ⟨Nat.zero_le _, h.powerUp, h.wait, h.qualCount, h.listen, h.dupQuiet, h.stateChanges⟩

theorem move_controller {s t : State} (h : Move s t) (hs : ControllerSound s.sc) : ControllerSound t.sc := by
  have hconf : ControllerSound (s.updSc confirmed).sc :=
    ⟨Nat.le_refl _, hs.powerUp, hs.wait, hs.qualCount, hs.listen, hs.dupQuiet, hs.stateChanges⟩
  have hun : ControllerSound (s.updSc unconfirm).sc := unconfirm_controller hs
  cases h with
  | receive p bytes _ =>
    obtain ⟨n, hn, hsc⟩ := receiveFrame_sc _ p bytes s
    rw [hsc]
    exact ⟨hs.goodRun, hs.powerUp, hs.wait, hs.qualCount, hs.listen, hn.elim (fun h => h ▸ hs.dupQuiet) (fun h => h ▸ Nat.zero_le _),
      hs.stateChanges⟩
  | powerUpTick hlt => exact ⟨hs.goodRun, hlt, hs.wait, hs.qualCount, hs.listen, hs.dupQuiet, hs.stateChanges⟩
  | powerUp =>
    unfold powerUpOp
    split
    · exact leaveStart_controller ⟨hs.goodRun, Nat.le_refl _, hs.wait, hs.qualCount, hs.listen, hs.dupQuiet, hs.stateChanges⟩
    · exact hs
  | waitTick hlt => exact ⟨hs.goodRun, hs.powerUp, hlt, hs.qualCount, hs.listen, hs.dupQuiet, hs.stateChanges⟩
  | wait =>
    unfold waitOp
    split
    · exact ⟨hs.goodRun, hs.powerUp, Nat.le_refl _, hs.qualCount, hs.listen, hs.dupQuiet, hs.stateChanges⟩
    · exact hs
  | measured n r hr =>
    exact ⟨hr.elim (fun h => h ▸ hs.goodRun) id, hs.powerUp, hs.wait, hs.qualCount, hs.listen, hs.dupQuiet, hs.stateChanges⟩
  | qualified _ =>
    unfold qualifiedOp
    split
    · exact hs.same rfl rfl rfl rfl rfl rfl rfl
    · exact hs
  | confirm k =>
    exact confirmOp_pres (P := fun s => ControllerSound s.sc) hs (fun _ => hconf) (fun _ _ => leaveStart_controller hconf)
      (fun _ _ => hconf.same rfl rfl rfl rfl rfl rfl rfl) (fun _ _ _ _ _ => hconf.same rfl rfl rfl rfl rfl rfl rfl)
      fun _ _ _ _ _ _ => startEpochs_controller (hconf.same rfl rfl rfl rfl rfl rfl rfl)
  | loss =>
    exact referenceLossOp_pres (P := fun s => ControllerSound s.sc) hs (fun _ => hun)
      (fun _ => cutResponse_controller
        ⟨hun.goodRun, Nat.le_refl _, Nat.zero_le _, hun.qualCount, hun.listen, hun.dupQuiet, hun.stateChanges⟩)
      (fun _ => cutResponse_controller (hun.same rfl rfl rfl rfl rfl rfl rfl))
      fun _ _ => cutResponse_controller (lossRunning_controller hun)
  | configCheck k =>
    exact configCheckOp_pres (P := fun s => ControllerSound s.sc) hs (fun _ _ _ => startEpochs_controller hs)
      fun _ => hs.same rfl rfl rfl rfl rfl rfl rfl
  | supplyLevel low => exact hs.same rfl rfl rfl rfl rfl rfl rfl
  | reset k => exact takeReset_controller k s
  | resetEnd => exact hs.same rfl rfl rfl rfl rfl rfl rfl
  | test on => exact hs.same rfl rfl rfl rfl rfl rfl rfl
  | resetRequest =>
    unfold resetAct
    split
    · exact hs
    · exact hs.same rfl rfl rfl rfl rfl rfl rfl
  | responseEnd => exact cutResponse_controller hs
  | takeRecord => exact hs
  | clearAlarms => exact hs.same rfl rfl rfl rfl rfl rfl rfl
  | clearCounters => exact ⟨hs.goodRun, hs.powerUp, hs.wait, hs.qualCount, hs.listen, hs.dupQuiet, Nat.zero_le _⟩
  | _ => simpa using hs

end Sys2Proof.Machine

/-! PROOFS. The zones of one instant (R103, R104): the zone of a section is its class under chains of links, the zones part the present
sections, and the section states that an evaluation leaves. -/

namespace Sys2Proof.Machine

open Sys2Proof

/-! ## Sets of sections -/

theorem perSect_ext {α : Type} {p q : PerSect α} (h : ∀ x, p.get x = q.get x) : p = q := by
  obtain ⟨a, b, c, d⟩ := p
  obtain ⟨a', b', c', d'⟩ := q
  have h1 := h .a1; have h2 := h .a2; have h3 := h .b1; have h4 := h .b2
  simp only [PerSect.get] at h1 h2 h3 h4
  subst h1 h2 h3 h4
  rfl

theorem mem_allSects (x : Sect) : x ∈ allSects := by cases x <;> decide

/-- The number of sections of a set. -/
def SectSet.size (z : SectSet) : Nat := z.a1.toNat + z.a2.toNat + z.b1.toNat + z.b2.toNat

theorem SectSet.size_le (z : SectSet) : z.size ≤ 4 := by
  unfold SectSet.size
  have := z.a1.toNat_le; have := z.a2.toNat_le; have := z.b1.toNat_le; have := z.b2.toNat_le
  omega

theorem bool_of_toNat {a b : Bool} (h : a.toNat = b.toNat) : a = b := by cases a <;> cases b <;> simp at h ⊢

theorem bool_toNat_mono {a b : Bool} (h : a = true → b = true) : a.toNat ≤ b.toNat := by cases a <;> cases b <;> simp at h ⊢

/-- A set that grows gains a section. -/
theorem SectSet.size_lt {z w : SectSet} (h : ∀ x, z.get x = true → w.get x = true) (hne : z ≠ w) : z.size < w.size := by
  obtain ⟨a, b, c, d⟩ := z
  obtain ⟨a', b', c', d'⟩ := w
  have h1 := h .a1; have h2 := h .a2; have h3 := h .b1; have h4 := h .b2
  simp only [PerSect.get] at h1 h2 h3 h4
  have n1 := bool_toNat_mono h1; have n2 := bool_toNat_mono h2; have n3 := bool_toNat_mono h3; have n4 := bool_toNat_mono h4
  refine Nat.lt_of_not_le fun hle => hne ?_
  simp only [SectSet.size] at hle
  have e1 : a = a' := bool_of_toNat (by omega)
  have e2 : b = b' := bool_of_toNat (by omega)
  have e3 : c = c' := bool_of_toNat (by omega)
  have e4 : d = d' := bool_of_toNat (by omega)
  rw [e1, e2, e3, e4]

theorem single_get {x y : Sect} : (SectSet.single x).get y = true ↔ y = x := by
  simp [SectSet.single, perSect_of_get]

/-! ## The zone of a section (R104) -/

section
variable {present : SectSet} {links : List FeederLink}

theorem growOnce_get {z : SectSet} {x : Sect} : (growOnce present links z).get x = true ↔
    z.get x = true ∨ present.get x = true ∧ ∃ y, z.get y = true ∧ ((x, y) ∈ links ∨ (y, x) ∈ links) := by
  simp only [growOnce, perSect_of_get, Bool.or_eq_true, Bool.and_eq_true, List.any_eq_true, decide_eq_true_eq]
  refine or_congr_right (and_congr_right fun _ => ⟨?_, ?_⟩)
  · rintro ⟨⟨u, v⟩, hmem, ⟨rfl, hv⟩ | ⟨rfl, hu⟩⟩
    · exact ⟨v, hv, .inl hmem⟩
    · exact ⟨u, hu, .inr hmem⟩
  · rintro ⟨y, hy, hmem | hmem⟩
    · exact ⟨_, hmem, .inl ⟨rfl, hy⟩⟩
    · exact ⟨_, hmem, .inr ⟨rfl, hy⟩⟩

theorem growOnce_grows {z : SectSet} (x : Sect) (h : z.get x = true) : (growOnce present links z).get x = true :=
  growOnce_get.2 (.inl h)

/-- A set that a growth leaves is left by the next one too; one that is not left has a section more. -/
theorem growOnce_size (z : SectSet) : growOnce present links z = z ∨ z.size < (growOnce present links z).size := by
  by_cases h : z = growOnce present links z
  · exact .inl h.symm
  · exact .inr (SectSet.size_lt growOnce_grows h)

/-- Three growths of one section are closed: each that does not close adds one of the four sections (R104). -/
theorem growOnce_zoneOf (x : Sect) : growOnce present links (zoneOf present links x) = zoneOf present links x := by
  unfold zoneOf
  have h0 : 1 ≤ (SectSet.single x).size := by cases x <;> decide
  rcases growOnce_size (present := present) (links := links) (SectSet.single x) with h1 | h1
  · simp only [h1]
  rcases growOnce_size (present := present) (links := links) (growOnce present links (SectSet.single x)) with h2 | h2
  · simp only [h2]
  rcases growOnce_size (present := present) (links := links) (growOnce present links (growOnce present links (SectSet.single x)))
    with h3 | h3
  · simp only [h3]
  refine (growOnce_size _).resolve_right fun h4 => ?_
  have := SectSet.size_le (growOnce present links (growOnce present links (growOnce present links (growOnce present links
    (SectSet.single x)))))
  omega

theorem zoneOf_self (x : Sect) : (zoneOf present links x).get x = true :=
  growOnce_grows _ (growOnce_grows _ (growOnce_grows _ (single_get.2 rfl)))

/-- What every growth keeps of the sections of a set holds for the sections of a zone. -/
theorem zoneOf_induction {x : Sect} {p : Sect → Prop} (h0 : p x)
    (hgrow : ∀ y z, p y → present.get z = true → (z, y) ∈ links ∨ (y, z) ∈ links → p z) :
    ∀ y, (zoneOf present links x).get y = true → p y := by
  have once : ∀ z : SectSet, (∀ y, z.get y = true → p y) → ∀ y, (growOnce present links z).get y = true → p y := by
    intro z hz y hy
    rcases growOnce_get.1 hy with h | ⟨hp, w, hw, hl⟩
    · exact hz y h
    · exact hgrow w y (hz w hw) hp hl
  exact once _ (once _ (once _ fun y hy => single_get.1 hy ▸ h0))

theorem zoneOf_present {x y : Sect} (hx : present.get x = true) (hy : (zoneOf present links x).get y = true) :
    present.get y = true := zoneOf_induction (p := fun y => present.get y = true) hx (fun _ _ _ h _ => h) y hy

/-- The zone of a present section is its class under chains of links (R104). -/
theorem zoneOf_iff {x : Sect} (hx : present.get x = true) {y : Sect} :
    (zoneOf present links x).get y = true ↔ Joined present links x y := by
  constructor
  · refine fun hy => (zoneOf_induction (p := fun y => Joined present links x y ∧ present.get y = true) ⟨.refl x, hx⟩ ?_ y hy).1
    exact fun y z hy hz hl => ⟨.step x y z hy.1 hy.2 hz hl.symm, hz⟩
  · intro h
    induction h with
    | refl => exact zoneOf_self _
    | step y z _ _ hz hl ih =>
      rw [← growOnce_zoneOf]
      exact growOnce_get.2 (.inr ⟨hz, y, ih, hl.symm⟩)

theorem Joined.trans {x y z : Sect} (h : Joined present links x y) (h' : Joined present links y z) : Joined present links x z := by
  induction h' with
  | refl => exact h
  | step u v _ hu hv hl ih => exact .step x u v ih hu hv hl

theorem Joined.symm {x y : Sect} (h : Joined present links x y) : Joined present links y x := by
  induction h with
  | refl => exact .refl x
  | step u v _ hu hv hl ih => exact (Joined.step v v u (.refl v) hv hu hl.symm).trans ih

theorem zoneOf_eq {x y : Sect} (hx : present.get x = true) (hy : (zoneOf present links x).get y = true) :
    zoneOf present links y = zoneOf present links x := by
  have hjoined := (zoneOf_iff hx).1 hy
  refine perSect_ext fun z => Bool.eq_iff_iff.2 ?_
  rw [zoneOf_iff hx, zoneOf_iff (zoneOf_present hx hy)]
  exact ⟨hjoined.trans, hjoined.symm.trans⟩

/-! ## The zones of an instant (R104) -/

theorem mem_zoneSets {z : Sect × SectSet} : z ∈ zoneSets present links ↔
    present.get z.1 = true ∧ lowest z.2 = some z.1 ∧ z.2 = zoneOf present links z.1 := by
  obtain ⟨n, w⟩ := z
  simp only [zoneSets, List.mem_filterMap]
  constructor
  · rintro ⟨x, -, h⟩
    split at h
    · next hc => cases h; exact ⟨hc.1, hc.2, rfl⟩
    · cases h
  · rintro ⟨hp, hl, rfl⟩
    exact ⟨n, mem_allSects n, if_pos ⟨hp, hl⟩⟩

theorem lowest_mem {z : SectSet} {n : Sect} (h : lowest z = some n) : z.get n = true := List.find?_some h

/-- A zone is the zone of each of its sections. -/
theorem zoneSets_eq {z : Sect × SectSet} (h : z ∈ zoneSets present links) {x : Sect} (hx : z.2.get x = true) :
    present.get x = true ∧ z.2 = zoneOf present links x := by
  obtain ⟨hp, -, hz⟩ := mem_zoneSets.1 h
  rw [hz] at hx ⊢
  exact ⟨zoneOf_present hp hx, (zoneOf_eq hp hx).symm⟩

/-- A present section lies in a zone. -/
theorem zoneSets_covers {x : Sect} (hx : present.get x = true) : ∃ z ∈ zoneSets present links, z.2 = zoneOf present links x := by
  obtain ⟨n, hn⟩ : ∃ n, lowest (zoneOf present links x) = some n :=
    Option.isSome_iff_exists.1 (List.find?_isSome.2 ⟨x, mem_allSects x, zoneOf_self x⟩)
  have hmem := lowest_mem hn
  exact ⟨(n, zoneOf present links x), mem_zoneSets.2 ⟨zoneOf_present hx hmem, hn, (zoneOf_eq hx hmem).symm⟩, rfl⟩

/-- Zones with a section in common are one. -/
theorem zoneSets_unique {z w : Sect × SectSet} (hz : z ∈ zoneSets present links) (hw : w ∈ zoneSets present links) {x : Sect}
    (hzx : z.2.get x = true) (hwx : w.2.get x = true) : z = w := by
  have hset : z.2 = w.2 := (zoneSets_eq hz hzx).2.trans (zoneSets_eq hw hwx).2.symm
  have hname : z.1 = w.1 := Option.some.inj ((mem_zoneSets.1 hz).2.1.symm.trans (hset ▸ (mem_zoneSets.1 hw).2.1))
  exact Prod.ext hname hset

end

/-! ## The zones that an evaluation finds (R99) -/

section
variable {c : Settings} {tau : Ticks} {t : Peers} {timers : List Nat}

/-- The feeder links of an instant (R103). -/
def linksAt (c : Settings) (tau : Ticks) (t : Peers) : List FeederLink := (viewBays c tau t).filterMap feederLink

theorem found_zones : (findTopology c tau t timers).zones.map (fun z => (z.name, z.sections)) =
    zoneSets c.present (linksAt c tau t) := by
  simp [findTopology, linksAt, Function.comp_def]

theorem found_zone {z : FoundZone} (h : z ∈ (findTopology c tau t timers).zones) :
    (z.name, z.sections) ∈ zoneSets c.present (linksAt c tau t) := by
  rw [← found_zones (timers := timers)]
  exact List.mem_map_of_mem h

theorem zoneWith_mem {f : Found} {x : Sect} {z : FoundZone} (h : f.zoneWith x = some z) : z ∈ f.zones ∧ z.sections.get x = true :=
  ⟨List.mem_of_find?_eq_some h, List.find?_some (p := fun z : FoundZone => z.sections.get x) h⟩

/-- The zone that an evaluation finds for a present section is its class, under the name of one of its sections. -/
theorem zoneWith_present {x : Sect} (hx : c.present.get x = true) : ∃ z, (findTopology c tau t timers).zoneWith x = some z ∧
    z ∈ (findTopology c tau t timers).zones ∧ z.sections = zoneOf c.present (linksAt c tau t) x ∧ z.sections.get z.name = true := by
  obtain ⟨w, hw, hset⟩ := zoneSets_covers (present := c.present) (links := linksAt c tau t) hx
  rw [← found_zones (timers := timers)] at hw
  obtain ⟨y, hy, rfl⟩ := List.mem_map.1 hw
  obtain ⟨z, hz⟩ : ∃ z, (findTopology c tau t timers).zoneWith x = some z :=
    Option.isSome_iff_exists.1 (List.find?_isSome.2 ⟨y, hy, by rw [show y.sections = _ from hset]; exact zoneOf_self x⟩)
  obtain ⟨hmem, hx'⟩ := zoneWith_mem hz
  exact ⟨z, hz, hmem, (zoneSets_eq (found_zone hmem) hx').2, lowest_mem (mem_zoneSets.1 (found_zone hmem)).2.1⟩

theorem zoneWith_absent {x : Sect} (hx : c.present.get x = false) : (findTopology c tau t timers).zoneWith x = none := by
  refine List.find?_eq_none.2 fun z hz hzx => ?_
  exact absurd (zoneSets_eq (found_zone hz) hzx).1 (by simp [hx])

/-- The zone of a section of a zone is that zone itself. -/
theorem zoneWith_of_mem {z : FoundZone} (hz : z ∈ (findTopology c tau t timers).zones) {x : Sect} (hx : z.sections.get x = true) :
    ∃ w, (findTopology c tau t timers).zoneWith x = some w ∧ w.name = z.name ∧ w.sections = z.sections ∧ w = z := by
  obtain ⟨hp, hset⟩ := zoneSets_eq (found_zone hz) hx
  obtain ⟨w, hw, hmem, -, -⟩ := zoneWith_present (tau := tau) (t := t) (timers := timers) hp
  have hwx := (zoneWith_mem hw).2
  have heq := zoneSets_unique (found_zone hmem) (found_zone hz) hwx hx
  have hname : w.name = z.name := congrArg Prod.fst heq
  have hsect : w.sections = z.sections := congrArg Prod.snd heq
  refine ⟨w, hw, hname, hsect, ?_⟩
  obtain ⟨a, -, rfl⟩ := List.mem_map.1 (show w ∈ (findTopology c tau t timers).zones from hmem)
  obtain ⟨b, -, rfl⟩ := List.mem_map.1 (show z ∈ (findTopology c tau t timers).zones from hz)
  simp only at hname hsect
  rw [hname, hsect]
end

end Sys2Proof.Machine

/-! PROOFS. The zone phases in their ranges, those of the settings too, and equal in all sections of a zone (sections 6 and 7). -/

namespace Sys2Proof.Machine

open Sys2Proof

/-! ## A property of the Zone Engine that the operations on it keep -/

/-- A topology with other members of its zones. -/
def withMembers (g : ZoneTopo → List Member) (t : Topology) : Topology :=
  { t with zones := t.zones.map fun z => { z with members := g z } }

/-- A property of the zone phases, of the last topology and of the in-use copy that an evaluation, the rows of section 7 and a start
of epochs keep on a configuration of a kind. -/
structure ZonesKept (G : Settings → Prop) (P : State → Prop) : Prop where
  good : ∀ c, c.ok = true → G c
  same : ∀ s t : State, t.ze.sects = s.ze.sects → t.ze.check = s.ze.check → t.ze.topo = s.ze.topo → t.cs.inUse = s.cs.inUse → P s → P t
  evaluate : ∀ c k tau b p s, s.cs.inUse = some c → G c → P s → P (s.updZe (evaluateZones c k tau b p))
  members : ∀ (g : ZoneTopo → List Member) s, P s → P (s.updZe fun e => { e with topo := e.topo.map (withMembers g) })
  row : ∀ c f z ph s, s.cs.inUse = some c → G c → PhaseRow c f → P s → P (s.updZe (updZonePhase z ph f))
  fresh : ∀ s d, s.ze = { ZoneEngine.reset with blockedDetail := d } → (∀ c, s.cs.inUse = some c → G c) → P s

section
variable {G : Settings → Prop} {P : State → Prop} {s : State} (h : ZonesKept G P)
include h

theorem ZonesKept.quiet {t : State} (hs : P s) (hze : t.ze = s.ze) (hcs : t.cs.inUse = s.cs.inUse) : P t :=
  h.same s t (by rw [hze]) (by rw [hze]) (by rw [hze]) hcs hs

theorem ZonesKept.blocked (z : ZoneRef) (ph : Phase) (hs : P s) : P (zoneBlockedOp z ph s) := by
  unfold zoneBlockedOp
  split
  · exact h.same s _ rfl rfl rfl rfl hs
  · exact hs

theorem ZonesKept.ownSample {c : Settings} (hin : s.cs.inUse = some c) (hG : G c) (hs : P s) : P (ownSampleEvent c s) := by
  have hboth : s.cs.inUse = some c ∧ P s := ⟨hin, hs⟩
  refine (ownSampleEvent_pres (P := fun s => s.cs.inUse = some c ∧ P s) hboth ?_ ?_ ?_ ?_ ?_ ?_ ?_).2
  · exact fun _ s hs => ⟨by simpa using hs.1, h.quiet hs.2 (by simp) (by simp)⟩
  · exact fun _ _ s hs => ⟨by simpa using hs.1, h.quiet hs.2 (by simp) (by simp)⟩
  · exact fun _ s hs => ⟨by simpa using hs.1, h.quiet hs.2 (by simp) (by simp)⟩
  · exact fun _ s hs => ⟨hs.1, h.quiet hs.2 rfl rfl⟩
  · exact fun _ _ _ s hs => ⟨hs.1, h.evaluate _ _ _ _ _ _ hs.1 hG hs.2⟩
  · exact fun s hs => zoneBlockedAll_pres (P := fun s => s.cs.inUse = some c ∧ P s) hs
      fun z ph s hs => ⟨by simpa using hs.1, h.blocked z ph hs.2⟩
  · exact fun _ s hs => ⟨by simpa using hs.1, h.quiet hs.2 (by simp) (by simp)⟩

theorem ZonesKept.epoch {c : Settings} {k : Contacts} {tcs : Bool} {o : EpochOrder} (hin : s.cs.inUse = some c) (hG : G c)
    (hs : P s) : P (epochParts c k tcs o s) := by
  have hboth : s.cs.inUse = some c ∧ P s := ⟨hin, hs⟩
  refine (epochParts_pres (P := fun s => s.cs.inUse = some c ∧ P s) hboth ?_ ?_ ?_ ?_ ?_ ?_ ?_ ?_).2
  · exact fun hs => ⟨by simpa using hs.1, h.quiet hs.2 (by simp) (by simp)⟩
  · exact fun _ s hs => ⟨by simpa using hs.1, h.quiet hs.2 (by simp) (by simp)⟩
  · exact fun s hs => lateEvent_pres (P := fun s => s.cs.inUse = some c ∧ P s) hs
      fun hs => ⟨by simpa using hs.1, h.ownSample hs.1 hG hs.2⟩
  · exact fun s hs => ⟨by simpa using hs.1, h.quiet hs.2 (by simp) (by simp)⟩
  · exact fun s hs => ⟨by simpa using hs.1, h.quiet hs.2 (by simp) (by simp)⟩
  · exact fun s hs => ⟨by simpa using hs.1, h.quiet hs.2 (by simp) (by simp)⟩
  · exact fun _ s hs => ⟨by simpa using hs.1, h.quiet hs.2 (by simp) (by simp)⟩
  · exact fun s hs => ⟨by simpa using hs.1, h.quiet hs.2 (by simp) (by simp)⟩

theorem ZonesKept.start {c : Settings} {k : Contacts} (hin : s.cs.inUse = some c) (hG : G c) : P (startEpochs c k s) :=
  h.fresh _ s.ze.blockedDetail (by simp [startEpochs_eq, zoneRestart]) fun x hx => by
    rw [startEpochs_cs, hin] at hx
    exact Option.some.inj hx ▸ hG

theorem ZonesKept.taken (k : ResetKind) : P (takeReset k s) :=
  h.fresh _ [] (by simp [takeReset, ZoneEngine.reset]) fun x hx => by rw [takeReset_noCopy] at hx; cases hx

theorem ZonesKept.response (hs : P s) : P (cutResponse s) := cutResponse_pres (h.quiet hs rfl rfl) fun _ _ => h.taken _

theorem ZonesKept.move {t : State} (hm : Move s t) (hG : ∀ c, s.cs.inUse = some c → G c) (hs : P s) : P t := by
  cases hm with
  | complete ph ch raw hr =>
    have held := h.quiet (t := s.updSu fun u => { u with chans := u.chans.upd (ChanPair.complete ch (readRaw raw)) ph }) hs rfl rfl
    exact (completeOp_pres (P := fun t => t.cs.inUse = some _ ∧ P t) ⟨hr.2, hs⟩ ⟨hr.2, held⟩
      fun s hs => ⟨by simpa using hs.1, h.ownSample hs.1 (hG _ hr.2) hs.2⟩).2
  | endZone b _ =>
    unfold endZoneOp
    split
    · exact h.members _ s hs
    · exact hs
  | zonePhase z ph hr hrow => exact h.row _ _ z ph s hr.2 (hG _ hr.2) hrow hs
  | zoneBlocked z ph => exact h.blocked z ph hs
  | confirm k =>
    exact confirmOp_pres hs (fun _ => h.quiet hs rfl rfl) (fun _ _ => h.quiet hs (by simp) (by simp)) (fun _ _ => h.quiet hs rfl rfl)
      (fun _ _ _ _ _ => h.quiet hs rfl rfl) fun _ c _ _ _ hin => h.start hin (hG c hin)
  | loss =>
    exact referenceLossOp_pres hs (fun _ => h.quiet hs rfl rfl) (fun _ => h.response (h.quiet hs rfl rfl))
      (fun _ => h.response (h.quiet hs rfl rfl))
      fun _ _ => h.response (h.quiet hs (by simp [lossRunning, raise]) (by simp [lossRunning, raise]))
  | configCheck k =>
    exact configCheckOp_pres hs (fun c _ hgood => h.start rfl (h.good c (goodBlock_ok hgood))) fun _ => h.quiet hs rfl rfl
  | reset k => exact h.taken k
  | resetRequest => exact h.quiet hs (by unfold resetAct; split <;> simp) (by unfold resetAct; split <;> simp)
  | responseEnd => exact h.response hs
  | commitDone l => exact h.quiet hs (by simp) (by unfold commitDoneOp; split <;> rfl)
  | takeRecord => exact h.quiet hs rfl rfl
  | clearAlarms => exact h.same s _ rfl rfl rfl rfl hs
  | clearCounters => exact h.quiet hs rfl rfl
  | _ => exact h.quiet hs (by simp) (by simp)

theorem ZonesKept.lead {t : State} (hl : Lead s t) (hs : P s) : P t := h.quiet hs (lead_ze hl) (by rw [lead_cs hl])
end

/-! ## What an evaluation leaves of a section (R99) -/

section
variable (c : Settings) (k : EpochNo) (tau : Ticks) (b : Bool) (t : Peers) (ze : ZoneEngine)

theorem afterChange_present {x : Sect} {z : FoundZone} {f : Found} (h : f.zoneWith x = some z) :
    (afterChange f ze).get x = componentChange ze.topo x z.sections (ze.sects.get x) := by
  simp [afterChange, perSect_of_get, h]

theorem afterChange_absent {x : Sect} {f : Found} (h : f.zoneWith x = none) : (afterChange f ze).get x = ze.sects.get x := by
  simp [afterChange, perSect_of_get, h]

theorem evaluateZones_present {x : Sect} {z : FoundZone} (h : (findTopology c tau t ze.endZone).zoneWith x = some z) (ph : Phase) :
    let f := findTopology c tau t ze.endZone
    ((evaluateZones c k tau b t ze).sects.get x).get ph = sectionPhase c b (zoneBlockedAt f.views z.members z.sections ph)
      (differential f.views ph z.members) (restraint f.views ph z.members) (((afterChange f ze).get z.name).get ph)
      (((afterChange f ze).get x).get ph) := by
  simp [evaluateZones, evaluatedSects, perSect_of_get, h, perPhase_of_get]

theorem evaluateZones_absent {x : Sect} (h : (findTopology c tau t ze.endZone).zoneWith x = none) :
    (evaluateZones c k tau b t ze).sects.get x = ze.sects.get x := by
  simp [evaluateZones, evaluatedSects, perSect_of_get, h, afterChange]

theorem evaluateZones_check (ph : Phase) : let f := findTopology c tau t ze.endZone
    (evaluateZones c k tau b t ze).check.get ph = checkPhase c b (checkBlockedAt f.views f.chk ph) (differential f.views ph f.chk)
      (restraint f.views ph f.chk) (ze.check.get ph) := by
  simp [evaluateZones, evaluatedCheck, perPhase_of_get]

/-- Each section state that a property of the set-back values and of the states before holds of passes through the component changes. -/
theorem afterChange_phase {p : ZoneState → Prop} {f : Found} (h0 : p .setBack) (x : Sect) (ph : Phase)
    (h : p ((ze.sects.get x).get ph)) : p (((afterChange f ze).get x).get ph) := by
  cases hz : f.zoneWith x with
  | none => rwa [afterChange_absent ze hz]
  | some z =>
    rw [afterChange_present ze hz, componentChange]
    split
    · split
      · exact h
      · cases ph <;> exact h0
    · exact h
end

/-- What an evaluation makes of every zone phase, for a property that blocking and the stages of R126 keep. -/
theorem evaluateZones_phases {p : ZoneState → Prop} {c : Settings} {k : EpochNo} {tau : Ticks} {b : Bool} {t : Peers} {ze : ZoneEngine}
    (h0 : p .setBack) (hblocked : ∀ z, p z → p (countBlocked b true (blockSetBack z)))
    (hstep : ∀ h id ir z, p z → p { zoneStep c h id ir z with blockedRun := 0 })
    (hs : ∀ x ph, p ((ze.sects.get x).get ph)) (hc : ∀ ph, p (ze.check.get ph)) :
    (∀ x ph, p (((evaluateZones c k tau b t ze).sects.get x).get ph)) ∧ ∀ ph, p ((evaluateZones c k tau b t ze).check.get ph) := by
  refine ⟨fun x ph => ?_, fun ph => ?_⟩
  · cases hz : (findTopology c tau t ze.endZone).zoneWith x with
    | none => rw [evaluateZones_absent c k tau b t ze hz]; exact hs x ph
    | some z =>
      rw [evaluateZones_present c k tau b t ze hz ph, sectionPhase]
      split
      · exact hblocked _ (afterChange_phase ze h0 x ph (hs x ph))
      · exact hstep _ _ _ _ (afterChange_phase ze h0 _ ph (hs _ ph))
  · rw [evaluateZones_check, checkPhase]
    split
    · exact hblocked _ (hc ph)
    · exact hstep _ _ _ _ (hc ph)

/-- What a row of section 7 makes of every zone phase. -/
theorem updZonePhase_phases {p : ZoneState → Prop} {f : ZoneState → ZoneState} {z : ZoneRef} {ph : Phase} {ze : ZoneEngine}
    (hf : ∀ z, p z → p (f z)) (hs : ∀ x ph, p ((ze.sects.get x).get ph)) (hc : ∀ ph, p (ze.check.get ph)) :
    (∀ x q, p (((updZonePhase z ph f ze).sects.get x).get q)) ∧ ∀ q, p ((updZonePhase z ph f ze).check.get q) := by
  have hupd : ∀ w : PerPhase ZoneState, (∀ q, p (w.get q)) → ∀ q, p ((w.upd f ph).get q) := by
    intro w hw q
    have hq := hw q
    cases ph <;> cases q <;> first
      | exact hq
      | exact hf _ hq
  cases z with
  | check => exact ⟨hs, hupd _ hc⟩
  | zone x =>
    refine ⟨fun y q => ?_, hc⟩
    simp only [updZonePhase, perSect_of_get]
    split
    · exact hupd _ (hs y) q
    · exact hs y q

/-! ## The ranges of a zone phase (R115, R125, R127, R129 to R134) -/

/-- A zone phase but for its counter. -/
structure PhaseShape (z : ZoneState) : Prop where
  onset : z.onset.isSome = true ↔ z.cls = .onset
  others : z.cls ≠ .external → z.stab = 0 ∧ z.evolve = 0
  quiet : z.cls = .quiet → z.quietRun = 0
  ranges : z.counter ≤ 31 ∧ z.quietRun ≤ 80 ∧ z.blockedRun ≤ 400

theorem ZoneStateSound.shape {z : ZoneState} (h : ZoneStateSound z) : PhaseShape z := ⟨h.onset, h.others, h.quiet, h.ranges⟩

theorem setBack_sound : ZoneStateSound .setBack := ⟨by decide, by decide, by decide, by decide, by decide⟩

theorem blocked_sound {z : ZoneState} {b : Bool} (_ : ZoneStateSound z) : ZoneStateSound (countBlocked b true (blockSetBack z)) := by
  refine ⟨by simp [countBlocked, blockSetBack, ZoneState.setBack], fun _ => rfl, fun _ => ⟨rfl, rfl⟩, fun _ => rfl, Nat.zero_le _,
    Nat.zero_le _, ?_⟩
  simp only [countBlocked, blockSetBack, ZoneState.setBack, upTo]
  split <;> omega

theorem quietReturnZ_shape {z : ZoneState} (h : PhaseShape z) : PhaseShape (quietReturnZ z) := by
  unfold quietReturnZ
  split
  · exact ⟨by simp, fun _ => ⟨rfl, rfl⟩, fun _ => rfl, h.ranges.1, Nat.zero_le _, h.ranges.2.2⟩
  · exact h

theorem windowEndZ_shape {c : Settings} {op : Bool} {z : ZoneState} (h : PhaseShape z) : PhaseShape (windowEndZ c op z) := by
  unfold windowEndZ
  split
  · next hc => exact ⟨by simp, fun _ => h.others (by simp [hc.1]), fun hq => (by cases hq), h.ranges⟩
  · exact h

theorem evolveReleaseZ_shape {c : Settings} {z : ZoneState} (h : PhaseShape z) : PhaseShape (evolveReleaseZ c z) := by
  unfold evolveReleaseZ
  split
  · next hc =>
    refine ⟨⟨fun ho => ?_, fun hq => by cases hq⟩, fun _ => ⟨rfl, rfl⟩, fun hq => (by cases hq), h.ranges⟩
    exact absurd (h.onset.1 ho) (by simp [hc.1])
  · exact h

theorem stabExpiryZ_shape {z : ZoneState} (h : PhaseShape z) : PhaseShape (stabExpiryZ z) := by
  unfold stabExpiryZ
  split
  · next hc =>
    refine ⟨⟨fun ho => ?_, fun hq => by cases hq⟩, fun _ => ⟨hc.2, rfl⟩, fun hq => (by cases hq), h.ranges⟩
    exact absurd (h.onset.1 ho) (by simp [hc.1])
  · exact h

theorem onsetTests_shape {c : Settings} {op : Bool} {z : ZoneState} (h : PhaseShape z) (hon : z.cls = .onset) :
    PhaseShape (onsetTests c op z) := by
  unfold onsetTests
  split
  · exact ⟨by simp, fun _ => h.others (by simp [hon]), fun hq => (by cases hq), h.ranges⟩
  · exact windowEndZ_shape h

theorem stage2_shape {c : Settings} {ir : Nat} {z : ZoneState} (h : PhaseShape z) : PhaseShape (stage2 c ir z) := by
  unfold stage2
  split
  · exact ⟨h.onset, h.others, fun _ => rfl, h.ranges.1, Nat.zero_le _, h.ranges.2.2⟩
  · next hq =>
    refine quietReturnZ_shape ⟨h.onset, h.others, fun hc => absurd hc hq, h.ranges.1, ?_, h.ranges.2.2⟩
    simp only [upTo]
    split <;> omega

theorem stage3_shape {c : Settings} {op : Bool} {id ir : Nat} {z : ZoneState} (h : PhaseShape z) :
    PhaseShape (stage3 c op id ir z) := by
  unfold stage3
  split
  · next hc =>
    split
    · exact onsetTests_shape ⟨by simp, fun _ => h.others (by simp [hc]), fun hq => (by cases hq), h.ranges⟩ rfl
    · exact h
  · next hc =>
    have hsome := h.onset.2 hc
    exact onsetTests_shape ⟨by simp [hc, hsome], fun _ => h.others (by simp [hc]), fun hq => by simp [hc] at hq, h.ranges⟩ hc
  · exact h
  · next hc =>
    split
    · refine ⟨⟨fun ho => ?_, fun hq => by cases hq⟩, fun hq => absurd rfl hq, fun hq => (by cases hq), h.ranges⟩
      exact absurd (h.onset.1 ho) (by simp [hc])
    · exact h
  · next hc =>
    have hrel : PhaseShape (evolveReleaseZ c { z with evolve := if evolves id ir then z.evolve + 1 else 0 }) :=
      evolveReleaseZ_shape ⟨h.onset, fun hq => absurd hc hq, h.quiet, h.ranges⟩
    dsimp only
    generalize evolveReleaseZ c _ = w at hrel ⊢
    split
    · next hext => exact stabExpiryZ_shape ⟨hrel.onset, fun hq => absurd hext hq, hrel.quiet, hrel.ranges⟩
    · exact hrel

theorem stage4_sound {op : Bool} {z : ZoneState} (h : PhaseShape z) : ZoneStateSound (stage4 op z) := by
  refine ⟨h.onset, fun hc => if_pos hc, h.others, h.quiet, ?_, h.ranges.2⟩
  have := h.ranges.1
  simp only [stage4, upTo]
  split
  · exact Nat.zero_le _
  · split
    · omega
    · split <;> omega

theorem zoneStep_sound {c : Settings} {b : Characteristic} {id ir : Nat} {z : ZoneState} (h : ZoneStateSound z) :
    ZoneStateSound { zoneStep c b id ir z with blockedRun := 0 } := by
  have hz : ZoneStateSound (zoneStep c b id ir z) := stage4_sound (stage3_shape (stage2_shape h.shape))
  exact ⟨hz.onset, hz.external, hz.others, hz.quiet, hz.ranges.1, hz.ranges.2.1, Nat.zero_le _⟩

theorem phaseRow_sound {c : Settings} {f : ZoneState → ZoneState} (hf : PhaseRow c f) {z : ZoneState} (h : ZoneStateSound z) :
    ZoneStateSound (f z) := by
  have hcounter : PhaseShape (f z) → ((f z).cls = .external → (f z).counter = 0) → ZoneStateSound (f z) := fun hs hc =>
    ⟨hs.onset, hc, hs.others, hs.quiet, hs.ranges⟩
  cases hf with
  | windowEnd op =>
    refine hcounter (windowEndZ_shape h.shape) ?_
    unfold windowEndZ
    split
    · intro hc; cases hc
    · exact h.external
  | stabExpiry =>
    refine hcounter (stabExpiryZ_shape h.shape) ?_
    unfold stabExpiryZ
    split
    · intro hc; cases hc
    · exact h.external
  | evolveRelease =>
    refine hcounter (evolveReleaseZ_shape h.shape) ?_
    unfold evolveReleaseZ
    split
    · intro hc; cases hc
    · exact h.external
  | quietReturn =>
    refine hcounter (quietReturnZ_shape h.shape) ?_
    unfold quietReturnZ
    split
    · intro hc; cases hc
    · exact h.external

theorem resetPhases_get : (∀ x ph, (ZoneEngine.reset.sects.get x).get ph = .setBack) ∧
    ∀ ph, ZoneEngine.reset.check.get ph = .setBack :=
  ⟨fun x ph => by cases x <;> cases ph <;> rfl, fun ph => by cases ph <;> rfl⟩

theorem zonesSound_kept : ZonesKept (fun _ => True) fun s => ZonesSound s.ze where
  good _ _ := trivial
  same s t h1 h2 _ _ hs := ⟨h1 ▸ hs.sects, h2 ▸ hs.check⟩
  evaluate c k tau b p s _ _ hs := by
    obtain ⟨h1, h2⟩ := evaluateZones_phases (c := c) (k := k) (tau := tau) (b := b) (t := p) setBack_sound (fun _ => blocked_sound)
      (fun _ _ _ _ => zoneStep_sound) hs.sects hs.check
    exact ⟨h1, h2⟩
  members _ s hs := ⟨hs.sects, hs.check⟩
  row c f z ph s _ _ hf hs := by
    obtain ⟨h1, h2⟩ := updZonePhase_phases (p := ZoneStateSound) (z := z) (ph := ph) (fun _ => phaseRow_sound hf) hs.sects hs.check
    exact ⟨h1, h2⟩
  fresh s d h _ := by
    rw [h]
    exact ⟨fun x ph => resetPhases_get.1 x ph ▸ setBack_sound, fun ph => resetPhases_get.2 ph ▸ setBack_sound⟩

/-! ## A zone phase against the settings (R125, R129, R131 to R133) -/

/-- What R175 bounds of the settings of section 7. -/
structure Timed (c : Settings) : Prop where
  window : 1 ≤ c.window ∧ c.window ≤ 8
  nOp : 2 ≤ c.nOp ∧ c.nOp ≤ 16
  tStab : c.tStab ≤ 800

theorem timed_of_ok {c : Settings} (h : c.ok = true) : Timed c := by
  simp only [Settings.ok, Bool.and_eq_true, decide_eq_true_eq] at h
  obtain ⟨⟨⟨⟨⟨⟨⟨⟨⟨⟨⟨⟨-, hw⟩, hn⟩, ht⟩, -⟩, -⟩, -⟩, -⟩, -⟩, -⟩, -⟩, -⟩, -⟩ := h
  exact ⟨hw, hn, ht.2⟩

section
variable {c : Settings} {z : ZoneState}

/-- A change of a phase that leaves its onset index and its timers, or ends them. -/
theorem PhaseTimed.ended {w : ZoneState} (h : PhaseTimed c z) (h1 : w.onset = z.onset ∨ w.onset = none)
    (h2 : w.stab = z.stab ∨ w.stab = 0) (h3 : w.evolve = z.evolve ∨ w.evolve = 0) : PhaseTimed c w := by
  refine ⟨fun n hn => ?_, ?_, ?_, h.settings⟩
  · rcases h1 with h1 | h1
    · exact h.onset n (h1 ▸ hn)
    · simp [h1] at hn
  · rcases h2 with h2 | h2 <;> rw [h2]
    · exact h.stab
    · exact Nat.zero_le _
  · rcases h3 with h3 | h3 <;> rw [h3]
    · exact h.evolve
    · exact Nat.lt_of_le_of_lt (Nat.zero_le _) h.evolve

theorem setBack_timed (h : Timed c) : PhaseTimed c .setBack :=
  ⟨fun n hn => by simp [ZoneState.setBack] at hn, Nat.zero_le _, by have := h.nOp; simp only [ZoneState.setBack]; omega,
    h.window.2, h.tStab, h.nOp.2⟩

theorem phaseRow_timed {f : ZoneState → ZoneState} (hf : PhaseRow c f) (h : PhaseTimed c z) : PhaseTimed c (f z) := by
  cases hf with
  | windowEnd op =>
    unfold windowEndZ
    split
    · exact h.ended (.inr rfl) (.inl rfl) (.inl rfl)
    · exact h
  | stabExpiry =>
    unfold stabExpiryZ
    split
    · exact h.ended (.inl rfl) (.inl rfl) (.inr rfl)
    · exact h
  | evolveRelease =>
    unfold evolveReleaseZ
    split
    · exact h.ended (.inl rfl) (.inr rfl) (.inr rfl)
    · exact h
  | quietReturn =>
    unfold quietReturnZ
    split
    · exact h.ended (.inr rfl) (.inr rfl) (.inr rfl)
    · exact h

theorem stage2_timed {ir : Nat} (h : PhaseTimed c z) : PhaseTimed c (stage2 c ir z) := by
  unfold stage2
  split
  · exact h.ended (.inl rfl) (.inl rfl) (.inl rfl)
  · exact phaseRow_timed .quietReturn (h.ended (.inl rfl) (.inl rfl) (.inl rfl))

/-- An index just advanced ends in its tests, or stands below the window (R129). -/
theorem onsetTests_timed {op : Bool} {m : Nat} (h : PhaseTimed c z) (hm : 1 ≤ m) :
    PhaseTimed c (onsetTests c op { z with cls := .onset, onset := some m }) := by
  unfold onsetTests windowEndZ
  split
  · exact h.ended (.inr rfl) (.inl rfl) (.inl rfl)
  · split
    · exact h.ended (.inr rfl) (.inl rfl) (.inl rfl)
    · next hop hw =>
      refine ⟨fun n hn => ?_, h.stab, h.evolve, h.settings⟩
      obtain rfl : m = n := Option.some.inj hn
      simp [hop] at hw
      exact ⟨hm, hw⟩

/-- A run just advanced releases the phase, or stands below N_op (R132). -/
theorem evolveReleaseZ_timed (h : PhaseTimed c z) (hext : z.cls = .external) (m : Nat) :
    PhaseTimed c (evolveReleaseZ c { z with evolve := m }) := by
  unfold evolveReleaseZ
  split
  · exact h.ended (.inl rfl) (.inr rfl) (.inr rfl)
  · next hno => exact ⟨h.onset, h.stab, by simpa [hext] using hno, h.settings⟩

theorem stage3_timed (hc : Timed c) {op : Bool} {id ir : Nat} (h : PhaseTimed c z) : PhaseTimed c (stage3 c op id ir z) := by
  unfold stage3
  split
  · split
    · exact onsetTests_timed h (Nat.le_refl 1)
    · exact h
  · next hon =>
    cases hz : z.onset with
    | none =>
      unfold onsetTests windowEndZ
      split
      · exact h.ended (.inr rfl) (.inl rfl) (.inl rfl)
      · split <;> exact h.ended (.inr rfl) (.inl rfl) (.inl rfl)
    | some m =>
      have := onsetTests_timed (op := op) (m := m + 1) h (by omega)
      rwa [← hon] at this
  · exact h
  · split
    · refine ⟨h.onset, Nat.le_refl _, ?_, h.settings⟩
      have := hc.nOp
      dsimp only
      split <;> omega
    · exact h
  · next hext =>
    have hrel := evolveReleaseZ_timed h hext (if evolves id ir then z.evolve + 1 else 0)
    dsimp only
    generalize evolveReleaseZ c _ = w at hrel ⊢
    split
    · refine phaseRow_timed .stabExpiry ⟨hrel.onset, ?_, hrel.evolve, hrel.settings⟩
      have := hrel.stab
      dsimp only
      omega
    · exact hrel

theorem zoneStep_timed (hc : Timed c) {b : Characteristic} {id ir : Nat} (h : PhaseTimed c z) :
    PhaseTimed c { zoneStep c b id ir z with blockedRun := 0 } :=
  (stage3_timed hc (op := isOp b id ir) (id := id) (ir := ir) (stage2_timed (ir := ir) h)).ended (.inl rfl) (.inl rfl) (.inl rfl)
end

theorem zonesTimed_of {s : State} {c : Settings} (hin : s.cs.inUse = some c)
    (h : (∀ x ph, PhaseTimed c ((s.ze.sects.get x).get ph)) ∧ ∀ ph, PhaseTimed c (s.ze.check.get ph)) : ZonesTimed s := by
  intro x hx ph
  rw [hin] at hx
  obtain rfl := Option.some.inj hx
  exact ⟨fun x => h.1 x ph, h.2 ph⟩

theorem ZonesTimed.phases {s : State} {c : Settings} (h : ZonesTimed s) (hin : s.cs.inUse = some c) :
    (∀ x ph, PhaseTimed c ((s.ze.sects.get x).get ph)) ∧ ∀ ph, PhaseTimed c (s.ze.check.get ph) :=
  ⟨fun x ph => (h c hin ph).1 x, fun ph => (h c hin ph).2⟩

theorem zonesTimed_kept : ZonesKept (fun c => c.ok = true) ZonesTimed where
  good _ h := h
  same s t h1 h2 _ h4 hs := by
    unfold ZonesTimed
    rw [h1, h2, h4]
    exact hs
  evaluate c k tau b p s hin hG hs := by
    obtain ⟨h1, h2⟩ := hs.phases hin
    have ht := timed_of_ok hG
    exact zonesTimed_of (s := s.updZe _) hin (evaluateZones_phases (setBack_timed ht)
      (fun z hz => hz.ended (.inr rfl) (.inr rfl) (.inr rfl)) (fun _ _ _ _ => zoneStep_timed ht) h1 h2)
  members _ s hs := hs
  row c f z ph s hin _ hf hs := by
    obtain ⟨h1, h2⟩ := hs.phases hin
    exact zonesTimed_of (s := s.updZe _) hin (updZonePhase_phases (p := PhaseTimed c) (fun _ => phaseRow_timed hf) h1 h2)
  fresh s d h hG c hin ph := by
    have ht := setBack_timed (timed_of_ok (hG c hin))
    rw [h]
    exact ⟨fun x => resetPhases_get.1 x ph ▸ ht, resetPhases_get.2 ph ▸ ht⟩

end Sys2Proof.Machine

/-! PROOFS. The sections of a zone hold equal states (R110, R125), and every range that a step keeps. -/

namespace Sys2Proof.Machine

open Sys2Proof

theorem perPhase_ext {α : Type} {p q : PerPhase α} (h : ∀ ph, p.get ph = q.get ph) : p = q := by
  obtain ⟨a, b, c⟩ := p
  obtain ⟨a', b', c'⟩ := q
  have h1 := h .l1; have h2 := h .l2; have h3 := h .l3
  simp only [PerPhase.get] at h1 h2 h3
  subst h1 h2 h3
  rfl

/-! ## The zone of a section in the last topology -/

theorem lastZone_some {o : Option Topology} {x : Sect} {w : SectSet} (h : lastZone o x = some w) :
    ∃ t, o = some t ∧ ∃ z ∈ t.zones, z.sections = w ∧ w.get x = true := by
  unfold lastZone at h
  split at h
  · next t =>
    obtain ⟨z, hz, rfl⟩ := Option.map_eq_some_iff.1 h
    exact ⟨t, rfl, z, List.mem_of_find?_eq_some hz, rfl, List.find?_some (p := fun z : ZoneTopo => z.sections.get x) hz⟩
  · cases h

theorem lastZone_none {o : Option Topology} {x : Sect} :
    lastZone o x = none ↔ ∀ t, o = some t → ∀ z ∈ t.zones, z.sections.get x = false := by
  cases o with
  | none => simp [lastZone]
  | some t => simp [lastZone]

/-- The set-back values of a section. -/
def freshSect : PerPhase ZoneState := ⟨.setBack, .setBack, .setBack⟩

theorem freshSect_get (ph : Phase) : freshSect.get ph = freshPhase 0 := by cases ph <;> rfl

section
variable {s : State} (hs : ZonesTogether s)
include hs

theorem ZonesTogether.fresh {x : Sect} (h : lastZone s.ze.topo x = none) : s.ze.sects.get x = freshSect :=
  perPhase_ext fun ph => by rw [freshSect_get]; exact hs.outside x (lastZone_none.1 h) ph

/-- Sections with a zone in common have one zone and equal states. -/
theorem ZonesTogether.mates {x y : Sect} {w : SectSet} (hx : lastZone s.ze.topo x = some w) (hy : w.get y = true) :
    lastZone s.ze.topo y = some w ∧ s.ze.sects.get x = s.ze.sects.get y := by
  obtain ⟨t, ht, z, hz, rfl, hzx⟩ := lastZone_some hx
  refine ⟨?_, hs.together t ht z hz x y hzx hy⟩
  cases hw : lastZone s.ze.topo y with
  | none => exact absurd hy (by simp [lastZone_none.1 hw t ht z hz])
  | some v =>
    obtain ⟨t', ht', z', hz', rfl, hzy⟩ := lastZone_some hw
    obtain rfl : t = t' := Option.some.inj (ht.symm.trans ht')
    rw [hs.apart t ht z' hz' z hz y hzy hy]

/-- The states of a zone's sections after the component changes are equal: either their zone was this set, and they held equal states, or
each is set back, or was so already (R110). -/
theorem ZonesTogether.changed {now : SectSet} {x y : Sect} (hx : now.get x = true) (hy : now.get y = true) :
    componentChange s.ze.topo x now (s.ze.sects.get x) = componentChange s.ze.topo y now (s.ze.sects.get y) := by
  have key : ∀ u v, now.get u = true → now.get v = true → lastZone s.ze.topo u = some now →
      componentChange s.ze.topo u now (s.ze.sects.get u) = componentChange s.ze.topo v now (s.ze.sects.get v) := by
    intro u v _ hv hu
    obtain ⟨hvz, heq⟩ := hs.mates hu hv
    simp only [componentChange, hu, hvz, if_true]
    exact heq
  have other : ∀ u, lastZone s.ze.topo u ≠ some now → componentChange s.ze.topo u now (s.ze.sects.get u) = freshSect := by
    intro u hu
    unfold componentChange
    split
    · next w hw => exact if_neg fun heq : w = now => hu (heq ▸ hw)
    · next hw => exact hs.fresh hw
  by_cases hu : lastZone s.ze.topo x = some now
  · exact key x y hx hy hu
  · by_cases hv : lastZone s.ze.topo y = some now
    · exact (key y x hy hx hv).symm
    · rw [other x hu, other y hv]

variable {c : Settings} (hin : s.cs.inUse = some c)
include hin

theorem ZonesTogether.absent {x : Sect} (h : c.present.get x = false) : s.ze.sects.get x = freshSect := by
  refine hs.fresh (lastZone_none.2 fun t ht z hz => ?_)
  by_contra hx
  have := (hs.covers c t hin ht x).2 ⟨z, hz, by simpa using hx⟩
  simp [h] at this
end

/-- The sections of the zones that an evaluation records. -/
theorem evaluated_zone {c : Settings} {k : EpochNo} {tau : Ticks} {b : Bool} {p : Peers} {ze : ZoneEngine} {t : Topology}
    (ht : (evaluateZones c k tau b p ze).topo = some t) {z : ZoneTopo} (hz : z ∈ t.zones) :
    ∃ f ∈ (findTopology c tau p ze.endZone).zones, z.sections = f.sections := by
  obtain rfl := Option.some.inj ht
  obtain ⟨f, hf, rfl⟩ := List.mem_map.1 hz
  exact ⟨f, hf, rfl⟩

theorem evaluated_covers {c : Settings} {k : EpochNo} {tau : Ticks} {b : Bool} {p : Peers} {ze : ZoneEngine} {t : Topology}
    (ht : (evaluateZones c k tau b p ze).topo = some t) (x : Sect) :
    c.present.get x = true ↔ ∃ z ∈ t.zones, z.sections.get x = true := by
  constructor
  · intro hx
    obtain ⟨z, hz, -⟩ := zoneWith_present (c := c) (tau := tau) (t := p) (timers := ze.endZone) hx
    obtain ⟨hmem, hzx⟩ := zoneWith_mem hz
    obtain rfl := Option.some.inj ht
    exact ⟨_, List.mem_map_of_mem hmem, hzx⟩
  · rintro ⟨z, hz, hzx⟩
    obtain ⟨f, hf, heq⟩ := evaluated_zone ht hz
    exact (zoneSets_eq (found_zone hf) (heq ▸ hzx)).1

/-- The states that an evaluation gives two sections of a zone (R99, R125). -/
theorem evaluated_together {c : Settings} {k : EpochNo} {tau : Ticks} {b : Bool} {p : Peers} {s : State} (hs : ZonesTogether s)
    {f : FoundZone} (hf : f ∈ (findTopology c tau p s.ze.endZone).zones) {x y : Sect} (hx : f.sections.get x = true)
    (hy : f.sections.get y = true) :
    (evaluateZones c k tau b p s.ze).sects.get x = (evaluateZones c k tau b p s.ze).sects.get y := by
  obtain ⟨_, hzx, -, -, rfl⟩ := zoneWith_of_mem hf hx
  obtain ⟨z, hzy, -, -, rfl⟩ := zoneWith_of_mem hf hy
  have heq : (afterChange (findTopology c tau p s.ze.endZone) s.ze).get x =
      (afterChange (findTopology c tau p s.ze.endZone) s.ze).get y := by
    rw [afterChange_present s.ze hzx, afterChange_present s.ze hzy]
    exact hs.changed hx hy
  refine perPhase_ext fun ph => ?_
  rw [evaluateZones_present c k tau b p s.ze hzx ph, evaluateZones_present c k tau b p s.ze hzy ph, heq]

theorem evaluate_together {c : Settings} {k : EpochNo} {tau : Ticks} {b : Bool} {p : Peers} {s : State} (hs : ZonesTogether s)
    (hin : s.cs.inUse = some c) : ZonesTogether (s.updZe (evaluateZones c k tau b p)) where
  together t ht z hz x y hx hy := by
    obtain ⟨f, hf, heq⟩ := evaluated_zone ht hz
    exact evaluated_together hs hf (heq ▸ hx) (heq ▸ hy)
  apart t ht z hz w hw x hx hy := by
    obtain ⟨f, hf, heq⟩ := evaluated_zone ht hz
    obtain ⟨g, hg, heq'⟩ := evaluated_zone ht hw
    rw [heq, heq']
    exact congrArg Prod.snd (zoneSets_unique (found_zone hf) (found_zone hg) (heq ▸ hx) (heq' ▸ hy))
  covers c' t hin' ht x := by
    obtain rfl : c = c' := Option.some.inj (hin.symm.trans hin')
    exact evaluated_covers ht x
  outside x hout ph := by
    have habs : c.present.get x = false := by
      by_contra hx
      obtain ⟨z, hz, hzx⟩ := (evaluated_covers (c := c) (k := k) (tau := tau) (b := b) (p := p) (ze := s.ze) rfl x).1 (by simpa using hx)
      exact absurd hzx (by simp [hout _ rfl z hz])
    have hsect : ((s.updZe (evaluateZones c k tau b p)).ze.sects.get x) = s.ze.sects.get x :=
      evaluateZones_absent c k tau b p s.ze (zoneWith_absent habs)
    rw [hsect, hs.absent hin habs, freshSect_get]

/-- A QUIET phase is not changed by the rows of section 7. -/
theorem phaseRow_fresh {c : Settings} {f : ZoneState → ZoneState} (hf : PhaseRow c f) : f (freshPhase 0) = freshPhase 0 := by
  cases hf <;> rfl

theorem zoneMates_eq {s : State} (hs : ZonesTogether s) {x u v : Sect} {t : Topology} {z : ZoneTopo} (ht : s.ze.topo = some t)
    (hz : z ∈ t.zones) (hu : z.sections.get u = true) (hv : z.sections.get v = true) :
    (zoneMates s.ze x).get u = (zoneMates s.ze x).get v := by
  unfold zoneMates
  split
  · next w hw =>
    obtain ⟨t', ht', z', hz', rfl, -⟩ := lastZone_some hw
    obtain rfl : t = t' := Option.some.inj (ht.symm.trans ht')
    have into : ∀ a b, z.sections.get a = true → z.sections.get b = true → z'.sections.get a = true → z'.sections.get b = true := by
      intro a b ha hb ha'
      rwa [← hs.apart t ht z hz z' hz' a ha ha']
    exact Bool.eq_iff_iff.2 ⟨into u v hu hv, into v u hv hu⟩
  · next hw =>
    have alone : ∀ a, z.sections.get a = true → (SectSet.single x).get a = false := fun a ha => by
      by_contra hne
      have hax : a = x := single_get.1 (by simpa using hne)
      exact absurd ha (by simp [hax, lastZone_none.1 hw t ht z hz])
    rw [alone u hu, alone v hv]

theorem zoneMates_outside {s : State} {x y : Sect} (hy : lastZone s.ze.topo y = none) (h : (zoneMates s.ze x).get y = true) :
    lastZone s.ze.topo x = none := by
  cases hw : lastZone s.ze.topo x with
  | none => rfl
  | some w =>
    obtain ⟨t, ht, z, hz, rfl, -⟩ := lastZone_some hw
    simp only [zoneMates, hw] at h
    exact absurd h (by simp [lastZone_none.1 hy t ht z hz])

theorem row_together {c : Settings} {f : ZoneState → ZoneState} {z : ZoneRef} {ph : Phase} {s : State} (hf : PhaseRow c f)
    (hs : ZonesTogether s) : ZonesTogether (s.updZe (updZonePhase z ph f)) := by
  cases z with
  | check => exact ⟨hs.together, hs.apart, hs.covers, hs.outside⟩
  | zone x =>
    refine ⟨fun t ht z hz u v hu hv => ?_, hs.apart, hs.covers, fun y hout q => ?_⟩
    · simp only [State.updZe_ze, updZonePhase, perSect_of_get]
      rw [zoneMates_eq hs ht hz hu hv, hs.together t ht z hz u v hu hv]
    · simp only [State.updZe_ze, updZonePhase, perSect_of_get]
      have hfresh := hs.outside y hout q
      split
      · cases ph <;> cases q <;> first
          | exact hfresh
          | exact (congrArg f hfresh).trans (phaseRow_fresh hf)
      · exact hfresh

theorem members_together {g : ZoneTopo → List Member} {s : State} (hs : ZonesTogether s) :
    ZonesTogether (s.updZe fun e => { e with topo := e.topo.map (withMembers g) }) := by
  have hzones : ∀ t, s.ze.topo.map (withMembers g) = some t →
      ∃ t', s.ze.topo = some t' ∧ (∀ z ∈ t.zones, ∃ z' ∈ t'.zones, z.sections = z'.sections) ∧
        ∀ z' ∈ t'.zones, ∃ z ∈ t.zones, z.sections = z'.sections := by
    intro t ht
    obtain ⟨t', ht', rfl⟩ := Option.map_eq_some_iff.1 ht
    refine ⟨t', ht', fun z hz => ?_, fun z' hz' => ⟨_, List.mem_map_of_mem hz', rfl⟩⟩
    obtain ⟨z', hz', rfl⟩ := List.mem_map.1 hz
    exact ⟨z', hz', rfl⟩
  refine ⟨fun t ht z hz x y hx hy => ?_, fun t ht z hz w hw x hx hy => ?_, fun c t hc ht x => ?_, fun x hout ph => ?_⟩
  · obtain ⟨t', ht', hback, -⟩ := hzones t ht
    obtain ⟨z', hz', heq⟩ := hback z hz
    exact hs.together t' ht' z' hz' x y (heq ▸ hx) (heq ▸ hy)
  · obtain ⟨t', ht', hback, -⟩ := hzones t ht
    obtain ⟨z', hz', heq⟩ := hback z hz
    obtain ⟨w', hw', heq'⟩ := hback w hw
    rw [heq, heq']
    exact hs.apart t' ht' z' hz' w' hw' x (heq ▸ hx) (heq' ▸ hy)
  · obtain ⟨t', ht', hback, hforth⟩ := hzones t ht
    rw [hs.covers c t' hc ht' x]
    constructor
    · rintro ⟨z', hz', hx⟩
      obtain ⟨z, hz, heq⟩ := hforth z' hz'
      exact ⟨z, hz, heq ▸ hx⟩
    · rintro ⟨z, hz, hx⟩
      obtain ⟨z', hz', heq⟩ := hback z hz
      exact ⟨z', hz', heq ▸ hx⟩
  · refine hs.outside x (fun t' ht' z' hz' => ?_) ph
    obtain ⟨t'', ht'', -, hforth⟩ := hzones (withMembers g t') (by rw [ht', Option.map_some])
    obtain rfl : t' = t'' := Option.some.inj (ht'.symm.trans ht'')
    obtain ⟨z, hz, heq⟩ := hforth z' hz'
    rw [← heq]
    exact hout (withMembers g t') (by rw [State.updZe_ze, ht', Option.map_some]) z hz

theorem zonesTogether_kept : ZonesKept (fun _ => True) ZonesTogether where
  good _ _ := trivial
  same s t h1 h2 h3 h4 hs :=
    ⟨by rw [h1, h3]; exact hs.together, by rw [h3]; exact hs.apart, by rw [h3, h4]; exact hs.covers, by rw [h1, h3]; exact hs.outside⟩
  evaluate _ _ _ _ _ _ hin _ hs := evaluate_together hs hin
  members _ _ hs := members_together hs
  row _ _ _ _ _ _ _ hf hs := row_together hf hs
  fresh s d h _ := by
    have htopo : ∀ t, s.ze.topo ≠ some t := fun t ht => by simp [h, ZoneEngine.reset] at ht
    refine ⟨fun t ht => absurd ht (htopo t), fun t ht => absurd ht (htopo t), fun _ t _ ht => absurd ht (htopo t), fun x _ ph => ?_⟩
    rw [h]
    exact resetPhases_get.1 x ph

/-! ## Every range is kept -/

/-- Settles O60, each invariant by the moves of time and the operations that make a step. -/
theorem rangesAreKept : Obligations.RangesAreKept := by
  refine ⟨fun s t hs h => ?_, fun s t hs h => ?_, fun s t hs h => ?_, fun s t hc hs h => ?_, fun s t hs h => ?_, fun s t hs h => ?_,
    fun s t hs h => ?_, fun s t hs h => ?_, fun s t hs h => ?_⟩
  · exact step_keeps (P := fun s => SamplingSound s.su) (fun _ _ hs => hs) (fun _ _ => lead_sampling)
      (fun _ _ _ _ _ _ => epochParts_sampling) (fun _ _ => move_sampling) hs h
  · exact step_keeps (P := fun s => ContactsSound s.ciu) (fun _ _ hs => hs) (fun _ _ hl hs => lead_ciu hl ▸ hs)
      (fun _ _ _ _ _ _ hs => by rw [epochParts_ciu]; exact contactEpoch_contacts (by simpa using hs)) (fun _ _ => move_contacts) hs h
  · exact step_keeps (P := ZonesTogether) (fun _ _ hs => ⟨hs.together, hs.apart, hs.covers, hs.outside⟩)
      (fun _ _ hl => zonesTogether_kept.lead hl) (fun _ _ _ _ _ hr => zonesTogether_kept.epoch hr.2 trivial)
      (fun _ _ hm => zonesTogether_kept.move hm fun _ _ => trivial) hs h
  · exact (step_keeps (P := fun s => CopyGood s ∧ ZonesTimed s) (fun _ _ hs => hs)
      (fun _ _ hl hs => ⟨hs.1.same (by rw [lead_cs hl]), zonesTimed_kept.lead hl hs.2⟩)
      (fun c _ _ _ _ hr hs => ⟨hs.1.same (by simp), zonesTimed_kept.epoch hr.2 (hs.1 c hr.2) hs.2⟩)
      (fun _ _ hm hs => ⟨move_copyGood hm hs.1, zonesTimed_kept.move hm hs.1 hs.2⟩) ⟨hc, hs⟩ h).2
  · exact step_keeps (P := fun s => s.mp.portErrors ≤ 65535) (fun _ _ hs => hs)
      (fun _ _ hl hs => lead_portErrors hl ▸ hs) (fun _ _ _ _ _ _ hs => by simpa using hs) (fun _ _ => move_portErrors) hs h
  · exact step_keeps (P := fun s => ZonesSound s.ze) (fun _ _ hs => hs) (fun _ _ hl => zonesSound_kept.lead hl)
      (fun _ _ _ _ _ hr => zonesSound_kept.epoch hr.2 trivial)
      (fun _ _ hm => zonesSound_kept.move hm fun _ _ => trivial) hs h
  · exact step_keeps (P := fun s => TripRanges s.tu) (fun _ _ hs => hs) (fun _ _ hl hs => lead_tu hl ▸ hs)
      (fun _ _ _ _ _ _ => epochParts_ranges) (fun _ _ => move_ranges) hs h
  · exact step_keeps (P := fun s => ControllerSound s.sc) (fun _ _ hs => hs) (fun _ _ hl hs => lead_sc hl ▸ hs)
      (fun _ _ _ _ _ _ => epochParts_controller) (fun _ _ => move_controller) hs h
  · exact step_keeps (P := StoreSized) (fun _ _ hs => hs) (fun _ _ hl hs => by rw [StoreSized, lead_cs hl]; exact hs)
      (fun _ _ _ _ _ _ hs => by simpa [StoreSized] using hs) (fun _ _ => move_store) hs h

end Sys2Proof.Machine

/-! PROOFS. The queue, the reset values, the soundness of the state after reset, and the resets (section 9). -/

namespace Sys2Proof.Machine

open Sys2Proof

/-- Settles O1. -/
theorem stepRunsFrontCommand : Obligations.StepRunsFrontCommand := fun _ _ _ => rfl

/-! ## The state after reset -/

theorem reset_entry (b : Bay) : State.reset.entry b = PeerEntry.reset := by
  change (List.replicate 24 PeerEntry.reset).getD b.val PeerEntry.reset = _
  rw [List.getD_eq_getElem?_getD, List.getElem?_replicate]
  split <;> rfl

theorem reset_port (p : Port) : State.reset.port p = PortState.reset false := by cases p <;> rfl

/-- Settles O3. -/
theorem resetValues : Obligations.ResetValues := by
  refine ⟨rfl, rfl, fun p => by rw [reset_port]; rfl, rfl, rfl, rfl, rfl, fun b => reset_entry b, rfl, resetPhases_get.1, resetPhases_get.2,
    fun b => List.getElem?_replicate_of_lt b.isLt, rfl, rfl, rfl, rfl, rfl, rfl, rfl, rfl⟩

/-- Settles O44. -/
theorem supplyAndResetEnd : Obligations.SupplyAndResetEnd := fun _ => ⟨rfl, rfl, rfl⟩

theorem reset_tripSound : TripSound State.reset := ⟨by decide, by decide, by decide, by decide, by decide, by decide, by decide⟩

theorem reset_modeSound : ModeSound State.reset := by
  refine ⟨⟨fun h => ?_, fun ⟨⟨r, h⟩, _⟩ => ?_⟩, fun h => ?_, fun h => ?_, ⟨fun h => ?_, fun ⟨r, h⟩ => ?_⟩, by decide, fun h => ?_,
    fun _ => ⟨rfl, rfl⟩, fun _ => rfl, fun h => ?_⟩
  all_goals simp [State.reset, Sampling.reset, Controller.reset, Store.reset] at h

theorem reset_portSound (rx : Bool) : PortSound (PortState.reset rx) where
  down _ := ⟨rfl, rfl, rfl, rfl, rfl⟩
  dark _ := ⟨rfl, rfl⟩
  hold := ⟨Nat.zero_le _, fun h => absurd rfl h⟩
  up h := by simp [PortState.reset] at h
  delay d h := by simp [PortState.reset] at h
  echo := ⟨Nat.zero_le _, Nat.zero_le _, Nat.zero_lt_succ 2⟩
  transit := Nat.zero_le _
  counters := by rw [forall_portNumbers]; simp [PortState.reset, PortCounters.zero]

theorem resetRing_sound (east west : Bool) : RingSound (Ring.reset east west) :=
  ⟨fun p => by cases p <;> exact reset_portSound _, Nat.le_refl _, Nat.le_refl _⟩

theorem reset_entrySound : EntrySound PeerEntry.reset where
  ranges := ⟨Nat.le_refl _, Nat.zero_le _, Nat.zero_le _⟩
  ordered := .nil
  counters := by simp [PeerEntry.reset]
  absent _ := ⟨rfl, rfl, rfl, rfl⟩
  inConflict h := by simp [PeerEntry.reset] at h
  detail := by simp [PeerEntry.reset]
  live h := by simp [PeerEntry.reset] at h

theorem resetPeers_sound : PeersSound Peers.reset :=
  ⟨List.length_replicate, fun _ he => (List.mem_replicate.1 he).2 ▸ reset_entrySound⟩

theorem reset_zonesTogether : ZonesTogether State.reset := zonesTogether_kept.fresh _ [] rfl fun _ _ => trivial

/-- Settles O55. -/
theorem resetIsSound : Obligations.ResetIsSound := by
  have stopped : State.reset.su.gen ≠ .running := by simp [State.reset, Sampling.reset]
  refine ⟨reset_tripSound, ⟨by decide, by decide⟩, reset_modeSound, ?_, ?_, ⟨rfl, rfl⟩, resetSampling_sound, resetController_sound _ _ _ _,
    resetRing_sound _ _, resetPeers_sound, ?_, zonesSound_kept.fresh State.reset [] rfl fun _ _ => trivial,
    resetTrip_ranges _ (Nat.zero_le _), ⟨Nat.zero_le _, Nat.zero_le _⟩, Nat.zero_le _, ?_, ?_, ?_, ?_, reset_zonesTogether, ?_⟩
  · exact fun c h => by simp [State.reset, Store.reset] at h
  · exact fun h => by simp [State.reset, Controller.reset] at h
  · exact fun b _ => by simp [reset_entry, PeerEntry.reset]
  · exact fun _ p => by rw [reset_port]; rfl
  · refine ⟨fun p => by rw [reset_port]; exact ⟨Nat.zero_le _, .nil⟩, fun h => absurd h stopped, fun h => absurd h stopped⟩
  · exact fun p e he => by rw [reset_port] at he; simp [PortState.reset] at he
  · exact fun c x hr => absurd hr.1 stopped
  · exact fun c h => by simp [State.reset, Store.reset] at h

end Sys2Proof.Machine

/-! PROOFS. The resets, START, and a reference loss while epochs are stopped (sections 9 and 10). -/

namespace Sys2Proof.Machine

open Sys2Proof

/-! ## Resets (R173) -/

theorem storeReset_uncut {s : State} (h : s.cs.commit ≠ .busy) :
    storeReset s = { s.cs with inUse := none, staging := List.replicate 64 0, commit := .idle } := if_neg h

/-- The flags of a reset: SUPPLY, when the supply is low, and no other (R172, R187). -/
theorem raiseIf_supply (low : Bool) (s : State) :
    raiseIf low .supply s = { s with mp := { s.mp with flags := if low then withFlag .supply s.mp.flags else s.mp.flags } } := by
  cases low <;> rfl

theorem takeReset_uncut (k : ResetKind) {s : State} (h : s.cs.commit ≠ .busy) : takeReset k s =
    { s with
      su := .reset, ciu := .reset, ri := .reset s.ri.east.rx s.ri.west.rx, pt := .reset, au := .reset, ze := .reset, tu := tripReset k s
      sc := .reset (k.isSupply || s.sc.supplyLow) (nextCauses k s.sc.cause) (k.isSupply || s.sc.holdSupply)
        (decide (k = .pin) || s.sc.holdPin)
      cs := { s.cs with inUse := none, staging := List.replicate 64 0, commit := .idle }
      mp := { Maint.reset with flags := if k.isSupply || s.sc.supplyLow then 4#19 else 0 } } := by
  simp only [takeReset, raiseIf_supply, storeReset_uncut h, if_neg h]
  rfl

theorem tripReset_pin (s : State) : tripReset .pin s = { State.reset.tu with
    held := if s.tu.recorded then s.tu.held.map fun r =>
      { r with closed := some ⟨s.su.epoch, .reset, s.tu.retripMade, decide (s.tu.bf = .failed)⟩ } else s.tu.held
    recNumber := s.tu.recNumber } := by
  rw [← (closeRecord_fields .reset s.su.epoch s.tu).1]
  rfl

/-- Settles O45. -/
theorem resetsTaken : Obligations.ResetsTaken := by
  intro s hc
  refine ⟨congrArg Host.Outcome.next ?_, congrArg Host.Outcome.next ?_, congrArg Host.Outcome.next ?_⟩
  · rw [takeReset_uncut .powerOn hc]
    rfl
  · rw [takeReset_uncut .supply hc]
    rfl
  · rw [takeReset_uncut .pin hc, tripReset_pin]
    rfl

/-- A record is ended by the reset that closes it (R158, R160). -/
theorem closeRecord_reset (s : State) : (closeRecord .reset s.su.epoch s.tu).held = endedRecord .reset s :=
  (closeRecord_fields .reset s.su.epoch s.tu).1

theorem cutResponse_reset {s : State} (h : s.sc.resetPending = true) : cutResponse s =
    takeReset .command (s.updMp fun m => { m with receiver := .idle, request := [], response := [] }) := if_pos h

theorem cutResponse_quiet {s : State} (h : s.sc.resetPending = false) : cutResponse s =
    s.updMp fun m => { m with receiver := .idle, request := [], response := [] } := if_neg (by simp [h])

/-- Settles O53. -/
theorem resetFollowsItsResponse : Obligations.ResetFollowsItsResponse := by
  refine ⟨fun s hl => ?_, fun s hr hp => ?_, fun s hr hp hc => ?_⟩
  · have taken : exec (.reset []) s = .next (resetAct s) := congrArg Host.Outcome.next (takeCommand_acts hl (by simp) rfl)
    rw [taken, resetAct]
    exact ⟨fun h => by rw [if_pos h]; rfl, fun h => by rw [if_neg h]; rfl⟩
  · have sent : exec .responseSent s = .next (cutResponse s) := congrArg Host.Outcome.next (if_pos hr)
    rw [sent, cutResponse_quiet hp]
    rfl
  · have sent : exec .responseSent s = .next (cutResponse s) := congrArg Host.Outcome.next (if_pos hr)
    rw [sent, cutResponse_reset hp]
    exact congrArg Host.Outcome.next
      (takeReset_command _ s _ hc ⟨rfl, rfl, rfl, rfl, rfl, rfl, rfl, rfl, rfl, rfl, rfl⟩ (closeRecord_reset s))

/-! ## A commit that a reset cuts (R180) -/

/-- What a reset leaves of the store while a commit is BUSY. -/
def CommitCut (t : State) : Prop := t.cs.commit = .idle ∧ t.cs.inUse = none ∧ t.sc.station = .start ∧ t.cs.cut = true

theorem takeReset_cut (k : ResetKind) {s : State} (h : s.cs.commit = .busy) : CommitCut (takeReset k s) := by
  have hcs : (takeReset k s).cs = storeReset s := by simp [takeReset]
  have hsc : (takeReset k s).sc.station = .start := by simp [takeReset, Controller.reset]
  rw [CommitCut, hcs, storeReset, if_pos h]
  exact ⟨rfl, rfl, hsc, rfl⟩

theorem configCheckOp_bad {k : Contacts} {s : State} (hst : s.sc.station = .config) (h : s.cs.cut = true ∨ goodBlock s.cs.block = none) :
    configCheckOp k s = raise .config (s.updSc fun u => { u with station := .fault }) := by
  have hnone : (if s.cs.cut then none else goodBlock s.cs.block) = none := by
    rcases h with h | h <;> simp [h]
  simp only [configCheckOp, if_pos hst, hnone]

/-- A cut block is bad at the next CONFIG, whatever its bytes. -/
theorem CommitCut.fault {t : State} (h : CommitCut t) (k : Contacts) : ∀ t' : State, t'.cs = t.cs → t'.sc.station = .config →
    ∃ u, exec (.configCheckDone k) t' = .next u ∧ u.sc.station = .fault ∧ u.mp.flags.getLsbD 1 = true := by
  obtain ⟨-, -, -, hcut⟩ := h
  intro t' hcs hst
  refine ⟨_, congrArg Host.Outcome.next (configCheckOp_bad hst (.inl (by rw [hcs]; exact hcut))), rfl, ?_⟩
  simp [raise, withFlag, Alarm.bit]

/-- The loss cuts the response to RESET off, and the reset is taken on what the loss has left (R173, R181). -/
theorem referenceLossOp_reset {s : State} (hheld : s.held = false) (hconf : s.sc.confirmed = true) (hst : s.sc.station ≠ .start)
    (hp : s.sc.resetPending = true) : ∃ u : State, u.cs = s.cs ∧ referenceLossOp s = takeReset .command u := by
  unfold referenceLossOp
  simp only [hheld, hconf, Bool.not_true, Bool.false_eq_true, if_false]
  have hsc : (s.updSc unconfirm).sc.station = s.sc.station := rfl
  rw [hsc]
  cases hs : s.sc.station with
  | start => exact absurd hs hst
  | config => exact ⟨_, rfl, cutResponse_reset hp⟩
  | fault => exact ⟨_, rfl, cutResponse_reset hp⟩
  | running r => exact ⟨_, by simp [lossRunning, raise], cutResponse_reset (by simpa [lossRunning, raise, unconfirm] using hp)⟩

theorem held_of_sc {s t : State} (h : t.sc = s.sc) : t.held = s.held := by simp [State.held, h]

/-- Settles O46: every reset of a state whose commit is BUSY marks the block as cut. -/
theorem cutCommitLeadsToFault : Obligations.CutCommitLeadsToFault := by
  intro s k i hc hi
  have concl : ∀ t, exec i s = .next t → CommitCut t → _ := fun t hex h =>
    (⟨t, hex, h.1, h.2.1, h.2.2.1, h.fault k⟩ : ∃ t, exec i s = .next t ∧ t.cs.commit = .idle ∧ t.cs.inUse = none ∧ t.sc.station = .start ∧
      ∀ t' : State, t'.cs = t.cs → t'.sc.station = .config →
        ∃ u, exec (.configCheckDone k) t' = .next u ∧ u.sc.station = .fault ∧ u.mp.flags.getLsbD 1 = true)
  rcases hi with hi | ⟨rfl, hr, hp⟩ | ⟨hheld, hconf, hst, hp, m, rfl⟩
  · simp only [List.mem_cons, List.not_mem_nil, or_false] at hi
    rcases hi with rfl | rfl | rfl
    · exact concl _ rfl (takeReset_cut .powerOn hc)
    · exact concl _ rfl (takeReset_cut .supply hc)
    · exact concl _ rfl (takeReset_cut .pin hc)
  · exact concl _ (congrArg Host.Outcome.next ((if_pos hr).trans (cutResponse_reset hp))) (takeReset_cut .command hc)
  · have hsc := advanceTo_sc m s
    obtain ⟨u, hu, heq⟩ := referenceLossOp_reset (s := advanceTo m s) (by rw [held_of_sc hsc]; exact hheld) (by rw [hsc]; exact hconf)
      (by rw [hsc]; exact hst) (by rw [hsc]; exact hp)
    exact concl _ (congrArg Host.Outcome.next heq) (takeReset_cut .command (by rw [hu, advanceTo_cs]; exact hc))

/-! ## START (R163) -/

theorem leaveStart_leaves {s : State} (hst : s.sc.station = .start) (hheld : s.held = false) (hp : s.sc.powerUp = powerUpLimit)
    (hc : s.sc.confirmed = true) : leaveStart s = s.updSc fun u => { u with station := .config, reference := true } :=
  if_pos ⟨hst, by simp [hheld], hp, hc⟩

theorem leaveStart_waits {s : State} (h : s.sc.powerUp ≠ powerUpLimit ∨ s.sc.confirmed = false) : leaveStart s = s :=
  if_neg fun hc => by obtain ⟨-, -, hp, hconf⟩ := hc; simp [hp, hconf] at h

theorem powerUpOp_start {s : State} (hst : s.sc.station = .start) (hheld : s.held = false) :
    powerUpOp s = leaveStart (s.updSc fun u => { u with powerUp := powerUpLimit }) := if_pos ⟨hst, by simp [hheld]⟩

theorem confirmOp_start {k : Contacts} {s : State} (hst : s.sc.station = .start) (hheld : s.held = false)
    (hc : s.sc.confirmed = false) : confirmOp k s = leaveStart (s.updSc confirmed) := by
  simp only [confirmOp, hheld, hc, Bool.or_false, Bool.false_eq_true, if_false]
  have : (s.updSc confirmed).sc.station = .start := hst
  rw [this]

/-- Settles O39. -/
theorem startLeadsToConfig : Obligations.StartLeadsToConfig := by
  refine ⟨fun s hheld hst hc => ?_, fun s hheld hst hc => ?_, fun k s hheld hst hc hp => ?_, fun k s hheld hst hc hp => ?_,
    fun s hheld hst hc hp => ?_⟩ <;> refine congrArg Host.Outcome.next ?_
  · rw [powerUpOp_start hst hheld, leaveStart_leaves (by exact hst) (by exact hheld) rfl (by exact hc)]
    rfl
  · rw [powerUpOp_start hst hheld, leaveStart_waits (.inr (by exact hc))]
    rfl
  · rw [confirmOp_start hst hheld hc, leaveStart_leaves (by exact hst) (by exact hheld) (by exact hp) rfl]
    rfl
  · rw [confirmOp_start hst hheld hc, leaveStart_waits (.inl (by exact hp))]
    rfl
  · exact if_pos ⟨hst, by simp [hheld], hp, by simp [hc]⟩

/-! ## A reference loss while epochs are stopped (R162, R164, R165, R171) -/

theorem advanceTo_stopped {m : Nat} {s : State} (h : s.su.gen = .stopped) : advanceTo m s = s := by simp [advanceTo, h]

section
variable {s : State} (hheld : s.held = false)
include hheld

theorem referenceLossOp_unconfirmed (hc : s.sc.confirmed = false) : referenceLossOp s = s.updSc unconfirm := by
  simp [referenceLossOp, hheld, hc]

theorem referenceLossOp_start (hc : s.sc.confirmed = true) (hst : s.sc.station = .start) : referenceLossOp s = s.updSc unconfirm := by
  simp only [referenceLossOp, hheld, hc, Bool.not_true, Bool.false_eq_true, if_false]
  rw [show (s.updSc unconfirm).sc.station = .start from hst]

theorem referenceLossOp_config (hc : s.sc.confirmed = true) (hst : s.sc.station = .config) : referenceLossOp s =
    cutResponse (raise .clock ((s.updSc unconfirm).updSc fun u =>
      { u with station := .start, reference := false, powerUp := powerUpLimit, wait := 0 })) := by
  simp only [referenceLossOp, hheld, hc, Bool.not_true, Bool.false_eq_true, if_false]
  rw [show (s.updSc unconfirm).sc.station = .config from hst]

theorem referenceLossOp_fault (hc : s.sc.confirmed = true) (hst : s.sc.station = .fault) : referenceLossOp s =
    cutResponse (raise .clock ((s.updSc unconfirm).updSc fun u => { u with reference := false })) := by
  simp only [referenceLossOp, hheld, hc, Bool.not_true, Bool.false_eq_true, if_false]
  rw [show (s.updSc unconfirm).sc.station = .fault from hst]

theorem referenceLossOp_running (hc : s.sc.confirmed = true) {r : RunState} (hst : s.sc.station = .running r) :
    referenceLossOp s = cutResponse (lossRunning (s.updSc unconfirm)) := by
  simp only [referenceLossOp, hheld, hc, Bool.not_true, Bool.false_eq_true, if_false]
  rw [show (s.updSc unconfirm).sc.station = .running r from hst]
end

/-- A cycle is bad: its edge does not come within 64 internal cycles, or its count differs by more than 4 from the one before (R162). -/
theorem measureCycle_bad {k : Contacts} {count : Option Nat} {b : Nat} {s : State} (hheld : s.held = false)
    (hc : s.sc.confirmed = true) (hb : s.sc.lastCycle = some b) (h : ∀ n, count = some n → 64 < n ∨ n + 4 < b ∨ b + 4 < n) :
    measureCycle k count s = referenceLossOp s := by
  unfold measureCycle
  rw [if_neg (by simp [hheld])]
  split
  · next n m hn hm =>
    obtain ⟨hcount, hle⟩ := Option.filter_eq_some_iff.1 hn
    obtain rfl : b = m := Option.some.inj (hb.symm.trans hm)
    have hgood : cycleGood b n = false := by
      have := h n hcount
      simp only [cycleGood, decide_eq_false_iff_not]
      have : n ≤ 64 := by simpa using hle
      omega
    rw [if_neg (by simp [hgood]), if_pos hc]
  · next hm => simp [hb] at hm
  · rfl

theorem edgeInTime_some {n : Nat} (h : n ≤ 64) : edgeInTime (some n) = some n := by simp [edgeInTime, h]

/-- A count that differs by more than 4 sets the run of an UNCONFIRMED monitor back (R162, R171). -/
theorem measureCycle_differs {k : Contacts} {n b : Nat} {s : State} (hheld : s.held = false) (hc : s.sc.confirmed = false)
    (hb : s.sc.lastCycle = some b) (hn : n ≤ 64) (h : n + 4 < b ∨ b + 4 < n) :
    measureCycle k (some n) s = s.updSc fun u => { u with goodRun := 0, lastCycle := some n } := by
  have hgood : cycleGood b n = false := by simp only [cycleGood, decide_eq_false_iff_not]; omega
  simp [measureCycle, hheld, edgeInTime_some hn, hb, hgood, hc]

theorem edgeInTime_missing {count : Option Nat} (h : ∀ n, count = some n → 64 < n) : edgeInTime count = none := by
  cases count with
  | none => rfl
  | some n => simpa [edgeInTime] using h n rfl

/-- Settles O42. -/
theorem referenceLossElsewhere : Obligations.ReferenceLossElsewhere := by
  have loss : ∀ (m : Nat) (s : State), s.su.gen = .stopped → exec (.referenceLoss m) s = .next (referenceLossOp s) := fun m s hg =>
    congrArg Host.Outcome.next (congrArg referenceLossOp (advanceTo_stopped hg))
  refine ⟨fun m s hg hheld hc hp hst => ?_, fun m s hg hheld hc hp hst => ?_, fun m s hg hheld hc hst => ?_,
    fun m s hg hheld hc hp hst hb => ?_, fun count b s hheld hc hb h _ => ?_, fun n b s hheld hc hb hn h => ?_,
    fun count s h hheld hc => ?_⟩
  · rw [loss m s hg, referenceLossOp_config hheld hc hst, cutResponse_quiet (by exact hp)]
    rfl
  · rw [loss m s hg, referenceLossOp_fault hheld hc hst, cutResponse_quiet (by exact hp)]
    rfl
  · rw [loss m s hg, referenceLossOp_start hheld hc hst]
    rfl
  · rw [loss m s hg]
    refine congrArg Host.Outcome.next ?_
    rcases hst with hst | hst
    · rw [referenceLossOp_config hheld hc hst, cutResponse_reset (by exact hp)]
      exact takeReset_command _ s _ hb ⟨rfl, rfl, rfl, rfl, rfl, rfl, rfl, rfl, rfl, rfl, rfl⟩ (closeRecord_reset s)
    · rw [referenceLossOp_fault hheld hc hst, cutResponse_reset (by exact hp)]
      exact takeReset_command _ s _ hb ⟨rfl, rfl, rfl, rfl, rfl, rfl, rfl, rfl, rfl, rfl, rfl⟩ (closeRecord_reset s)
  · refine congrArg Host.Outcome.next ?_
    rw [measureCycle_bad hheld hc hb h, advanceTo_self]
  · refine congrArg Host.Outcome.next ?_
    exact measureCycle_differs hheld hc hb hn h
  · refine congrArg Host.Outcome.next ?_
    simp only [measureCycle, hheld, edgeInTime_missing h, Bool.false_eq_true, if_false]
    rw [referenceLossOp_unconfirmed hheld hc]
    rfl

end Sys2Proof.Machine

/-! PROOFS. The Maintenance Port: the gate of the requests, the commands, the store and the alarms (sections 10 and 11). -/

namespace Sys2Proof.Machine

open Sys2Proof

/-! ## The gate (R181, R182) -/

/-- Every request of a payload, coming at the present moment, passes through the gate with that payload. -/
theorem requests_gate {p : List Byte} {b : Byte} {s : State} {i : Instr} (h : i ∈ requests p b s) :
    ∃ allowed act, exec i s = .next (takeCommand allowed p act s) := by
  simp only [requests, List.mem_cons, List.not_mem_nil, or_false] at h
  rcases h with rfl | rfl | rfl | rfl | rfl | rfl | rfl | rfl | rfl | rfl | rfl | rfl | rfl
  case inr.inr.inl =>
    exact ⟨_, _, congrArg Host.Outcome.next (congrArg _ (advanceTo_self s))⟩
  case inr.inr.inr.inr.inr.inr.inr.inr.inr.inr.inr.inl =>
    exact ⟨_, _, congrArg Host.Outcome.next (congrArg _ (pins_self s))⟩
  all_goals exact ⟨_, _, rfl⟩

theorem execRequestDiscarded_eq (d : DiscardCause) (s : State) :
    exec (.requestDiscarded d) s = .next (if mpTakes s then portError s else s) := rfl

/-- A request whose payload has a length that its command does not allow (R182). -/
theorem exec_badLength {i : Instr} {al : Nat → Bool} {act : State → State} {p : List Byte} {s : State}
    (hi : exec i s = .next (takeCommand al p act s)) (hl : Listens s) (hp : p.length ≤ 64) (ha : al p.length = false) :
    exec i s = .next (answered 5 [] s) := by rw [hi, takeCommand_badLength hl hp ha]

/-- A request that its command's meaning acts on. -/
theorem exec_acts {i : Instr} {al : Nat → Bool} {act : State → State} {p : List Byte} {s : State}
    (hi : exec i s = .next (takeCommand al p act s)) (hl : Listens s) (hp : p.length ≤ 64) (ha : al p.length = true) :
    exec i s = .next (act s) := by rw [hi, takeCommand_acts hl hp ha]

theorem execSelect_now (p : List Byte) (s : State) : exec (.select p s.su.phase) s =
    .next (takeCommand (· == 2) p (selectAct (num1 p 0) (num1 p 1)) s) := congrArg Host.Outcome.next (congrArg _ (advanceTo_self s))

theorem execCommit_now (p : List Byte) (s : State) : exec (.commit p s.pins.cfgen) s = .next (takeCommand noPayload p commitAct s) :=
  congrArg Host.Outcome.next (congrArg _ (pins_self s))

theorem noPayload_false {n : Nat} (h : n ≠ 0) : noPayload n = false := by simpa [noPayload] using h

/-! ## The bytes of a request (R181) -/

theorem lineRequest_size {bytes : List Byte} {g : Bool} {m : Nat} (h : bytes.length < 2 ∨ 66 < bytes.length) :
    lineRequest bytes g m = .requestDiscarded .sizeOutside := by
  unfold lineRequest
  split
  · next code length payload =>
    have : payload.length > 64 := by simp only [List.length_cons] at h; omega
    rw [if_pos this]
  · rfl

theorem lineRequest_length {code len : Byte} {p : List Byte} {g : Bool} {m : Nat} (hp : p.length ≤ 64) (h : len.toNat ≠ p.length) :
    lineRequest (code :: len :: p) g m = .requestDiscarded .lengthDiffers := by
  simp only [lineRequest]
  rw [if_neg (by omega), if_pos h]

theorem lineRequest_command {code len : Byte} {p : List Byte} {g : Bool} {m : Nat} (hp : p.length ≤ 64) (h : len.toNat = p.length) :
    lineRequest (code :: len :: p) g m = requestOf code p g m := by
  simp only [lineRequest]
  rw [if_neg (by omega), if_neg (by omega)]

theorem requestOf_unknown {code : Byte} {p : List Byte} {g : Bool} {m : Nat} (h : code = 0 ∨ 12 < code.toNat) :
    requestOf code p g m = .unknown code p := by
  unfold requestOf
  split
  case h_13 => rfl
  all_goals
    rcases h with rfl | h
    · simp at *
    · omega

/-- Settles O47. -/
theorem requestGate : Obligations.RequestGate := by
  refine ⟨fun p b s h => ⟨fun i hi => ?_, fun d => ?_⟩, fun p b s href hst => ⟨fun d => ?_, fun h i hi => ?_⟩,
    fun p b s hl hp => ⟨?_, fun hn i hi => ?_, fun hn i hi => ?_, fun hn => ?_, fun hn => ?_⟩,
    fun g m => ⟨fun bytes h => lineRequest_size h, fun code len p hp => ⟨fun h => lineRequest_length hp h, fun h => ⟨fun i hi => ?_, fun hcode => ?_⟩⟩⟩⟩
  · obtain ⟨al, act, hex⟩ := requests_gate hi
    rw [hex, takeCommand_gone h]
  · have : mpTakes s = false := by
      rcases h with h | h <;> simp [mpTakes, h]
    rw [execRequestDiscarded_eq, this]
    rfl
  · rw [execRequestDiscarded_eq, show mpTakes s = true by simp [mpTakes, href, hst]]
    rfl
  · obtain ⟨al, act, hex⟩ := requests_gate hi
    rw [hex, takeCommand_counted href hst h]
    rfl
  · exact exec_acts (al := fun _ => true) rfl hl hp rfl
  · simp only [List.mem_cons, List.not_mem_nil, or_false] at hi
    rcases hi with rfl | rfl | rfl | rfl | rfl | rfl | rfl | rfl
    case inr.inr.inr.inr.inr.inr.inl => exact exec_badLength (execCommit_now p s) hl hp (noPayload_false hn)
    all_goals exact exec_badLength (al := noPayload) rfl hl hp (noPayload_false hn)
  · simp only [List.mem_cons, List.not_mem_nil, or_false] at hi
    rcases hi with rfl | rfl <;> exact exec_badLength (al := (· == 1)) rfl hl hp (by simpa using hn)
  · exact exec_badLength (execSelect_now p s) hl hp (by simpa using hn)
  · exact exec_badLength (al := fun n => decide (2 ≤ n)) rfl hl hp (by simpa using hn)
  · rw [lineRequest_command hp h]
    simp only [List.mem_cons, List.not_mem_nil, or_false, Prod.mk.injEq] at hi
    rcases hi with ⟨hc, rfl⟩ | ⟨hc, rfl⟩ | ⟨hc, rfl⟩ | ⟨hc, rfl⟩ | ⟨hc, rfl⟩ | ⟨hc, rfl⟩ | ⟨hc, rfl⟩ | ⟨hc, rfl⟩ | ⟨hc, rfl⟩ |
      ⟨hc, rfl⟩ | ⟨hc, rfl⟩ | ⟨hc, rfl⟩ <;> simp only [requestOf, hc]
  · rw [lineRequest_command hp h, requestOf_unknown hcode]

/-! ## TAKE RECORD (R157) -/

theorem num3_field {d : List Byte} {i n : Nat} (h : n < 2 ^ 24) (h0 : d.getD i 0 = BitVec.ofNat 8 (n / 65536))
    (h1 : d.getD (i + 1) 0 = BitVec.ofNat 8 (n / 256)) (h2 : d.getD (i + 2) 0 = BitVec.ofNat 8 n) : num3 d i = n := by
  simp only [num3, num2, num1, h0, h1, h2, BitVec.toNat_ofNat]
  omega

/-- The bytes of the sums of the three phases from a place on. -/
theorem sumsAt_of {d : List Byte} {i : Nat} {x : PerPhase Sums} (h : (d.drop i).take 18 = phases3 sumsBytes x) : SumsAt d i x := by
  have place : ∀ j < 18, d.getD (i + j) 0 = (phases3 sumsBytes x).getD j 0 := by
    intro j hj
    rw [← h, List.getD_eq_getElem?_getD, List.getD_eq_getElem?_getD, List.getElem?_take_of_lt hj, List.getElem?_drop]
  intro q
  cases q
  · exact ⟨fun hn => num3_field hn (place 0 (by omega)) (place 1 (by omega)) (place 2 (by omega)),
      fun hn => num3_field hn (place 3 (by omega)) (place 4 (by omega)) (place 5 (by omega))⟩
  · exact ⟨fun hn => num3_field hn (place 6 (by omega)) (place 7 (by omega)) (place 8 (by omega)),
      fun hn => num3_field hn (place 9 (by omega)) (place 10 (by omega)) (place 11 (by omega))⟩
  · exact ⟨fun hn => num3_field hn (place 12 (by omega)) (place 13 (by omega)) (place 14 (by omega)),
      fun hn => num3_field hn (place 15 (by omega)) (place 16 (by omega)) (place 17 (by omega))⟩

theorem num1_bool {d : List Byte} {i : Nat} (b : Bool) (h : d.getD i 0 = BitVec.ofNat 8 b.toNat) : num1 d i = b.toNat :=
  num1_field (by have := b.toNat_le; omega) h

theorem phaseSetCode_lt (x : PerPhase Bool) : phaseSetCode x < 2 ^ 8 := by
  have := x.l1.toNat_le; have := x.l2.toNat_le; have := x.l3.toNat_le
  simp only [phaseSetCode]
  omega

theorem sectsCode_byte (x : SectSet) : sectsCode x < 2 ^ 8 := (sectsCode_lt x).trans (by decide)

/-- The record of a differential trip (R156). -/
theorem recordBytes_differential {r : TripRecord} {ph : PerPhase Bool} {z : TripZone} (h : r.cause = .differential ph z) :
    let d := recordBytes r
    num1 d 7 = 1 ∧ num1 d 9 = phaseSetCode ph ∧ num1 d 10 = sectCode z.name ∧ num1 d 11 = sectsCode z.sections ∧
    SumsAt d 12 z.sums ∧ SumsAt d 30 z.chk ∧ num2 d 48 = 0 := by
  obtain ⟨number, epoch, test, cause, closed⟩ := r
  obtain rfl : cause = .differential ph z := h
  exact ⟨rfl, num1_field (phaseSetCode_lt ph) rfl, num1_field (by cases z.name <;> decide) rfl, num1_field (sectsCode_byte _) rfl,
    sumsAt_of rfl, sumsAt_of rfl, num2_field (by decide) rfl rfl⟩

/-- The record of a trip by a backtrip request (R156). -/
theorem recordBytes_backtrip {r : TripRecord} {b : Nat} {x : SectSet} (h : r.cause = .backtrip b x) : let d := recordBytes r
    num1 d 7 = 2 ∧ (∀ i, 9 ≤ i → i < 48 → num1 d i = 0) ∧ (b < 2 ^ 8 → num1 d 48 = b) ∧ num1 d 49 = sectsCode x := by
  obtain ⟨number, epoch, test, cause, closed⟩ := r
  obtain rfl : cause = .backtrip b x := h
  exact ⟨rfl, fun i h1 h2 => by interval_cases i <;> rfl, fun hb => num1_field hb rfl, num1_field (sectsCode_byte _) rfl⟩

/-- The end of a closed record (R158). -/
theorem recordBytes_closed {r : TripRecord} {x : TripClose} (h : r.closed = some x) : let d := recordBytes r
    num1 d 50 = 1 ∧ num4 d 51 = x.epoch.toNat ∧ num1 d 55 = endCode x.how ∧ num1 d 56 = x.retrip.toNat ∧
    num1 d 57 = x.failed.toNat := by
  obtain ⟨number, epoch, test, cause, closed⟩ := r
  obtain rfl : closed = some x := h
  cases cause <;>
    exact ⟨rfl, num4_field x.epoch rfl rfl rfl rfl, num1_field (by cases x.how <;> decide) rfl, num1_bool _ rfl, num1_bool _ rfl⟩

theorem recordBytes_open {r : TripRecord} (h : r.closed = none) : ∀ i, 50 ≤ i → i < 58 → num1 (recordBytes r) i = 0 := by
  obtain ⟨number, epoch, test, cause, closed⟩ := r
  obtain rfl : closed = none := h
  intro i h1 h2
  cases cause <;> interval_cases i <;> rfl

/-- The record's bytes of 11.5: the four fields it begins with, the cause from byte 7 on, and the end from byte 50 on. -/
theorem recordFields (r : TripRecord) : RecordFields r (recordBytes r) where
  size := by unfold recordBytes; cases r.cause <;> cases r.closed <;> rfl
  mark := rfl
  number h := num2_field h rfl rfl
  epoch := num4_field r.epoch rfl rfl rfl rfl
  station := by
    obtain ⟨number, epoch, test, cause, closed⟩ := r
    cases cause <;> cases test <;> rfl
  differential ph z h := by
    obtain ⟨h7, h9, h10, h11, hsums, hchk, h48⟩ := recordBytes_differential h
    exact ⟨h7, h9, h10.trans (by cases z.name <;> rfl), h11, hsums, hchk, h48⟩
  backtrip b x h := recordBytes_backtrip h
  opened h := recordBytes_open h
  closed x h := by
    obtain ⟨h50, h51, h55, h56, h57⟩ := recordBytes_closed h
    exact ⟨h50, h51, h55.trans (by cases x.how <;> rfl), h56, h57⟩

/-- The latch with another record, or none. -/
theorem takeRecordAct_eq {s : State} {x : Option TripRecord} (h : s.tu.held.filter (fun r => r.closed.isNone) = x) :
    takeRecordAct s = respond .ok (recordData s.tu.held) { s with tu := { s.tu with held := x } } := by
  subst h
  rfl

/-- Settles O49. -/
theorem takeRecordEmptiesOnlyClosed : Obligations.TakeRecordEmptiesOnlyClosed := by
  intro s hl
  have taken : exec (.takeRecord []) s = .next (takeRecordAct s) := exec_acts (al := noPayload) rfl hl (by simp) rfl
  rw [taken]
  refine ⟨fun h => ?_, fun r h => ⟨_, recordFields r, fun hr => ?_, fun hr => ?_⟩⟩ <;> refine congrArg Host.Outcome.next ?_
  · rw [takeRecordAct_eq (x := s.tu.held) (by rw [h]; rfl), h]
    exact congrArg (respond .ok [0]) (by rw [← h])
  · rw [takeRecordAct_eq (x := s.tu.held) (by rw [h, Option.filter_some, if_pos (by simp [hr])]), h]
    exact congrArg (respond .ok (recordBytes r)) (by rw [← h])
  · rw [takeRecordAct_eq (x := none) (by rw [h, Option.filter_some, if_neg (by simpa [Option.isNone_iff_eq_none] using hr)]), h]
    rfl

end Sys2Proof.Machine

/-! PROOFS. STATUS, SELECT and READ, the alarms, and the commands that write (sections 10 and 11). -/

namespace Sys2Proof.Machine

open Sys2Proof

/-! ## STATUS (R183) -/

theorem alarmOrder_bit (a : Alarm) : alarmOrder.idxOf a = a.bit := by cases a <;> rfl

theorem statusFields (s : State) : StatusFields s (statusSummary s) := by
  have hflags : num3 (statusSummary s) 2 = s.mp.flags.toNat :=
    num3_field (s.mp.flags.isLt.trans (by decide)) rfl rfl rfl
  have bits : ∀ b : Bool, b.toNat ≤ 1 := fun b => b.toNat_le
  constructor
  case size => rfl
  case station =>
    have hcode : stationCode s.sc.station < 2 ^ 8 := by
      rcases s.sc.station with _ | _ | _ | r
      case running => cases r <;> decide
      all_goals decide
    refine (num1_field hcode rfl).trans ?_
    rcases s.sc.station with _ | _ | _ | r
    case running => cases r <;> rfl
    all_goals rfl
  case causes =>
    refine num1_field (n := causesCode s.sc.causes) ?_ rfl
    have := bits s.sc.causes.converter; have := bits s.sc.causes.duplicate; have := bits s.sc.causes.clock
    simp only [causesCode]
    omega
  case flags => exact fun a => by rw [hflags, alarmOrder_bit, hasFlag, BitVec.testBit_toNat]
  case flagsOnly => exact hflags ▸ s.mp.flags.isLt
  case resets =>
    refine num1_field (n := resetCauseCode s.sc.cause) ?_ rfl
    have := bits s.sc.cause.por; have := bits s.sc.cause.supply; have := bits s.sc.cause.pin; have := bits s.sc.cause.command
    simp only [resetCauseCode]
    omega
  case trip => exact (num1_field (n := tripCode s.tu.trip) (by cases s.tu.trip <;> decide) rfl).trans (by cases s.tu.trip <;> rfl)
  case latch => exact num1_bool _ rfl
  case commit => exact (num1_field (n := commitCode s.cs.commit) (by cases s.cs.commit <;> decide) rfl).trans (by cases s.cs.commit <;> rfl)
  case epoch => exact num4_field s.su.epoch rfl rfl rfl rfl

/-! ## SELECT (R184) -/

theorem bayNumber_inj {a b : Bay} (h : bayNumber a = bayNumber b) : a = b := Fin.ext (Nat.succ.inj h)

theorem bayOf_some {n : Nat} (h1 : 1 ≤ n) (h2 : n ≤ 24) : ∃ b, bayOf n = some b ∧ bayNumber b = n :=
  ⟨⟨n - 1, by omega⟩, by simp [bayOf, h1, h2], by simp only [bayNumber]; omega⟩

theorem blockBytes_length (c : Settings) : (blockBytes c).length = 64 := by rw [blockBytes, len_withCrc, len_blockBody]

theorem blockBytes_crc (c : Settings) : crcOk 64 (blockBytes c) = true := by
  have := crcOk_withCrc (blockBody c)
  rwa [len_blockBody] at this

theorem blockBytes_body (c : Settings) : (blockBytes c).take 62 = blockBody c := by
  rw [blockBytes, withCrc, ← len_blockBody c, List.take_left]

/-- The capture of each table at each of its indexes, with its bytes. -/
theorem capture_of (s : State) {tb : Table} {n : Nat} (h : n ∈ tableIndexes tb) :
    ∃ d, captureTable s tb n = some d ∧ TableBytes s n d tb := by
  cases tb with
  | status =>
    obtain rfl : n = 0 := List.mem_singleton.1 h
    exact ⟨_, rfl, statusTable_laid s⟩
  | peer =>
    obtain ⟨h1, h2⟩ := List.mem_range'_1.1 h
    obtain ⟨b, hb, hn⟩ := bayOf_some (n := n) h1 (by omega)
    refine ⟨peerTable (s.entry b), by simp [captureTable, hb], fun b' hb' => ?_⟩
    rw [bayNumber_inj (hb'.trans hn.symm)]
    exact peerTable_laid _
  | zone =>
    have key : ∀ x, sideNumber (some x) = n → captureTable s .zone n = some (zoneTable s x) ∧ TableBytes s n (zoneTable s x) .zone := by
      intro x hx
      have hsect : sectOf n = some x := by cases x <;> exact hx ▸ rfl
      refine ⟨by simp [captureTable, hsect], fun y hy => ?_⟩
      obtain rfl : x = y := by cases x <;> cases y <;> first
        | rfl
        | exact absurd (hx.trans hy.symm) (by decide)
      exact zoneTable_laid s x
    simp only [tableIndexes, List.mem_cons, List.not_mem_nil, or_false] at h
    rcases h with rfl | rfl | rfl | rfl
    · exact ⟨_, key .a1 rfl⟩
    · exact ⟨_, key .a2 rfl⟩
    · exact ⟨_, key .b1 rfl⟩
    · exact ⟨_, key .b2 rfl⟩
  | checkZone =>
    obtain rfl : n = 0 := List.mem_singleton.1 h
    exact ⟨_, rfl, checkZoneTable_laid s⟩
  | link =>
    simp only [tableIndexes, List.mem_cons, List.not_mem_nil, or_false] at h
    rcases h with rfl | rfl
    · exact ⟨_, rfl, linkTable_laid s.su.lt s.ri.east⟩
    · exact ⟨_, rfl, linkTable_laid s.su.lt s.ri.west⟩
  | counters =>
    obtain rfl : n = 0 := List.mem_singleton.1 h
    exact ⟨_, rfl, countersTable_laid s⟩
  | alarms =>
    obtain rfl : n = 0 := List.mem_singleton.1 h
    exact ⟨_, rfl, alarmsTable_laid s⟩
  | configInUse =>
    obtain rfl : n = 0 := List.mem_singleton.1 h
    refine ⟨_, rfl, ?_⟩
    cases hin : s.cs.inUse with
    | none =>
      have htable : configInUseTable s = List.replicate 64 255 := by simp only [configInUseTable, hin]
      refine ⟨by rw [htable, List.length_replicate], fun _ i hi => ?_, fun c hc => by simp [hin] at hc⟩
      rw [htable, num1, List.getD_eq_getElem?_getD, List.getElem?_replicate_of_lt hi]
      rfl
    | some c =>
      have htable : configInUseTable s = blockBytes c := by simp only [configInUseTable, hin]
      refine ⟨by rw [htable, blockBytes_length], fun h => by simp [hin] at h, fun c' hc => ?_⟩
      obtain rfl : c = c' := Option.some.inj (hin.symm.trans hc)
      rw [htable, blockBytes_body]
      exact ⟨blockBody_laid c, blockBytes_crc c⟩
  | configStored =>
    obtain rfl : n = 0 := List.mem_singleton.1 h
    exact ⟨_, rfl, rfl⟩

theorem tableOf_idx (tb : Table) : tableOf (tableOrder.idxOf tb + 1) = some tb := by cases tb <;> rfl

theorem tableOf_none {n : Nat} (h : n = 0 ∨ 9 < n) : tableOf n = none := by
  unfold tableOf
  split
  case h_10 => rfl
  all_goals omega

theorem selectAct_captures {s : State} {tb : Table} {n k : Nat} {d : List Byte} (ht : tableOf n = some tb)
    (hd : captureTable s tb k = some d) (hb : tb = .configStored → s.cs.commit ≠ .busy) :
    selectAct n k s = respond .ok [] (s.updMp fun m => { m with selection := some ⟨tb, k, d, 0⟩ }) := by
  simp only [selectAct, ht, hd]
  exact if_neg fun h => hb h.1 h.2

theorem selectAct_badTable {s : State} {n k : Nat} (ht : tableOf n = none) : selectAct n k s = respond .badIndex [] s := by
  simp only [selectAct, ht]

theorem selectAct_badIndex {s : State} {n k : Nat} {tb : Table} (ht : tableOf n = some tb) (hd : captureTable s tb k = none) :
    selectAct n k s = respond .badIndex [] s := by
  simp only [selectAct, ht, hd]

/-- A table of index 0 alone has no other. -/
theorem capture_zeroOnly {s : State} {tb : Table} {n : Nat} (h : tableIndexes tb = [0]) (hn : n ≠ 0) : captureTable s tb n = none := by
  obtain ⟨m, rfl⟩ := Nat.exists_eq_succ_of_ne_zero hn
  cases tb <;> first
    | rfl
    | exact absurd h (by decide)

theorem sectOf_none {n : Nat} (h : n = 0 ∨ 4 < n) : sectOf n = none := by
  unfold sectOf
  split
  case h_5 => rfl
  all_goals omega

theorem capture_badLink {s : State} {n : Nat} (h1 : n ≠ 1) (h2 : n ≠ 2) : captureTable s .link n = none := by
  match n with
  | 0 => rfl
  | 1 => exact absurd rfl h1
  | 2 => exact absurd rfl h2
  | _ + 3 => rfl

theorem byte_ne {x : Byte} {n : Nat} (hn : n < 256) (h : x ≠ BitVec.ofNat 8 n) : x.toNat ≠ n := fun hx =>
  h (BitVec.eq_of_toNat_eq (by rw [hx, BitVec.toNat_ofNat, Nat.mod_eq_of_lt hn]))

/-- A request for a table outside the tables, or for an index outside the row of its table (R184). -/
theorem selectAct_refused {t x : Byte} (s : State)
    (h : t = 0 ∨ 9 < t.toNat ∨ ((t = 1 ∨ t = 4 ∨ (6 ≤ t.toNat ∧ t.toNat ≤ 9)) ∧ x ≠ 0) ∨ (t = 2 ∧ (x = 0 ∨ 24 < x.toNat)) ∨
      (t = 3 ∧ (x = 0 ∨ 4 < x.toNat)) ∨ (t = 5 ∧ x ≠ 1 ∧ x ≠ 2)) : selectAct t.toNat x.toNat s = respond .badIndex [] s := by
  have zeroOnly : ∀ {n : Nat} {tb : Table}, t.toNat = n → tableOf n = some tb → tableIndexes tb = [0] → x ≠ 0 →
      selectAct t.toNat x.toNat s = respond .badIndex [] s := fun hn ht hi hx =>
    selectAct_badIndex (hn ▸ ht) (capture_zeroOnly hi (byte_ne (by decide) hx))
  rcases h with rfl | h | ⟨h, hx⟩ | ⟨rfl, hx⟩ | ⟨rfl, hx⟩ | ⟨rfl, hx1, hx2⟩
  · exact selectAct_badTable rfl
  · exact selectAct_badTable (tableOf_none (.inr h))
  · rcases h with rfl | rfl | ⟨h6, h9⟩
    · exact zeroOnly (tb := .status) rfl rfl rfl hx
    · exact zeroOnly (tb := .checkZone) rfl rfl rfl hx
    · obtain hn | hn | hn | hn : t.toNat = 6 ∨ t.toNat = 7 ∨ t.toNat = 8 ∨ t.toNat = 9 := by omega
      · exact zeroOnly (tb := .counters) hn rfl rfl hx
      · exact zeroOnly (tb := .alarms) hn rfl rfl hx
      · exact zeroOnly (tb := .configInUse) hn rfl rfl hx
      · exact zeroOnly (tb := .configStored) hn rfl rfl hx
  · refine selectAct_badIndex (tb := .peer) rfl ?_
    simp [captureTable, bayOf_none hx]
  · refine selectAct_badIndex (tb := .zone) rfl ?_
    have hn : sectOf x.toNat = none := sectOf_none (hx.imp_left fun h => by rw [h]; rfl)
    simp [captureTable, hn]
  · exact selectAct_badIndex (tb := .link) rfl (capture_badLink (byte_ne (by decide) hx1) (byte_ne (by decide) hx2))

/-! ## READ (R184) -/

theorem readAct_badLength {n : Nat} {s : State} (h : n = 0 ∨ 64 < n) : readAct n s = respond .badLength [] s := if_pos h

section
variable {n : Nat} {s : State} (h1 : 1 ≤ n) (h2 : n ≤ 64)
include h1 h2

theorem readAct_none (h : s.mp.selection = none) : readAct n s = respond .noSelection [] s := by
  rw [readAct, if_neg (by omega), h]

theorem readAct_busy {x : Selection} (h : s.mp.selection = some x) (ht : x.table = .configStored) (hb : s.cs.commit = .busy) :
    readAct n s = respond .busy [] s := by
  rw [readAct, if_neg (by omega), h]
  exact if_pos ⟨ht, hb⟩

theorem readAct_next {x : Selection} (h : s.mp.selection = some x) (hb : x.table = .configStored → s.cs.commit ≠ .busy) :
    readAct n s = respond .ok ((x.capture.drop x.offset).take n) (s.updMp fun m =>
      { m with selection := some { x with offset := x.offset + min n (x.capture.length - x.offset) } }) := by
  have hlen : (nextBytes n x).length = min n (x.capture.length - x.offset) := by simp [nextBytes]
  rw [readAct, if_neg (by omega), h]
  dsimp only
  rw [if_neg (fun hc => hb hc.1 hc.2), hlen]
  rfl
end

/-- Settles O48. -/
theorem selectThenReadReturnsCapture : Obligations.SelectThenReadReturnsCapture := by
  refine ⟨fun s hl => ⟨_, exec_acts (al := noPayload) rfl hl (by simp) rfl, statusFields s⟩,
    fun t x m s hl => ?_, fun n s hl => ?_⟩
  · have selected : exec (.select [t, x] m) s = .next (selectAct t.toNat x.toNat (advanceTo m s)) :=
      congrArg Host.Outcome.next (takeCommand_acts (listens_advanceTo hl) (by simp) rfl)
    rw [selected]
    refine ⟨fun tb ht hx hb => ?_, fun ht hx hb => ?_, fun h => ?_⟩
    · obtain ⟨d, hd, hbytes⟩ := capture_of (advanceTo m s) hx
      refine ⟨d, hbytes, ?_⟩
      rw [selectAct_captures (ht ▸ tableOf_idx tb) hd (by rw [advanceTo_cs]; exact hb)]
      rfl
    · obtain rfl := ht
      obtain rfl := hx
      refine congrArg Host.Outcome.next (if_pos ⟨rfl, ?_⟩)
      rw [advanceTo_cs]
      exact hb
    · rw [selectAct_refused (advanceTo m s) h]
      rfl
  · have taken : exec (.read [n]) s = .next (readAct n.toNat s) := exec_acts (al := (· == 1)) rfl hl (by simp) rfl
    rw [taken]
    refine ⟨fun h => ?_, fun h1 h2 => ⟨fun hsel => ?_, fun x hsel => ⟨fun ht hb => ?_, fun hb => ?_⟩⟩⟩
    · rw [readAct_badLength (h.imp_left fun h => by rw [h]; rfl)]
      rfl
    · rw [readAct_none h1 h2 hsel]
      rfl
    · rw [readAct_busy h1 h2 hsel ht hb]
      rfl
    · rw [readAct_next h1 h2 hsel hb]
      rfl

/-! ## The alarms (11, section 11.4) -/

theorem hasFlag_and (a : Alarm) (f g : BitVec 19) : hasFlag a (f &&& g) = (hasFlag a f && hasFlag a g) := by
  simp [hasFlag]

theorem keptFlags_has (s : State) (a : Alarm) : hasFlag a (keptFlags s) = (hasFlag a s.mp.flags && alarmCause s a) := by
  rw [keptFlags, hasFlag_and, causesHeld, flagSet_has]

theorem any_allBays {p : Bay → Bool} : allBays.any p = true ↔ ∃ b, p b = true := by
  rw [List.any_eq_true]
  exact ⟨fun ⟨b, _, h⟩ => ⟨b, h⟩, fun ⟨b, h⟩ => ⟨b, List.mem_finRange b, h⟩⟩

theorem peerStaleCause_iff (s : State) : peerStaleCause s = true ↔ ∃ b : Bay, (∀ c, s.cs.inUse = some c → b ≠ c.bay) ∧
    (s.entry b).decl ≠ none ∧ ((s.entry b).presence = .joining ∨ (s.entry b).presence = .stale ∨ (s.entry b).presence = .absent) ∧
    ∃ r, (s.entry b).declared = some r ∧ r ≠ .isolated := by
  rw [peerStaleCause, any_allBays]
  refine exists_congr fun b => ?_
  simp only [Bool.and_eq_true, and_assoc]
  refine and_congr ?_ (and_congr ?_ (and_congr ?_ ?_))
  · cases s.cs.inUse <;> simp
  · simp [Option.isSome_iff_ne_none]
  · cases (s.entry b).presence <;> simp
  · cases (s.entry b).declared with
    | none => simp
    | some r => cases r <;> simp

theorem anyPhase_iff {p : ZoneState → Bool} (q : PerPhase ZoneState) : q.any p = true ↔ ∃ ph, p (q.get ph) = true := by
  simp only [PerPhase.any, Bool.or_eq_true]
  constructor
  · rintro ((h | h) | h)
    · exact ⟨.l1, h⟩
    · exact ⟨.l2, h⟩
    · exact ⟨.l3, h⟩
  · rintro ⟨ph, h⟩
    cases ph
    · exact .inl (.inl h)
    · exact .inl (.inr h)
    · exact .inr h

theorem anyBlockedAt400_iff (s : State) : anyBlockedAt400 s = true ↔ ∃ ph r, standsAt400 s.ze ph r := by
  simp only [anyBlockedAt400, Bool.or_eq_true, List.any_eq_true, anyPhase_iff, beq_iff_eq]
  constructor
  · rintro (⟨x, -, ph, h⟩ | ⟨ph, h⟩)
    · exact ⟨ph, .zone (zoneNameOf s.ze x), x, rfl, h⟩
    · exact ⟨ph, .check, h⟩
  · rintro ⟨ph, r, h⟩
    cases r with
    | zone x =>
      obtain ⟨y, -, hy⟩ := h
      exact .inl ⟨y, mem_allSects y, ph, hy⟩
    | check => exact .inr ⟨ph, h⟩

/-- Settles O50. -/
theorem clearAlarmsKeepsHeldCauses : Obligations.ClearAlarmsKeepsHeldCauses := by
  intro s hl
  have taken : exec (.clearAlarms []) s = .next (clearAlarmsAct s) := exec_acts (al := noPayload) rfl hl (by simp) rfl
  refine ⟨_, taken, keptFlags_has s, rfl, by simp [alarmCause], rfl, by simp [alarmCause], by simp [alarmCause], by simp [alarmCause],
    by simp [alarmCause], by simp [alarmCause], by simp [alarmCause], peerStaleCause_iff s, ?_, rfl, ?_, ?_, by simp [alarmCause],
    by simp [alarmCause], anyBlockedAt400_iff s, by simp [alarmCause], rfl, rfl, rfl, ?_, rfl, ?_, rfl, rfl⟩
  · rw [alarmCause, any_allBays]
    simp
  · simp only [alarmCause, Bool.or_eq_true]
    constructor
    · rintro ((h | h) | h)
      · exact ⟨.q1, h⟩
      · exact ⟨.q2, h⟩
      · exact ⟨.cb, h⟩
    · rintro ⟨q, h⟩
      cases q
      · exact .inl (.inl h)
      · exact .inl (.inr h)
      · exact .inr h
  · simp only [alarmCause]
    cases s.ciu.cond <;> simp
  · intro q
    cases q <;> rfl
  · intro z ph
    change (z, ph) ∈ s.ze.blockedDetail.filter _ ↔ _
    rw [List.mem_filter, standing400_iff]

/-- Settles O54. -/
theorem alarmLineFollowsFlags : Obligations.AlarmLineFollowsFlags := by
  intro s
  have line : ∀ f : BitVec 19, f ≠ 0 ↔ ∃ a : Alarm, hasFlag a f = true := by
    intro f
    constructor
    · intro hf
      by_contra hnone
      push Not at hnone
      refine hf (BitVec.eq_of_getLsbD_eq fun i hi => ?_)
      obtain ⟨a, rfl⟩ : ∃ a : Alarm, a.bit = i := ⟨alarmOrder[i], by interval_cases i <;> rfl⟩
      simpa [hasFlag] using hnone a
    · rintro ⟨a, ha⟩ rfl
      simp [hasFlag] at ha
  have enabled : ∀ a, hasFlag a (enableSet s) = true ↔
      (a = .clock ∨ a = .config ∨ ∃ c, s.cs.inUse = some c ∧ hasFlag a c.alarmEnable = true) := by
    intro a
    have three : hasFlag a 3#19 = true ↔ a = .clock ∨ a = .config := by cases a <;> decide
    have or : ∀ f g : BitVec 19, hasFlag a (f ||| g) = (hasFlag a f || hasFlag a g) := fun f g => by simp [hasFlag]
    rw [enableSet, or, Bool.or_eq_true]
    cases s.cs.inUse with
    | none =>
      have zero : hasFlag a 0#19 = false := by simp [hasFlag]
      simp [zero, three]
    | some c => simp [three, or_comm, or_assoc]
  simp only [alarmLine, Bool.and_eq_true, Bool.not_eq_true', decide_eq_true_eq, line, hasFlag_and, enabled]

/-! ## The commands that write (R169, R173, R177 to R179, R183) -/

/-- Settles O51. -/
theorem clearCountersPeerAndTest : Obligations.ClearCountersPeerAndTest := by
  refine ⟨fun s hl => exec_acts (al := noPayload) (act := clearCountersAct) rfl hl (by simp) rfl, fun x s hl => ?_, fun s hl =>
    ⟨exec_acts (al := noPayload) (act := testAct true) rfl hl (by simp) rfl,
      exec_acts (al := noPayload) (act := testAct false) rfl hl (by simp) rfl⟩⟩
  have taken : exec (.clearPeer [x]) s = .next (clearPeerAct x.toNat s) := exec_acts (al := (· == 1)) rfl hl (by simp) rfl
  rw [taken]
  refine ⟨fun h => ?_, fun b hb => ?_⟩
  · simp only [clearPeerAct, bayOf_none h]
    rfl
  · rw [clearPeerAct, ← hb, bayOf_number]
    exact ⟨fun h => congrArg Host.Outcome.next (if_neg h), fun h => congrArg Host.Outcome.next (if_pos h)⟩

theorem fitBlock_of_length {bytes : List Byte} (h : bytes.length = 64) : fitBlock bytes = bytes := by
  rw [fitBlock, ← h, List.take_left]

/-- Settles O52. -/
theorem stageCommitAndEnd : Obligations.StageCommitAndEnd := by
  refine ⟨fun o d ds s hl hsize hds => ?_, fun g s hl => ?_, fun bytes s hb hlen => ?_⟩
  · have taken : exec (.stage (o :: d :: ds)) s = .next (stageAct o.toNat (d :: ds) s) :=
      exec_acts (al := fun n => decide (2 ≤ n)) rfl hl (by simp; omega) (by simp)
    have hcount : (d :: ds).length = ds.length + 1 := rfl
    dsimp only
    rw [taken, stageAct]
    refine ⟨fun h => ?_, fun h1 h2 => ?_, fun h1 h2 => ?_, fun h1 h2 => ?_⟩
    · rw [if_pos h]
      rfl
    · rw [if_neg (by omega), if_pos (by omega)]
      rfl
    · rw [if_neg (by omega), if_neg (by omega), if_pos h2]
      rfl
    · rw [if_neg (by omega), if_neg (by omega), if_neg h2]
      obtain ⟨hbuf, hbytes⟩ := stageBytes_get o.toNat (d :: ds) s.cs.staging hsize.2 (by omega)
      exact ⟨_, hbuf, hbytes, rfl⟩
  · have taken : exec (.commit [] g) s = .next (commitAct (s.updPins fun p => { p with cfgen := g })) :=
      congrArg Host.Outcome.next (takeCommand_acts (s := s.updPins fun p => { p with cfgen := g }) hl (by simp) rfl)
    rw [taken]
    refine congrArg Host.Outcome.next ?_
    cases g
    · rfl
    · rfl
  · refine congrArg Host.Outcome.next ?_
    simp only [commitDoneOp, if_pos hb, fitBlock_of_length hlen]
    rfl

end Sys2Proof.Machine

/-! PROOFS. Configuration blocks and frames survive their bytes (section 11.5). -/

namespace Sys2Proof.Machine

open Sys2Proof

/-! ## The configuration block (R175, R188) -/

/-- Each number of a configuration fits the one, two or three bytes that its block holds it in. -/
structure BlockRanges (c : Settings) : Prop where
  scheme : c.scheme < 65536
  tag : c.tag < 65536
  scale : c.scale < 65536
  iMin : c.iMin < 65536
  iChkMin : c.iChkMin < 65536
  k : c.k < 256
  kChk : c.kChk < 256
  iOnset : c.iOnset < 65536
  window : c.window < 256
  nOp : c.nOp < 256
  tStab : c.tStab < 65536
  delay : c.delay < 256
  filterTick : c.filterTick < 256
  isoAlarm : c.isoAlarm < 16777216
  endZone : c.endZone < 65536
  tSeal : c.tSeal < 65536
  tRetrip : c.tRetrip < 65536
  tBf : c.tBf < 65536
  iBf : c.iBf < 65536

theorem blockRanges_of_ok {c : Settings} (h : c.ok = true) : BlockRanges c := by
  simp only [Settings.ok, Bool.and_eq_true, decide_eq_true_eq] at h
  constructor <;> omega

theorem bayNumber_lt (b : Bay) : bayNumber b < 256 := by
  have := b.isLt
  simp only [bayNumber]
  omega

theorem replicate_all {α : Type} {p : α → Bool} {x : α} (h : p x = true) (n : Nat) : (List.replicate n x).all p = true := by
  simp [h]

theorem blockBytes_zeros (c : Settings) : ((blockBytes c).drop 46).take 16 = List.replicate 16 0 := by
  obtain ⟨A, hA, hbody⟩ := body_split c
  rw [blockBytes, withCrc, hbody, List.append_assoc, ← hA, List.drop_left]
  rfl

section
variable {c : Settings} (z : List Byte)

theorem blockBody_bay : num1 (blockBody c ++ z) 4 = bayNumber c.bay := by
  simp only [blockBody_append, num1_skip2]
  exact num1_byte1 _ _ (bayNumber_lt _)

theorem blockBody_kind : num1 (blockBody c ++ z) 5 = kindCode c.kind := by
  simp only [blockBody_append, num1_skip1, num1_skip2]
  exact num1_byte1 _ _ ((kindCode_lt _).trans (by decide))

theorem blockBody_side1 : num1 (blockBody c ++ z) 6 = sectCode c.side1 := by
  simp only [blockBody_append, num1_skip1, num1_skip2]
  exact num1_byte1 _ _ ((sectCode_lt _).trans (by decide))

theorem blockBody_side2 : num1 (blockBody c ++ z) 7 = sideCode c.side2 := by
  simp only [blockBody_append, num1_skip1, num1_skip2]
  exact num1_byte1 _ _ ((sideCode_lt _).trans (by decide))

theorem blockBody_present : num1 (blockBody c ++ z) 11 = sectsCode c.present := by
  simp only [blockBody_append, num1_skip1, num1_skip2, num1_skip3]
  exact num1_byte1 _ _ (sectsCode_byte _)

theorem blockBody_inverted : num1 (blockBody c ++ z) 14 = c.inverted.toNat := by
  simp only [blockBody_append, num1_skip1, num1_skip2, num1_skip3]
  exact num1_bool _ rfl

theorem blockBody_breakerCheck : num1 (blockBody c ++ z) 42 = c.breakerCheck.toNat := by
  simp only [blockBody_append, num1_skip1, num1_skip2, num1_skip3, num1_skipb]
  exact num1_bool _ rfl

theorem blockBody_alarmEnable : num3 (blockBody c ++ z) 43 = c.alarmEnable.toNat := by
  simp only [blockBody_append, num3_skip1, num3_skip2, num3_skip3, num3_skipb]
  exact num3_byte3 _ _ (c.alarmEnable.isLt.trans (by decide))

theorem blockBody_installed : num3 (blockBody c ++ z) 8 = c.installed.toNat := by
  simp only [blockBody_append, num3_skip1, num3_skip2]
  exact num3_byte3 _ _ c.installed.isLt

theorem blockBody_scheme (h : BlockRanges c) : num2 (blockBody c ++ z) 0 = c.scheme := by
  simp only [blockBody_append]
  exact num2_byte2 _ _ h.scheme

theorem blockBody_tag (h : BlockRanges c) : num2 (blockBody c ++ z) 2 = c.tag := by
  simp only [blockBody_append, num2_skip2]
  exact num2_byte2 _ _ h.tag

theorem blockBody_scale (h : BlockRanges c) : num2 (blockBody c ++ z) 12 = c.scale := by
  simp only [blockBody_append, num2_skip1, num2_skip2, num2_skip3]
  exact num2_byte2 _ _ h.scale

theorem blockBody_iMin (h : BlockRanges c) : num2 (blockBody c ++ z) 15 = c.iMin := by
  simp only [blockBody_append, num2_skip1, num2_skip2, num2_skip3, num2_skipb]
  exact num2_byte2 _ _ h.iMin

theorem blockBody_k (h : BlockRanges c) : num1 (blockBody c ++ z) 17 = c.k := by
  simp only [blockBody_append, num1_skip1, num1_skip2, num1_skip3, num1_skipb]
  exact num1_byte1 _ _ h.k

theorem blockBody_iChkMin (h : BlockRanges c) : num2 (blockBody c ++ z) 18 = c.iChkMin := by
  simp only [blockBody_append, num2_skip1, num2_skip2, num2_skip3, num2_skipb]
  exact num2_byte2 _ _ h.iChkMin

theorem blockBody_kChk (h : BlockRanges c) : num1 (blockBody c ++ z) 20 = c.kChk := by
  simp only [blockBody_append, num1_skip1, num1_skip2, num1_skip3, num1_skipb]
  exact num1_byte1 _ _ h.kChk

theorem blockBody_iOnset (h : BlockRanges c) : num2 (blockBody c ++ z) 21 = c.iOnset := by
  simp only [blockBody_append, num2_skip1, num2_skip2, num2_skip3, num2_skipb]
  exact num2_byte2 _ _ h.iOnset

theorem blockBody_window (h : BlockRanges c) : num1 (blockBody c ++ z) 23 = c.window := by
  simp only [blockBody_append, num1_skip1, num1_skip2, num1_skip3, num1_skipb]
  exact num1_byte1 _ _ h.window

theorem blockBody_nOp (h : BlockRanges c) : num1 (blockBody c ++ z) 24 = c.nOp := by
  simp only [blockBody_append, num1_skip1, num1_skip2, num1_skip3, num1_skipb]
  exact num1_byte1 _ _ h.nOp

theorem blockBody_tStab (h : BlockRanges c) : num2 (blockBody c ++ z) 25 = c.tStab := by
  simp only [blockBody_append, num2_skip1, num2_skip2, num2_skip3, num2_skipb]
  exact num2_byte2 _ _ h.tStab

theorem blockBody_delay (h : BlockRanges c) : num1 (blockBody c ++ z) 27 = c.delay := by
  simp only [blockBody_append, num1_skip1, num1_skip2, num1_skip3, num1_skipb]
  exact num1_byte1 _ _ h.delay

theorem blockBody_filterTick (h : BlockRanges c) : num1 (blockBody c ++ z) 28 = c.filterTick := by
  simp only [blockBody_append, num1_skip1, num1_skip2, num1_skip3, num1_skipb]
  exact num1_byte1 _ _ h.filterTick

theorem blockBody_isoAlarm (h : BlockRanges c) : num3 (blockBody c ++ z) 29 = c.isoAlarm := by
  simp only [blockBody_append, num3_skip1, num3_skip2, num3_skip3, num3_skipb]
  exact num3_byte3 _ _ h.isoAlarm

theorem blockBody_endZone (h : BlockRanges c) : num2 (blockBody c ++ z) 32 = c.endZone := by
  simp only [blockBody_append, num2_skip1, num2_skip2, num2_skip3, num2_skipb]
  exact num2_byte2 _ _ h.endZone

theorem blockBody_tSeal (h : BlockRanges c) : num2 (blockBody c ++ z) 34 = c.tSeal := by
  simp only [blockBody_append, num2_skip1, num2_skip2, num2_skip3, num2_skipb]
  exact num2_byte2 _ _ h.tSeal

theorem blockBody_tRetrip (h : BlockRanges c) : num2 (blockBody c ++ z) 36 = c.tRetrip := by
  simp only [blockBody_append, num2_skip1, num2_skip2, num2_skip3, num2_skipb]
  exact num2_byte2 _ _ h.tRetrip

theorem blockBody_tBf (h : BlockRanges c) : num2 (blockBody c ++ z) 38 = c.tBf := by
  simp only [blockBody_append, num2_skip1, num2_skip2, num2_skip3, num2_skipb]
  exact num2_byte2 _ _ h.tBf

theorem blockBody_iBf (h : BlockRanges c) : num2 (blockBody c ++ z) 40 = c.iBf := by
  simp only [blockBody_append, num2_skip1, num2_skip2, num2_skip3, num2_skipb]
  exact num2_byte2 _ _ h.iBf

end

theorem blockFields_blockBytes {c : Settings} (h : BlockRanges c) : blockFields (blockBytes c) = some c := by
  have bool : ∀ b : Bool, (b.toNat == 1) = b := by decide
  have bit : ∀ b : Bool, b.toNat < 2 := by decide
  simp only [blockFields, blockBytes, withCrc, blockBody_bay, blockBody_kind, blockBody_side1, blockBody_side2, blockBody_present,
    blockBody_inverted, blockBody_breakerCheck, blockBody_alarmEnable, blockBody_installed, blockBody_scheme _ h, blockBody_tag _ h,
    blockBody_scale _ h, blockBody_iMin _ h, blockBody_k _ h, blockBody_iChkMin _ h, blockBody_kChk _ h, blockBody_iOnset _ h,
    blockBody_window _ h,
    blockBody_nOp _ h, blockBody_tStab _ h, blockBody_delay _ h, blockBody_filterTick _ h, blockBody_isoAlarm _ h, blockBody_endZone _ h,
    blockBody_tSeal _ h, blockBody_tRetrip _ h, blockBody_tBf _ h, blockBody_iBf _ h, bayOf_number,
    kindOf_code, sectOf_code, sideOf_code, sectsOf_code, bool, BitVec.ofNat_toNat, BitVec.setWidth_eq]
  exact if_pos ⟨sectsCode_lt _, bit _, bit _, c.alarmEnable.isLt⟩

/-- Settles O25. -/
theorem configBlockRoundTrip : Obligations.ConfigBlockRoundTrip := by
  refine fun c h => ⟨blockBytes_length c, ?_⟩
  have hzeros : (((blockBytes c).drop 46).take 16).all (· == 0) = true := by rw [blockBytes_zeros]; exact replicate_all rfl 16
  rw [goodBlock, if_pos ⟨blockBytes_length c, blockBytes_crc c, hzeros⟩, blockFields_blockBytes (blockRanges_of_ok h)]
  exact if_pos h

/-! ## Frames (R37, R39, R43, R188) -/

theorem bayBody_append (f : BayFrame) (z : List Byte) : bayBody f ++ z =
    byte1 1 ++ (byte1 f.source ++ (byte2 f.scheme ++ (byte2 f.tag ++ (byte2 f.seqNo.toNat ++ (byte1 f.hops ++ (byte3 f.age ++
    (byte1 (kindCode f.decl.kind) ++ (byte1 (sideCode f.decl.side1) ++ (byte1 (sideCode f.decl.side2) ++ (byte1 (runCode f.declared) ++
    (byte1 (16 * switchCode f.replica.iso1 + 4 * switchCode f.replica.iso2 + switchCode f.replica.breaker) ++
    (byte1 (16 * validityCode f.val.l1 + 4 * validityCode f.val.l2 + validityCode f.val.l3) ++
    (signed2 f.cur.l1 ++ (signed2 f.cur.l2 ++ (signed2 f.cur.l3 ++
    (byte1 (sectsCode f.backtrip) ++ (byte1 (255 - sectsCode f.backtrip) ++ z))))))))))))))))) := by
  unfold bayBody
  repeat rw [List.append_assoc]

theorem num1_skipSigned (v : Int) (l : List Byte) (i : Nat) : num1 (signed2 v ++ l) (i + 2) = num1 l i := rfl

theorem num2_skipSigned (v : Int) (l : List Byte) (i : Nat) : num2 (signed2 v ++ l) (i + 2) = num2 l i := rfl

theorem toSigned16_signed2 {v : Int} (l : List Byte) (h : v.natAbs ≤ 32767) : toSigned16 (num2 (signed2 v ++ l) 0) = v := by
  rw [signed2, num2_byte2 _ _ (BitVec.ofInt 16 v).isLt, toSigned16, BitVec.ofNat_toNat, BitVec.setWidth_eq]
  exact BitVec.toInt_ofInt_eq_self (by decide) (by omega) (by omega)

theorem bayBody_length (f : BayFrame) : (bayBody f).length = 26 := by
  unfold bayBody signed2
  repeat rw [List.length_append]
  repeat rw [len3]
  repeat rw [len2]
  repeat rw [len1]

theorem switchCode_lt (x : Switch) : switchCode x < 4 := by cases x <;> decide

theorem validityCode_lt (x : Validity) : validityCode x < 4 := by cases x <;> decide

theorem runCode_lt (x : RunState) : runCode x < 256 := by cases x <;> decide

/-- Three codes of two bits in one byte are read back each from its place. -/
theorem twoBits_split {a b c : Nat} (ha : a < 4) (hb : b < 4) (hc : c < 4) :
    let n := 16 * a + 4 * b + c
    n < 64 ∧ n / 16 % 4 = a ∧ n / 4 % 4 = b ∧ n % 4 = c := by
  intro n
  omega

section
variable {f : BayFrame} (z : List Byte)

theorem bayBody_mark : num1 (bayBody f ++ z) 0 = 1 := by
  rw [bayBody_append]
  exact num1_byte1 _ _ (by decide)

theorem bayBody_source (h : f.source < 256) : num1 (bayBody f ++ z) 1 = f.source := by
  simp only [bayBody_append, num1_skip1]
  exact num1_byte1 _ _ h

theorem bayBody_scheme (h : f.scheme < 65536) : num2 (bayBody f ++ z) 2 = f.scheme := by
  simp only [bayBody_append, num2_skip1]
  exact num2_byte2 _ _ h

theorem bayBody_tag (h : f.tag < 65536) : num2 (bayBody f ++ z) 4 = f.tag := by
  simp only [bayBody_append, num2_skip1, num2_skip2]
  exact num2_byte2 _ _ h

theorem bayBody_seqNo : num2 (bayBody f ++ z) 6 = f.seqNo.toNat := by
  simp only [bayBody_append, num2_skip1, num2_skip2]
  exact num2_byte2 _ _ f.seqNo.isLt

theorem bayBody_hops (h : f.hops < 256) : num1 (bayBody f ++ z) 8 = f.hops := by
  simp only [bayBody_append, num1_skip1, num1_skip2]
  exact num1_byte1 _ _ h

theorem bayBody_age (h : f.age < 16777216) : num3 (bayBody f ++ z) 9 = f.age := by
  simp only [bayBody_append, num3_skip1, num3_skip2]
  exact num3_byte3 _ _ h

theorem bayBody_kind : num1 (bayBody f ++ z) 12 = kindCode f.decl.kind := by
  simp only [bayBody_append, num1_skip1, num1_skip2, num1_skip3]
  exact num1_byte1 _ _ ((kindCode_lt _).trans (by decide))

theorem bayBody_side1 : num1 (bayBody f ++ z) 13 = sideCode f.decl.side1 := by
  simp only [bayBody_append, num1_skip1, num1_skip2, num1_skip3]
  exact num1_byte1 _ _ ((sideCode_lt _).trans (by decide))

theorem bayBody_side2 : num1 (bayBody f ++ z) 14 = sideCode f.decl.side2 := by
  simp only [bayBody_append, num1_skip1, num1_skip2, num1_skip3]
  exact num1_byte1 _ _ ((sideCode_lt _).trans (by decide))

theorem bayBody_declared : num1 (bayBody f ++ z) 15 = runCode f.declared := by
  simp only [bayBody_append, num1_skip1, num1_skip2, num1_skip3]
  exact num1_byte1 _ _ (runCode_lt _)

theorem bayBody_replica :
    num1 (bayBody f ++ z) 16 = 16 * switchCode f.replica.iso1 + 4 * switchCode f.replica.iso2 + switchCode f.replica.breaker := by
  simp only [bayBody_append, num1_skip1, num1_skip2, num1_skip3]
  exact num1_byte1 _ _ ((twoBits_split (switchCode_lt _) (switchCode_lt _) (switchCode_lt _)).1.trans (by decide))

theorem bayBody_val :
    num1 (bayBody f ++ z) 17 = 16 * validityCode f.val.l1 + 4 * validityCode f.val.l2 + validityCode f.val.l3 := by
  simp only [bayBody_append, num1_skip1, num1_skip2, num1_skip3]
  exact num1_byte1 _ _ ((twoBits_split (validityCode_lt _) (validityCode_lt _) (validityCode_lt _)).1.trans (by decide))

theorem bayBody_cur1 (h : f.cur.l1.natAbs ≤ 32767) : toSigned16 (num2 (bayBody f ++ z) 18) = f.cur.l1 := by
  simp only [bayBody_append, num2_skip1, num2_skip2, num2_skip3]
  exact toSigned16_signed2 _ h

theorem bayBody_cur2 (h : f.cur.l2.natAbs ≤ 32767) : toSigned16 (num2 (bayBody f ++ z) 20) = f.cur.l2 := by
  simp only [bayBody_append, num2_skip1, num2_skip2, num2_skip3, num2_skipSigned]
  exact toSigned16_signed2 _ h

theorem bayBody_cur3 (h : f.cur.l3.natAbs ≤ 32767) : toSigned16 (num2 (bayBody f ++ z) 22) = f.cur.l3 := by
  simp only [bayBody_append, num2_skip1, num2_skip2, num2_skip3, num2_skipSigned]
  exact toSigned16_signed2 _ h

theorem bayBody_backtrip : num1 (bayBody f ++ z) 24 = sectsCode f.backtrip := by
  simp only [bayBody_append, num1_skip1, num1_skip2, num1_skip3, num1_skipSigned]
  exact num1_byte1 _ _ (sectsCode_byte _)

theorem bayBody_complement : num1 (bayBody f ++ z) 25 = 255 - sectsCode f.backtrip := by
  simp only [bayBody_append, num1_skip1, num1_skip2, num1_skip3, num1_skipSigned]
  exact num1_byte1 _ _ (Nat.lt_of_le_of_lt (Nat.sub_le _ _) (by decide))

end

theorem currentOk_of {v : Validity} {x : Int} (h : x.natAbs ≤ 32767 ∧ (v ≠ .valid → x = 0)) : currentOk v x = true := by
  have hx : x ≠ -32768 := by rintro rfl; exact absurd h.1 (by decide)
  by_cases hv : v = .valid
  · simp [currentOk, hx, hv]
  · simp [currentOk, h.2 hv]

theorem bayFields_bayBytes {f : BayFrame} (hsource : f.source < 256) (hscheme : f.scheme < 65536) (htag : f.tag < 65536)
    (hhops : f.hops < 256) (hage : f.age < 16777216)
    (hcur : ∀ ph, (f.cur.get ph).natAbs ≤ 32767 ∧ (f.val.get ph ≠ .valid → f.cur.get ph = 0)) : bayFields (bayBytes f) = some f := by
  obtain ⟨hsw, hsw1, hsw2, hsw3⟩ :=
    twoBits_split (switchCode_lt f.replica.iso1) (switchCode_lt f.replica.iso2) (switchCode_lt f.replica.breaker)
  obtain ⟨hv, hv1, hv2, hv3⟩ := twoBits_split (validityCode_lt f.val.l1) (validityCode_lt f.val.l2) (validityCode_lt f.val.l3)
  simp only [bayFields, bayBytes, withCrc, bayBody_source _ hsource, bayBody_scheme _ hscheme, bayBody_tag _ htag, bayBody_seqNo,
    bayBody_hops _ hhops, bayBody_age _ hage, bayBody_kind, bayBody_side1, bayBody_side2, bayBody_declared, bayBody_replica, bayBody_val,
    bayBody_cur1 _ (hcur .l1).1, bayBody_cur2 _ (hcur .l2).1, bayBody_cur3 _ (hcur .l3).1, bayBody_backtrip, bayBody_complement,
    hsw1, hsw2, hsw3, hv1, hv2, hv3, kindOf_code, sideOf_code, runOf_code, validityOf_code, switchOf_code, sectsOf_code,
    BitVec.ofNat_toNat, BitVec.setWidth_eq]
  exact if_pos ⟨hsw, hv, sectsCode_lt _, trivial, currentOk_of (hcur .l1), currentOk_of (hcur .l2), currentOk_of (hcur .l3)⟩

theorem bayBytes_length (f : BayFrame) : (bayBytes f).length = 28 := by
  rw [bayBytes, len_withCrc, bayBody_length]

theorem bayBytes_crc (f : BayFrame) : crcOk 28 (bayBytes f) = true := by
  have h := crcOk_withCrc (bayBody f)
  rwa [bayBody_length] at h

theorem echoBytes_crc (kind : Nat) (b : Bay) (n : BitVec 8) (turn : Nat) : crcOk 8 (echoBytes kind b n turn) = true :=
  crcOk_withCrc (byte1 kind ++ byte1 (bayNumber b) ++ [n, ~~~n] ++ byte2 turn)

theorem echoBytes_number (kind : Nat) (b : Bay) (n : BitVec 8) (turn : Nat) :
    num1 (echoBytes kind b n turn) 2 = n.toNat ∧ num1 (echoBytes kind b n turn) 3 = 255 - n.toNat := by
  refine ⟨rfl, ?_⟩
  have h : num1 (echoBytes kind b n turn) 3 = (~~~n).toNat := rfl
  rw [h, BitVec.toNat_not]

theorem echoBytes_sender (kind : Nat) (b : Bay) (n : BitVec 8) (turn : Nat) :
    1 ≤ num1 (echoBytes kind b n turn) 1 ∧ num1 (echoBytes kind b n turn) 1 ≤ 24 := by
  have h : num1 (echoBytes kind b n turn) 1 = bayNumber b := num1_field (bayNumber_lt b) rfl
  have := b.isLt
  rw [h, bayNumber]
  omega

theorem echoBytes_turn {turn : Nat} (kind : Nat) (b : Bay) (n : BitVec 8) (h : turn < 65536) :
    num2 (echoBytes kind b n turn) 4 = turn := num2_field h rfl rfl

/-- An echo frame passes the tests that step 1 of R43 makes on both kinds. -/
theorem echoBytes_passes (kind : Nat) (b : Bay) (n : BitVec 8) (turn : Nat) :
    let bs := echoBytes kind b n turn
    bs.length = 8 ∧ crcOk 8 bs ∧ 1 ≤ num1 bs 1 ∧ num1 bs 1 ≤ 24 ∧ num1 bs 3 = 255 - num1 bs 2 := by
  obtain ⟨hn, hc⟩ := echoBytes_number kind b n turn
  obtain ⟨h1, h24⟩ := echoBytes_sender kind b n turn
  exact ⟨rfl, echoBytes_crc kind b n turn, h1, h24, by rw [hn, hc]⟩

theorem checkFrame_request (b : Bay) (n : BitVec 8) : checkFrame (echoBytes 2 b n 0) = some (.request n) := by
  have hmark : num1 (echoBytes 2 b n 0) 0 = 2 := rfl
  rw [checkFrame, if_neg (by rw [hmark]; decide), if_pos (.inl hmark), if_pos (echoBytes_passes 2 b n 0), if_pos hmark,
    if_pos (echoBytes_turn 2 b n (by decide))]
  rfl

theorem checkFrame_answer (b : Bay) (n : BitVec 8) {turn : Nat} (h : turn < 65536) :
    checkFrame (echoBytes 3 b n turn) = some (.answer n turn) := by
  have hmark : num1 (echoBytes 3 b n turn) 0 = 3 := rfl
  rw [checkFrame, if_neg (by rw [hmark]; decide), if_pos (.inr hmark), if_pos (echoBytes_passes 3 b n turn),
    if_neg (by rw [hmark]; decide), echoBytes_turn 3 b n h]
  rfl

/-- Settles O24. -/
theorem framesRoundTrip : Obligations.FramesRoundTrip := by
  refine ⟨fun f hsource hscheme htag hhops hage hcur => ⟨bayBytes_length f, ?_⟩, fun b n turn h =>
    ⟨checkFrame_request b n, checkFrame_answer b n h, rfl, rfl⟩⟩
  have hmark : num1 (bayBytes f) 0 = 1 := bayBody_mark _
  rw [checkFrame, if_pos hmark, if_pos ⟨bayBytes_length f, bayBytes_crc f⟩,
    bayFields_bayBytes hsource hscheme htag hhops hage hcur]
  rfl

end Sys2Proof.Machine

/-! PROOFS. The parts of an epoch, before and after its choice of the station state, and sampling and contacts at it (sections 1 and 2). -/

namespace Sys2Proof.Machine

open Sys2Proof

/-! ## The parts of an epoch -/

/-- The state on which an epoch chooses the station state: the clock and the contacts, and the parts that its operand puts before. -/
def beforeChoice (c : Settings) (k : Contacts) (tcs : Bool) (o : EpochOrder) (s : State) : State :=
  stageIf o.linksFirst ringEpoch (stageIf o.peersFirst (peerEpoch c) (stageIf (decide (o.late = .beforeChoice)) (lateEvent c)
    (contactEpoch c k (clockEpoch k tcs s).su.epoch (clockEpoch k tcs s))))

/-- The parts of an epoch after its choice, but for the start of the conversions: the supervision, and the parts that its operand puts
after the choice. -/
def afterChoice (c : Settings) (o : EpochOrder) (s : State) : State :=
  let s := stageIf (decide (o.late = .afterChoice)) (lateEvent c) s
  let s := stageIf (decide (o.late = .afterSupervision)) (lateEvent c) (supervisionEpoch (chosenAt s) s)
  stageIf (!o.linksFirst) ringEpoch (stageIf (!o.peersFirst) (peerEpoch c) s)

section
variable (c : Settings) (k : Contacts) (tcs : Bool) (o : EpochOrder) (s : State)

theorem epochParts_split :
    epochParts c k tcs o s = startConversions (afterChoice c o (choiceStage c (beforeChoice c k tcs o s))) := rfl

/-- A field that the late event and the counts of the peers and the links leave is one that the choice finds as the contacts left it. -/
theorem beforeChoice_keeps {β : Type} (g : State → β) (late : ∀ s, g (lateEvent c s) = g s) (peers : ∀ s, g (peerEpoch c s) = g s)
    (ring : ∀ s, g (ringEpoch s) = g s) :
    g (beforeChoice c k tcs o s) = g (contactEpoch c k (clockEpoch k tcs s).su.epoch (clockEpoch k tcs s)) := by
  simp only [beforeChoice, stageIf_keeps g _ _ ring, stageIf_keeps g _ _ peers, stageIf_keeps g _ _ late]

/-- A field that the parts after the choice leave. -/
theorem afterChoice_keeps {β : Type} (g : State → β) (late : ∀ s, g (lateEvent c s) = g s) (peers : ∀ s, g (peerEpoch c s) = g s)
    (ring : ∀ s, g (ringEpoch s) = g s) (supervision : ∀ r s, g (supervisionEpoch r s) = g s) : g (afterChoice c o s) = g s := by
  simp only [afterChoice, stageIf_keeps g _ _ ring, stageIf_keeps g _ _ peers, stageIf_keeps g _ _ late, supervision]

@[simp] theorem afterChoice_sc : (afterChoice c o s).sc = s.sc :=
  afterChoice_keeps c o s (·.sc) (by simp) (by simp) (by simp) (by simp)

@[simp] theorem afterChoice_pins : (afterChoice c o s).pins = s.pins :=
  afterChoice_keeps c o s (·.pins) (by simp) (by simp) (by simp) (by simp)

@[simp] theorem afterChoice_ciu : (afterChoice c o s).ciu = s.ciu :=
  afterChoice_keeps c o s (·.ciu) (by simp) (by simp) (by simp) (by simp)

@[simp] theorem beforeChoice_sc : (beforeChoice c k tcs o s).sc = s.sc :=
  (beforeChoice_keeps c k tcs o s (·.sc) (by simp) (by simp) (by simp)).trans (by simp)

@[simp] theorem beforeChoice_pins : (beforeChoice c k tcs o s).pins = { s.pins with contacts := k, tcs := tcs } :=
  (beforeChoice_keeps c k tcs o s (·.pins) (by simp) (by simp) (by simp)).trans (by simp [clockEpoch])

@[simp] theorem epochParts_sc : (epochParts c k tcs o s).sc = (choiceStage c (beforeChoice c k tcs o s)).sc := by
  simp [epochParts_split]

@[simp] theorem epochParts_pins : (epochParts c k tcs o s).pins = { s.pins with contacts := k, tcs := tcs } := by
  simp [epochParts_split]

theorem epochParts_mp : (epochParts c k tcs o s).mp = { s.mp with flags := (epochParts c k tcs o s).mp.flags } :=
  mp_flags (by simp) (by simp) (by simp) (by simp) (by simp)
end

theorem exec_epoch {c : Settings} {s : State} (k : Contacts) (tcs : Bool) (o : EpochOrder) (h : Runs c s) :
    exec (.epoch k tcs o) s = .next (epochParts c k tcs o (arbitrateBoth c s)) :=
  congrArg Host.Outcome.next (whileRunning_eq h)

theorem choiceStage_station (c : Settings) (s : State) :
    (choiceStage c s).sc.station = .running (chosenState (atChoice c s)) := by
  rw [choiceStage_sc]
  rfl

theorem arbitrateBoth_mp (c : Settings) (s : State) : (arbitrateBoth c s).mp = { s.mp with flags := (arbitrateBoth c s).mp.flags } :=
  mp_flags (by simp) (by simp) (by simp) (by simp) (by simp)

/-- Settles O4. -/
theorem epochFires : Obligations.EpochFires := by
  intro c k tcs o s hr
  obtain ⟨z, y, hz, hparts, hy, -⟩ := epochParts_su c k tcs o (arbitrateBoth c s)
  obtain ⟨r, hstation⟩ : ∃ r, (epochParts c k tcs o (arbitrateBoth c s)).sc.station = .running r :=
    ⟨_, by rw [epochParts_sc]; exact choiceStage_station _ _⟩
  have hpart : y.sc.station = .running r := by rw [← hstation, hparts, startConversions_sc]
  have hepoch : y.su.epoch = s.su.epoch + 1 := by rw [hy, lateEvent_epoch, hz]; simp [clockEpoch]
  refine ⟨_, r, exec_epoch k tcs o hr, ?_, ?_, ?_, ?_, ?_, hstation, ?_, by simp, by simp, ?_, by simp, by simp⟩
  case refine_7 => rw [epochParts_mp, arbitrateBoth_mp]
  all_goals rw [hparts, startConversions_su]
  · rw [hy, lateEvent_gen, hz]
    simp [clockEpoch, hr.1]
  · exact hepoch
  · rw [hy, lateEvent_phase, hz]; rfl
  · rw [hy, lateEvent_lt, hz]; simp [clockEpoch, epochTicks]
  · rfl
  · rw [hepoch, chosenAt, hpart]; rfl

/-! ## Sampling (section 1) -/

/-- Settles O5: some channel still converts, so the completion ends in no own sample event. -/
theorem conversionHeld : Obligations.ConversionHeld := by
  rintro c ph ch raw m s hr hc hm hlt ⟨ph', ch', hne, hc'⟩
  have hmoment : min m 9999 = m := by omega
  have hopen : ¬ allDone (afterCompletion ph ch raw m s).su.chans = true := by
    rw [allDone_iff, afterCompletion_chans]
    intro h
    have := h ph' ch'
    rw [upd_get_ne _ _ _ _ _ _ hne, hc'] at this
    exact absurd this (by decide)
  have hexec := exec_conversionComplete raw m hr hc
  rw [if_neg hopen] at hexec
  refine ⟨_, hexec, by rw [afterCompletion, hmoment]; rfl, ?_, fun ph' ch' hne => ?_⟩
  · rw [afterCompletion_chans, upd_get_same _ _ _ _ hc, readRaw_eq]
  · rw [afterCompletion_chans, upd_get_ne _ _ _ _ _ _ hne]

theorem clamp_eq (q : Int) :
    max (-fullScale) (min fullScale q) = if q > 32767 then 32767 else if q < -32767 then -32767 else q := by
  simp only [fullScale]
  split_ifs <;> omega

/-- Settles O9. -/
theorem phaseTestAndScale : Obligations.PhaseTestAndScale := by
  intro c rawA rawB
  refine ⟨by simp only [testPhase, disagrees, decide_eq_true_eq], roundDiv (rawA * c.scale) 4096, (roundDiv_spec _).1,
    (roundDiv_spec _).2, ?_⟩
  rw [scaleRaw, clamp_eq]
  split_ifs <;> ring

theorem mem_validMagnitudes {w : List Sample} {n : Nat} :
    n ∈ validMagnitudes w ↔ ∃ x ∈ w, ∃ ph, x.val.get ph = .valid ∧ (x.cur.get ph).natAbs = n := by
  have hall : ∀ ph, ph ∈ allPhases := by intro ph; cases ph <;> decide
  simp [validMagnitudes, hall]

/-- Settles O10. -/
theorem currentPresentExactly : Obligations.CurrentPresentExactly := by
  intro c w
  rw [currentPresent, Bool.or_eq_true, List.isEmpty_iff, List.any_eq_true, or_comm]
  refine or_congr ?_ ?_
  · constructor
    · rintro ⟨n, hn, hle⟩
      obtain ⟨x, hx, ph, hv, rfl⟩ := mem_validMagnitudes.1 hn
      exact ⟨x, hx, ph, hv, of_decide_eq_true hle⟩
    · rintro ⟨x, hx, ph, hv, hle⟩
      exact ⟨_, mem_validMagnitudes.2 ⟨x, hx, ph, hv, rfl⟩, decide_eq_true hle⟩
  · rw [List.eq_nil_iff_forall_not_mem]
    constructor
    · intro h x hx ph hv
      exact h _ (mem_validMagnitudes.2 ⟨x, hx, ph, hv, rfl⟩)
    · intro h n hn
      obtain ⟨x, hx, ph, hv, -⟩ := mem_validMagnitudes.1 hn
      exact h x hx ph hv

theorem anyRun_iff {r : PerPhase Nat} {n : Nat} : r.any (· == n) = true ↔ ∃ ph, r.get ph = n := by
  simp only [PerPhase.any, Bool.or_eq_true, beq_iff_eq]
  constructor
  · rintro ((h | h) | h)
    exacts [⟨.l1, h⟩, ⟨.l2, h⟩, ⟨.l3, h⟩]
  · rintro ⟨ph, h⟩
    cases ph
    exacts [.inl (.inl h), .inl (.inr h), .inr h]

/-- An own sample event counts on the runs, the flag and the statistics of a Sampling Unit, and no later part of the epoch takes the flag
CONVERTER down. -/
theorem ownSampleEvent_counted {c : Settings} {f : Flight} {s t : State} (hf : s.su.flight = some f)
    (hsu : t.su = (ownSampleEvent c s).su)
    (hflag : (ownSampleEvent c s).mp.flags.getLsbD 11 = true → t.mp.flags.getLsbD 11 = true) :
    SampleCounted (makeRecord c f s.su.chans) s t ∧ t.su.record = some (makeRecord c f s.su.chans) :=
  takeRecordSu_counted _ s t (hsu.trans (ownSampleEvent_su hf)) fun h => hflag (ownSampleEvent_flag hf h)

@[simp] theorem atMoment_counts (m : Nat) (s : State) :
    (atMoment m s).su.convFail = s.su.convFail ∧ (atMoment m s).su.clearRun = s.su.clearRun ∧
    (atMoment m s).su.disagreeSamples = s.su.disagreeSamples ∧ (atMoment m s).su.missingSamples = s.su.missingSamples ∧
    (atMoment m s).su.convFailures = s.su.convFailures := by
  unfold atMoment
  split_ifs <;> exact ⟨rfl, rfl, rfl, rfl, rfl⟩

theorem lastCompletion_counted {c : Settings} {ph : Phase} {ch : Channel} {m : Nat} {f : Flight} {s : State} (raw : BitVec 16)
    (h : CompletesLast c ph ch m f s) :
    ∃ t x, exec (.conversionComplete ph ch raw m) s = .next t ∧ t.su.record = some x ∧ x.epoch = f.epoch ∧ SampleCounted x s t := by
  obtain ⟨hr, hf, hc, -, -, hd⟩ := h
  have hexec := exec_conversionComplete raw m hr hc
  rw [if_pos (afterCompletion_allDone raw m hc hd)] at hexec
  obtain ⟨hcounted, hrecord⟩ := ownSampleEvent_counted (c := c) (s := afterCompletion ph ch raw m s)
    (by rw [afterCompletion_flight, hf]) rfl id
  obtain ⟨hfail, hclear, hdis, hmiss, hcount⟩ := atMoment_counts (min m 9999) s
  exact ⟨_, _, hexec, hrecord, rfl, hcounted.of_same (afterCompletion_disRun ..) hfail hclear hdis hmiss hcount⟩

theorem lateEpoch_counted {c : Settings} {s : State} {f : Flight} (k : Contacts) (tcs : Bool) (o : EpochOrder) (hr : Runs c s)
    (hf : s.su.flight = some f) (hc : ∃ ph ch, (s.su.chans.get ph).get ch = .converting) :
    ∃ t x, exec (.epoch k tcs o) s = .next t ∧ t.su.record = some x ∧ x.epoch = f.epoch ∧ SampleCounted x s t := by
  obtain ⟨z, y, hz, hparts, hy, hflag⟩ := epochParts_su c k tcs o (arbitrateBoth c s)
  have hzsu : z.su = { s.su with lt := z.su.lt, phase := z.su.phase, epoch := z.su.epoch } := by rw [hz]; simp [clockEpoch]
  have hlate : lateEvent c z = ownSampleEvent c z := if_pos (by rw [hzsu]; exact (anyConverting_iff _).2 hc)
  rw [hlate] at hy hflag
  obtain ⟨hcounted, hrecord⟩ := ownSampleEvent_counted (c := c) (t := y) (by rw [hzsu, hf] : z.su.flight = some f) hy hflag
  refine ⟨startConversions y, _, by rw [exec_epoch k tcs o hr, hparts], hrecord, rfl, ?_⟩
  have hsame : SampleCounted _ s y := hcounted.of_same (by rw [hzsu]) (by rw [hzsu]) (by rw [hzsu]) (by rw [hzsu]) (by rw [hzsu])
    (by rw [hzsu])
  exact { hsame with }

theorem completeEpoch_counts {c : Settings} {s : State} (k : Contacts) (tcs : Bool) (o : EpochOrder) (hr : Runs c s)
    (hc : ∀ ph ch, (s.su.chans.get ph).get ch ≠ .converting) :
    ∃ t, exec (.epoch k tcs o) s = .next t ∧ t.su = { s.su with
      lt := t.su.lt, phase := t.su.phase, epoch := t.su.epoch, chans := t.su.chans, flight := t.su.flight } := by
  obtain ⟨z, y, hz, hparts, hy, -⟩ := epochParts_su c k tcs o (arbitrateBoth c s)
  have hzsu : z.su = { s.su with lt := z.su.lt, phase := z.su.phase, epoch := z.su.epoch } := by rw [hz]; simp [clockEpoch]
  rw [lateEvent_of_complete c z (by rw [hzsu]; exact hc)] at hy
  refine ⟨startConversions y, by rw [exec_epoch k tcs o hr, hparts], ?_⟩
  rw [startConversions_su, hy, hzsu]

/-- Settles O11. -/
theorem converterFailureAndRecovery : Obligations.ConverterFailureAndRecovery := by
  refine ⟨fun c s hr hrun hflag => ?_, fun c s hr hrun hflag => ?_, fun c ph ch raw m s f h => lastCompletion_counted raw h,
    fun c k tcs o s f hr hf => ⟨lateEpoch_counted k tcs o hr hf, completeEpoch_counts k tcs o hr⟩⟩
  · refine congrArg Host.Outcome.next ((whileRunning_eq hr).trans ?_)
    rw [converterFailureOp, if_pos (by rw [anyRun_iff.2 hrun, hflag]; rfl)]
    rfl
  · refine congrArg Host.Outcome.next ((whileRunning_eq hr).trans ?_)
    rw [converterRecoveryOp, if_pos (by rw [hflag, hrun]; rfl)]
    rfl

/-! ## Contacts (section 2) -/

theorem known_iff (x : Switch) : x.known = true ↔ x = .opened ∨ x = .closed := by cases x <;> simp [Switch.known]

theorem updDev_get {α : Type} (f : α → α) (p : PerPair α) (q r : DevPair) :
    (p.upd f r).get q = if q = r then f (p.get q) else p.get q := by
  cases q <;> cases r <;> rfl

/-- Settles O13. -/
theorem discrepancyMarksPair : Obligations.DiscrepancyMarksPair := by
  intro c pr s r hr hd hopen hclosed ht
  have hunknown : (r.get pr).known = false := by
    rw [← Bool.not_eq_true, known_iff]
    exact fun h => h.elim hopen hclosed
  refine ⟨raise .isolatorDiscrepancy (s.updCiu fun u =>
      { u with discMark := u.discMark.upd (fun _ => true) pr, discDetail := u.discDetail.upd (fun _ => true) pr }),
    congrArg Host.Outcome.next ((whileRunning_eq hr).trans ?_), rfl, fun q => ?_⟩
  · rw [discrepancyOp]
    simp only [hd, ht, hunknown, beq_self_eq_true, Bool.not_false, Bool.and_self, if_true]
  · simp only [raise_ciu, State.updCiu_ciu, updDev_get]
    split_ifs with h <;> simp [h]

/-- The accepted states, the pending marks and the counters of the contacts at an epoch are those that the filter tick leaves, or that
were there (R20, R22). -/
theorem contactEpoch_filters (c : Settings) (k : Contacts) (n : EpochNo) (s : State) :
    let u := if n.toNat % c.filterTick = 0 then filterTick k s.ciu else s.ciu
    (contactEpoch c k n s).ciu.accepted = u.accepted ∧ (contactEpoch c k n s).ciu.pending = u.pending ∧
    (contactEpoch c k n s).ciu.changes = u.changes ∧ (contactEpoch c k n s).ciu.bounces = u.bounces := by
  have marks : ∀ q (t : State), (discrepancyOp c q t).ciu =
      { t.ciu with discMark := (discrepancyOp c q t).ciu.discMark, discDetail := (discrepancyOp c q t).ciu.discDetail } := by
    intro q t
    unfold discrepancyOp
    repeat' split
    all_goals rfl
  have hfilter : (if n.toNat % c.filterTick = 0 then s.updCiu (filterTick k) else s).ciu =
      if n.toNat % c.filterTick = 0 then filterTick k s.ciu else s.ciu := by split <;> rfl
  unfold contactEpoch
  dsimp only
  rw [← hfilter]
  split
  · rw [marks, marks, marks]
    exact ⟨rfl, rfl, rfl, rfl⟩
  · exact ⟨rfl, rfl, rfl, rfl⟩

/-- The table of R22, one input alone. -/
theorem filterInput_cases (a p x : Bool) :
    (x = a → filterInput a p x = ⟨a, false, false, p⟩) ∧ (x ≠ a → p = false → filterInput a p x = ⟨a, true, false, false⟩) ∧
    (x ≠ a → p = true → filterInput a p x = ⟨x, false, true, false⟩) := by
  revert a p x
  decide

/-- An input is read from three sets of contacts as from one. -/
theorem contactInput_map {g : Contacts → Bool} (hg : g ∈ contactInputs) (f : Bool → Bool → Bool → Bool) (x y z : Contacts) :
    g (mapContacts f x y z) = f (g x) (g y) (g z) := by
  simp only [contactInputs, List.mem_cons, List.not_mem_nil, or_false] at hg
  rcases hg with rfl | rfl | rfl | rfl | rfl | rfl | rfl | rfl <;> rfl

theorem zipContacts_eq {α : Type} (f : Bool → Bool → Bool → α) (x y z : Contacts) :
    zipContacts f x y z = contactInputs.map fun g => f (g x) (g y) (g z) := rfl

theorem filterInput_change (a p x : Bool) : (filterInput a p x).change = (decide (x ≠ a) && p) := by revert a p x; decide

theorem filterInput_bounce (a p x : Bool) : (filterInput a p x).bounce = (decide (x = a) && p) := by revert a p x; decide

theorem filterTick_changes {k a : Contacts} {u : ContactUnit} (h : u.accepted = some a) :
    (filterTick k u).changes =
      min (u.changes + contactInputs.countP fun g => decide (g k ≠ g a) && g u.pending) 65535 ∧
    (filterTick k u).bounces =
      min (u.bounces + contactInputs.countP fun g => decide (g k = g a) && g u.pending) 65535 := by
  simp only [filterTick, h, bumpBy, zipContacts_eq, List.countP_map, Function.comp_def, filterInput_change, filterInput_bounce, and_self]

/-- Each input is filtered alone (R22). -/
theorem filterTick_input {k a : Contacts} {u : ContactUnit} (h : u.accepted = some a) {g : Contacts → Bool} (hg : g ∈ contactInputs) :
    ∃ a', (filterTick k u).accepted = some a' ∧ g a' = (filterInput (g a) (g u.pending) (g k)).accepted ∧
      g (filterTick k u).pending = (filterInput (g a) (g u.pending) (g k)).pending := by
  refine ⟨mapContacts (fun a p x => (filterInput a p x).accepted) a u.pending k, by simp only [filterTick, h], contactInput_map hg .., ?_⟩
  have hp : (filterTick k u).pending = mapContacts (fun a p x => (filterInput a p x).pending) a u.pending k := by
    simp only [filterTick, h]
  rw [hp, contactInput_map hg]

/-- Settles O12. -/
theorem filterTickAtEpoch : Obligations.FilterTickAtEpoch := by
  intro c k a tcs o s hr ha
  have hclock : (clockEpoch k tcs (arbitrateBoth c s)).ciu = s.ciu := by simp
  have hepoch : (clockEpoch k tcs (arbitrateBoth c s)).su.epoch = s.su.epoch + 1 := by simp [clockEpoch]
  set z := clockEpoch k tcs (arbitrateBoth c s) with hz
  obtain ⟨haccepted, hpending, hchanges, hbounces⟩ := contactEpoch_filters c k z.su.epoch z
  rw [hepoch, hclock] at haccepted hpending hchanges hbounces
  have hciu := epochParts_ciu c k tcs o (arbitrateBoth c s)
  rw [← hz, hepoch] at hciu
  have hsome : ∃ a', (contactEpoch c k (s.su.epoch + 1) z).ciu.accepted = some a' := by
    rw [haccepted]
    split
    · exact ⟨_, by simp only [filterTick, ha]; rfl⟩
    · exact ⟨a, ha⟩
  obtain ⟨a', ha'⟩ := hsome
  refine ⟨_, a', exec_epoch k tcs o hr, by rw [hciu, ha'], fun hn => ?_, fun hn => ⟨fun g hg => ?_, ?_⟩, fun old hold => ?_⟩
  · rw [if_neg hn] at haccepted hpending hchanges hbounces
    rw [hciu]
    exact ⟨by rw [haccepted, ha] at ha'; exact (Option.some.inj ha').symm, hpending, hchanges, hbounces⟩
  · rw [if_pos hn] at haccepted hpending
    obtain ⟨a'', ha'', hinput, hmark⟩ := filterTick_input (k := k) ha hg
    obtain rfl : a'' = a' := Option.some.inj (by rw [← ha'', ← haccepted, ha'])
    obtain ⟨same, marked, changed⟩ := filterInput_cases (g a) (g s.ciu.pending) (g k)
    rw [hciu, hpending, hinput, hmark]
    exact ⟨fun h => by rw [same h]; exact ⟨rfl, rfl⟩, fun h hp => by rw [marked h hp]; exact ⟨rfl, rfl⟩,
      fun h hp => by rw [changed h hp]; exact ⟨rfl, rfl⟩⟩
  · rw [if_pos hn] at hchanges hbounces
    rw [hciu, hchanges, hbounces]
    exact filterTick_changes ha
  · obtain ⟨r, hderived, h1, h2, hb, hcond, hpairs⟩ := contactEpoch_derives c k (s.su.epoch + 1) z old a' (by rw [hclock, hold]) ha'
    rw [hclock] at hpairs
    rw [hciu]
    refine ⟨r, hderived, h1, h2, hb, hcond, fun pr => ⟨(hpairs pr).1, fun hx => ?_⟩⟩
    obtain ⟨hn, hbelow, hmark⟩ := (hpairs pr).2 hx
    refine ⟨hn, hbelow, fun hat => ?_⟩
    obtain ⟨hm, hd, hflag⟩ := hmark hat
    exact ⟨hm, hd, epochParts_grows (by rw [← hz, hepoch]; exact hflag)⟩

end Sys2Proof.Machine

/-! PROOFS. Zones and measurement (sections 6 and 7): the rows on a zone phase, and what the evaluation at the last completion of an
epoch makes of the Zone Engine. -/

namespace Sys2Proof.Machine

open Sys2Proof

/-! ## The rows on a zone phase (R129, R132 to R134) -/

theorem updPhase_get {α : Type} (f : α → α) (p : PerPhase α) (q r : Phase) :
    (p.upd f r).get q = if q = r then f (p.get q) else p.get q := by
  cases q <;> cases r <;> rfl

/-- A row on a zone phase changes the state of that phase in the sections of the zone, or in the check zone, alone. -/
theorem stateAt_updZonePhase (z : ZoneRef) (ph : Phase) (f : ZoneState → ZoneState) (ze : ZoneEngine) (q : Phase) (y : Option Sect) :
    stateAt (updZonePhase z ph f ze) q y =
      if q = ph ∧ inZone ze z y = true then f (stateAt ze q y) else stateAt ze q y := by
  cases z with
  | check =>
    cases y with
    | none => simp only [updZonePhase, stateAt, inZone, updPhase_get, and_true]
    | some y => simp only [updZonePhase, stateAt, inZone, Bool.false_eq_true, and_false, if_false]
  | zone x =>
    cases y with
    | none => simp only [updZonePhase, stateAt, inZone, Bool.false_eq_true, and_false, if_false]
    | some y =>
      simp only [updZonePhase, stateAt, inZone, perSect_of_get]
      by_cases hy : (zoneMates ze x).get y = true
      · simp only [hy, if_true, updPhase_get, and_true]
      · simp only [hy, Bool.false_eq_true, if_false, and_false]

/-- The state that a row leaves, when its change of a phase is a conditional one. -/
theorem row_next {z : ZoneRef} {ph : Phase} {f : ZoneState → ZoneState} {s : State} {cond : ZoneState → Prop} [DecidablePred cond]
    {g : ZoneState → ZoneState} (hf : ∀ st, f st = if cond st then g st else st) :
    let t := s.updZe (updZonePhase z ph f)
    t = { s with ze := { s.ze with sects := t.ze.sects, check := t.ze.check } } ∧
    ∀ q y, stateAt t.ze q y =
      if q = ph ∧ inZone s.ze z y = true ∧ cond (stateAt s.ze q y) then g (stateAt s.ze q y) else stateAt s.ze q y := by
  refine ⟨by cases z <;> rfl, fun q y => ?_⟩
  rw [State.updZe_ze, stateAt_updZonePhase, hf]
  by_cases h : q = ph ∧ inZone s.ze z y = true
  · simp [h]
  · rw [if_neg h, if_neg fun h' => h ⟨h'.1, h'.2.1⟩]

/-- Settles O26. -/
theorem zonePhaseRows : Obligations.ZonePhaseRows := by
  refine ⟨fun c z ph s hr => ?_, fun c z ph s hr => ?_, fun c z ph s hr => ?_, fun c z ph s hr hop => ?_⟩
  · exact ⟨_, congrArg Host.Outcome.next (whileRunning_eq hr), row_next fun st => rfl⟩
  · exact ⟨_, congrArg Host.Outcome.next (whileRunning_eq hr), row_next fun st => rfl⟩
  · exact ⟨_, congrArg Host.Outcome.next (whileRunning_eq hr), row_next fun st => rfl⟩
  · refine ⟨s.updZe (updZonePhase z ph (windowEndZ c false)), congrArg Host.Outcome.next ((whileRunning_eq hr).trans ?_),
      row_next (cond := fun st => st.cls = .onset ∧ c.window ≤ st.onset.getD 0)
        (g := fun st => { st with cls := .through, onset := none }) fun st => ?_⟩
    · simp only [onsetEndOp, hop]
    · simp only [windowEndZ, Bool.not_false, true_and, ge_iff_le]

/-! ## What the evaluation makes of the Zone Engine (R99) -/

/-- What the evaluation of flight f finds, on the peer table as the state t holds it, before the measurement. -/
def foundAt (c : Settings) (f : Flight) (s t : State) : Found :=
  findTopology c (computingInstant c f.instant) t.pt s.ze.endZone

/-- The Zone Engine of t is that of s after the evaluation of flight f, with the ZONE BLOCKED detail that follows it (R99, R115). -/
structure Evaluated (c : Settings) (f : Flight) (s t : State) : Prop where
  ze : t.ze = { evaluateZones c f.epoch (computingInstant c f.instant) (decide (f.declared = .service)) t.pt s.ze with
    blockedDetail := t.ze.blockedDetail }
  detail : ∀ z q, (z, q) ∈ t.ze.blockedDetail ↔ (z, q) ∈ s.ze.blockedDetail ∨ standsAt400 t.ze q z
  flag : ∀ z q, standsAt400 t.ze q z → t.mp.flags.getLsbD 14 = true

theorem lastCompletion_evaluated {c : Settings} {ph : Phase} {ch : Channel} {m : Nat} {f : Flight} {s : State} (raw : BitVec 16)
    (h : CompletesLast c ph ch m f s) : ∃ t, exec (.conversionComplete ph ch raw m) s = .next t ∧ Evaluated c f s t := by
  obtain ⟨u, hexec, -, hze, hdetail, hflag⟩ := exec_completesLast raw h
  have hgrows : Grows (tripEvaluation c f.epoch) := TripOnly.grows (tripEvaluation_tripOnly c f.epoch)
  refine ⟨_, hexec, by rw [tripEvaluation_ze, tripEvaluation_pt]; exact hze, by rw [tripEvaluation_ze]; exact hdetail, fun z q hz => ?_⟩
  rw [tripEvaluation_ze] at hz
  exact hgrows u 14 (hflag z q hz)

section
variable {c : Settings} {f : Flight} {s t : State} (h : Evaluated c f s t)
include h

theorem Evaluated.topo : t.ze.topo =
    some (makeTopology c f.epoch (computingInstant c f.instant) (foundAt c f s t) t.ze.sects t.ze.check) := by
  rw [h.ze]; rfl

theorem Evaluated.timers : t.ze.endZone = (foundAt c f s t).timers := by rw [h.ze]; rfl
end

/-- A bay of the last topology is an installed one, with its view. -/
theorem mem_topoBays {c : Settings} {f : Flight} {s t : State} {k : EpochNo} {tau : Ticks} {p : PerSect (PerPhase ZoneState)}
    {q : PerPhase ZoneState} {y : BayTopo} (hy : y ∈ (makeTopology c k tau (foundAt c f s t) p q).bays) :
    let v := viewBay (computingInstant c f.instant) y.bay (t.entry y.bay)
    c.hasBay y.bay = true ∧ y.standing = v.standing ∧ y.outcome = v.al.outcome ∧
    y.zones = zonesHolding ((foundAt c f s t).zones.map fun z => (z.name, z.sections)) v ∧
    y.timer = if v.isTie then some ((foundAt c f s t).timers.getD y.bay.val 0) else none := by
  obtain ⟨v, hv, rfl⟩ := List.mem_map.1 hy
  obtain ⟨hbay, hview⟩ := mem_viewBays.1 hv
  have hview' : v = viewBay (computingInstant c f.instant) v.bay (t.entry v.bay) := hview
  dsimp only
  rw [← hview']
  exact ⟨hbay, rfl, rfl, rfl, rfl⟩

/-- Every installed bay is one of the last topology. -/
theorem topoBay_of_installed (c : Settings) (f : Flight) (s t : State) (k : EpochNo) (tau : Ticks) (p : PerSect (PerPhase ZoneState))
    (q : PerPhase ZoneState) {b : Bay} (hb : c.hasBay b = true) :
    ∃ y ∈ (makeTopology c k tau (foundAt c f s t) p q).bays, y.bay = b :=
  ⟨_, List.mem_map_of_mem (mem_viewBays.2 ⟨hb, rfl⟩ : viewBay (computingInstant c f.instant) b (t.pt.entry b) ∈ _), rfl⟩

/-- A bay of the last topology is placed as its view is (R103, R105). -/
theorem placed_view {t : State} {tau : Ticks} {y : BayTopo} {d : Decl} {r : Replica}
    (hst : y.standing = (viewBay tau y.bay (t.entry y.bay)).standing) :
    (viewBay tau y.bay (t.entry y.bay)).placed = some (d, r) ↔ Placed t tau y d r := by
  rw [placed_iff, Placed, hst]

theorem isTie_iff {tau : Ticks} {b : Bay} {e : PeerEntry} :
    (viewBay tau b e).isTie = true ↔ (viewBay tau b e).standing ≠ .undeclared ∧ ∃ d, e.decl = some d ∧ d.kind = .tie := by
  have hst : (viewBay tau b e).standing = standingOf e (alignHistory tau e.history) := rfl
  have htie : (viewBay tau b e).isTie = decide ((usedDecl e).map Decl.kind = some .tie) := rfl
  rw [htie, decide_eq_true_eq, Option.map_eq_some_iff, hst]
  constructor
  · rintro ⟨d, hd, hk⟩
    have hne : standingOf e (alignHistory tau e.history) ≠ .undeclared := fun hu => by
      rw [standing_undeclared.1 hu] at hd; cases hd
    exact ⟨hne, d, by rw [← usedDecl_of hne, hd], hk⟩
  · rintro ⟨hne, d, hd, hk⟩
    exact ⟨d, by rw [usedDecl_of hne, hd], hk⟩

/-! ## ZONE BLOCKED (R115) -/

/-- Settles O27. -/
theorem zoneBlockedRaises : Obligations.ZoneBlockedRaises := by
  refine ⟨fun c z ph s hr h => ?_, fun c z ph s hr h => ?_, fun c ph ch raw m s f h => ?_⟩
  · refine congrArg Host.Outcome.next ((whileRunning_eq hr).trans ?_)
    rw [zoneBlockedOp, if_pos ((standing400_iff ..).2 h)]
    rfl
  · refine congrArg Host.Outcome.next ((whileRunning_eq hr).trans ?_)
    rw [zoneBlockedOp, if_neg fun hc => h ((standing400_iff ..).1 hc)]
  · obtain ⟨t, hexec, ht⟩ := lastCompletion_evaluated raw h
    exact ⟨t, hexec, ht.detail, ht.flag⟩

/-! ## End-zone timers (R106, R107) -/

/-- A last topology in which a bay is a member of no zone. -/
def withoutMember (b : Bay) (tp : Topology) : Topology :=
  { tp with zones := tp.zones.map fun z => { z with members := z.members.filter fun m => decide (m.bay ≠ b) } }

theorem nextEndZone_eq {c : Settings} {tau : Ticks} {b : Bay} {e : PeerEntry} {n : Nat} :
    nextEndZone c (viewBay tau b e) n =
      if (viewBay tau b e).isTie = true ∧ ∃ r, (alignHistory tau e.history).replica = some r ∧ r.breaker = .opened then
        min (n + 1) c.endZone
      else 0 := by
  have hopen : (viewBay tau b e).al.replica.map Replica.breaker = some .opened ↔
      ∃ r, (alignHistory tau e.history).replica = some r ∧ r.breaker = .opened := Option.map_eq_some_iff
  simp only [nextEndZone, hopen, upTo]

/-- Settles O28. -/
theorem endZoneRemovesTie : Obligations.EndZoneRemovesTie := by
  refine ⟨fun c b s tp hr ht htopo => ?_, fun c ph ch raw m s f h => ?_⟩
  · refine ⟨withoutMember b tp, congrArg Host.Outcome.next ((whileRunning_eq hr).trans ?_), rfl, ?_, ?_, ?_⟩
    · rw [endZoneOp, if_pos ht]
      simp only [State.updZe, htopo]
      rfl
    · simp [withoutMember, Function.comp_def]
    · intro z' hz' m hm
      obtain ⟨z, -, rfl⟩ := List.mem_map.1 hz'
      exact of_decide_eq_true (List.mem_filter.1 hm).2
    · intro z hz m hm hne
      exact ⟨_, List.mem_map_of_mem hz, rfl, List.mem_filter.2 ⟨hm, decide_eq_true hne⟩⟩
  · obtain ⟨t, hexec, ht⟩ := lastCompletion_evaluated raw h
    have htimer : ∀ b : Bay, t.ze.endZone.getD b.val 0 = if c.hasBay b = true then
        nextEndZone c (viewBay (computingInstant c f.instant) b (t.entry b)) (s.ze.endZone.getD b.val 0) else 0 := fun b => by
      rw [ht.timers]; exact nextEndZones_get b
    refine ⟨t, _, hexec, ht.topo, fun b hb => (htimer b).trans (if_neg (by simp [hb])), fun y hy => ?_⟩
    obtain ⟨hbay, hst, -, -, hshown⟩ := mem_topoBays hy
    have htie := isTie_iff (tau := computingInstant c f.instant) (b := y.bay) (e := t.entry y.bay)
    rw [← hst] at htie
    have heq := (htimer y.bay).trans (if_pos hbay)
    rw [nextEndZone_eq] at heq
    refine ⟨fun h1 => ?_, fun h1 => ?_, fun h1 h2 => heq.trans (if_pos ⟨htie.2 h1, h2⟩),
      fun h1 => heq.trans (if_neg fun hx => h1 ⟨htie.1 hx.1, hx.2⟩)⟩
    · rw [hshown, if_pos (htie.2 h1), ht.timers]
    · rw [hshown, if_neg fun hx => h1 (htie.1 hx)]

/-! ## Members and sums (R105, R106, R120, R121) -/

theorem sum_natAbs_le (l : List Int) : l.sum.natAbs ≤ (l.map Int.natAbs).sum := by
  induction l with
  | nil => rfl
  | cons x l ih =>
    rw [List.sum_cons, List.map_cons, List.sum_cons]
    exact (Int.natAbs_add_le _ _).trans (Nat.add_le_add_left ih _)

/-- The differential of members that enter with a sign of magnitude 1 is within their restraint (R120). -/
theorem differential_le_restraint {views : List BayView} {ph : Phase} {l : List Member} (h : ∀ x ∈ l, x.sign.natAbs = 1) :
    differential views ph l ≤ restraint views ph l := by
  refine (sum_natAbs_le _).trans (le_of_eq ?_)
  rw [restraint, List.map_map]
  refine congrArg List.sum (List.map_congr_left fun x hx => ?_)
  rw [Function.comp_apply, Int.natAbs_mul, h x hx, one_mul]

theorem memberSigns_unit {c : Settings} {z : SectSet} {n : Nat} {d : Decl} {r : Replica} {sg : Int} (h : sg ∈ memberSigns c z n d r) :
    sg.natAbs = 1 := by
  rcases mem_memberSigns.1 h with ⟨-, rfl, -⟩ | ⟨-, -, -, ⟨-, rfl⟩ | ⟨-, rfl⟩⟩ <;> rfl

theorem membersOf_unit {c : Settings} {timers : List Nat} {views : List BayView} {z : SectSet} {x : Member}
    (h : x ∈ membersOf c timers views z) : x.sign.natAbs = 1 := by
  obtain ⟨v, -, hv⟩ := List.mem_flatMap.1 h
  split at hv
  · obtain ⟨sg, hsg, rfl⟩ := List.mem_map.1 hv
    exact memberSigns_unit hsg
  · cases hv

theorem checkMembers_unit {views : List BayView} {x : Member} (h : x ∈ checkMembers views) : x.sign.natAbs = 1 := by
  obtain ⟨v, -, hv⟩ := List.mem_filterMap.1 h
  split at hv
  · split_ifs at hv; cases hv; rfl
  · split_ifs at hv; cases hv; rfl
  · cases hv

theorem found_members {c : Settings} {f : Flight} {s t : State} {z : FoundZone} (hz : z ∈ (foundAt c f s t).zones) :
    z.members = membersOf c (foundAt c f s t).timers (viewBays c (computingInstant c f.instant) t.pt) z.sections := by
  obtain ⟨w, -, rfl⟩ := List.mem_map.1 hz
  rfl

theorem checkMembers_installed {c : Settings} {tau : Ticks} {p : Peers} {x : Member} (h : x ∈ checkMembers (viewBays c tau p)) :
    c.hasBay x.bay = true := by
  obtain ⟨b, sg⟩ := x
  exact (mem_checkMembers.1 h).1

theorem mem_ownZones {c : Settings} {f : Flight} {s t : State} {x : Sect} :
    x ∈ ownZonesOf c (foundAt c f s t) ↔ c.hasBay c.bay = true ∧
      x ∈ zonesHolding ((foundAt c f s t).zones.map fun z => (z.name, z.sections))
        (viewBay (computingInstant c f.instant) c.bay (t.entry c.bay)) := by
  have hviews : (foundAt c f s t).views = viewBays c (computingInstant c f.instant) t.pt := rfl
  rw [ownZonesOf, hviews, find_viewBays]
  by_cases hb : c.hasBay c.bay = true
  · simp only [hb, if_true, true_and]; rfl
  · simp [hb]

section
variable {c : Settings} {f : Flight} {s t : State} {k : EpochNo} {p : PerSect (PerPhase ZoneState)} {q : PerPhase ZoneState}

/-- The members that an evaluation records are those of R105 and R106, by the bays of the last topology. -/
theorem recorded_members {z : FoundZone} (hz : z ∈ (foundAt c f s t).zones) {b : Bay} {sign : Int} :
    (⟨b, sign⟩ : Member) ∈ z.members ↔
      ∃ y ∈ (makeTopology c k (computingInstant c f.instant) (foundAt c f s t) p q).bays, y.bay = b ∧ ∃ d r,
        Placed t (computingInstant c f.instant) y d r ∧ MemberWith c z.sections ((foundAt c f s t).timers.getD b.val 0) d r sign := by
  rw [found_members hz, mem_membersOf]
  constructor
  · rintro ⟨hb, d, r, hplaced, hwith⟩
    obtain ⟨y, hy, rfl⟩ := topoBay_of_installed c f s t k (computingInstant c f.instant) p q hb
    exact ⟨y, hy, rfl, d, r, (placed_view (mem_topoBays hy).2.1).1 hplaced, hwith⟩
  · rintro ⟨y, hy, rfl, d, r, hplaced, hwith⟩
    obtain ⟨hb, hst, -⟩ := mem_topoBays hy
    exact ⟨hb, d, r, (placed_view hst).2 hplaced, hwith⟩

theorem recorded_chkMembers {b : Bay} {sign : Int} :
    (⟨b, sign⟩ : Member) ∈ (foundAt c f s t).chk ↔ sign = 1 ∧
      ∃ y ∈ (makeTopology c k (computingInstant c f.instant) (foundAt c f s t) p q).bays, y.bay = b ∧
        (y.standing = .usable ∨ y.standing = .unusable) ∧ ∃ d, (t.entry b).decl = some d ∧ d.kind = .feeder := by
  have hchk : (foundAt c f s t).chk = checkMembers (viewBays c (computingInstant c f.instant) t.pt) := rfl
  rw [hchk, mem_checkMembers]
  constructor
  · rintro ⟨hb, rfl, hst, hd⟩
    obtain ⟨y, hy, rfl⟩ := topoBay_of_installed c f s t k (computingInstant c f.instant) p q hb
    exact ⟨rfl, y, hy, rfl, by rw [(mem_topoBays hy).2.1]; exact hst, hd⟩
  · rintro ⟨rfl, y, hy, rfl, hst, hd⟩
    obtain ⟨hb, heq, -⟩ := mem_topoBays hy
    exact ⟨hb, rfl, by rw [heq] at hst; exact hst, hd⟩

/-- The zones that hold a bay (R108). -/
theorem recorded_holding {y : BayTopo}
    (hy : y ∈ (makeTopology c k (computingInstant c f.instant) (foundAt c f s t) p q).bays) {x : Sect} :
    x ∈ y.zones ↔ ∃ z ∈ (makeTopology c k (computingInstant c f.instant) (foundAt c f s t) p q).zones, z.name = x ∧ ∃ d r,
      Placed t (computingInstant c f.instant) y d r ∧ (reaches1 z.sections d r ∨ reaches2 z.sections d r) := by
  obtain ⟨-, hst, -, hzones, -⟩ := mem_topoBays hy
  rw [hzones, mem_zonesHolding]
  constructor
  · rintro ⟨z, hz, rfl, d, r, hplaced, hreach⟩
    obtain ⟨w, hw, rfl⟩ := List.mem_map.1 hz
    exact ⟨_, List.mem_map_of_mem hw, rfl, d, r, (placed_view hst).1 hplaced, hreach⟩
  · rintro ⟨z, hz, rfl, d, r, hplaced, hreach⟩
    obtain ⟨w, hw, rfl⟩ := List.mem_map.1 hz
    exact ⟨_, List.mem_map_of_mem hw, rfl, d, r, (placed_view hst).2 hplaced, hreach⟩

theorem recorded_ownZones {x : Sect} :
    x ∈ ownZonesOf c (foundAt c f s t) ↔
      ∃ y ∈ (makeTopology c k (computingInstant c f.instant) (foundAt c f s t) p q).bays, y.bay = c.bay ∧ x ∈ y.zones := by
  rw [mem_ownZones]
  constructor
  · rintro ⟨hb, hx⟩
    obtain ⟨y, hy, heq⟩ := topoBay_of_installed c f s t k (computingInstant c f.instant) p q hb
    refine ⟨y, hy, heq, ?_⟩
    rw [(mem_topoBays hy).2.2.2.1, heq]
    exact hx
  · rintro ⟨y, hy, heq, hx⟩
    obtain ⟨hb, -, -, hzones, -⟩ := mem_topoBays hy
    rw [hzones, heq] at hx
    exact ⟨heq ▸ hb, hx⟩

theorem recorded_ownSections {x : Sect} :
    (sectionsOf (foundAt c f s t).zones (ownZonesOf c (foundAt c f s t))).get x = true ↔
      ∃ z ∈ (makeTopology c k (computingInstant c f.instant) (foundAt c f s t) p q).zones,
        z.name ∈ ownZonesOf c (foundAt c f s t) ∧ z.sections.get x = true := by
  rw [sectionsOf_get]
  constructor
  · rintro ⟨z, hz, hname, hx⟩
    exact ⟨_, List.mem_map_of_mem hz, hname, hx⟩
  · rintro ⟨z, hz, hname, hx⟩
    obtain ⟨w, hw, rfl⟩ := List.mem_map.1 hz
    exact ⟨w, hw, hname, hx⟩
end

/-- Settles O29. -/
theorem differentialWithinRestraint : Obligations.DifferentialWithinRestraint := by
  refine ⟨fun c views timers z ph => ⟨differential_le_restraint fun x => membersOf_unit,
    differential_le_restraint fun x => checkMembers_unit⟩, fun c ph ch raw m s f h => ?_⟩
  obtain ⟨t, hexec, ht⟩ := lastCompletion_evaluated raw h
  refine ⟨t, _, hexec, ht.topo, fun z hz => ?_, checkMembers_nodup, fun q => ?_, fun b sign => recorded_chkMembers,
    fun y hy x => recorded_holding hy, fun x => recorded_ownZones, fun x => recorded_ownSections⟩
  · obtain ⟨w, hw, rfl⟩ := List.mem_map.1 hz
    have hmembers := found_members hw
    refine ⟨?_, fun q => ?_, fun b sign => by rw [ht.timers]; exact recorded_members hw⟩
    · change (w.members.map Member.bay).Nodup
      rw [hmembers]
      exact membersOf_nodup
    · rw [zoneTopo, perPhase_of_get]
      exact differential_restraint_sums fun x hx => membersOf_installed (hmembers ▸ hx)
  · simp only [makeTopology, checkTopo, perPhase_of_get]
    exact differential_restraint_sums fun x hx => checkMembers_installed hx

/-! ## Zones (R103, R104, R116) -/

theorem mem_linksAt {c : Settings} {f : Flight} {s t : State} {k : EpochNo} {p : PerSect (PerPhase ZoneState)} {q : PerPhase ZoneState}
    {x y : Sect} : (x, y) ∈ linksAt c (computingInstant c f.instant) t.pt ↔
      LinkedBy t (makeTopology c k (computingInstant c f.instant) (foundAt c f s t) p q) x y := by
  rw [linksAt, List.mem_filterMap]
  constructor
  · rintro ⟨v, hv, hlink⟩
    obtain ⟨hb, hview⟩ := mem_viewBays.1 hv
    obtain ⟨d, r, hplaced, hrest⟩ := feederLink_iff.1 hlink
    obtain ⟨w, hw, heq⟩ := topoBay_of_installed c f s t k (computingInstant c f.instant) p q hb
    refine ⟨w, hw, d, r, (placed_view (mem_topoBays hw).2.1).1 ?_, hrest⟩
    rw [heq, ← hplaced]
    exact congrArg BayView.placed hview.symm
  · rintro ⟨w, hw, d, r, hplaced, hrest⟩
    obtain ⟨hb, hst, -⟩ := mem_topoBays hw
    exact ⟨_, mem_viewBays.2 ⟨hb, rfl⟩, feederLink_iff.2 ⟨d, r, (placed_view hst).2 hplaced, hrest⟩⟩

/-- The zones that hold a bay come in the order of the zones (R108, R116). -/
theorem zonesHolding_sublist (zones : List (Sect × SectSet)) (v : BayView) : (zonesHolding zones v).Sublist (zones.map Prod.fst) := by
  unfold zonesHolding
  split
  · exact List.filter_sublist.map _
  · exact List.nil_sublist _

theorem found_names (c : Settings) (f : Flight) (s t : State) :
    (((foundAt c f s t).zones.map fun z => (z.name, z.sections)).map Prod.fst).Pairwise namedBefore := by
  rw [show (foundAt c f s t).zones.map (fun z => (z.name, z.sections)) = _ from found_zones]
  exact zoneSets_order _ _

theorem ownZones_order (c : Settings) (f : Flight) (s t : State) : (ownZonesOf c (foundAt c f s t)).Pairwise namedBefore := by
  unfold ownZonesOf
  split
  · exact (found_names c f s t).sublist (zonesHolding_sublist _ _)
  · exact List.Pairwise.nil

/-- Settles O30. -/
theorem zonesPartSections : Obligations.ZonesPartSections := by
  refine ⟨fun present links => ⟨fun x hx => ?_, fun z hz => ⟨(mem_zoneSets.1 hz).2.1, fun x hx => (zoneSets_eq hz hx).1⟩,
    fun x y hx hy => ⟨?_, fun hj => ?_⟩⟩, fun c ph ch raw m s f h => ?_⟩
  · obtain ⟨z, hz, heq⟩ := zoneSets_covers (links := links) hx
    have hzx : z.2.get x = true := by rw [heq]; exact zoneOf_self x
    exact ⟨z, hz, hzx, fun z' hz' hx' => zoneSets_unique hz' hz hx' hzx⟩
  · rintro ⟨z, hz, hzx, hzy⟩
    obtain ⟨-, heq⟩ := zoneSets_eq hz hzx
    rw [heq] at hzy
    exact (zoneOf_iff hx).1 hzy
  · obtain ⟨z, hz, heq⟩ := zoneSets_covers (links := links) hx
    exact ⟨z, hz, by rw [heq]; exact zoneOf_self x, by rw [heq]; exact (zoneOf_iff hx).2 hj⟩
  · obtain ⟨t, hexec, ht⟩ := lastCompletion_evaluated raw h
    refine ⟨t, _, linksAt c (computingInstant c f.instant) t.pt, hexec, ht.topo, fun x y => mem_linksAt, ?_, ?_, ownZones_order c f s t⟩
    · rw [← found_zones (timers := s.ze.endZone)]
      simp only [makeTopology, List.map_map]
      rfl
    · have hnames := found_names c f s t
      simp only [List.map_map] at hnames
      simp only [makeTopology, List.map_map]
      exact hnames

end Sys2Proof.Machine

/-! PROOFS. The class of a zone phase at an evaluation (section 7), and what an evaluation makes of every zone phase (sections 6 and 7). -/

namespace Sys2Proof.Machine

open Sys2Proof

/-! ## The stages of R126, class by class -/

theorem isOp_eq (h : Characteristic) (id ir : Nat) : isOp h id ir = decide (h.iMin ≤ id ∧ h.k * ir ≤ 64 * id) := by
  simp [isOp]

section
variable {c : Settings} {h : Characteristic} {id ir : Nat} {z : ZoneState}

/-- A phase in QUIET enters stage 3 as it is, but for its quiet run. -/
theorem zoneStep_quiet (hz : z.cls = .quiet) :
    zoneStep c h id ir z = stage4 (isOp h id ir) (if c.iOnset ≤ ir then
      onsetTests c (isOp h id ir) { z with quietRun := 0, cls := .onset, onset := some 1 } else { z with quietRun := 0 }) := by
  have h2 : stage2 c ir z = { z with quietRun := 0 } := if_pos hz
  simp only [zoneStep, h2, stage3, hz]

/-- A phase in another class whose quiet run does not reach 80 enters stage 3 as it is, but for its quiet run. -/
theorem zoneStep_loaded (hl : c.iOnset / 2 ≤ ir ∨ z.quietRun + 1 < 80) (hz : z.cls ≠ .quiet) :
    ∃ q, zoneStep c h id ir z = stage4 (isOp h id ir) (stage3 c (isOp h id ir) id ir { z with quietRun := q }) := by
  obtain ⟨q, hq⟩ := stage2_loaded hl hz
  exact ⟨q, by rw [zoneStep, hq]⟩

theorem zoneStep_onset (hl : c.iOnset / 2 ≤ ir ∨ z.quietRun + 1 < 80) (hz : z.cls = .onset) :
    (isOp h id ir = true → (zoneStep c h id ir z).cls = .internal ∧ (zoneStep c h id ir z).onset = none) ∧
    ∀ n, z.onset = some n → isOp h id ir = false →
      (n + 1 < c.window → (zoneStep c h id ir z).cls = .onset ∧ (zoneStep c h id ir z).onset = some (n + 1)) ∧
      (c.window ≤ n + 1 → (zoneStep c h id ir z).cls = .through ∧ (zoneStep c h id ir z).onset = none) := by
  obtain ⟨q, hq⟩ := zoneStep_loaded (h := h) (id := id) hl (by simp [hz])
  rw [hq]
  refine ⟨fun hop => ?_, fun n hn hop => ⟨fun hw => ?_, fun hw => ?_⟩⟩
  · simp [hop, stage3, stage4, hz, onsetTests]
  · simp [hop, stage3, stage4, hz, onsetTests, windowEndZ, hn, Nat.not_le.2 hw]
  · simp [hop, stage3, stage4, hz, onsetTests, windowEndZ, hn, hw]

theorem zoneStep_internal (hl : c.iOnset / 2 ≤ ir ∨ z.quietRun + 1 < 80) (hz : z.cls = .internal) :
    (zoneStep c h id ir z).cls = .internal := by
  obtain ⟨q, hq⟩ := zoneStep_loaded (h := h) (id := id) hl (by simp [hz])
  rw [hq]
  simp [stage3, stage4, hz]

theorem zoneStep_through (hl : c.iOnset / 2 ≤ ir ∨ z.quietRun + 1 < 80) (hz : z.cls = .through) :
    (isOp h id ir = false → (zoneStep c h id ir z).cls = .through) ∧
    (isOp h id ir = true → (zoneStep c h id ir z).cls = .external ∧ (zoneStep c h id ir z).stab = c.tStab ∧
      (zoneStep c h id ir z).evolve = if 58 * ir ≤ 64 * id then 1 else 0) := by
  obtain ⟨q, hq⟩ := zoneStep_loaded (h := h) (id := id) hl (by simp [hz])
  rw [hq]
  refine ⟨fun hop => ?_, fun hop => ?_⟩
  · simp [hop, stage3, stage4, hz]
  · simp [hop, stage3, stage4, hz, evolves]

theorem zoneStep_external (hl : c.iOnset / 2 ≤ ir ∨ z.quietRun + 1 < 80) (hz : z.cls = .external) :
    let run := if 58 * ir ≤ 64 * id then z.evolve + 1 else 0
    let t := zoneStep c h id ir z
    (c.nOp ≤ run → t.cls = .internal ∧ t.stab = 0 ∧ t.evolve = 0) ∧
    (run < c.nOp → z.stab ≤ 1 → t.cls = .through ∧ t.evolve = 0) ∧
    (run < c.nOp → 1 < z.stab → t.cls = .external ∧ t.stab = z.stab - 1 ∧ t.evolve = run) := by
  intro run t
  have hrun : (if evolves id ir = true then z.evolve + 1 else 0) = run := by simp [run, evolves]
  obtain ⟨q, hq⟩ := zoneStep_loaded (h := h) (id := id) hl (by simp [hz])
  have ht : t = stage4 (isOp h id ir) (stage3 c (isOp h id ir) id ir { z with quietRun := q }) := hq
  simp only [stage3, hz, hrun] at ht
  rw [ht]
  refine ⟨fun hn => ?_, fun hn hs => ?_, fun hn hs => ?_⟩
  · simp [evolveReleaseZ, stage4, hn]
  · simp [evolveReleaseZ, stage4, stabExpiryZ, Nat.not_le.2 hn, Nat.sub_eq_zero_of_le hs]
  · simp [evolveReleaseZ, stage4, stabExpiryZ, Nat.not_le.2 hn, Nat.sub_ne_zero_of_lt hs]

/-! ## Stage 3 leaves the quiet run, and stage 4 sets the counter alone -/

theorem onsetTests_quietRun (op : Bool) (z : ZoneState) : (onsetTests c op z).quietRun = z.quietRun := by
  unfold onsetTests windowEndZ
  split_ifs <;> rfl

theorem onsetTests_counter (op : Bool) (z : ZoneState) : (onsetTests c op z).counter = z.counter := by
  unfold onsetTests windowEndZ
  split_ifs <;> rfl

theorem evolveReleaseZ_keeps (z : ZoneState) :
    (evolveReleaseZ c z).quietRun = z.quietRun ∧ (evolveReleaseZ c z).counter = z.counter := by
  unfold evolveReleaseZ
  split_ifs <;> exact ⟨rfl, rfl⟩

theorem stabExpiryZ_keeps (z : ZoneState) : (stabExpiryZ z).quietRun = z.quietRun ∧ (stabExpiryZ z).counter = z.counter := by
  unfold stabExpiryZ
  split_ifs <;> exact ⟨rfl, rfl⟩

theorem stage3_keeps (op : Bool) (z : ZoneState) :
    (stage3 c op id ir z).quietRun = z.quietRun ∧ (stage3 c op id ir z).counter = z.counter := by
  unfold stage3
  split
  · split_ifs
    · exact ⟨onsetTests_quietRun .., onsetTests_counter ..⟩
    · exact ⟨rfl, rfl⟩
  · exact ⟨onsetTests_quietRun .., onsetTests_counter ..⟩
  · exact ⟨rfl, rfl⟩
  · split_ifs <;> exact ⟨rfl, rfl⟩
  · obtain ⟨h1, h2⟩ := evolveReleaseZ_keeps (c := c) { z with evolve := if evolves id ir then z.evolve + 1 else 0 }
    dsimp only
    split_ifs
    · obtain ⟨h3, h4⟩ := stabExpiryZ_keeps
        { evolveReleaseZ c { z with evolve := z.evolve + 1 } with stab := (evolveReleaseZ c { z with evolve := z.evolve + 1 }).stab - 1 }
      simp_all
    · simp_all
    · obtain ⟨h3, h4⟩ := stabExpiryZ_keeps
        { evolveReleaseZ c { z with evolve := 0 } with stab := (evolveReleaseZ c { z with evolve := 0 }).stab - 1 }
      simp_all
    · simp_all

theorem stage2_keeps_counter (z : ZoneState) : (stage2 c ir z).counter = z.counter := by
  unfold stage2 quietReturnZ
  split_ifs <;> rfl

/-- The quiet run after an evaluation (R134). -/
theorem zoneStep_quietRun : (zoneStep c h id ir z).quietRun = (stage2 c ir z).quietRun := (stage3_keeps _ _).1

/-- The counter after an evaluation, by the class that stage 3 leaves (R127). -/
theorem zoneStep_counter : (zoneStep c h id ir z).counter =
    if (zoneStep c h id ir z).cls = .external then 0
    else if isOp h id ir = false then z.counter - 1
    else if (zoneStep c h id ir z).cls = .through then 0
    else min (z.counter + 1) 31 := by
  have hcounter : (stage3 c (isOp h id ir) id ir (stage2 c ir z)).counter = z.counter :=
    (stage3_keeps _ _).2.trans (stage2_keeps_counter z)
  have hcls : (zoneStep c h id ir z).cls = (stage3 c (isOp h id ir) id ir (stage2 c ir z)).cls := rfl
  rw [hcls, zoneStep, stage4]
  simp only [hcounter, upTo, Bool.not_eq_true']

/-- A quiet run of 80 returns a phase to QUIET at stage 2, and stage 3 leaves it there (R134): its restraint is below the onset level. -/
theorem zoneStep_unloaded (hr : ir < c.iOnset / 2) (hz : z.cls ≠ .quiet) :
    let t := zoneStep c h id ir z
    (80 ≤ z.quietRun + 1 → t.cls = .quiet ∧ t.onset = none ∧ t.stab = 0 ∧ t.quietRun = 0 ∧ t.evolve = 0) ∧
    (z.quietRun + 1 < 80 → t.quietRun = z.quietRun + 1) := by
  refine ⟨fun hq => ?_, fun hq => ?_⟩
  · have h2 : stage2 c ir z = { z with cls := .quiet, onset := none, stab := 0, quietRun := 0, evolve := 0 } := by
      simp only [stage2, if_neg hz, if_pos hr, quietReturnZ, upTo]
      rw [if_pos ⟨hz, by omega⟩]
    have hlow : ¬ c.iOnset ≤ ir := by omega
    simp only [zoneStep, h2, stage3, if_neg hlow, stage4, and_self]
  · rw [zoneStep_quietRun]
    simp only [stage2, if_neg hz, if_pos hr, quietReturnZ, upTo]
    rw [if_neg (by simp only [not_and]; omega)]
    change min (z.quietRun + 1) 80 = _
    omega

theorem zoneStep_quietRun_zero (hq : c.iOnset / 2 ≤ ir ∨ z.cls = .quiet) : (zoneStep c h id ir z).quietRun = 0 := by
  rw [zoneStep_quietRun, stage2]
  by_cases hz : z.cls = .quiet
  · rw [if_pos hz]
  · rw [if_neg hz, if_neg (by simpa using hq.resolve_right hz), quietReturnZ]
    split_ifs <;> rfl

theorem zoneStep_fromQuiet (hz : z.cls = .quiet) :
    let t := zoneStep c h id ir z
    (ir < c.iOnset → t.cls = .quiet) ∧ (c.iOnset ≤ ir → isOp h id ir = true → t.cls = .internal) ∧
    (c.iOnset ≤ ir → isOp h id ir = false → 1 < c.window → t.cls = .onset ∧ t.onset = some 1) ∧
    (c.iOnset ≤ ir → isOp h id ir = false → c.window ≤ 1 → t.cls = .through ∧ t.onset = none) := by
  intro t
  have ht : t = _ := zoneStep_quiet hz
  rw [ht]
  refine ⟨fun hi => ?_, fun hi hop => ?_, fun hi hop hw => ?_, fun hi hop hw => ?_⟩
  · rw [if_neg (by omega)]; exact hz
  · rw [if_pos hi, hop]; rfl
  · rw [if_pos hi, hop]; simp [onsetTests, windowEndZ, stage4, Nat.not_le.2 hw]
  · rw [if_pos hi, hop]; simp [onsetTests, windowEndZ, stage4, hw]
end

/-! ## An evaluation of every zone phase (R99, R110, R114, R115, R135, R136) -/

theorem blockedPhase_eq (service : Bool) (z : ZoneState) :
    countBlocked service true (blockSetBack z) = freshPhase (if service = true then min (z.blockedRun + 1) 400 else 0) := by
  cases service <;> rfl

theorem componentChange_get (ze : ZoneEngine) (y : Sect) (now : SectSet) (q : Phase) :
    let before := (componentChange ze.topo y now (ze.sects.get y)).get q
    (zoneChanged ze y now → before = freshPhase 0) ∧ (¬ zoneChanged ze y now → before = stateAt ze q (some y)) := by
  have hfresh : (⟨.setBack, .setBack, .setBack⟩ : PerPhase ZoneState).get q = freshPhase 0 := by cases q <;> rfl
  unfold componentChange zoneChanged
  cases lastZone ze.topo y with
  | none => exact ⟨fun ⟨_, hw, _⟩ => absurd hw (by simp), fun _ => rfl⟩
  | some w =>
    by_cases hw : w = now
    · simp only [if_pos hw]
      exact ⟨fun ⟨v, hv, hne⟩ => absurd ((Option.some.inj hv).symm.trans hw) hne, fun _ => rfl⟩
    · simp only [if_neg hw]
      exact ⟨fun _ => hfresh, fun hn => absurd ⟨w, rfl, hw⟩ hn⟩

theorem operates_iff {c : Settings} {b : Bool} {z : ZoneState} :
    operates c b z = true ↔ b = false ∧ c.nOp ≤ z.counter ∧ OperateClass z := by
  have hcls : mayOperate z.cls = true ↔ OperateClass z := by
    unfold OperateClass
    cases z.cls <;> simp [mayOperate]
  simp [operates, hcls, and_assoc]

theorem zoneWith_eq {c : Settings} {tau : Ticks} {p : Peers} {timers : List Nat} {w : FoundZone}
    (hw : w ∈ (findTopology c tau p timers).zones) {x : Sect} (hx : w.sections.get x = true) :
    (findTopology c tau p timers).zoneWith x = some w := by
  obtain ⟨_, hwx, -, -, rfl⟩ := zoneWith_of_mem hw hx
  exact hwx

/-- One phase in one evaluation, of a section or of the check zone, by the characteristic (R114, R115, R126). -/
def phaseAfter (c : Settings) (h : Characteristic) (service blocked : Bool) (id ir : Nat) (common own : ZoneState) : ZoneState :=
  if blocked then countBlocked service true (blockSetBack own) else { zoneStep c h id ir common with blockedRun := 0 }

theorem sectionPhase_eq (c : Settings) (service blocked : Bool) (id ir : Nat) (common own : ZoneState) :
    sectionPhase c service blocked id ir common own = phaseAfter c ⟨c.iMin, c.k⟩ service blocked id ir common own := rfl

theorem checkPhase_eq (c : Settings) (service blocked : Bool) (id ir : Nat) (z : ZoneState) :
    checkPhase c service blocked id ir z = phaseAfter c ⟨c.iChkMin, c.kChk⟩ service blocked id ir z z := rfl

/-- The state that an evaluation leaves, and the verdict, which is read from the state of the section that names the zone. -/
theorem phaseAfter_spec {c : Settings} {h : Characteristic} {p : Prop} [Decidable p] {r : PhaseResult}
    {common own ownNamed after named : ZoneState} (hafter : after = phaseAfter c h (decide p) r.blocked r.id r.ir common own)
    (hnamed : named = phaseAfter c h (decide p) r.blocked r.id r.ir common ownNamed) (hop : r.operate = operates c r.blocked named) :
    (r.blocked = true → after = freshPhase (if p then min (own.blockedRun + 1) 400 else 0)) ∧
    (r.blocked = false → after = { zoneStep c h r.id r.ir common with blockedRun := 0 }) ∧
    (r.operate = true ↔ r.blocked = false ∧ c.nOp ≤ after.counter ∧ OperateClass after) := by
  rw [hop, operates_iff, hafter, hnamed]
  cases r.blocked
  · simp [phaseAfter]
  · simp [phaseAfter, blockedPhase_eq]

section
variable {c : Settings} {f : Flight} {s t : State} (h : Evaluated c f s t)
include h

/-- The state of a section of a zone after the evaluation. -/
theorem Evaluated.sectionState {w : FoundZone} {x : Sect} (hx : (foundAt c f s t).zoneWith x = some w)
    (hn : (foundAt c f s t).zoneWith w.name = some w) (q : Phase) :
    stateAt t.ze q (some x) = phaseAfter c ⟨c.iMin, c.k⟩ (decide (f.declared = .service))
      (zoneBlockedAt (foundAt c f s t).views w.members w.sections q) (differential (foundAt c f s t).views q w.members)
      (restraint (foundAt c f s t).views q w.members)
      ((componentChange s.ze.topo w.name w.sections (s.ze.sects.get w.name)).get q)
      ((componentChange s.ze.topo x w.sections (s.ze.sects.get x)).get q) := by
  have hq := evaluateZones_present c f.epoch (computingInstant c f.instant) (decide (f.declared = .service)) t.pt s.ze hx q
  rw [stateAt, h.ze, ← afterChange_present s.ze hx, ← afterChange_present s.ze hn]
  exact hq

/-- The state of the check zone after the evaluation. -/
theorem Evaluated.checkState (q : Phase) :
    stateAt t.ze q none = phaseAfter c ⟨c.iChkMin, c.kChk⟩ (decide (f.declared = .service))
      (checkBlockedAt (foundAt c f s t).views (foundAt c f s t).chk q) (differential (foundAt c f s t).views q (foundAt c f s t).chk)
      (restraint (foundAt c f s t).views q (foundAt c f s t).chk) (stateAt s.ze q none) (stateAt s.ze q none) := by
  have hq := evaluateZones_check c f.epoch (computingInstant c f.instant) (decide (f.declared = .service)) t.pt s.ze q
  rw [stateAt, h.ze]
  exact hq

theorem Evaluated.outsideState {x : Sect} (hx : (foundAt c f s t).zoneWith x = none) : t.ze.sects.get x = s.ze.sects.get x := by
  rw [h.ze]
  exact evaluateZones_absent c f.epoch _ _ t.pt s.ze hx
end

/-- Settles O31. -/
theorem classMoves : Obligations.ClassMoves := by
  refine ⟨fun c h id ir z => ?_, fun c ph ch raw m s f h => ?_⟩
  · intro op t loaded
    have hop : op = isOp h id ir := (isOp_eq h id ir).symm
    rw [hop]
    refine ⟨fun hz => (zoneStep_fromQuiet hz).1, fun hz => (zoneStep_fromQuiet hz).2.1, fun hz => (zoneStep_fromQuiet hz).2.2.1,
      fun hz => (zoneStep_fromQuiet hz).2.2.2, fun hl hz => (zoneStep_onset hl hz).1, fun n hl hz => (zoneStep_onset hl hz).2 n,
      zoneStep_internal, fun hl hz => (zoneStep_through hl hz).1, fun hl hz => (zoneStep_through hl hz).2, zoneStep_external,
      zoneStep_unloaded, zoneStep_quietRun_zero, fun hc => ?_, fun hc hopT => ?_, fun hc hopF => ?_, fun hc hopT => ?_⟩
    · rw [zoneStep_counter, if_pos hc]
    · have hne : t.cls ≠ .external := by rw [hc]; decide
      rw [zoneStep_counter, if_neg hne, if_neg (by simp [hopT]), if_pos hc]
    · rw [zoneStep_counter, if_neg hc, if_pos hopF]
    · have hne : t.cls ≠ .external ∧ t.cls ≠ .through := by
        rcases hc with hc | hc | hc <;> exact ⟨by rw [hc]; decide, by rw [hc]; decide⟩
      rw [zoneStep_counter, if_neg hne.1, if_neg (by simp [hopT]), if_neg hne.2]
  · obtain ⟨t, hexec, ht⟩ := lastCompletion_evaluated raw h
    refine ⟨t, _, hexec, ht.topo, fun z hz x hx q => ?_, fun q => ?_, fun x hx q => ?_⟩
    · obtain ⟨w, hw, rfl⟩ := List.mem_map.1 hz
      have hw' : w ∈ (findTopology c (computingInstant c f.instant) t.pt s.ze.endZone).zones := hw
      have hwx := zoneWith_eq hw' hx
      have hwn := zoneWith_eq hw' (lowest_mem (mem_zoneSets.1 (found_zone hw')).2.1)
      refine ⟨fun y => (componentChange s.ze.topo y w.sections (s.ze.sects.get y)).get q, fun y => componentChange_get .., ?_⟩
      refine phaseAfter_spec (named := stateAt t.ze q (some w.name))
        (ownNamed := (componentChange s.ze.topo w.name w.sections (s.ze.sects.get w.name)).get q) ?_ ?_ ?_
      · rw [ht.sectionState hwx hwn q, zoneTopo, perPhase_of_get]
      · rw [ht.sectionState hwn hwn q, zoneTopo, perPhase_of_get]
      · rw [zoneTopo, perPhase_of_get]; rfl
    · refine phaseAfter_spec (named := stateAt t.ze q none) (ownNamed := stateAt s.ze q none) ?_ ?_ ?_
      · rw [ht.checkState q, makeTopology, checkTopo, perPhase_of_get]
      · rw [ht.checkState q, makeTopology, checkTopo, perPhase_of_get]
      · rw [makeTopology, checkTopo, perPhase_of_get]; rfl
    · refine congrFun (congrArg PerPhase.get (ht.outsideState (List.find?_eq_none.2 fun w hw hwx => ?_))) q
      exact absurd ((hx _ (List.mem_map_of_mem hw)).symm.trans hwx) (by decide)

end Sys2Proof.Machine

/-! PROOFS. Tripping (section 8): the retrip, breaker failure, the assertion of trips, and the evaluation and release of a trip. -/

namespace Sys2Proof.Machine

open Sys2Proof

/-! ## The rows of a trip that is on (R147, R148) -/

/-- Settles O32. -/
theorem retripDrivesCoil2 : Obligations.RetripDrivesCoil2 := by
  intro c s hr htrip htimer hmade hcurrent
  refine congrArg Host.Outcome.next ((whileRunning_eq hr).trans ?_)
  rw [retripOp, if_pos ⟨htrip, htimer, by rw [hmade]; rfl, hcurrent⟩]
  rfl

theorem contactClosed_iff (c : Settings) (s : State) :
    contactClosed c s = true ↔ c.breakerCheck = true ∧ ∃ r, s.ciu.derived = some r ∧ r.breaker = .closed := by
  rw [contactClosed, Bool.and_eq_true, decide_eq_true_eq, Option.map_eq_some_iff]

/-- Settles O33. -/
theorem breakerFailureFixesBacktrip : Obligations.BreakerFailureFixesBacktrip := by
  refine ⟨fun c s tp hr htrip hbf htimer hcause htopo => ?_, fun c s hr htrip hbf htimer hcurrent => ?_,
    fun c s hr hcurrent hcheck => ?_⟩
  · have hnow : (currentNow c s || contactClosed c s) = true := by
      rw [Bool.or_eq_true, contactClosed_iff]
      exact hcause
    have hown : ownSections s = tp.ownSections := by rw [ownSections, htopo]
    refine congrArg Host.Outcome.next ((whileRunning_eq hr).trans ?_)
    rw [breakerFailureOp, if_pos ⟨hbf, htimer, hnow⟩]
    split
    · rw [hown]; rfl
    all_goals next h => rw [htrip] at h; cases h
  · have hnow : (currentNow c s || contactClosed c s) = true := by
      rw [Bool.or_eq_true]
      exact .inl hcurrent
    refine congrArg Host.Outcome.next ((whileRunning_eq hr).trans ?_)
    rw [breakerFailureOp, if_pos ⟨hbf, htimer, hnow⟩]
    split
    case h_2 => rfl
    all_goals next h => rw [htrip] at h; cases h
  · have hnow : (currentNow c s || contactClosed c s) = false := by simp [currentNow, contactClosed, hcurrent, hcheck]
    refine congrArg Host.Outcome.next ((whileRunning_eq hr).trans ?_)
    rw [breakerFailureOp, if_neg (by simp [hnow])]

/-! ## The assertion of a trip (R140 to R143, R155) -/

/-- With a trip on, and in a state that takes no trip, nothing is asserted. -/
theorem assertIfAllowed_stays {c : Settings} {q : TripCause} {k : EpochNo} {s : State}
    (h : s.tu.trip ≠ .idle ∨ (s.sc.station ≠ .running .service ∧ s.sc.station ≠ .running .test)) : assertIfAllowed c q k s = s := by
  unfold assertIfAllowed
  split
  · next hi hst => exact absurd hst (h.resolve_left (not_not_intro hi)).1
  · next hi hst => exact absurd hst (h.resolve_left (not_not_intro hi)).2
  · rfl

/-- The state in which a backtrip request is counted as received (R142, R159). -/
def handedOn (s : State) : State :=
  { s with tu := { s.tu with ctr := { s.tu.ctr with backtripsReceived := min (s.tu.ctr.backtripsReceived + 1) 65535 } } }

theorem handedOn_eq (s : State) :
    (s.updTu fun u => { u with ctr := { u.ctr with backtripsReceived := bump u.ctr.backtripsReceived } }) = handedOn s := rfl

section
variable (c : Settings) (n : Nat) {r : RunState} {set : SectSet} {s : State}

theorem ignoresBacktrip_iff : ignoresBacktrip r = true ↔ r = .test ∨ r = .blocked ∨ r = .isolated := by
  cases r <;> simp [ignoresBacktrip]

theorem backtripRequest_ignored
    (h : r = .test ∨ r = .blocked ∨ r = .isolated ∨ ∃ x, set.get x = true ∧ c.present.get x = false) :
    backtripRequest c n r set s = { handedOn s with tu := { (handedOn s).tu with ctr := { (handedOn s).tu.ctr with
      backtripsIgnored := min (s.tu.ctr.backtripsIgnored + 1) 65535 } } } := by
  have hcond : (ignoresBacktrip r || !SectSet.subset set c.present) = true := by
    rw [Bool.or_eq_true, ignoresBacktrip_iff, Bool.not_eq_true', ← Bool.not_eq_true, sectSet_subset_iff]
    rcases h with h | h | h | ⟨x, hx, hp⟩
    · exact .inl (.inl h)
    · exact .inl (.inr (.inl h))
    · exact .inl (.inr (.inr h))
    · exact .inr fun hs => absurd (hs x hx) (by simp [hp])
  rw [backtripRequest, if_pos hcond]
  rfl

section
variable (hr : r = .listen ∨ r = .service) (hset : ∀ x, set.get x = true → c.present.get x = true)
include hr hset

theorem backtripRequest_taken : (ignoresBacktrip r || !SectSet.subset set c.present) ≠ true := by
  have hsub : SectSet.subset set c.present = true := (sectSet_subset_iff ..).2 hset
  rcases hr with rfl | rfl <;> simp [ignoresBacktrip, hsub]

theorem backtripRequest_unmatched (h : ∀ x, ¬ (set.get x = true ∧ (ownSections s).get x = true)) :
    backtripRequest c n r set s = { handedOn s with tu := { (handedOn s).tu with ctr := { (handedOn s).tu.ctr with
      backtripsUnmatched := min (s.tu.ctr.backtripsUnmatched + 1) 65535 } } } := by
  have hempty : SectSet.isEmpty (SectSet.inter set (ownSections s)) = true := by
    rw [← Bool.not_eq_false, sectSet_inter_iff]
    exact fun ⟨x, hx⟩ => h x hx
  rw [backtripRequest, if_neg (backtripRequest_taken c hr hset), if_pos (by exact hempty)]
  rfl

theorem backtripRequest_asserts (h : ∃ x, set.get x = true ∧ (ownSections s).get x = true) :
    backtripRequest c n r set s = assertIfAllowed c (.backtrip n set) s.su.epoch (handedOn s) := by
  have hne : SectSet.isEmpty (SectSet.inter set (ownSections s)) = false := (sectSet_inter_iff ..).2 h
  rw [backtripRequest, if_neg (backtripRequest_taken c hr hset), if_neg (by rw [Bool.not_eq_true]; exact hne)]
  rfl
end
end

theorem tripEvaluation_idle {c : Settings} {k : EpochNo} {s : State} {tp : Topology} (hidle : s.tu.trip = .idle)
    (htopo : s.ze.topo = some tp) :
    tripEvaluation c k s = match differentialCause tp with
      | some q => assertIfAllowed c q k s
      | none => s := by
  cases hcause : differentialCause tp <;> simp only [tripEvaluation, hidle, htopo, Option.bind_some, hcause]

theorem differentialRecord_cause {tp : Topology} {q : TripCause} (h : DifferentialRecord tp q) : TripCause.byBacktrip q = false := by
  obtain ⟨phases, zone, z, -, rfl, -⟩ := h
  rfl

/-- Settles O35. -/
theorem tripsAreAsserted : Obligations.TripsAreAsserted := by
  refine ⟨fun c n r set s => ⟨backtripRequest_ignored c n, backtripRequest_unmatched c n, fun hr hset hown => ?_⟩,
    fun c k s tp hidle htopo => ⟨fun ph hph => ?_, fun hnone => ?_⟩⟩
  · rw [backtripRequest_asserts c n hr hset hown]
    refine ⟨fun hidle hst => ?_, fun hidle hst => ?_, fun hstay => assertIfAllowed_stays hstay⟩
    · rw [assertIfAllowed_service (s := handedOn s) hidle hst]
      exact assertTrip_spec c false (.backtrip n set) s.su.epoch (handedOn s)
    · rw [assertIfAllowed_test (s := handedOn s) hidle hst]
      exact assertTrip_spec c true (.backtrip n set) s.su.epoch (handedOn s)
  · obtain ⟨q, hq, hrecord⟩ := differentialCause_some ⟨ph, hph⟩
    have ht : tripEvaluation c k s = assertIfAllowed c q k s := by rw [tripEvaluation_idle hidle htopo, hq]
    have hby := differentialRecord_cause hrecord
    refine ⟨fun hst => ?_, fun hst => ?_⟩
    · obtain ⟨hasserted, htaken⟩ := assertTrip_spec c false q k s
      rw [hby] at hasserted
      rw [ht, assertIfAllowed_service hidle hst]
      exact ⟨hasserted, q, hrecord, htaken⟩
    · obtain ⟨hasserted, htaken⟩ := assertTrip_spec c true q k s
      rw [hby] at hasserted
      rw [ht, assertIfAllowed_test hidle hst]
      exact ⟨hasserted, q, hrecord, htaken⟩
  · rw [tripEvaluation_idle hidle htopo]
    rcases hnone with hst | hnone
    · split
      · exact assertIfAllowed_stays (.inr hst)
      · rfl
    · rw [differentialCause_none hnone]

/-! ## The evaluation of a trip that is on (R146 to R149) -/

theorem tripEvaluation_on {c : Settings} {k : EpochNo} {s : State} (h : s.tu.trip ≠ .idle) :
    tripEvaluation c k s = releaseOp c (activeCause c s) (breakerFailureOp c (retripOp c (tripTimers c s))) := by
  unfold tripEvaluation
  split
  · next hidle => exact absurd hidle h
  · rfl

theorem retripMadeBy_iff (c : Settings) (s : State) : retripMadeBy c s = true ↔
    c.tRetrip ≤ s.tu.retrip + 1 ∧ s.tu.retripMade = false ∧ currentPresent c s.su.peak = true := by
  have hmin : min (s.tu.retrip + 1) c.tRetrip = c.tRetrip ↔ c.tRetrip ≤ s.tu.retrip + 1 := by omega
  simp only [retripMadeBy, currentNow, Bool.and_eq_true, decide_eq_true_eq, Bool.not_eq_true', upTo, hmin, and_assoc]

theorem failureBy_iff (c : Settings) (s : State) : failureBy c s = true ↔ s.tu.bf = .timing ∧ c.tBf ≤ s.tu.bfTimer + 1 ∧
    (currentPresent c s.su.peak = true ∨ (c.breakerCheck = true ∧ ∃ r, s.ciu.derived = some r ∧ r.breaker = .closed)) := by
  have hmin : min (s.tu.bfTimer + 1) c.tBf = c.tBf ↔ c.tBf ≤ s.tu.bfTimer + 1 := by omega
  simp only [failureBy, currentNow, Bool.and_eq_true, Bool.or_eq_true, decide_eq_true_eq, upTo, hmin, contactClosed_iff, and_assoc]

theorem releaseOp_keeps {c : Settings} {a : Bool} {s : State}
    (h : a = true ∨ currentPresent c s.su.peak = true ∨ s.tu.sealIn ≠ 0) : releaseOp c a s = s := by
  rw [releaseOp, if_neg]
  rintro ⟨hseal, ha, hcurrent⟩
  rcases h with rfl | h | h
  · simp at ha
  · simp [currentNow, h] at hcurrent
  · exact h hseal

theorem releaseOp_asserted {c : Settings} {s : State} (htrip : s.tu.trip = .asserted) (hseal : s.tu.sealIn = 0)
    (hcurrent : currentPresent c s.su.peak = false) : releaseOp c false s = startPulse (releaseTrip .release s) := by
  rw [releaseOp, if_pos ⟨hseal, rfl, by simp [currentNow, hcurrent]⟩]
  simp only [htrip]

theorem releaseOp_test {c : Settings} {s : State} (htrip : s.tu.trip = .testAsserted) (hseal : s.tu.sealIn = 0)
    (hcurrent : currentPresent c s.su.peak = false) : releaseOp c false s = releaseTrip .release s := by
  rw [releaseOp, if_pos ⟨hseal, rfl, by simp [currentNow, hcurrent]⟩]
  simp only [htrip]

/-- The Trip Unit after a release, with its record closed (R149, R158). -/
theorem releaseTrip_tu (how : TripEnd) (s : State) : (releaseTrip how s).tu =
    { s.tu with
      trip := .idle, coil1 := if s.tu.coil1 = .trip then .off else s.tu.coil1, coil2 := .off, sealIn := 0, retrip := 0
      retripMade := false, bfTimer := 0, bf := .idle, backtrip := noSects, recorded := false
      held := if s.tu.recorded then s.tu.held.map fun x =>
        { x with closed := some ⟨s.su.epoch, how, s.tu.retripMade, decide (s.tu.bf = .failed)⟩ } else s.tu.held } := by
  obtain ⟨hheld, -⟩ := closeRecord_fields how s.su.epoch s.tu
  rw [releaseTrip, State.updTu_tu, closeRecord_rest, hheld]

/-- Step 5 of an evaluation whose trip has neither a cause nor current nor seal-in left (R149, R153). -/
theorem releaseOp_releases {c : Settings} {s : State} (hidle : s.tu.trip ≠ .idle) (hseal : s.tu.sealIn = 0)
    (hcurrent : currentPresent c s.su.peak = false) :
    let t := releaseOp c false s
    let r := (releaseTrip .release s).tu
    t = { s with tu := t.tu } ∧
    t.tu = if s.tu.trip = .asserted then { r with coil1 := .supervision, pulse := some 1, supCount := 0, pulseNew := true } else r := by
  cases htrip : s.tu.trip with
  | idle => exact absurd htrip hidle
  | asserted => rw [releaseOp_asserted htrip hseal hcurrent]; exact ⟨rfl, rfl⟩
  | testAsserted => rw [releaseOp_test htrip hseal hcurrent]; exact ⟨rfl, rfl⟩

theorem release_asserted {c : Settings} {s : State} (htrip : s.tu.trip = .asserted) (hseal : s.tu.sealIn = 0)
    (hcurrent : currentPresent c s.su.peak = false) :
    let t := releaseOp c false s
    t = { s with tu := t.tu } ∧ t.tu.trip = .idle ∧ t.tu.coil1 = .supervision ∧ t.tu.pulse = some 1 ∧ t.tu.coil2 = .off ∧
    t.tu.bf = .idle ∧ t.tu.backtrip = noSects ∧ t.tu.bfTimer = 0 ∧ t.tu.retrip = 0 ∧ t.tu.recNumber = s.tu.recNumber ∧
    ∀ r, s.tu.held = some r → t.tu.held = some (if s.tu.recorded then
      { r with closed := some ⟨s.su.epoch, .release, s.tu.retripMade, decide (s.tu.bf = .failed)⟩ } else r) := by
  obtain ⟨ht, htu⟩ := releaseOp_releases (by simp [htrip]) hseal hcurrent
  rw [if_pos htrip, releaseTrip_tu] at htu
  refine ⟨ht, ?_⟩
  simp only [htu, true_and]
  intro r hr
  rw [hr]
  split <;> rfl

/-- The state after steps 1 to 4 of the evaluation of a trip that is on (R146 to R148). -/
def afterFailure (c : Settings) (s : State) : State := breakerFailureOp c (retripOp c (tripTimers c s))

/-- An evaluation keeps a trip, as it stands after step 4, that has a cause, current or seal-in left, and releases any other. -/
theorem tripEvaluation_cases {c : Settings} (k : EpochNo) {s : State} (h : s.tu.trip ≠ .idle) :
    let x := afterFailure c s
    (activeCause c s = true ∨ currentPresent c s.su.peak = true ∨ 1 < s.tu.sealIn → tripEvaluation c k s = x) ∧
    (¬ (activeCause c s = true ∨ currentPresent c s.su.peak = true ∨ 1 < s.tu.sealIn) →
      tripEvaluation c k s = releaseOp c false x ∧ x.tu.sealIn = 0 ∧ currentPresent c x.su.peak = false) := by
  have hx : (afterFailure c s).su = s.su ∧ (afterFailure c s).tu.sealIn = s.tu.sealIn - 1 := by
    rw [afterFailure, timersToFailure_spec c s h]
    exact ⟨rfl, rfl⟩
  rw [tripEvaluation_on h]
  refine ⟨fun hkept => releaseOp_keeps ?_, fun hkept => ?_⟩
  · change _ ∨ currentPresent c (afterFailure c s).su.peak = true ∨ (afterFailure c s).tu.sealIn ≠ 0
    rw [hx.1, hx.2]
    exact hkept.imp_right (Or.imp_right fun _ => by omega)
  · obtain ⟨hactive, hcurrent, hseal⟩ : activeCause c s ≠ true ∧ currentPresent c s.su.peak ≠ true ∧ ¬ 1 < s.tu.sealIn := by
      simpa only [not_or] using hkept
    exact ⟨by rw [Bool.eq_false_of_not_eq_true hactive]; rfl, by rw [hx.2]; omega,
      by rw [hx.1, Bool.eq_false_of_not_eq_true hcurrent]⟩

theorem decide_failed (b : Bool) (x : BfState) :
    decide ((if b = true then BfState.failed else x) = .failed) = (decide (x = .failed) || b) := by
  cases b <;> simp

/-- The Trip Unit after the release of a trip that an evaluation finds without a cause (R149, R153, R158). -/
theorem tripEvaluation_released {c : Settings} (k : EpochNo) {s : State} (h : s.tu.trip ≠ .idle)
    (hkept : ¬ (activeCause c s = true ∨ currentPresent c s.su.peak = true ∨ 1 < s.tu.sealIn)) :
    let t := tripEvaluation c k s
    let x := afterFailure c s
    t = { x with tu := t.tu } ∧ t.tu.ctr = x.tu.ctr ∧
    t.tu.trip = .idle ∧ t.tu.coil2 = .off ∧ t.tu.bf = .idle ∧ t.tu.backtrip = noSects ∧ t.tu.sealIn = 0 ∧ t.tu.bfTimer = 0 ∧
    t.tu.retrip = 0 ∧ t.tu.recorded = false ∧ t.tu.recNumber = s.tu.recNumber ∧
    (s.tu.trip = .asserted → t.tu.coil1 = .supervision ∧ t.tu.pulse = some 1 ∧ t.tu.supCount = 0) ∧
    (s.tu.trip = .testAsserted →
      t.tu.coil1 = (if s.tu.coil1 = .trip then .off else s.tu.coil1) ∧ t.tu.pulse = s.tu.pulse ∧ t.tu.supCount = s.tu.supCount) ∧
    t.tu.held = if s.tu.recorded then s.tu.held.map fun r =>
      { r with closed := some ⟨s.su.epoch, .release, s.tu.retripMade, decide (s.tu.bf = .failed) || failureBy c s⟩ } else s.tu.held := by
  intro t x
  obtain ⟨ht, hseal, hcurrent⟩ := (tripEvaluation_cases k h).2 hkept
  have hmade : retripMadeBy c s = false := by
    rw [← Bool.not_eq_true, retripMadeBy_iff]
    exact fun hm => hkept (.inr (.inl hm.2.2))
  have hx : afterFailure c s = _ := timersToFailure_spec c s h
  have htrip : x.tu.trip = s.tu.trip := by rw [show x = _ from hx]
  obtain ⟨hframe, htu⟩ := releaseOp_releases (s := x) (htrip ▸ h) hseal hcurrent
  rw [← show t = _ from ht, releaseTrip_tu, htrip] at htu
  rw [← show t = _ from ht] at hframe
  simp only [show x = _ from hx, hmade, decide_failed, Bool.or_false] at htu
  refine ⟨hframe, ?_⟩
  rw [htu]
  by_cases ha : s.tu.trip = .asserted
  · simp [ha, show x = _ from hx, hmade]
  · simp [ha, show x = _ from hx, hmade]

/-! ## An epoch with a trip on (R150, R152, R153) -/

/-- At an epoch with no late own sample, the Trip Unit takes the choice of the state r and then the supervision of that state. -/
theorem epochParts_supervised (c : Settings) (k : Contacts) (tcs : Bool) (o : EpochOrder) {s : State}
    (h : ∀ ph ch, (s.su.chans.get ph).get ch ≠ .converting) :
    let t := epochParts c k tcs o (arbitrateBoth c s)
    ∃ r x, t.sc.station = .running r ∧ x.tu = { s.tu with pulseNew := false } ∧ x.su.epoch = s.su.epoch + 1 ∧ x.pins.tcs = tcs ∧
      t.tu = (supervisionEpoch r (tripAtChoice r x)).tu ∧
      ∀ i, (supervisionEpoch r (tripAtChoice r x)).mp.flags.getLsbD i = true → t.mp.flags.getLsbD i = true := by
  obtain ⟨x, hsc, htu, -, hepoch, htcs, hend, hflags⟩ := epochParts_tu c k tcs o (arbitrateBoth c s) (by simpa using h)
  obtain ⟨r, fl, sc, hform, hstation, hsc'⟩ := choiceStage_form c x
  have hchosen : chosenAt (choiceStage c x) = r := by rw [chosenAt, hsc', hstation]
  rw [hchosen, hform] at hend hflags
  exact ⟨r, { x with sc := sc, mp := { x.mp with flags := fl } }, by rw [hsc, hsc', hstation], by simpa using htu, by simpa using hepoch,
    htcs, hend, hflags⟩

theorem abandonPulse_coils (s : State) : (abandonPulse s).tu.coil2 = s.tu.coil2 ∧ (abandonPulse s).tu.recorded = s.tu.recorded ∧
    (s.tu.coil1 = .off → (abandonPulse s).tu.coil1 = .off) := by
  unfold abandonPulse
  split
  · exact ⟨rfl, rfl, fun h => by simp [h, Coil1.afterPulse]⟩
  · exact ⟨rfl, rfl, id⟩

theorem supervisionEpoch_new {r : RunState} {s : State} (h : s.tu.pulseNew = true) : supervisionEpoch r s = s := if_pos (.inr h)

theorem supervisionEpoch_blocked (s : State) : supervisionEpoch .blocked s = s := if_pos (.inl rfl)

/-- The choice of a state keeps a trip that was asserted in it. -/
theorem stateRelease_stays {r : RunState} {s : State}
    (h : (s.tu.trip = .asserted ∧ r = .service) ∨ (s.tu.trip = .testAsserted ∧ r = .test)) : tripAtChoice r s = s := by
  rcases h with ⟨ht, rfl⟩ | ⟨ht, rfl⟩ <;> simp [tripAtChoice, stateRelease, ht]

/-- The choice of another state releases a trip (R150), from ASSERTED with a supervision pulse unless it is BLOCKED (R153). -/
theorem stateRelease_releases {r : RunState} {s : State} (hidle : s.tu.trip ≠ .idle)
    (h : ¬ ((s.tu.trip = .asserted ∧ r = .service) ∨ (s.tu.trip = .testAsserted ∧ r = .test))) :
    tripAtChoice r s = if r = .blocked then abandonPulse (releaseTrip .stateChange s)
      else if s.tu.trip = .asserted then startPulse (releaseTrip .stateChange s) else releaseTrip .stateChange s := by
  cases ht : s.tu.trip with
  | idle => exact absurd ht hidle
  | asserted =>
    have hr : r ≠ .service := fun hr => h (.inl ⟨ht, hr⟩)
    by_cases hb : r = .blocked
    · subst hb; simp [tripAtChoice, stateRelease, ht]
    · simp [tripAtChoice, stateRelease, ht, hr, hb]
  | testAsserted =>
    have hr : r ≠ .test := fun hr => h (.inr ⟨ht, hr⟩)
    simp [tripAtChoice, stateRelease, ht, hr]

/-- What the release at a change of station state leaves, through the supervision of that epoch (R149, R150, R153, R158). -/
theorem stateRelease_supervised {r : RunState} {s : State} (hidle : s.tu.trip ≠ .idle)
    (h : ¬ ((s.tu.trip = .asserted ∧ r = .service) ∨ (s.tu.trip = .testAsserted ∧ r = .test)))
    (hcoil : s.tu.trip = .asserted → s.tu.coil1 = .trip) :
    let u := (supervisionEpoch r (tripAtChoice r s)).tu
    u.trip = .idle ∧ u.coil2 = .off ∧ u.bf = .idle ∧ u.backtrip = noSects ∧ u.recorded = false ∧
    (s.tu.trip = .asserted → r = .blocked → u.coil1 = .off ∧ u.pulse = none) ∧
    (s.tu.trip = .asserted → r ≠ .blocked → u.coil1 = .supervision ∧ u.pulse = some 1 ∧ u.supCount = 0) ∧
    u.held = if s.tu.recorded then s.tu.held.map fun x =>
      { x with closed := some ⟨s.su.epoch, .stateChange, s.tu.retripMade, decide (s.tu.bf = .failed)⟩ } else s.tu.held := by
  rw [stateRelease_releases hidle h]
  have hrel := releaseTrip_tu .stateChange s
  by_cases hb : r = .blocked
  · subst hb
    obtain ⟨htrip, hbf, hback, hheld, -, -, -, hpulse, -⟩ := abandonPulse_fields (releaseTrip .stateChange s)
    obtain ⟨hcoil2, hrec, hoff⟩ := abandonPulse_coils (releaseTrip .stateChange s)
    rw [if_pos rfl, supervisionEpoch_blocked]
    dsimp only
    rw [htrip, hbf, hback, hheld, hcoil2, hrec, hrel]
    exact ⟨rfl, rfl, rfl, rfl, rfl, fun ha _ => ⟨hoff (by rw [hrel]; simp [hcoil ha]), hpulse⟩, fun _ hne => absurd rfl hne, rfl⟩
  · rw [if_neg hb]
    by_cases ha : s.tu.trip = .asserted
    · rw [if_pos ha, supervisionEpoch_new rfl]
      have hpulse : (startPulse (releaseTrip .stateChange s)).tu = { (releaseTrip .stateChange s).tu with
          coil1 := .supervision, pulse := some 1, supCount := 0, pulseNew := true } := rfl
      rw [hpulse, hrel]
      exact ⟨rfl, rfl, rfl, rfl, rfl, fun _ hr => absurd hr hb, fun _ _ => ⟨rfl, rfl, rfl⟩, rfl⟩
    · rw [if_neg ha]
      obtain ⟨h1, h2, h3, -, h5, h6, h7⟩ := supervisionEpoch_trip r (releaseTrip .stateChange s)
      dsimp only
      rw [h1, h2, h3, h5, h6, h7, hrel]
      exact ⟨rfl, rfl, rfl, rfl, rfl, fun h => absurd h ha, fun h => absurd h ha, rfl⟩

/-- Settles O36. -/
theorem releaseEndsTrip : Obligations.ReleaseEndsTrip := by
  refine ⟨fun c s => release_asserted, fun c k s hidle => ⟨retripMadeBy c s, failureBy c s, retripMadeBy_iff c s, failureBy_iff c s, ?_⟩,
    fun c k tcs o s hr hs hidle hchans => ?_⟩
  · have hx : afterFailure c s = _ := timersToFailure_spec c s hidle
    by_cases hkept : activeCause c s = true ∨ currentPresent c s.su.peak = true ∨ 1 < s.tu.sealIn
    · have ht := ((tripEvaluation_cases k hidle).1 hkept).trans hx
      rw [activeCause_iff, or_assoc] at hkept
      rw [ht]
      exact ⟨rfl, rfl, fun _ => rfl, fun hn => absurd hkept hn⟩
    · obtain ⟨hframe, hctr, hreleased⟩ := tripEvaluation_released k hidle hkept
      rw [activeCause_iff, or_assoc] at hkept
      rw [hx] at hframe hctr
      exact ⟨hframe, hctr, fun hk => absurd hk hkept, fun _ => hreleased⟩
  · obtain ⟨r, x, hst, hxtu, hxe, -, htu, -⟩ := epochParts_supervised c k tcs o hchans
    have htrip : x.tu.trip = s.tu.trip := by rw [hxtu]
    refine ⟨_, r, exec_epoch k tcs o hr, hst, fun hstays => ?_, fun hstays => ?_⟩
    · rw [htu, stateRelease_stays (by rwa [htrip])]
      obtain ⟨h1, h2, h3, h4, h5, h6, h7⟩ := supervisionEpoch_trip r x
      rw [hxtu] at h1 h2 h3 h4 h5 h6 h7
      refine ⟨h1, h2, h3, h4, h5, h6, h7, fun ha => ?_⟩
      have hcoil := hs.coil1_asserted.2 ha
      have hpulse : s.tu.pulse = none := by
        rw [← Option.not_isSome_iff_eq_none, ← hs.pulse_supervision, hcoil]
        decide
      exact (supervisionEpoch_keeps_trip r x (by rw [hxtu, hpulse]) (by rw [hxtu, hcoil])).2.2.2.2.2.2.2
    · have hreleased := stateRelease_supervised (s := x) (r := r) (by rwa [htrip]) (by rwa [htrip])
        (fun ha => by rw [hxtu]; exact hs.coil1_asserted.2 (htrip ▸ ha))
      rw [hxe, hxtu] at hreleased
      rw [htu]
      exact hreleased

end Sys2Proof.Machine

/-! PROOFS. The trip-circuit supervision (section 8.5). -/

namespace Sys2Proof.Machine

open Sys2Proof

/-! ## A pulse that is due, and one that ends (R152, R154) -/

section
variable {s : State}

theorem pulseDueOp_waits (h : s.tu.supCount < 1024) : pulseDueOp s = s := if_neg (by omega)

theorem pulseDueOp_due (h : s.tu.supCount = 1024) : pulseDueOp s =
    if s.tu.coil1 = .trip then
      s.updTu fun u => { u with supCount := 0, ctr := { u.ctr with supSkips := bump u.ctr.supSkips } }
    else startPulse s := if_pos (by omega)

theorem pulseEndOp_none (h : s.tu.pulse = none) : pulseEndOp s = s := by simp only [pulseEndOp, h]

theorem pulseEndOp_runs {n : Nat} (h : s.tu.pulse = some n) (hn : n < 8) : pulseEndOp s = s := by
  simp only [pulseEndOp, h]
  rw [if_neg (by omega)]

theorem afterPulse_eq (x : Coil1) : x.afterPulse = if x = .supervision then .off else x := by cases x <;> rfl

/-- The state in which a pulse that has its 8 epochs has ended, its TCS not yet read. -/
def pulseEnded (s : State) : State := s.updTu fun u => { u with pulse := none, coil1 := if u.coil1 = .supervision then .off else u.coil1 }

theorem pulseEnded_supervision (h : s.tu.coil1 = .supervision) :
    pulseEnded s = s.updTu fun u => { u with pulse := none, coil1 := .off } := by
  simp [pulseEnded, State.updTu, h]

theorem pulseEndOp_passes {n : Nat} (h : s.tu.pulse = some n) (hn : 8 ≤ n) (htcs : s.pins.tcs = true) :
    pulseEndOp s = (pulseEnded s).updTu fun u => { u with supFails := 0 } := by
  simp only [pulseEndOp, h, ge_iff_le, hn, if_true, State.updTu_pins, htcs, afterPulse_eq]
  rfl

theorem pulseEndOp_fails {n : Nat} (h : s.tu.pulse = some n) (hn : 8 ≤ n) (htcs : s.pins.tcs = false) :
    pulseEndOp s = raiseIf (min (s.tu.supFails + 1) 3 == 3) .tripCircuit ((pulseEnded s).updTu fun u =>
      { u with supFails := min (u.supFails + 1) 3, ctr := { u.ctr with supFailures := min (u.ctr.supFailures + 1) 65535 } }) := by
  simp only [pulseEndOp, h, ge_iff_le, hn, if_true, State.updTu_pins, htcs, afterPulse_eq, Bool.false_eq_true, if_false]
  rfl

theorem thirdFailure_iff (n : Nat) : (min (n + 1) 3 == 3) = true ↔ 2 ≤ n := by
  rw [beq_iff_eq]
  omega
end

/-! ## The supervision at an epoch (R152 to R154) -/

/-- The Trip Unit with its pulse and its supervision count advanced. -/
def pulseCounted (s : State) : State := s.updTu fun u => { u with pulse := u.pulse.map (upTo 8), supCount := upTo 1024 u.supCount }

theorem supervisionEpoch_counts {r : RunState} {s : State} (hr : r ≠ .blocked) (hnew : s.tu.pulseNew = false) :
    supervisionEpoch r s = pulseDueOp (pulseEndOp (pulseCounted s)) := if_neg (by simp [hr, hnew])

section
variable {r : RunState} {s : State} (hr : r ≠ .blocked) (hnew : s.tu.pulseNew = false)
include hr hnew

/-- Below 1,024 the count goes up, and only the pulse under way may end. -/
theorem supervisionEpoch_below (hcount : s.tu.supCount + 1 < 1024) : supervisionEpoch r s = pulseEndOp (pulseCounted s) := by
  have hkeeps : (pulseEndOp (pulseCounted s)).tu.supCount = min (s.tu.supCount + 1) 1024 := by
    unfold pulseEndOp
    split
    · rfl
    · dsimp only
      split_ifs
      · rfl
      · rw [raiseIf_tu]; rfl
      · rfl
  rw [supervisionEpoch_counts hr hnew, pulseDueOp_waits (by rw [hkeeps]; omega)]

theorem supervisionEpoch_due (hcount : 1024 ≤ s.tu.supCount + 1) (hpulse : s.tu.pulse = none) :
    supervisionEpoch r s = if s.tu.coil1 = .trip then
        (pulseCounted s).updTu fun u => { u with supCount := 0, ctr := { u.ctr with supSkips := bump u.ctr.supSkips } }
      else startPulse (pulseCounted s) := by
  have hnone : (pulseCounted s).tu.pulse = none := by simp [pulseCounted, hpulse]
  have hfull : (pulseCounted s).tu.supCount = 1024 := Nat.min_eq_right hcount
  rw [supervisionEpoch_counts hr hnew, pulseEndOp_none hnone, pulseDueOp_due hfull]
  rfl
end

/-- What the supervision of an epoch leaves while its count stays below 1,024 (R152, R154). -/
theorem supervised_below {r : RunState} {x : State} {u : TripUnit} {tcs : Bool} (hx : x.tu = { u with pulseNew := false })
    (htcs : x.pins.tcs = tcs) (hr : r ≠ .blocked) (hcount : u.supCount + 1 < 1024) :
    let t := supervisionEpoch r x
    let counts : TripUnit := { u with pulseNew := false, supCount := u.supCount + 1 }
    (u.pulse = none → t.tu = counts) ∧
    ∀ n, u.pulse = some n →
      (n + 1 < 8 → t.tu = { counts with pulse := some (n + 1) }) ∧
      (8 ≤ n + 1 →
        let ends : TripUnit := { counts with pulse := none, coil1 := if u.coil1 = .supervision then .off else u.coil1 }
        (tcs = true → t.tu = { ends with supFails := 0 }) ∧
        (tcs = false → t.tu = { ends with
            supFails := min (u.supFails + 1) 3
            ctr := { u.ctr with supFailures := min (u.ctr.supFailures + 1) 65535 } } ∧
          (2 ≤ u.supFails → t.mp.flags.getLsbD 16 = true))) := by
  have hsup : min (u.supCount + 1) 1024 = u.supCount + 1 := by omega
  have hcounted : (pulseCounted x).tu = { u with pulseNew := false, pulse := u.pulse.map (upTo 8), supCount := u.supCount + 1 } := by
    simp only [pulseCounted, State.updTu_tu, hx, upTo, hsup]
  rw [supervisionEpoch_below hr (by rw [hx]) (by rw [hx]; exact hcount)]
  refine ⟨fun hp => ?_, fun n hp => ⟨fun hn => ?_, fun hn => ⟨fun ht => ?_, fun ht => ?_⟩⟩⟩
  · rw [hp] at hcounted
    rw [pulseEndOp_none (by rw [hcounted]; rfl), hcounted]
    simp only [Option.map_none, hp]
  all_goals rw [hp, Option.map_some] at hcounted
  all_goals have hpulse : (pulseCounted x).tu.pulse = some (min (n + 1) 8) := by rw [hcounted]; rfl
  · rw [pulseEndOp_runs hpulse (by omega), hcounted]
    simp only [upTo, Nat.min_eq_left hn.le]
  · rw [pulseEndOp_passes hpulse (by omega) (htcs.trans ht), State.updTu_tu, pulseEnded, State.updTu_tu, hcounted]
  · rw [pulseEndOp_fails hpulse (by omega) (htcs.trans ht), raiseIf_tu, State.updTu_tu, pulseEnded, State.updTu_tu, hcounted]
    refine ⟨rfl, fun hf => ?_⟩
    rw [raiseIf, if_pos ((thirdFailure_iff _).2 (by omega))]
    simp [withFlag, Alarm.bit]

theorem supervised_due {r : RunState} {x : State} {u : TripUnit} (hx : x.tu = { u with pulseNew := false }) (hr : r ≠ .blocked)
    (hcount : 1024 ≤ u.supCount + 1) (hpulse : u.pulse = none) :
    let t := supervisionEpoch r x
    (u.coil1 ≠ .trip → t.tu = { u with pulseNew := true, supCount := 0, coil1 := .supervision, pulse := some 1 }) ∧
    (u.coil1 = .trip → t.tu = { u with
      pulseNew := false, supCount := 0, ctr := { u.ctr with supSkips := min (u.ctr.supSkips + 1) 65535 } }) := by
  have hcoil : x.tu.coil1 = u.coil1 := by rw [hx]
  rw [supervisionEpoch_due hr (by rw [hx]) (by rw [hx]; exact hcount) (by rw [hx]; exact hpulse), hcoil]
  refine ⟨fun hc => ?_, fun hc => ?_⟩
  · rw [if_neg hc]
    simp only [startPulse, pulseCounted, State.updTu_tu, hx]
  · rw [if_pos hc]
    simp only [pulseCounted, State.updTu_tu, hx, hpulse, Option.map_none]
    rfl

/-- With no trip on, the choice of BLOCKED abandons the pulse under way and holds the count (R152). -/
theorem supervised_blocked {x : State} {u : TripUnit} (hx : x.tu = { u with pulseNew := false }) (hidle : u.trip = .idle) :
    (supervisionEpoch .blocked (tripAtChoice .blocked x)).tu = { u with
      pulseNew := false, pulse := none, coil1 := if u.pulse.isSome ∧ u.coil1 = .supervision then .off else u.coil1
      ctr := { u.ctr with supAbandons := if u.pulse.isSome then min (u.ctr.supAbandons + 1) 65535 else u.ctr.supAbandons } } := by
  have hrelease : stateRelease .blocked x = x := by simp [stateRelease, hx, hidle]
  rw [supervisionEpoch_blocked, tripAtChoice, if_pos rfl, hrelease, abandonPulse, hx]
  cases hp : u.pulse with
  | none => simp [hx, hp]
  | some n => simp [hx, afterPulse_eq, bump]

/-- Settles O34. -/
theorem supervisionPulses : Obligations.SupervisionPulses := by
  refine ⟨fun c s hr hst hcount => ?_, fun c s hr hp hcoil => ?_, fun c s hr hp hcoil => ?_, fun c k tcs o s hr hchans => ?_⟩
  · refine congrArg Host.Outcome.next ((whileRunning_eq hr).trans ?_)
    dsimp only
    rw [if_neg hst, pulseDueOp_due hcount]
    by_cases hc : s.tu.coil1 = .trip
    · rw [if_pos hc, if_pos hc]; rfl
    · rw [if_neg hc, if_neg hc]; rfl
  · refine congrArg Host.Outcome.next ((whileRunning_eq hr).trans ?_)
    dsimp only
    rw [pulseEndOp_passes (s := s.updPins fun p => { p with tcs := true }) hp le_rfl rfl, pulseEnded_supervision (by exact hcoil)]
    rfl
  · refine congrArg Host.Outcome.next ((whileRunning_eq hr).trans ?_)
    dsimp only
    rw [pulseEndOp_fails (s := s.updPins fun p => { p with tcs := false }) hp le_rfl rfl, pulseEnded_supervision (by exact hcoil)]
    simp only [raiseIf, thirdFailure_iff, State.updPins_tu]
    split_ifs <;> rfl
  · obtain ⟨r, x, hst, hx, -, htcs, htu, hflags⟩ := epochParts_supervised c k tcs o hchans
    refine ⟨_, exec_epoch k tcs o hr, fun hidle hb => ?_, fun hstays hb => ?_⟩
    · rw [hst] at hb
      obtain rfl : r = .blocked := Station.running.inj hb
      rw [htu]
      exact supervised_blocked hx hidle
    · rw [hst] at hstays hb
      have hrb : r ≠ .blocked := fun h => hb (by rw [h])
      have hchoice : tripAtChoice r x = x := by
        rcases hstays with hidle | ⟨ha, hser⟩ | ⟨ha, htest⟩
        · simp [tripAtChoice, stateRelease, hx, hidle, hrb]
        · exact stateRelease_stays (.inl ⟨by rw [hx]; exact ha, Station.running.inj hser⟩)
        · exact stateRelease_stays (.inr ⟨by rw [hx]; exact ha, Station.running.inj htest⟩)
      rw [hchoice] at htu hflags
      rw [htu]
      refine ⟨fun hcount => ?_, fun hcount hp => supervised_due hx hrb hcount hp⟩
      obtain ⟨hnone, hsome⟩ := supervised_below hx htcs hrb hcount
      refine ⟨hnone, fun n hp => ⟨(hsome n hp).1, fun hn => ⟨((hsome n hp).2 hn).1, fun ht => ?_⟩⟩⟩
      obtain ⟨hend, hflag⟩ := ((hsome n hp).2 hn).2 ht
      exact ⟨hend, fun hf => hflags 16 (hflag hf)⟩

end Sys2Proof.Machine

/-! PROOFS. The Station Controller's marks and its choice at an epoch (O37, O38). -/
namespace Sys2Proof.Machine
open Sys2Proof

/-! ### What the Ring Interface keeps beside its ports -/

/-- The Ring Interface without its ports: the quiet runs and the detail. -/
def besidePorts (s : State) : Ring := { s.ri with east := .reset false, west := .reset false }

@[simp] theorem besidePorts_updPort (p : Port) (f : PortState → PortState) (s : State) :
    besidePorts (s.updPort p f) = besidePorts s := by cases p <;> rfl

theorem besidePorts_of_ri {s t : State} (h : t.ri = s.ri) : besidePorts t = besidePorts s := by simp [besidePorts, h]

@[simp] theorem besidePorts_probeOp (p : Port) (s : State) : besidePorts (probeOp p s) = besidePorts s := by
  unfold probeOp enterProbing
  dsimp only
  split <;> simp

@[simp] theorem besidePorts_echoDueOp (l : Link) (p : Port) (s : State) : besidePorts (echoDueOp l p s) = besidePorts s := by
  unfold echoDueOp
  dsimp only
  split <;> simp

@[simp] theorem besidePorts_portEpoch (p : Port) (s : State) : besidePorts (portEpoch p s) = besidePorts s := by
  unfold portEpoch
  dsimp only
  split_ifs <;> simp

@[simp] theorem besidePorts_arbitrateBoth (c : Settings) (s : State) : besidePorts (arbitrateBoth c s) = besidePorts s := by
  have hone : ∀ p s, besidePorts (arbitrate c p s) = besidePorts s := fun p s =>
    (besidePorts_of_ri (by simp [arbitrate])).trans (besidePorts_updPort p (arbitratePort c s.su.lt) s)
  exact (hone .west _).trans (hone .east s)

@[simp] theorem besidePorts_ownSampleEvent (c : Settings) (s : State) : besidePorts (ownSampleEvent c s) = besidePorts s := by
  unfold ownSampleEvent
  split
  · rfl
  · dsimp only
    generalize hplaced : placeOwn _ _ = z
    refine (besidePorts_of_ri (s := z) (by simp [evaluateInstant])).trans ?_
    rw [← hplaced]
    simp only [placeOwn, besidePorts_updPort]
    exact besidePorts_of_ri (by simp)

@[simp] theorem besidePorts_lateEvent (c : Settings) (s : State) : besidePorts (lateEvent c s) = besidePorts s := by
  unfold lateEvent
  split <;> simp

theorem besidePorts_quietEpoch {s t : State} (h : besidePorts t = besidePorts s) :
    besidePorts (quietEpoch t) = besidePorts (quietEpoch s) := by
  simp only [besidePorts, Ring.mk.injEq] at h
  simp [besidePorts, quietEpoch, h]

/-- The quiet runs and the detail at an epoch (R59): whatever the order of its parts. -/
theorem besidePorts_epochParts (c : Settings) (k : Contacts) (tcs : Bool) (o : EpochOrder) (s : State) :
    besidePorts (epochParts c k tcs o s) = besidePorts (quietEpoch s) := by
  have hlate : ∀ b s, besidePorts (stageIf b (lateEvent c) s) = besidePorts s := fun b =>
    stageIf_keeps besidePorts b _ (besidePorts_lateEvent c)
  have hpeers : ∀ b s, besidePorts (stageIf b (peerEpoch c) s) = besidePorts s := fun b =>
    stageIf_keeps besidePorts b _ fun s => besidePorts_of_ri (by simp)
  have hring : ∀ s, besidePorts (ringEpoch s) = besidePorts (quietEpoch s) := fun s => by simp [ringEpoch]
  have hfirst : besidePorts (choiceStage c (beforeChoice c k tcs o s)) = besidePorts (stageIf o.linksFirst ringEpoch s) := by
    rw [besidePorts_of_ri (choiceStage_ri c _)]
    unfold beforeChoice
    cases o.linksFirst
    · exact (hpeers _ _).trans ((hlate _ _).trans (besidePorts_of_ri (by simp [clockEpoch, stageIf])))
    · refine (hring _).trans (.trans (besidePorts_quietEpoch ?_) (hring s).symm)
      exact (hpeers _ _).trans ((hlate _ _).trans (besidePorts_of_ri (by simp [clockEpoch])))
  have hlast : ∀ s, besidePorts (afterChoice c o s) = besidePorts (stageIf (!o.linksFirst) ringEpoch s) := fun s => by
    unfold afterChoice
    dsimp only
    generalize hmid : stageIf (decide (o.late = .afterChoice)) (lateEvent c) s = z
    have hrest : besidePorts (stageIf (decide (o.late = .afterSupervision)) (lateEvent c) (supervisionEpoch (chosenAt z) z)) =
        besidePorts s := by
      rw [hlate, besidePorts_of_ri (s := z) (by simp), ← hmid, hlate]
    cases o.linksFirst
    · exact (hring _).trans ((besidePorts_quietEpoch ((hpeers _ _).trans hrest)).trans (hring s).symm)
    · exact (hpeers _ _).trans hrest
  rw [epochParts_split]
  refine (besidePorts_of_ri rfl).trans ((hlast _).trans ?_)
  cases hl : o.linksFirst <;> rw [hl] at hfirst
  · exact (hring _).trans (besidePorts_quietEpoch hfirst)
  · exact hfirst.trans (hring s)

/-- Settles O38: the marks by their rows, and the quiet runs at an epoch. -/
theorem marksOfTheController : Obligations.MarksOfTheController := by
  refine ⟨fun c s hr hcount => ?_, fun c s hr hlisten => ?_, fun c s hr hlisten => ?_, fun s => ⟨rfl, by simp [alarmCause]⟩,
    fun s => ⟨rfl, by simp [alarmCause]⟩, fun s => ⟨rfl, by simp [alarmCause], by simp [blockedCauses]⟩, fun c k tcs o s hr => ?_⟩
  · exact congrArg Host.Outcome.next ((whileRunning_eq hr).trans (if_pos hcount.ge))
  · refine congrArg Host.Outcome.next ((whileRunning_eq hr).trans ?_)
    rw [listenTimeoutOp, hlisten]
    rfl
  · refine congrArg Host.Outcome.next ((whileRunning_eq hr).trans ?_)
    rw [listenTimeoutOp, beq_false_of_ne hlisten]
    rfl
  · have h := (besidePorts_epochParts c k tcs o (arbitrateBoth c s)).trans
      (besidePorts_quietEpoch (besidePorts_arbitrateBoth c s))
    simp only [besidePorts, Ring.mk.injEq] at h
    obtain ⟨-, -, hover, hunexp, hdetail⟩ := h
    refine ⟨_, exec_epoch k tcs o hr, hover, hunexp, hdetail⟩

end Sys2Proof.Machine

/-! PROOFS. The choice of the station state with its two flags, and that an epoch makes it (O37). -/
namespace Sys2Proof.Machine
open Sys2Proof

/-! ### The two flags of the Station Controller, which no other part of an epoch raises -/

/-- LISTEN TIMEOUT and ISOLATION BREACH. -/
def stationFlags (s : State) : Bool × Bool := (s.mp.flags.getLsbD 15, s.mp.flags.getLsbD 13)

theorem stationFlags_of_mp {s t : State} (h : t.mp = s.mp) : stationFlags t = stationFlags s := by simp [stationFlags, h]

/-- An alarm of another unit. -/
def NotOfStation (a : Alarm) : Prop := a.bit ≠ 15 ∧ a.bit ≠ 13

theorem stationFlags_raise {a : Alarm} (h : NotOfStation a) (s : State) : stationFlags (raise a s) = stationFlags s := by
  have hclear : ∀ i < 19, a.bit ≠ i → (withFlag a s.mp.flags).getLsbD i = s.mp.flags.getLsbD i := fun i hi hne => by
    simp [withFlag, BitVec.getLsbD_twoPow, hne]
  simp only [stationFlags, raise, State.updMp_mp, hclear 15 (by decide) h.1, hclear 13 (by decide) h.2]

theorem stationFlags_raiseIf {a : Alarm} (h : NotOfStation a) (b : Bool) (s : State) :
    stationFlags (raiseIf b a s) = stationFlags s := by
  cases b
  · rfl
  · exact stationFlags_raise h s

section
variable (c : Settings) (s : State)

@[simp] theorem stationFlags_updTu (f : TripUnit → TripUnit) : stationFlags (s.updTu f) = stationFlags s := rfl

@[simp] theorem stationFlags_pulseDueOp : stationFlags (pulseDueOp s) = stationFlags s := by
  unfold pulseDueOp startPulse
  split_ifs <;> rfl

@[simp] theorem stationFlags_pulseEndOp : stationFlags (pulseEndOp s) = stationFlags s := by
  unfold pulseEndOp
  split
  · rfl
  · dsimp only
    split_ifs
    · rfl
    · exact stationFlags_raiseIf ⟨by decide, by decide⟩ _ _
    · rfl

@[simp] theorem stationFlags_supervisionEpoch (r : RunState) : stationFlags (supervisionEpoch r s) = stationFlags s := by
  unfold supervisionEpoch
  split_ifs <;> simp

@[simp] theorem stationFlags_assertIfAllowed (cause : TripCause) (k : EpochNo) :
    stationFlags (assertIfAllowed c cause k s) = stationFlags s := by
  have hcapture : ∀ b s, stationFlags (captureRecord b cause k s) = stationFlags s := fun b s => by
    unfold captureRecord
    split
    · rfl
    · exact stationFlags_raise ⟨by decide, by decide⟩ _
  have habandon : ∀ s, stationFlags (abandonPulse s) = stationFlags s := fun s => by
    unfold abandonPulse
    split <;> rfl
  have hassert : ∀ b, stationFlags (assertTrip c b cause k s) = stationFlags s := fun b => by
    unfold assertTrip
    cases b
    · exact (hcapture _ _).trans (habandon s)
    · exact hcapture _ _
  unfold assertIfAllowed
  split
  · exact hassert false
  · exact hassert true
  · rfl

@[simp] theorem stationFlags_breakerFailureOp : stationFlags (breakerFailureOp c s) = stationFlags s := by
  unfold breakerFailureOp
  split
  · split
    · exact stationFlags_raise ⟨by decide, by decide⟩ _
    · rfl
    · rfl
  · rfl

@[simp] theorem stationFlags_tripEvaluation (k : EpochNo) : stationFlags (tripEvaluation c k s) = stationFlags s := by
  have hretrip : ∀ s, stationFlags (retripOp c s) = stationFlags s := fun s => by
    unfold retripOp
    split_ifs <;> rfl
  have hrelease : ∀ b s, stationFlags (releaseOp c b s) = stationFlags s := fun b s => by
    unfold releaseOp
    split
    · split <;> rfl
    · rfl
  unfold tripEvaluation
  split
  · split
    · exact stationFlags_assertIfAllowed c s _ _
    · rfl
  · exact (hrelease _ _).trans ((stationFlags_breakerFailureOp c _).trans ((hretrip _).trans rfl))

@[simp] theorem stationFlags_takeRecordSu (x : Record) : stationFlags (takeRecordSu x s) = stationFlags s := by
  have hfail : ∀ s, stationFlags (converterFailureOp s) = stationFlags s := fun s => by
    unfold converterFailureOp
    split
    · exact stationFlags_raise ⟨by decide, by decide⟩ _
    · rfl
  have hrecover : ∀ s, stationFlags (converterRecoveryOp s) = stationFlags s := fun s => by
    unfold converterRecoveryOp
    split_ifs <;> rfl
  exact (hrecover _).trans ((hfail _).trans rfl)

theorem stationFlags_zoneBlockedOp (z : ZoneRef) (ph : Phase) : stationFlags (zoneBlockedOp z ph s) = stationFlags s := by
  unfold zoneBlockedOp
  split
  · exact stationFlags_raise ⟨by decide, by decide⟩ _
  · rfl

@[simp] theorem stationFlags_lateEvent : stationFlags (lateEvent c s) = stationFlags s :=
  lateEvent_pres (P := fun t => stationFlags t = stationFlags s) rfl fun h =>
    ownSampleEvent_pres (P := fun t => stationFlags t = stationFlags s) h
      (fun x u hu => (stationFlags_takeRecordSu u x).trans hu) (fun _ _ _ hu => hu)
      (fun _ _ hu => hu) (fun _ _ hu => hu) (fun _ _ _ _ hu => hu)
      (fun _ hu => zoneBlockedAll_pres (P := fun t => stationFlags t = stationFlags s) hu fun z ph u h =>
        (stationFlags_zoneBlockedOp u z ph).trans h)
      (fun k u hu => (stationFlags_tripEvaluation c u k).trans hu)

@[simp] theorem stationFlags_peerEpoch : stationFlags (peerEpoch c s) = stationFlags s := by
  have hstale : ∀ b s, stationFlags (peerStaleOp c b s) = stationFlags s := fun b s => by
    unfold peerStaleOp
    dsimp only
    split
    · exact stationFlags_raiseIf ⟨by decide, by decide⟩ _ _
    · rfl
  have habsent : ∀ b s, stationFlags (peerAbsentOp c b s) = stationFlags s := fun b s => by
    unfold peerAbsentOp
    dsimp only
    split_ifs <;> rfl
  have hjoining : ∀ b s, stationFlags (joiningResetOp c b s) = stationFlags s := fun b s => by
    unfold joiningResetOp
    dsimp only
    split_ifs <;> rfl
  exact peerEpoch_pres (P := fun t => stationFlags t = stationFlags s)
    (fun b u hu => (habsent b _).trans ((hstale b _).trans ((hjoining b _).trans hu))) rfl

@[simp] theorem stationFlags_ringEpoch : stationFlags (ringEpoch s) = stationFlags s := stationFlags_of_mp (by simp)

@[simp] theorem stationFlags_contactEpoch (k : Contacts) (n : EpochNo) :
    stationFlags (contactEpoch c k n s) = stationFlags s := by
  have hmark : ∀ p s, stationFlags (discrepancyOp c p s) = stationFlags s := fun p s => by
    unfold discrepancyOp
    split
    · rfl
    · split
      · exact stationFlags_raise ⟨by cases p <;> decide, by decide⟩ _
      · rfl
  have htick : stationFlags (if n.toNat % c.filterTick = 0 then s.updCiu (filterTick k) else s) = stationFlags s := by
    split_ifs <;> rfl
  unfold contactEpoch
  dsimp only
  split
  · exact (hmark _ _).trans ((hmark _ _).trans ((hmark _ _).trans htick))
  · exact htick

@[simp] theorem stationFlags_arbitrateBoth : stationFlags (arbitrateBoth c s) = stationFlags s := by
  have hone : ∀ p s, stationFlags (arbitrate c p s) = stationFlags s := fun p s =>
    (stationFlags_raiseIf ⟨by decide, by decide⟩ _ _).trans (stationFlags_of_mp (by simp))
  exact (hone .west _).trans (hone .east s)

theorem stationFlags_beforeChoice (k : Contacts) (tcs : Bool) (o : EpochOrder) :
    stationFlags (beforeChoice c k tcs o s) = stationFlags s :=
  (beforeChoice_keeps c k tcs o s stationFlags (by simp) (by simp) (by simp)).trans
    ((stationFlags_contactEpoch c _ k _).trans rfl)

theorem stationFlags_afterChoice (o : EpochOrder) : stationFlags (afterChoice c o s) = stationFlags s :=
  afterChoice_keeps c o s stationFlags (by simp) (by simp) (by simp) (by simp)

end

/-! ### The choice -/

theorem qualifiedOp_sc (s : State) : (qualifiedOp s).sc.qualCount = s.sc.qualCount ∧
    ((qualifiedOp s).sc.qualified = true ↔ s.sc.qualified = true ∨ 400 ≤ (qualifiedOp s).sc.qualCount) := by
  unfold qualifiedOp
  split
  next hfull => exact ⟨rfl, fun _ => .inr hfull, fun _ => rfl⟩
  next hfull => exact ⟨rfl, .inl, fun hq => hq.resolve_right hfull⟩

/-- The conditions of R166 as the statement words them. -/
theorem testQualification_sc {c : Settings} {s : State} :
    (s.sc.station = .running .blocked → (testQualification c s).sc.qualCount = 0 ∧
      (testQualification c s).sc.qualified = s.sc.qualified) ∧
    (s.sc.station ≠ .running .blocked →
      (testQualification c s).sc.qualCount = (if qualifies c s then min (s.sc.qualCount + 1) 400 else 0) ∧
      ((testQualification c s).sc.qualified = true ↔
        s.sc.qualified = true ∨ 400 ≤ (testQualification c s).sc.qualCount)) := by
  unfold testQualification
  refine ⟨fun h => ?_, fun h => ?_⟩
  · rw [if_pos h]
    exact ⟨rfl, rfl⟩
  · rw [if_neg h]
    exact qualifiedOp_sc _

/-- The state chosen on conditions d (R161). -/
theorem chosenState_eq {s : State} {d : Conditions} (hd : s.ciu.cond = some d) :
    chosenState s = if s.su.convFail = true ∨ s.sc.dupQuiet < 4000 then RunState.blocked
      else if d.oos = true ∧ d.allOpen = true then .isolated
      else if d.tst = true ∨ s.sc.maintTest = true then .test
      else if s.sc.qualified = true then .service else .listen := by
  unfold chosenState
  simp only [blockedCauses, hd, Bool.or_eq_true, Bool.and_eq_true, decide_eq_true_eq]

theorem alarmCause_breach {u : State} {d : Conditions} (hd : u.ciu.cond = some d) :
    alarmCause u .isolationBreach = (d.oos && !d.allOpen) := by simp only [alarmCause, hd]

/-- The two flags at the choice (R167, R168): the listen timer that it leaves and the conditions set them. -/
theorem choiceStage_mp (c : Settings) (s : State) :
    (choiceStage c s).mp = { s.mp with flags := s.mp.flags |||
      (if (choiceStage c s).sc.listen = 40000 then BitVec.twoPow 19 15 else 0) |||
      (if alarmCause s .isolationBreach then BitVec.twoPow 19 13 else 0) } := by
  have hmp : (choiceStage c s).mp = (breach (listenTimeoutOp (enterState (chosenState (atChoice c s)) (atChoice c s)))).mp :=
    tripAtChoice_mp _ _
  rw [hmp, choiceStage_sc]
  generalize hu : enterState (chosenState (atChoice c s)) (atChoice c s) = u
  have hump : u.mp = s.mp := by rw [← hu]; simp [atChoice]
  have hucond : alarmCause (listenTimeoutOp u) .isolationBreach = alarmCause s .isolationBreach := by
    rw [← hu]; simp [alarmCause, atChoice]
  rw [breach, hucond, raiseIf_mp, listenTimeoutOp, raiseIf_mp, hump]
  simp only [withFlag, beq_iff_eq]
  split <;> split <;> simp [Alarm.bit]

/-- So the choice alone sets the two flags, each with its cause. -/
theorem stationFlags_choiceStage (c : Settings) (s : State) : stationFlags (choiceStage c s) =
    ((stationFlags s).1 || decide ((choiceStage c s).sc.listen = 40000), (stationFlags s).2 || alarmCause s .isolationBreach) := by
  unfold stationFlags
  rw [choiceStage_mp]
  dsimp only
  simp only [BitVec.getLsbD_or]
  refine Prod.ext ?_ ?_ <;> split <;> split <;> simp [*]

/-- The Station Controller at the choice, from the count and the qualification that R166 gives it. -/
theorem choiceStage_chosen (c : Settings) (s : State) :
    ∃ r, r = chosenState (atChoice c s) ∧ (choiceStage c s).sc = { s.sc with
      station := .running r
      causes := if r = .blocked then ⟨s.su.convFail, decide (min (s.sc.dupQuiet + 1) 4000 < 4000), false⟩ else ⟨false, false, false⟩
      dupQuiet := min (s.sc.dupQuiet + 1) 4000
      qualified := if r = .blocked then false else (atChoice c s).sc.qualified
      qualCount := if r = .blocked then 0 else (atChoice c s).sc.qualCount
      listen := if r = .listen then min (s.sc.listen + 1) 40000 else 0
      stateChanges := if s.sc.station = .running r then s.sc.stateChanges else min (s.sc.stateChanges + 1) 65535 } := by
  refine ⟨_, rfl, ?_⟩
  have hsc : (atChoice c s).sc = { s.sc with
      dupQuiet := upTo 4000 s.sc.dupQuiet
      qualified := (atChoice c s).sc.qualified
      qualCount := (atChoice c s).sc.qualCount } := testQualification_form c _
  have hsu : (atChoice c s).su = s.su := by simp [atChoice]
  rw [choiceStage_sc]
  generalize atChoice c s = a at hsc hsu ⊢
  have hcauses : blockedCauses a = ⟨s.su.convFail, decide (min (s.sc.dupQuiet + 1) 4000 < 4000), false⟩ := by
    rw [blockedCauses, hsu, hsc]; rfl
  simp only [enterState, State.updSc_sc, hcauses]
  rw [hsc]
  rfl

theorem choice_stated {c : Settings} {s : State} {d : Conditions} (hd : s.ciu.cond = some d) :
    let t := choiceStage c s
    let quiet := min (s.sc.dupQuiet + 1) 4000
    let steady := (∀ b : Bay, c.hasBay b = true → (s.entry b).presence = .live ∨ (s.entry b).declared = some .isolated) ∧
      ((s.port .east).link = .up ∨ (s.port .west).link = .up)
    ∃ count qualified r,
      (s.sc.station = .running .blocked → count = 0 ∧ qualified = s.sc.qualified) ∧
      (s.sc.station ≠ .running .blocked → (steady → count = min (s.sc.qualCount + 1) 400) ∧ (¬ steady → count = 0) ∧
        (qualified = true ↔ s.sc.qualified = true ∨ 400 ≤ count)) ∧
      r = (if s.su.convFail = true ∨ quiet < 4000 then RunState.blocked
        else if d.oos = true ∧ d.allOpen = true then .isolated
        else if d.tst = true ∨ s.sc.maintTest = true then .test
        else if qualified = true then .service else .listen) ∧
      t.sc = { s.sc with
        station := .running r
        causes := if r = .blocked then ⟨s.su.convFail, decide (quiet < 4000), false⟩ else ⟨false, false, false⟩
        dupQuiet := quiet
        qualified := if r = .blocked then false else qualified
        qualCount := if r = .blocked then 0 else count
        listen := if r = .listen then min (s.sc.listen + 1) 40000 else 0
        stateChanges := if s.sc.station = .running r then s.sc.stateChanges else min (s.sc.stateChanges + 1) 65535 } := by
  dsimp only
  obtain ⟨r, hr, hsc⟩ := choiceStage_chosen c s
  obtain ⟨hblocked, hnot⟩ := testQualification_sc (c := c) (s := s.updSc fun u => { u with dupQuiet := upTo 4000 u.dupQuiet })
  refine ⟨_, _, r, hblocked, fun h => ?_, ?_, hsc⟩
  · obtain ⟨hcount, hqual⟩ := hnot h
    refine ⟨fun hs => hcount.trans (if_pos ((qualifies_iff c _).2 hs)),
      fun hs => hcount.trans (if_neg fun hq => hs ((qualifies_iff c _).1 hq)), hqual⟩
  · have hciu : (atChoice c s).ciu.cond = some d := by simpa [atChoice] using hd
    have hkept : (atChoice c s).su.convFail = s.su.convFail ∧ (atChoice c s).sc.dupQuiet = min (s.sc.dupQuiet + 1) 4000 ∧
        (atChoice c s).sc.maintTest = s.sc.maintTest := by
      have hform := testQualification_form c (s.updSc fun u => { u with dupQuiet := upTo 4000 u.dupQuiet })
      exact ⟨by simp [atChoice], congrArg (·.dupQuiet) hform, congrArg (·.maintTest) hform⟩
    obtain ⟨hconv, hdup, hmaint⟩ := hkept
    rw [hr, chosenState_eq hciu, hconv, hdup, hmaint]
    rfl

/-! ### What the choice at an epoch reads, as the state before and the state after hold it -/

section
variable {c : Settings} {k : Contacts} {tcs : Bool} {o : EpochOrder} {s : State}

/-- What the choice reads of a peer entry. -/
def seenOf (e : PeerEntry) : Presence × Option RunState := (e.presence, e.declared)

theorem stageIf_false (f : State → State) (s : State) : stageIf false f s = s := rfl

theorem seenOf_of_pt {s t : State} {b : Bay} (h : t.pt = s.pt) : seenOf (t.entry b) = seenOf (s.entry b) := by
  rw [State.entry, h, State.entry]

theorem seenOf_peerEpoch (c : Settings) (s : State) : seenOf ((peerEpoch c s).entry c.bay) = seenOf (s.entry c.bay) :=
  Prod.ext (peerEpoch_own c s).1 (peerEpoch_own c s).2

theorem beforeChoice_own (h : o.late ≠ .beforeChoice) :
    seenOf ((beforeChoice c k tcs o s).entry c.bay) = seenOf (s.entry c.bay) := by
  unfold beforeChoice
  rw [decide_eq_false h]
  rw [seenOf_of_pt (stageIf_keeps (·.pt) _ _ (fun _ => by simp) _),
    stageIf_keeps (fun s => seenOf (s.entry c.bay)) _ _ (seenOf_peerEpoch c)]
  exact seenOf_of_pt (by simp [stageIf, clockEpoch])

theorem afterChoice_own (h : o.late = .beforeChoice) : seenOf ((afterChoice c o s).entry c.bay) = seenOf (s.entry c.bay) := by
  unfold afterChoice
  rw [h]
  dsimp only
  rw [seenOf_of_pt (stageIf_keeps (·.pt) _ _ (fun _ => by simp) _),
    stageIf_keeps (fun s => seenOf (s.entry c.bay)) _ _ (seenOf_peerEpoch c)]
  exact seenOf_of_pt (by simp [stageIf])

theorem beforeChoice_peer {b : Bay} (hb : b ≠ c.bay) (h : o.peersFirst = false) :
    (beforeChoice c k tcs o s).entry b = s.entry b := by
  unfold beforeChoice
  rw [h, stageIf_keeps (fun s => s.entry b) _ _ (fun _ => by simp [State.entry])]
  refine (stageIf_keeps (fun s => s.entry b) _ _ (fun s => (lateEvent_peers c s).1 b hb) _).trans ?_
  simp [State.entry, clockEpoch]

theorem afterChoice_peer {b : Bay} (hb : b ≠ c.bay) (h : o.peersFirst = true) : (afterChoice c o s).entry b = s.entry b := by
  have hlate := fun a => stageIf_keeps (fun s => s.entry b) a _ (fun s => (lateEvent_peers c s).1 b hb)
  unfold afterChoice
  rw [h]
  dsimp only
  rw [stageIf_keeps (fun s => s.entry b) _ _ (fun _ => by simp [State.entry])]
  refine (hlate _ _).trans (.trans ?_ (hlate (decide (o.late = .afterChoice)) s))
  simp [State.entry]

theorem beforeChoice_link (p : Port) (h : o.linksFirst = false) :
    ((beforeChoice c k tcs o s).port p).link = (s.port p).link := by
  unfold beforeChoice
  rw [h, stageIf_false]
  refine (stageIf_keeps (fun s => (s.port p).link) _ _ (fun _ => by simp [State.port]) _).trans ?_
  refine (stageIf_keeps (fun s => (s.port p).link) _ _ (fun s => (lateEvent_peers c s).2.2 p) _).trans ?_
  simp [State.port, clockEpoch]

theorem afterChoice_link (p : Port) (h : o.linksFirst = true) : ((afterChoice c o s).port p).link = (s.port p).link := by
  have hlate := fun a => stageIf_keeps (fun s => (s.port p).link) a _ (fun s => (lateEvent_peers c s).2.2 p)
  unfold afterChoice
  rw [h, Bool.not_true, stageIf_false]
  refine (stageIf_keeps (fun s => (s.port p).link) _ _ (fun _ => by simp [State.port]) _).trans ?_
  refine (hlate _ _).trans (.trans ?_ (hlate (decide (o.late = .afterChoice)) s))
  simp [State.port]

theorem beforeChoice_convFail (h : o.late ≠ .beforeChoice) : (beforeChoice c k tcs o s).su.convFail = s.su.convFail := by
  unfold beforeChoice
  rw [decide_eq_false h]
  rw [stageIf_keeps (·.su) _ _ (fun _ => by simp), stageIf_keeps (·.su) _ _ (fun _ => by simp)]
  simp [stageIf, clockEpoch]

theorem afterChoice_su (h : o.late = .beforeChoice) : (afterChoice c o s).su = s.su := by
  unfold afterChoice
  rw [h]
  dsimp only
  rw [stageIf_keeps (·.su) _ _ (fun _ => by simp), stageIf_keeps (·.su) _ _ (fun _ => by simp)]
  simp [stageIf]

/-- An epoch neither adds nor drops an entry of the peer table. -/
theorem epochParts_length (c : Settings) (k : Contacts) (tcs : Bool) (o : EpochOrder) (s : State) :
    HasEntries s.pt.entries.length (epochParts c k tcs o s) :=
  epochParts_pres (P := HasEntries s.pt.entries.length) rfl (fun h => h) (fun n u h => by simpa [HasEntries] using h)
    (fun _ h => lateEvent_keeps_length c h) (fun _ h => peerEpoch_keeps_length c h) (fun u h => by simpa [HasEntries] using h)
    (fun u h => by simpa [HasEntries] using h) (fun r u h => by simpa [HasEntries] using h) (fun _ h => h)

end

theorem Peers.entry_set (t : Peers) (b : Bay) (e : PeerEntry) :
    (t.set b e).entry b = if b.val < t.entries.length then e else .reset := by
  unfold Peers.entry Peers.set
  split
  next h => simp [h]
  next h => simp [h]

theorem Peers.entry_of_missing {t : Peers} {b : Bay} (h : ¬ b.val < t.entries.length) : t.entry b = .reset := by
  simp [Peers.entry, not_lt.1 h]

/-- The choice at an epoch reads what the statement says: of each part that comes before it the state after the epoch, of each other the
state before. -/
theorem epochParts_chooses {c : Settings} (k : Contacts) (tcs : Bool) (o : EpochOrder) {s t : State}
    (ht : t = epochParts c k tcs o s) :
    t.sc = (choiceStage c { t with
        sc := s.sc
        su := if o.late = .beforeChoice then t.su else s.su
        ri := if o.linksFirst then t.ri else s.ri
        pt := (if o.peersFirst then t.pt else s.pt).set c.bay
          (if o.late = .beforeChoice then t.entry c.bay else s.entry c.bay) }).sc := by
  have hsc : t.sc = (choiceStage c (beforeChoice c k tcs o s)).sc := by rw [ht, epochParts_sc]
  have hparts : t = startConversions (afterChoice c o (choiceStage c (beforeChoice c k tcs o s))) := ht.trans (epochParts_split c k tcs o s)
  have hentry : ∀ b, t.entry b = (afterChoice c o (choiceStage c (beforeChoice c k tcs o s))).entry b := fun b => by
    rw [hparts]; rfl
  have hport : ∀ p, t.port p = (afterChoice c o (choiceStage c (beforeChoice c k tcs o s))).port p := fun p => by
    rw [hparts]; rfl
  have hconv : t.su.convFail = (afterChoice c o (choiceStage c (beforeChoice c k tcs o s))).su.convFail := by rw [hparts]; rfl
  have hciu : t.ciu = (beforeChoice c k tcs o s).ciu := by
    rw [hparts]
    exact (afterChoice_ciu c o _).trans (choiceStage_ciu c _)
  have hlength : t.pt.entries.length = s.pt.entries.length := by
    rw [ht]; exact epochParts_length c k tcs o s
  rw [hsc]
  refine choiceStage_sc_congr c _ _ (beforeChoice_sc c k tcs o s) (fun b => Prod.mk.inj ?_) (fun p => ?_) ?_ (by rw [hciu])
  · change seenOf ((beforeChoice c k tcs o s).entry b) = seenOf (Peers.entry (Peers.set _ c.bay _) b)
    generalize hpt : (if o.peersFirst then t.pt else s.pt) = pt
    have hpts : pt.entries.length = s.pt.entries.length := by rw [← hpt]; split; exacts [hlength, rfl]
    by_cases hb : b = c.bay
    · have hown : seenOf ((beforeChoice c k tcs o s).entry c.bay) =
          seenOf (if o.late = .beforeChoice then t.entry c.bay else s.entry c.bay) := by
        by_cases hl : o.late = .beforeChoice
        · rw [if_pos hl, hentry, afterChoice_own hl]
          exact (seenOf_of_pt (choiceStage_pt c _)).symm
        · rw [if_neg hl, beforeChoice_own hl]
      rw [hb, hown, Peers.entry_set]
      by_cases hin : c.bay.val < pt.entries.length
      · rw [if_pos hin]
      · rw [if_neg hin]
        rw [hpts] at hin
        have ht : t.entry c.bay = .reset := Peers.entry_of_missing (by rwa [hlength])
        rw [ht, State.entry, Peers.entry_of_missing hin, ite_self]
    · have hset : ∀ e, (pt.set c.bay e).entry b = pt.entry b := fun e =>
        setEntry_entry_ne { s with pt := pt } e hb
      rw [hset, ← hpt]
      cases hf : o.peersFirst
      · rw [beforeChoice_peer hb hf]
        rfl
      · refine congrArg seenOf (.trans ?_ (hentry b).symm)
        rw [afterChoice_peer hb hf]
        simp only [State.entry, choiceStage_pt]
  · change ((beforeChoice c k tcs o s).port p).link = (Ring.port (if o.linksFirst then t.ri else s.ri) p).link
    cases hl : o.linksFirst
    · exact beforeChoice_link p hl
    · refine .trans ?_ (congrArg PortState.link (hport p)).symm
      rw [afterChoice_link p hl]
      simp only [State.port, choiceStage_ri]
  · change (beforeChoice c k tcs o s).su.convFail = Sampling.convFail (if o.late = .beforeChoice then t.su else s.su)
    by_cases hl : o.late = .beforeChoice
    · rw [if_pos hl, hconv, afterChoice_su hl, choiceStage_su]
    · rw [if_neg hl, beforeChoice_convFail hl]

/-- Settles O37. -/
theorem stationStateChoice : Obligations.StationStateChoice := by
  refine ⟨fun c s d hd => ?_, fun c k tcs o s hr => ⟨_, exec_epoch k tcs o hr, ?_⟩⟩
  · obtain ⟨count, qualified, r, hcount, hqualified, hr, hsc⟩ := choice_stated (c := c) hd
    refine ⟨count, qualified, r, hcount, hqualified, hr, hsc, ?_, ?_⟩
    · rw [choiceStage_mp, alarmCause_breach hd]
      simp only [Bool.and_eq_true, Bool.not_eq_true']
    · simp
  · generalize ht : epochParts c k tcs o (arbitrateBoth c s) = t
    have hsc : t.sc = (choiceStage c (beforeChoice c k tcs o (arbitrateBoth c s))).sc := by rw [← ht, epochParts_sc]
    have hciu : t.ciu = (beforeChoice c k tcs o (arbitrateBoth c s)).ciu := by
      rw [← ht]
      exact (afterChoice_ciu c o _).trans (choiceStage_ciu c _)
    have hflags : stationFlags t = stationFlags (choiceStage c (beforeChoice c k tcs o (arbitrateBoth c s))) := by
      rw [← ht]; exact stationFlags_afterChoice c _ o
    have hbefore : stationFlags (beforeChoice c k tcs o (arbitrateBoth c s)) = stationFlags s :=
      (stationFlags_beforeChoice c _ k tcs o).trans (stationFlags_arbitrateBoth c s)
    refine ⟨?_, ?_, fun d hd => ?_⟩
    · refine (epochParts_chooses k tcs o ht.symm).trans (choiceStage_sc_congr c _ _ (by simp) (fun b => ?_) (fun p => ?_) ?_ rfl)
      · simp [State.entry]
      · cases o.linksFirst
        · exact (congrArg PortState.link (arbitrateBoth_port c p s)).trans (arbitratePort_keeps c _ _).1.1
        · rfl
      · simp
    · rw [stationFlags_choiceStage, hbefore, ← hsc] at hflags
      exact congrArg Prod.fst hflags
    · rw [stationFlags_choiceStage, hbefore, alarmCause_breach (hciu ▸ hd)] at hflags
      exact congrArg Prod.snd hflags

end Sys2Proof.Machine

/-! PROOFS. Starts of epochs: the configuration check (O40) and the reconfirmation (O43). -/
namespace Sys2Proof.Machine
open Sys2Proof

/-! ### What one entry of the peer table becomes -/

/-- A property of every entry, after one entry is put. -/
theorem setEntry_entries {P : Bay → PeerEntry → Prop} {s : State} (h : ∀ b, P b (s.entry b)) {b : Bay} {e : PeerEntry} (he : P b e) :
    ∀ b', P b' ((s.setEntry b e).entry b') := fun b' => by
  by_cases hb : b' = b
  · subst hb
    rcases setEntry_entry_or s b' e with h1 | ⟨h1, -⟩ <;> rw [h1]
    exacts [he, h b']
  · rw [setEntry_entry_ne s e hb]
    exact h b'

/-- A property of every entry, after one entry's epoch (R72 to R74). -/
theorem ageEntry_entries {P : Bay → PeerEntry → Prop} {c : Settings} {s : State} (b : Bay) (h : ∀ b, P b (s.entry b))
    (fresh : ∀ b e, P b e → P b { e with fresh := upTo 4095 e.fresh })
    (join : ∀ b e, P b e → e.presence = .joining → P b { e with joinRun := 0 })
    (stale : ∀ b e, P b e → b ≠ c.bay → e.presence = .live → P b (staleEntry e))
    (absent : ∀ b e, P b e → b ≠ c.bay → e.presence = .stale ∨ e.presence = .joining → P b (absentEntry e)) :
    ∀ b', P b' ((ageEntry c b s).entry b') := by
  have hjoin : ∀ u : State, (∀ b, P b (u.entry b)) → ∀ b', P b' ((joiningResetOp c b u).entry b') := fun u hu => by
    unfold joiningResetOp
    dsimp only
    split
    next hb => exact setEntry_entries hu (join b _ (hu b) hb.2.1)
    next => exact hu
  have hstale : ∀ u : State, (∀ b, P b (u.entry b)) → ∀ b', P b' ((peerStaleOp c b u).entry b') := fun u hu => by
    unfold peerStaleOp
    dsimp only
    split
    next hb => simpa [State.entry] using setEntry_entries hu (stale b _ (hu b) hb.1 hb.2.1)
    next => exact hu
  have habsent : ∀ u : State, (∀ b, P b (u.entry b)) → ∀ b', P b' ((peerAbsentOp c b u).entry b') := fun u hu => by
    unfold peerAbsentOp
    dsimp only
    split
    next hb => exact setEntry_entries hu (absent b _ (hu b) hb.1 hb.2.1)
    next => exact hu
  exact habsent _ (hstale _ (hjoin _ (setEntry_entries h (fresh b _ (h b)))))

theorem restartEntry_reset : restartEntry .reset = .reset := rfl

/-- A property of every entry, after the peer table's restart (R82, R76). -/
theorem peerRestart_entries {P : Bay → PeerEntry → Prop} {c : Settings} {s : State} (h : ∀ b, P b (restartEntry (s.entry b)))
    (own : ∀ e, P c.bay e → P c.bay { e with tag := some c.tag, decl := some c.decl }) :
    ∀ b, P b ((peerRestart c s).entry b) := by
  have hmap : ∀ b, (s.updPt fun t => { t with entries := t.entries.map restartEntry }).entry b = restartEntry (s.entry b) :=
    fun b => by
      simp only [State.entry, Peers.entry, State.updPt_pt, List.getElem?_map]
      cases s.pt.entries[b.val]? <;> rfl
  have hall : ∀ b, P b ((s.updPt fun t => { t with entries := t.entries.map restartEntry }).entry b) := fun b => by
    rw [hmap]; exact h b
  exact setEntry_entries hall (own _ (hall c.bay))

/-- An entry that a start of epochs leaves, from what it was before (R82). -/
def StartedEntry (own : Prop) (e e' : PeerEntry) : Prop :=
  (¬ own → e.presence = .conflict → e'.presence = .conflict) ∧
  (e.presence ≠ .conflict → e'.history = [] ∧ e'.lastSeq = none ∧ e'.presence = .absent)

theorem restartEntry_started (own : Prop) (e : PeerEntry) : StartedEntry own e (restartEntry e) := by
  unfold restartEntry
  split
  next h => exact ⟨fun _ _ => h, fun hn => absurd h hn⟩
  next h => exact ⟨fun _ hc => absurd hc h, fun _ => ⟨rfl, rfl, rfl⟩⟩

/-- The entries after a start of epochs (R82). -/
theorem startEpochs_entries (c : Settings) (k : Contacts) (s : State) :
    ∀ b, StartedEntry (b = c.bay) (s.entry b) ((startEpochs c k s).entry b) := by
  have hstart : ∀ b, StartedEntry (b = c.bay) (s.entry b) ((startBlocks c k s).entry b) := fun b => by
    rw [State.entry, State.entry, startBlocks_pt]
    exact peerRestart_entries (P := fun b e => StartedEntry (b = c.bay) (s.entry b) e) (fun b => restartEntry_started _ _)
      (fun e h => h) b
  have hmoved : ∀ {b : Bay} {e : PeerEntry}, StartedEntry (b = c.bay) (s.entry b) e → b ≠ c.bay →
      e.presence ≠ .conflict → e.presence = .absent := fun {b e} h hb hc => by
    by_cases hs : (s.entry b).presence = .conflict
    · exact absurd (h.1 hb hs) hc
    · exact (h.2 hs).2.2
  have hpt : (startEpochs c k s).pt = (peerEpoch c (startBlocks c k s)).pt := by
    rw [startEpochs_eq]
    simp [startConversions, quietEpoch]
  intro b
  rw [State.entry, State.entry, hpt]
  refine peerEpoch_pres (P := fun t => ∀ b, StartedEntry (b = c.bay) (s.entry b) (t.entry b)) (fun a t h => ?_) hstart b
  refine ageEntry_entries (P := fun b e => StartedEntry (b = c.bay) (s.entry b) e) a h (fun _ _ h => h) (fun _ _ h _ => h)
    (fun b e h hb hl => ?_) (fun b e h hb hl => ?_)
  · exact absurd (hmoved h hb (by simp [hl])) (by simp [hl])
  · exact absurd (hmoved h hb (by rcases hl with hl | hl <;> simp [hl])) (by rcases hl with hl | hl <;> simp [hl])

/-! ### The other blocks after a start of epochs -/

section
variable (c : Settings) (k : Contacts) (s : State)

theorem startEpochs_derived : (startEpochs c k s).ciu.derived = some (deriveReplica c k) := by
  simp [startEpochs_eq, startConversions, quietEpoch, initialAcceptance]

theorem startEpochs_su {r : RunState} (h : (startEpochs c k s).sc.station = .running r) :
    (startEpochs c k s).su = { samplingStart s.su with chans := startedChans, flight := some ⟨0, 0, deriveReplica c k, r⟩ } := by
  have hr : chosenAt (choiceStage c (ringStart (quietEpoch (peerEpoch c (startBlocks c k s))))) = r := by
    have h : (choiceStage c (ringStart (quietEpoch (peerEpoch c (startBlocks c k s))))).sc.station = .running r := h
    simp only [chosenAt, h]
  have hd : epochReplica (choiceStage c (ringStart (quietEpoch (peerEpoch c (startBlocks c k s))))) = deriveReplica c k := by
    simp [epochReplica, quietEpoch, initialAcceptance]
  rw [startEpochs_eq, startConversions, hr, hd]
  simp [quietEpoch, samplingStart]

/-- The pulse and the release of a choice leave the supervision count at 0 when it is 0. -/
theorem choiceStage_supCount (h : s.tu.supCount = 0) : (choiceStage c s).tu.supCount = 0 := by
  have hrelease : ∀ r u, u.tu.supCount = 0 → (stateRelease r u).tu.supCount = 0 := fun r u hu => by
    have hrelease : (releaseTrip .stateChange u).tu.supCount = 0 := by
      simp only [releaseTrip, State.updTu_tu]
      rw [closeRecord_rest]
      exact hu
    unfold stateRelease
    split
    · split_ifs
      exacts [hu, hrelease, rfl]
    · split_ifs
      exacts [hu, hrelease]
    · exact hu
  obtain ⟨r, fl, sc, hform, -⟩ := choiceStage_form c s
  rw [hform, tripAtChoice]
  split
  · exact (abandonPulse_fields _).2.2.2.2.2.1.trans (hrelease _ _ h)
  · exact hrelease _ _ h

theorem startEpochs_supCount : (startEpochs c k s).tu.supCount = 0 :=
  choiceStage_supCount c _ (by simp [quietEpoch])

/-- With no trip on, a choice leaves the latch and the supervision failures. -/
theorem choiceStage_idle (h : s.tu.trip = .idle) :
    (choiceStage c s).tu.held = s.tu.held ∧ (choiceStage c s).tu.supFails = s.tu.supFails := by
  obtain ⟨r, fl, sc, hform, -⟩ := choiceStage_form c s
  have hstays : ∀ u : State, u.tu.trip = .idle → stateRelease r u = u := fun u hu => by simp only [stateRelease, hu]
  rw [hform, tripAtChoice, hstays _ (by exact h)]
  split
  · exact ⟨(abandonPulse_fields _).2.2.2.1, (abandonPulse_fields _).2.2.2.2.2.2.1⟩
  · exact ⟨rfl, rfl⟩

theorem startEpochs_idle (h : s.tu.trip = .idle) :
    (startEpochs c k s).tu.held = s.tu.held ∧ (startEpochs c k s).tu.supFails = s.tu.supFails := by
  obtain ⟨hheld, hfails⟩ := choiceStage_idle c (ringStart (quietEpoch (peerEpoch c (startBlocks c k s)))) (by
    simpa [quietEpoch, startBlocks] using h)
  exact ⟨hheld.trans (by simp [quietEpoch, startBlocks]), hfails.trans (by simp [quietEpoch, startBlocks])⟩

theorem startEpochs_sc_kept : (startEpochs c k s).sc.reference = s.sc.reference ∧ (startEpochs c k s).sc.confirmed = s.sc.confirmed ∧
    (startEpochs c k s).sc.maintTest = s.sc.maintTest := by
  have hsc : (ringStart (quietEpoch (peerEpoch c (startBlocks c k s)))).sc = { s.sc with qualified := false, qualCount := 0 } := by
    simp [quietEpoch, startBlocks]
  rw [startEpochs_eq]
  generalize ringStart (quietEpoch (peerEpoch c (startBlocks c k s))) = u at hsc ⊢
  obtain ⟨st, ca, q, n, l, d, m, hform⟩ := choiceStage_sc_form c u
  have hstart : (startConversions (choiceStage c u)).sc = (choiceStage c u).sc := rfl
  rw [hstart, hform, hsc]
  exact ⟨rfl, rfl, rfl⟩

end

/-- Settles O40. -/
theorem configCheckOutcomes : Obligations.ConfigCheckOutcomes := by
  refine ⟨fun c k s hst hcut hgood => ?_, fun k s hst hbad => congrArg Host.Outcome.next (configCheckOp_bad hst hbad)⟩
  dsimp only
  have hchoice := startEpochs_choice c k s (s.updCs fun u => { u with inUse := some c }) rfl rfl rfl rfl rfl
  have hring := startEpochs_ring k (s := s.updCs fun u => { u with inUse := some c }) rfl
  have hsu := startEpochs_su c k (s.updCs fun u => { u with inUse := some c }) hchoice.station
  refine ⟨startEpochs c k (s.updCs fun u => { u with inUse := some c }), ?_, ?_⟩
  · refine congrArg Host.Outcome.next ?_
    simp only [configCheckOp, if_pos hst, hcut, hgood, Bool.false_eq_true, if_false]
  · rw [hsu]
    exact ⟨by simp, hchoice, rfl, rfl, rfl, rfl, rfl, rfl, by simp [startEpochs_eq, startConversions, quietEpoch, initialAcceptance],
      startEpochs_derived c k _, rfl, rfl,
      by simp [startEpochs_eq, startConversions, quietEpoch, startBlocks, zoneRestart, ZoneEngine.reset],
      by simp [startEpochs_eq, startConversions, quietEpoch, startBlocks],
      ⟨hring.probes, hring.stays, hring.quiet⟩, startEpochs_supCount c k _,
      by simp [startEpochs_eq, startConversions, quietEpoch, startBlocks], by simp, by simp⟩

/-- Settles O43. -/
theorem reconfirmationRestartsEpochs : Obligations.ReconfirmationRestartsEpochs := by
  refine ⟨fun k s hheld hc hst => ?_, fun c k r s hheld hc hst hcs htrip => ?_⟩
  · refine congrArg Host.Outcome.next ?_
    simp only [confirmOp, hheld, hc, Bool.or_false, Bool.false_eq_true, if_false]
    rw [show (s.updSc confirmed).sc.station = .fault from hst]
    rfl
  · dsimp only
    let u := (s.updSc confirmed).updSc fun u => { u with reference := true, causes := { u.causes with clock := false } }
    have hchoice := startEpochs_choice c k s u rfl rfl rfl rfl rfl
    have hring := startEpochs_ring k (s := u) hcs
    have hsu := startEpochs_su c k u hchoice.station
    have hentries := startEpochs_entries c k u
    obtain ⟨hheld', hfails⟩ := startEpochs_idle c k u htrip
    obtain ⟨hreference, hconfirmed, hmaint⟩ := startEpochs_sc_kept c k u
    refine ⟨startEpochs c k u, ?_, hchoice, ?_, ?_⟩
    · refine congrArg Host.Outcome.next ?_
      simp only [confirmOp, hheld, hc, Bool.or_false, Bool.false_eq_true, if_false]
      rw [show (s.updSc confirmed).sc.station = .running r from hst]
      dsimp only
      rw [show (((s.updSc confirmed).updSc fun u => { u with reference := true, causes := { u.causes with clock := false } }).cs.inUse)
        = some c from hcs]
    · rw [hsu]; rfl
    · rw [hsu]
      refine ⟨rfl, rfl, rfl, rfl, rfl, rfl, ⟨hring.probes, hring.stays, hring.quiet⟩, rfl,
        fun ph => by cases ph <;> rfl, hreference, hconfirmed, ?_, hmaint,
        by simp [startEpochs_eq, startConversions, quietEpoch, initialAcceptance], by simp [u], hheld', startEpochs_supCount c k u, hfails,
        fun b hb => (hentries b).1 hb, fun b => (hentries b).2⟩
      rw [hchoice.causes]
      split <;> rfl

end Sys2Proof.Machine

/-! PROOFS. A reference loss while epochs run (O41). -/
namespace Sys2Proof.Machine
open Sys2Proof

/-! ### A port that enters DOWN (R35) -/

section
variable (p : Port) (hold : Nat) (s : State)

@[simp] theorem enterDown_port : (enterDown p hold s).port p = downPort hold s.su.lt (s.port p) := by
  simp [enterDown, State.port]

@[simp] theorem enterDown_other : (enterDown p hold s).port (otherPort p) = s.port (otherPort p) := by
  simp [enterDown, State.port]

@[simp] theorem besidePorts_enterDown : besidePorts (enterDown p hold s) = besidePorts s :=
  (besidePorts_of_ri (by simp [enterDown])).trans (besidePorts_updPort p (downPort hold s.su.lt) s)

theorem enterDown_flags (i : Nat) (hi : i < 19) : (enterDown p hold s).mp.flags.getLsbD i =
    (s.mp.flags.getLsbD i || decide (i = linkDownBit p) && decide ((s.port p).link ≠ .down)) := by
  have hbit : (linkDownAlarm p).bit = linkDownBit p := by cases p <;> rfl
  rw [enterDown, raiseIf_mp]
  by_cases h : (s.port p).link = .down
  · simp [h]
  · simp [h, withFlag, hbit, hi]

end

/-- A port that goes DOWN from PROBING or UP (R35). -/
theorem downPort_up {q : PortState} (h : q.link ≠ .down) (hold : Nat) (lt : Ticks) :
    downPort hold lt q = wentDown hold (q.echoNow lt) lt q := by
  simp only [downPort, wentDown, if_neg h, bump, bumpBy]

/-- A port that is held DOWN counts no event (R35). -/
theorem downPort_down {q : PortState} (h : q.link = .down) (hold : Nat) (lt : Ticks) :
    downPort hold lt q = { wentDown hold (q.echoNow lt) lt q with
      ctr := { (wentDown hold (q.echoNow lt) lt q).ctr with linkDownEvents := q.ctr.linkDownEvents } } := by
  simp only [downPort, wentDown, if_pos h, bumpBy]

theorem echoNow_eq (q : PortState) (lt : Ticks) : q.echoNow lt =
    if q.outstanding.isSome then min (lt - q.echoStart).toNat 40000 else q.echoCounter := by
  unfold PortState.echoNow
  cases q.outstanding <;> rfl

/-- Both ports at a stop of the epoch generator (R34, R35). -/
theorem ringStop_port (p : Port) (s : State) : (ringStop s).port p = downPort 0 s.su.lt (s.port p) := by
  cases p
  · exact (enterDown_other .west 0 _).trans (enterDown_port .east 0 s)
  · refine (enterDown_port .west 0 _).trans ?_
    rw [enterDown_su]
    exact congrArg _ (enterDown_other .east 0 s)

theorem ringStop_flags (i : Nat) (hi : i < 19) (s : State) : (ringStop s).mp.flags.getLsbD i =
    (s.mp.flags.getLsbD i || decide (i = linkDownBit .east) && decide ((s.port .east).link ≠ .down) ||
      decide (i = linkDownBit .west) && decide ((s.port .west).link ≠ .down)) := by
  have hwest : (enterDown .east 0 s).port .west = s.port .west := enterDown_other .east 0 s
  rw [ringStop, enterDown_flags _ _ _ _ hi, enterDown_flags _ _ _ _ hi, hwest]

/-! ### The Trip Unit at the stop (R150, R152, R158) -/

/-- The latch at a stop: a trip that was on is released, its open record closed. -/
theorem tripStop_latch (s : State) : (tripStop s).tu.held = (if s.tu.trip = .idle then s.tu.held else endedRecord .stateChange s) ∧
    (tripStop s).tu.recNumber = s.tu.recNumber ∧ (tripStop s).tu.supCount = s.tu.supCount ∧
    (tripStop s).tu.supFails = s.tu.supFails ∧ (tripStop s).tu.pulse = none ∧ (tripStop s).tu.ctr = { s.tu.ctr with
      supAbandons := if s.tu.pulse = none then s.tu.ctr.supAbandons else min (s.tu.ctr.supAbandons + 1) 65535 } := by
  have hrelease : ∀ s : State, (releaseTrip .stateChange s).tu.held = endedRecord .stateChange s ∧
      (releaseTrip .stateChange s).tu.recNumber = s.tu.recNumber ∧ (releaseTrip .stateChange s).tu.supCount = s.tu.supCount ∧
      (releaseTrip .stateChange s).tu.supFails = s.tu.supFails ∧ (releaseTrip .stateChange s).tu.pulse = s.tu.pulse ∧
      (releaseTrip .stateChange s).tu.ctr = s.tu.ctr := fun s => by
    have hclose := closeRecord_rest .stateChange s.su.epoch s.tu
    refine ⟨closeRecord_held .stateChange s, ?_⟩
    simp only [releaseTrip, State.updTu_tu]
    rw [hclose]
    exact ⟨rfl, rfl, rfl, rfl, rfl⟩
  unfold tripStop
  dsimp only
  split
  next htrip =>
    obtain ⟨-, -, -, hheld, hnum, hcount, hfails, hpulse, hctr⟩ := abandonPulse_fields s
    rw [if_pos htrip]
    exact ⟨hheld, hnum, hcount, hfails, hpulse, hctr⟩
  next htrip =>
    obtain ⟨-, -, -, hheld, hnum, hcount, hfails, hpulse, hctr⟩ := abandonPulse_fields (releaseTrip .stateChange s)
    obtain ⟨rheld, rnum, rcount, rfails, rpulse, rctr⟩ := hrelease s
    rw [rpulse, rctr] at hctr
    rw [if_neg htrip]
    exact ⟨hheld.trans rheld, hnum.trans rnum, hcount.trans rcount, hfails.trans rfails, hpulse, hctr⟩

/-- The outputs at a stop: no coil is driven and nothing of a trip stands. -/
theorem tripStop_outputs {s : State} (hs : TripSound s) : (tripStop s).tu.trip = .idle ∧ (tripStop s).tu.coil1 = .off ∧
    (tripStop s).tu.coil2 = .off ∧ (tripStop s).tu.bf = .idle ∧ (tripStop s).tu.backtrip = noSects := by
  obtain ⟨hsound, htrip⟩ := tripStop_tripSound hs.coil1_asserted hs.pulse_supervision hs
  have hpulse := (tripStop_latch s).2.2.2.2.1
  generalize tripStop s = t at hsound htrip hpulse
  have hnot : t.tu.trip ≠ .asserted := by simp [htrip]
  refine ⟨htrip, ?_, ?_, hsound.bf_idle.2 htrip, ?_⟩
  · cases hcoil : t.tu.coil1 with
    | off => rfl
    | trip => exact absurd (hsound.coil1_asserted.1 hcoil) hnot
    | supervision => simpa [hpulse] using hsound.pulse_supervision.1 hcoil
  · cases hcoil : t.tu.coil2 with
    | off => rfl
    | trip => exact absurd (hsound.coil2_asserted hcoil) hnot
  · by_contra hset
    exact hnot (hsound.backtrip_failed hset).1

/-- With no trip on no record is open. -/
theorem endedRecord_idle {s : State} (hs : RecordSound s) (h : s.tu.trip = .idle) (how : TripEnd) :
    endedRecord how s = s.tu.held := by
  unfold endedRecord
  exact if_neg fun hrec => hs.recorded_on hrec h

/-- A reset taken after a stop closes no record. -/
theorem tripStop_reset {s : State} (hs : RecordSound s) (k : EpochNo) :
    (closeRecord .reset k (tripStop s).tu).held = endedRecord .stateChange s := by
  have hrecorded : (tripStop s).tu.recorded = false := by
    have habandon : ∀ u : State, (abandonPulse u).tu.recorded = u.tu.recorded := fun u => by unfold abandonPulse; split <;> rfl
    unfold tripStop
    dsimp only
    split
    next htrip =>
      rw [habandon]
      exact Bool.eq_false_iff.2 fun hrec => hs.recorded_on hrec htrip
    next => exact habandon _
  rw [closeRecord, if_neg (by simp [hrecorded]), (tripStop_latch s).1]
  split
  next htrip => exact (endedRecord_idle hs htrip _).symm
  next => rfl

/-! ### The loss -/

theorem besidePorts_atMoment {c : Settings} {s : State} (h : Runs c s) (m : Nat) : besidePorts (atMoment m s) = besidePorts s := by
  unfold atMoment
  split
  · rfl
  · refine (besidePorts_of_ri (s := settle s) rfl).trans ?_
    rw [settle_eq h]
    exact besidePorts_arbitrateBoth c s

section
variable (s : State)

theorem lossRunning_ri : (lossRunning s).ri = (ringStop (tripStop s)).ri := by simp [lossRunning, raise]

theorem lossRunning_su : (lossRunning s).su = samplingStop s.su := by simp [lossRunning, raise]

theorem lossRunning_tu : (lossRunning s).tu = (tripStop s).tu := by simp [lossRunning, raise]

theorem lossRunning_port (p : Port) : (lossRunning s).port p = downPort 0 s.su.lt (s.port p) := by
  rw [State.port, lossRunning_ri]
  refine (ringStop_port p _).trans ?_
  rw [tripStop_su, State.port, tripStop_ri]
  rfl

theorem lossRunning_flags (i : Nat) (hi : i < 19) : (lossRunning s).mp.flags.getLsbD i =
    ((s.mp.flags.getLsbD i || decide (i = linkDownBit .east) && decide ((s.port .east).link ≠ .down) ||
      decide (i = linkDownBit .west) && decide ((s.port .west).link ≠ .down)) || decide (i = 0)) := by
  have hstop := ringStop_flags i hi (tripStop s)
  rw [tripStop_mp, State.port, State.port, tripStop_ri] at hstop
  refine .trans ?_ (congrArg (· || decide (i = 0)) hstop)
  simp [lossRunning, raise, withFlag, Alarm.bit, hi]

theorem besidePorts_lossRunning : besidePorts (lossRunning s) = besidePorts s := by
  rw [besidePorts_of_ri (lossRunning_ri s), ringStop, besidePorts_enterDown, besidePorts_enterDown]
  exact besidePorts_of_ri (tripStop_ri s)

end

theorem referenceLoss_running {c : Settings} {m : Nat} {r : RunState} {s : State} (hr : Runs c s) (hheld : s.held = false)
    (hconf : s.sc.confirmed = true) (hst : s.sc.station = .running r) (hm : m < 10000) :
    exec (.referenceLoss m) s = .next (cutResponse (lossRunning ((atMoment m s).updSc unconfirm))) := by
  refine congrArg Host.Outcome.next ?_
  rw [advanceTo_atMoment hr.1 hm]
  exact referenceLossOp_running (by rw [held_of_sc (atMoment_sc m s)]; exact hheld) (by rw [atMoment_sc]; exact hconf)
    (by rw [atMoment_sc]; exact hst)

theorem lossRunning_kept (z : State) : (lossRunning z).cs = z.cs ∧ (lossRunning z).pins = z.pins ∧ (lossRunning z).free = z.free ∧
    (lossRunning z).pending = z.pending ∧ (lossRunning z).sc.supplyLow = z.sc.supplyLow ∧ (lossRunning z).sc.cause = z.sc.cause ∧
    (lossRunning z).sc.holdSupply = z.sc.holdSupply ∧ (lossRunning z).sc.holdPin = z.sc.holdPin := by simp [lossRunning, raise]

theorem lossRunning_rest (z : State) : (lossRunning z).ciu = z.ciu ∧ (lossRunning z).pt = z.pt ∧ (lossRunning z).ze = z.ze ∧
    (lossRunning z).au.latest = none := by
  simp [lossRunning, raise]

theorem lossRunning_sc (z : State) : (lossRunning z).sc = { z.sc with
    station := .running .blocked, causes := { z.sc.causes with clock := true }, reference := false, qualified := false, qualCount := 0
    listen := 0
    stateChanges := if z.sc.station = .running .blocked then z.sc.stateChanges else bump z.sc.stateChanges } := by
  simp [lossRunning, raise]

/-- A loss that cuts the response to RESET off takes that reset, which keeps the record that the stop has closed (R173, R181). -/
theorem lossRunning_reset {c : Settings} {m : Nat} {s : State} (hr : Runs c s) (hs : RecordSound s) (hbusy : s.cs.commit ≠ .busy)
    (hphase : s.su.phase ≤ m) (f : Maint → Maint) :
    takeReset .command ((lossRunning ((atMoment m s).updSc unconfirm)).updMp f) =
      afterCommandReset (endedRecord .stateChange s) s := by
  have hz : ((atMoment m s).updSc unconfirm).cs = s.cs ∧ ((atMoment m s).updSc unconfirm).pins = s.pins ∧
      ((atMoment m s).updSc unconfirm).free = s.free ∧ ((atMoment m s).updSc unconfirm).pending = s.pending := by simp
  have hzsc : ((atMoment m s).updSc unconfirm).sc = unconfirm s.sc := congrArg unconfirm (atMoment_sc m s)
  have hztu : ((atMoment m s).updSc unconfirm).tu = s.tu := atMoment_tu m s
  have hended : endedRecord .stateChange ((atMoment m s).updSc unconfirm) = endedRecord .stateChange s := by
    rw [endedRecord, hztu, State.updSc_su, atMoment_su hphase]; rfl
  have hrx : ∀ p, (((atMoment m s).updSc unconfirm).port p).rx = (s.port p).rx := fun p => (atMoment_link hr m p).2.2.1
  generalize (atMoment m s).updSc unconfirm = z at hz hzsc hztu hended hrx ⊢
  obtain ⟨hcs, hpins, hfree, hpending, hlow, hcause, hsupply, hpin⟩ := lossRunning_kept z
  have hlrx : ∀ p, ((lossRunning z).port p).rx = (s.port p).rx := fun p => by rw [lossRunning_port]; exact hrx p
  have htu := lossRunning_tu z
  generalize lossRunning z = u at hcs hpins hfree hpending hlow hcause hsupply hpin hlrx htu
  refine takeReset_command _ s _ hbusy ?_ ?_
  · rw [hzsc] at hlow hcause hsupply hpin
    refine ⟨hcs.trans hz.1, hpins.trans hz.2.1, hfree.trans hz.2.2.1, hpending.trans hz.2.2.2, hlow, hcause, hsupply, hpin, hlrx .east,
      hlrx .west, ?_⟩
    rw [State.updMp_tu, htu, (tripStop_latch z).2.1, hztu]
  · rw [State.updMp_tu, htu, tripStop_reset (hs.same hztu), hended]

/-- Settles O41. -/
theorem referenceLossStopsEpochs : Obligations.ReferenceLossStopsEpochs := by
  refine ⟨fun c m r s hr hs hheld hconf hst hp hphase hm => ⟨_, referenceLoss_running hr hheld hconf hst hm, ?_⟩,
    fun c m r s hr hs hheld hconf hst hp hbusy hphase hm => (referenceLoss_running hr hheld hconf hst hm).trans (congrArg _ ?_)⟩
  · rw [cutResponse_quiet (by simpa [lossRunning, raise, unconfirm] using hp)]
    generalize hz : (atMoment m s).updSc unconfirm = z
    have hzsu : z.su = (atMoment m s).su := by rw [← hz]; rfl
    have hztu : z.tu = s.tu := by rw [← hz]; exact atMoment_tu m s
    have hzsc : z.sc = unconfirm s.sc := by rw [← hz]; exact congrArg unconfirm (atMoment_sc m s)
    have hzport : ∀ p, z.port p = (atMoment m s).port p := fun p => by rw [← hz]; rfl
    have hbeside : besidePorts (lossRunning z) = besidePorts s :=
      (besidePorts_lossRunning z).trans (.trans (by rw [← hz]; rfl) (besidePorts_atMoment hr m))
    simp only [besidePorts, Ring.mk.injEq, true_and] at hbeside
    have hended : endedRecord .stateChange z = endedRecord .stateChange s := by
      rw [endedRecord, hztu, hzsu, atMoment_su hphase]; rfl
    obtain ⟨htrip, hcoil1, hcoil2, hbf, hset⟩ := tripStop_outputs (hs.same hztu (by rw [hzsc]; rfl))
    obtain ⟨hheld', hnum, hcount, hfails, hpulse, hctr⟩ := tripStop_latch z
    rw [hztu, hended] at hheld'
    rw [hztu] at hnum hcount hfails hctr
    have hport : ∀ p, (lossRunning z).port p = downPort 0 (atMoment m s).su.lt ((atMoment m s).port p) := fun p => by
      rw [lossRunning_port, hzsu, hzport]
    have hsu := lossRunning_su z
    have hflags := lossRunning_flags z
    have hmp : z.mp = (atMoment m s).mp := by rw [← hz]; rfl
    rw [hzsu] at hsu
    rw [hzport, hzport, hmp] at hflags
    have htu := lossRunning_tu z
    have hsc : (lossRunning z).sc = _ := lossRunning_sc z
    rw [hzsc] at hsc
    obtain ⟨hcs, hpins, -⟩ := lossRunning_kept z
    obtain ⟨hciu, hpt, hze, hau⟩ := lossRunning_rest z
    obtain ⟨zcs, zciu, zpt, zze, zpins⟩ : z.cs = s.cs ∧ z.ciu = s.ciu ∧ z.pt = s.pt ∧ z.ze = s.ze ∧ z.pins = s.pins := by
      rw [← hz]; simp
    rw [zcs] at hcs
    rw [zpins] at hpins
    rw [zciu] at hciu
    rw [zpt] at hpt
    rw [zze] at hze
    rw [← htu] at htrip hcoil1 hcoil2 hbf hset hheld' hnum hcount hfails hpulse hctr
    have hlt : (lossRunning z).su.lt = (atMoment m s).su.lt := by rw [hsu]; rfl
    generalize lossRunning z = u at *
    refine ⟨hsu, ?_, fun p => ⟨fun hlink => ?_, fun hlink => ?_, ?_⟩, hbeside.1, hbeside.2.1, hbeside.2.2, htrip, hcoil1, hcoil2,
      hpulse, hbf, hset, hheld', hnum, hcount, hfails, hctr, (hflags 0 (by decide)).trans (by simp), rfl, rfl, hau, hcs, hciu, hpt, hze,
      hpins⟩
    · refine hsc.trans ?_
      rw [show (unconfirm s.sc).station = .running r from hst]
      simp only [Station.running.injEq]
      rfl
    · refine (hport p).trans ((downPort_up hlink 0 _).trans ?_)
      rw [echoNow_eq, ← hlt]
      rfl
    · refine (hport p).trans ((downPort_down hlink 0 _).trans ?_)
      rw [echoNow_eq, ← hlt]
      rfl
    · refine (hflags _ (by cases p <;> decide)).trans ?_
      cases p <;> simp [linkDownBit]
  · rw [cutResponse_reset (by simpa [lossRunning, raise, unconfirm] using hp)]
    exact lossRunning_reset hr hs hbusy hphase _

end Sys2Proof.Machine

/-! PROOFS. What every operation keeps of a port: its soundness, and the own frames that wait or have departed (O58). -/
namespace Sys2Proof.Machine
open Sys2Proof

/-- A port becomes another without a new own frame: sound if it was, its list of departed frames no longer, its waiting frame the same
or gone. -/
structure PortStep (q q' : PortState) : Prop where
  sound : PortSound q → PortSound q'
  departed : q'.departed.Sublist q.departed
  own : q'.own = q.own ∨ q'.own = none

theorem PortStep.refl (q : PortState) : PortStep q q := ⟨id, List.Sublist.refl _, .inl rfl⟩

theorem PortStep.trans {q r t : PortState} (h : PortStep q r) (h' : PortStep r t) : PortStep q t :=
  ⟨h'.sound ∘ h.sound, h'.departed.trans h.departed, by rcases h'.own with h1 | h1 <;> rcases h.own with h2 | h2 <;> simp [h1, h2]⟩

/-- Every port of a station does so, and the quiet runs keep their range (R59). -/
structure RingStep (s t : State) : Prop where
  ports : ∀ p, PortStep (s.port p) (t.port p)
  quiet : s.ri.overflowQuiet ≤ 4000 ∧ s.ri.unexpectedQuiet ≤ 4000 → t.ri.overflowQuiet ≤ 4000 ∧ t.ri.unexpectedQuiet ≤ 4000

theorem RingStep.refl (s : State) : RingStep s s := ⟨fun _ => .refl _, id⟩

theorem RingStep.of_ri {s t : State} (h : t.ri = s.ri) : RingStep s t := by
  refine ⟨fun p => ?_, by rw [h]; exact id⟩
  rw [show t.port p = s.port p by rw [State.port, h]; rfl]
  exact .refl _

theorem RingStep.trans {s t u : State} (h : RingStep s t) (h' : RingStep t u) : RingStep s u :=
  ⟨fun p => (h.ports p).trans (h'.ports p), h'.quiet ∘ h.quiet⟩

theorem RingStep.of_same {s u t : State} (h : RingStep u t) (hu : u.ri = s.ri) : RingStep s t := (RingStep.of_ri hu).trans h

theorem RingStep.sound {s t : State} (h : RingStep s t) (hs : RingSound s.ri) : RingSound t.ri :=
  ⟨fun p => (h.ports p).sound (hs.ports p), h.quiet hs.quiet⟩

/-- A step of one port. -/
theorem RingStep.updPort {s : State} {p : Port} {f : PortState → PortState} (h : PortStep (s.port p) (f (s.port p))) :
    RingStep s (s.updPort p f) := by
  refine ⟨fun p' => ?_, by cases p <;> exact id⟩
  rcases eq_or_ne p' p with rfl | hp
  · rw [State.port_updPort]; exact h
  · rw [show p' = otherPort p by cases p <;> cases p' <;> simp_all [otherPort], State.port_updPort_other]
    exact .refl _

/-! ### Steps of a port -/

section
variable {q : PortState}

theorem portStep_counters {g : PortCounters → PortCounters} (hg : CountersKept g) : PortStep q { q with ctr := g q.ctr } :=
  ⟨fun h => ⟨h.down, h.dark, h.hold, h.up, h.delay, h.echo, h.transit, hg _ h.counters⟩, .refl _, .inl rfl⟩

theorem portStep_rx (b : Bool) : PortStep q { q with rx := b } :=
  ⟨fun h => ⟨h.down, h.dark, h.hold, h.up, h.delay, h.echo, h.transit, h.counters⟩, .refl _, .inl rfl⟩

theorem portStep_cut (d : Option Ticks) : PortStep q { q with cutAt := d } :=
  ⟨fun h => ⟨h.down, h.dark, h.hold, h.up, h.delay, h.echo, h.transit, h.counters⟩, .refl _, .inl rfl⟩

theorem portStep_answer (a : Option EchoAnswer) : PortStep q { q with answer := a } :=
  ⟨fun h => ⟨h.down, h.dark, h.hold, h.up, h.delay, h.echo, h.transit, h.counters⟩, .refl _, .inl rfl⟩

theorem portStep_turnaround (n : Nat) : PortStep q { q with turnaround := n } :=
  ⟨fun h => ⟨h.down, h.dark, h.hold, h.up, h.delay, h.echo, h.transit, h.counters⟩, .refl _, .inl rfl⟩

theorem portStep_overflow (b : Bool) : PortStep q { q with overflow := b } :=
  ⟨fun h => ⟨h.down, h.dark, h.hold, h.up, h.delay, h.echo, h.transit, h.counters⟩, .refl _, .inl rfl⟩

theorem portStep_tx (x : Option Sending) : PortStep q { q with tx := x } :=
  ⟨fun h => ⟨h.down, h.dark, h.hold, h.up, h.delay, h.echo, h.transit, h.counters⟩, .refl _, .inl rfl⟩

/-- A port enters PROBING (R34). -/
theorem portStep_probing (hl : q.link = .down) :
    PortStep q { q with link := .probing, hold := 0, losses := 0, echoDue := true } :=
  ⟨fun h => ⟨nofun, fun _ => h.dark (by simp [hl]), ⟨by simp, by simp⟩, nofun, h.delay,
    ⟨h.echo.1, h.echo.2.1, by simp⟩, h.transit, h.counters⟩, .refl _, .inl rfl⟩

theorem echoNow_le {q : PortState} (h : q.echoCounter ≤ 40000) (lt : Ticks) : q.echoNow lt ≤ 40000 := by
  rw [echoNow_eq]
  split <;> omega

/-- A port that enters DOWN is sound whatever its link was (R35). -/
theorem downPort_sound {hold : Nat} (hh : hold ≤ 256) (lt : Ticks) (he : q.echoCounter ≤ 40000)
    (hc : ∀ n ∈ portNumbers q.ctr, n ≤ 65535) : PortSound (downPort hold lt q) where
  down _ := ⟨rfl, rfl, rfl, rfl, rfl⟩
  dark _ := ⟨rfl, rfl⟩
  hold := ⟨hh, fun _ => rfl⟩
  up h := by cases h
  delay d h := by cases h
  echo := ⟨echoNow_le he lt, Nat.zero_le _, by simp [downPort]⟩
  transit := by simp [downPort]
  counters := by
    rw [forall_portNumbers] at hc ⊢
    have hevents : (if q.link = .down then q.ctr.linkDownEvents else bump q.ctr.linkDownEvents) ≤ 65535 := by
      split
      · simp only [hc]
      · exact bump_le _
    simp only [downPort, hc, hevents, true_and, and_true, bumpBy]
    omega

theorem portStep_down {hold : Nat} (hh : hold ≤ 256) (lt : Ticks) : PortStep q (downPort hold lt q) :=
  ⟨fun h => downPort_sound hh lt h.echo.1 h.counters, List.nil_sublist _, .inr rfl⟩

/-- An echo request falls due on a port that is not DOWN (R37). -/
theorem portStep_due (hl : q.link ≠ .down) : PortStep q { q with echoDue := true } :=
  ⟨fun h => ⟨fun h => absurd h hl, h.dark, h.hold, h.up, h.delay, h.echo, h.transit, h.counters⟩, .refl _, .inl rfl⟩

/-- An own frame that returns shortens the list (R58). -/
theorem portStep_returned (f : SeqNo → Bool) : PortStep q { q with opened := false, departed := q.departed.filter f } :=
  ⟨fun h => ⟨fun hl => by
      obtain ⟨h1, h2, h3, h4, h5⟩ := h.down hl
      exact ⟨h1, h2, h3, h4, by simp [h5]⟩, h.dark, h.hold, h.up, h.delay, h.echo, h.transit, h.counters⟩,
    List.filter_sublist, .inl rfl⟩

theorem portStep_queue (hl : q.link = .up) (hn : q.transit.length < 4) (x : Transit) :
    PortStep q { q with transit := q.transit ++ [x] } :=
  ⟨fun h => ⟨fun hd => by simp [hl] at hd, fun hd => absurd hl hd, h.hold, h.up, h.delay, h.echo, by simpa using hn, h.counters⟩,
    .refl _, .inl rfl⟩

theorem portStep_zero : PortStep q (zeroPort q) :=
  ⟨fun h => ⟨h.down, h.dark, h.hold, h.up, h.delay, h.echo, h.transit,
    forall_portNumbers.2 (by simp [zeroPort, PortCounters.zero])⟩, .refl _, .inl rfl⟩

theorem portStep_reset (b : Bool) : PortStep q (.reset b) :=
  ⟨fun _ => ⟨fun _ => ⟨rfl, rfl, rfl, rfl, rfl⟩, fun _ => ⟨rfl, rfl⟩, ⟨Nat.zero_le _, fun h => absurd rfl h⟩, nofun, nofun,
    ⟨Nat.zero_le _, Nat.zero_le _, by simp [PortState.reset]⟩, Nat.zero_le _,
    forall_portNumbers.2 (by simp [PortState.reset, PortCounters.zero])⟩,
    List.nil_sublist _, .inr rfl⟩

/-- A port at an epoch (R36, R37). -/
theorem portStep_epoch (lt : Ticks) : PortStep q (portAtEpoch lt q) := by
  have hcut : PortStep q (forgetCut lt q) := by
    unfold forgetCut
    split
    · exact .refl q
    · exact portStep_cut none
  unfold portAtEpoch
  refine hcut.trans ?_
  generalize forgetCut lt q = q
  dsimp only
  split
  next hl =>
    split
    next hh =>
      have hhold : PortStep q { q with hold := q.hold - 1 } :=
        ⟨fun h => ⟨h.down, h.dark, ⟨(Nat.sub_le _ _).trans h.hold.1, fun _ => hl⟩, h.up, h.delay, h.echo, h.transit, h.counters⟩,
          .refl _, .inl rfl⟩
      split
      next => exact hhold.trans (portStep_probing (q := { q with hold := q.hold - 1 }) hl)
      next => exact hhold
    next => exact .refl q
  next hl =>
    have hinterval : PortStep q { q with interval := upTo 64 q.interval } :=
      ⟨fun h => ⟨h.down, h.dark, h.hold, h.up, h.delay, ⟨h.echo.1, by simp only [upTo]; omega, h.echo.2.2⟩, h.transit, h.counters⟩,
        .refl _, .inl rfl⟩
    split
    next => exact hinterval.trans (portStep_due (q := { q with interval := upTo 64 q.interval }) hl)
    next => exact hinterval

end

/-! ### Operations of the Ring Interface -/

section
variable {p : Port} {s : State}

theorem probeOp_step : RingStep s (probeOp p s) := by
  unfold probeOp enterProbing
  dsimp only
  split
  next h => exact .updPort (portStep_probing h.1)
  next => exact .refl s

theorem enterDown_step {hold : Nat} (hh : hold ≤ 256) : RingStep s (enterDown p hold s) :=
  (RingStep.updPort (p := p) (portStep_down hh s.su.lt)).trans (.of_ri (by simp [enterDown]))

theorem echoDueOp_step (l : Link) : RingStep s (echoDueOp l p s) := by
  unfold echoDueOp
  dsimp only
  split
  next h => exact .updPort (portStep_due h.1)
  next => exact .refl s

/-- A port whose echo is lost with its counter stopped at n, before the third loss in a row takes it down (R41). -/
def lostPort (n : Nat) (q : PortState) : PortState :=
  { q with echoCounter := n, outstanding := none, losses := upTo 3 q.losses, ctr := { q.ctr with echoLosses := bump q.ctr.echoLosses } }

theorem echoLoss_eq (n : Nat) (p : Port) (s : State) : echoLoss n p s =
    if (lostPort n (s.port p)).losses ≥ 3 then enterDown p 256 (s.updPort p (lostPort n))
    else echoDueOp (s.port p).link p (s.updPort p (lostPort n)) := by
  unfold echoLoss
  dsimp only
  rw [State.port_updPort]
  rfl

/-- The loss of an outstanding echo (R41): below three in a row the losses keep their range, and the third ends in DOWN. -/
theorem echoLoss_step {n : Nat} (hn : n ≤ 40000) (ho : (s.port p).outstanding ≠ none) : RingStep s (echoLoss n p s) := by
  have hctr : ∀ {k : PortCounters}, (∀ m ∈ portNumbers k, m ≤ 65535) →
      ∀ m ∈ portNumbers { k with echoLosses := bump k.echoLosses }, m ≤ 65535 := fun {k} h => by
    rw [forall_portNumbers] at h ⊢; simp only [h, bump_le, and_self]
  rw [echoLoss_eq]
  split
  · have hdown : RingStep s ((s.updPort p (lostPort n)).updPort p (downPort 256 s.su.lt)) := by
      rw [State.updPort_updPort]
      exact .updPort ⟨fun h => downPort_sound (q := lostPort n (s.port p)) (by decide) _ hn (hctr h.counters),
        List.nil_sublist _, .inr rfl⟩
    exact hdown.trans (.of_ri (by simp [enterDown]))
  next hlosses =>
    refine (RingStep.updPort (f := lostPort n) ⟨fun h => ?_, .refl _, .inl rfl⟩).trans (echoDueOp_step _)
    exact ⟨fun hl => absurd (h.down hl).2.1 ho, h.dark, h.hold, h.up, h.delay, ⟨hn, h.echo.2.1, by omega⟩, h.transit,
      hctr h.counters⟩

theorem echoTimeoutOp_step : RingStep s (echoTimeoutOp p s) := by
  unfold echoTimeoutOp
  split
  next h => exact (RingStep.updPort (portStep_overflow true)).trans (echoLoss_step (by decide) (by simp [h]))
  next => exact .refl s

/-- A good echo of an outstanding request (R40). -/
theorem goodEcho_step {n d : Nat} (hn : n ≤ 40000) (hd : d ≤ 4000) (ho : (s.port p).outstanding ≠ none) :
    RingStep s (goodEcho n d p s) := by
  unfold goodEcho
  dsimp only
  refine (RingStep.updPort ⟨fun h => ?_, .refl _, .inl rfl⟩).trans (echoDueOp_step _)
  have hl : (s.port p).link ≠ .down := fun hl => ho (h.down hl).2.1
  have hup : (if (s.port p).link = .probing then Link.up else (s.port p).link) = .up := by
    cases hq : (s.port p).link <;> simp_all
  refine ⟨fun hc => ?_, fun hc => absurd hup hc, ⟨h.hold.1, fun hh => absurd (h.hold.2 hh) hl⟩, fun _ => rfl,
    fun x hx => Option.some.inj hx ▸ hd, ⟨hn, h.echo.2.1, Nat.zero_lt_succ _⟩, h.transit, ?_⟩
  · exact absurd (hup.symm.trans hc) (by simp)
  · have hc := h.counters
    rw [forall_portNumbers] at hc ⊢
    simp only [hc, bump_le, and_self]

theorem staleEcho_step : RingStep s (staleEcho p s) :=
  .updPort (portStep_counters (g := fun k => { k with staleEchoes := bump k.staleEchoes }) fun k h => by
    rw [forall_portNumbers] at h ⊢; simp only [h, bump_le, and_self])

/-- An echo answer (R40), by what it makes of the request it answers. -/
theorem takeAnswer_step {m : BitVec 8} {t : Nat} {a : Ticks} : RingStep s (takeAnswer p m t a s) := by
  unfold takeAnswer
  dsimp only
  split
  next ho =>
    split
    next => exact echoTimeoutOp_step.trans staleEcho_step
    next hn =>
      have hturn : RingStep s (s.updPort p fun q => { q with turnaround := t }) := .updPort (portStep_turnaround t)
      have ho' : ((s.updPort p fun q => { q with turnaround := t }).port p).outstanding ≠ none := by
        rw [State.port_updPort]; simp [ho]
      have hn' : (a - (s.port p).echoStart).toNat ≤ 40000 := not_lt.1 hn
      split
      next hd => exact hturn.trans (goodEcho_step hn' (by omega) ho')
      next => exact hturn.trans (echoLoss_step hn' ho')
  next => exact staleEcho_step

theorem queueTransit_step {x : Transit} : RingStep s (queueTransit p x s) := by
  unfold queueTransit
  dsimp only
  split
  next hl =>
    split
    next hn => exact .updPort (portStep_queue hl hn x)
    next =>
      have hover : RingStep s (s.updPort p fun q => { q with ctr := { q.ctr with transitOverflows := bump q.ctr.transitOverflows } }) :=
        .updPort (portStep_counters (g := fun k => { k with transitOverflows := bump k.transitOverflows }) fun k h => by
          rw [forall_portNumbers] at h ⊢; simp only [h, bump_le, and_self])
      exact hover.trans ⟨fun p => by cases p <;> exact .refl _, fun h => ⟨Nat.zero_le _, h.2⟩⟩
  next => exact .refl s

theorem counted_step {g : PortCounters → PortCounters} (hg : CountersKept g) :
    RingStep s (s.updPort p fun q => { q with ctr := g q.ctr }) := .updPort (portStep_counters hg)

theorem ownReturn_step {n : SeqNo} : RingStep s (ownReturn p n s) := by
  have hcount : RingStep s (s.updPort p fun q => { q with ctr := { q.ctr with ownReturns := bump q.ctr.ownReturns } }) :=
    counted_step (g := fun k => { k with ownReturns := bump k.ownReturns }) fun k h => by
      rw [forall_portNumbers] at h ⊢; simp only [h, bump_le, and_self]
  exact hcount.trans (.updPort (portStep_returned _))

theorem duplicateBay_step : RingStep s (duplicateBay p s) := by
  have hcount : RingStep s (s.updPort p fun q => { q with ctr := { q.ctr with duplicateBays := bump q.ctr.duplicateBays } }) :=
    counted_step (g := fun k => { k with duplicateBays := bump k.duplicateBays }) fun k h => by
      rw [forall_portNumbers] at h ⊢; simp only [h, bump_le, and_self]
  exact hcount.trans (.of_ri rfl)

theorem takeBay_step {c : Settings} {f : BayFrame} {a : Ticks} : RingStep s (takeBay c p f a s) :=
  takeBay_pres (P := RingStep s) (.refl s) (fun _ _ hg h => h.trans (counted_step hg)) (fun _ _ h => h.trans ownReturn_step)
    (fun _ h => h.trans duplicateBay_step) (fun _ _ h => h.trans queueTransit_step)
    (fun _ _ h => h.trans ⟨fun p => by cases p <;> exact .refl _, fun h => ⟨h.1, Nat.zero_le _⟩⟩)
    (fun _ _ h => h.trans (.of_ri rfl)) (fun _ _ _ _ h => h.trans (.of_ri (by simp)))

theorem receiveFrame_step {c : Settings} {bytes : List Byte} : RingStep s (receiveFrame c p bytes s) :=
  receiveFrame_pres (P := RingStep s) (.refl s) (fun _ _ hg h => h.trans (counted_step hg))
    (fun _ _ => .updPort (portStep_answer _)) (fun _ _ _ => takeAnswer_step) (fun _ _ _ => takeBay_step)

theorem quietEpoch_step : RingStep s (quietEpoch s) :=
  ⟨fun p => by cases p <;> exact .refl _, fun _ => ⟨min_le_right _ _, min_le_right _ _⟩⟩

theorem ringEpoch_step : RingStep s (ringEpoch s) := by
  refine ⟨fun p => by rw [ringEpoch_port]; exact portStep_epoch _, fun _ => ?_⟩
  have h : besidePorts (ringEpoch s) = besidePorts (quietEpoch s) := by simp [ringEpoch]
  simp only [besidePorts, Ring.mk.injEq] at h
  rw [h.2.2.1, h.2.2.2.1]
  exact ⟨min_le_right _ _, min_le_right _ _⟩

theorem ringStop_step : RingStep s (ringStop s) := (enterDown_step (by decide)).trans (enterDown_step (by decide))

theorem ringStart_step : RingStep s (ringStart s) := by
  have hcut : ∀ p u, RingStep u (u.updPort p (cutReception s.su.lt)) := fun p u => .updPort (portStep_cut _)
  exact (hcut .east s).trans ((hcut .west _).trans (probeOp_step.trans probeOp_step))

/-- The ring at a start of epochs. -/
theorem startEpochs_step {c : Settings} {k : Contacts} : RingStep s (startEpochs c k s) := by
  have hsu : RingStep s (s.updSu samplingStart) := .of_ri rfl
  exact (hsu.trans (quietEpoch_step.trans ringStart_step)).trans (.of_ri (startEpochs_ri c k s))

theorem takeReset_step {k : ResetKind} : RingStep s (takeReset k s) := by
  have hri : (takeReset k s).ri = .reset s.ri.east.rx s.ri.west.rx := by simp [takeReset]
  refine ⟨fun p => ?_, fun _ => by rw [hri]; exact ⟨le_refl _, le_refl _⟩⟩
  have hport : (takeReset k s).port p = .reset (s.port p).rx := by
    rw [State.port, hri]
    cases p <;> rfl
  rw [hport]
  exact portStep_reset _

theorem cutResponse_step : RingStep s (cutResponse s) :=
  cutResponse_pres (P := RingStep s) (.of_ri rfl) fun _ h => h.trans takeReset_step

theorem lossRunning_step : RingStep s (lossRunning s) := by
  have hstop : RingStep (tripStop s) (ringStop (tripStop s)) := ringStop_step
  exact ((RingStep.of_ri (tripStop_ri s)).trans hstop).trans (.of_ri (lossRunning_ri s))

end
end Sys2Proof.Machine

/-! PROOFS. The ports of the ring and the own frames on them stay sound (O58). -/
namespace Sys2Proof.Machine
open Sys2Proof

/-! ### The own sample event on the ports -/

section
variable {c : Settings} {s : State}

/-- The own sample event places the own frame of the epoch under conversion in the slot of each UP port (R42). -/
theorem ownSampleEvent_port {f : Flight} (hf : s.su.flight = some f) : ∃ o : OwnFrame, o.frame.seqNo = f.epoch.setWidth 16 ∧
    ∀ p, (ownSampleEvent c s).port p = placeCopy o (s.port p) := by
  simp only [ownSampleEvent, hf]
  refine ⟨⟨makeOwnFrame c (makeRecord c f s.su.chans) f.declared (offeredSet f.declared
    (feedOwn c (makeRecord c f s.su.chans) f.declared (takeRecordSu (makeRecord c f s.su.chans) s))), f.instant⟩, rfl, fun p => ?_⟩
  have hplace : ∀ (o : OwnFrame) (u : State), (placeOwn o u).port p = placeCopy o (u.port p) := fun o u => by cases p <;> rfl
  have hri : ∀ u : State, u.ri = s.ri → u.port p = s.port p := fun u hu => by rw [State.port, hu]; rfl
  rw [← hri (feedOwn c (makeRecord c f s.su.chans) f.declared (takeRecordSu (makeRecord c f s.su.chans) s)) (by simp), ← hplace]
  simp [State.port, evaluateInstant]

theorem placeCopy_own (o : OwnFrame) {q : PortState} (h : PortSound q) (x : OwnFrame) (hx : (placeCopy o q).own = some x) : x = o := by
  unfold placeCopy at hx
  split at hx
  next => exact (Option.some.inj hx).symm
  next hl => rw [(h.dark hl).1] at hx; cases hx

theorem placeCopy_departed (o : OwnFrame) (q : PortState) : (placeCopy o q).departed = q.departed := by
  unfold placeCopy
  split <;> rfl

theorem placeCopy_sound (o : OwnFrame) {q : PortState} (h : PortSound q) : PortSound (placeCopy o q) := by
  unfold placeCopy
  split
  next hl =>
    refine ⟨h.down, fun hc => absurd hl hc, h.hold, h.up, h.delay, h.echo, h.transit, ?_⟩
    dsimp only
    split
    next =>
      have hc := h.counters
      rw [forall_portNumbers] at hc ⊢
      simp only [hc, bump_le, and_self]
    next => exact h.counters
  next => exact h

theorem ownSampleEvent_ringSound (h : RingSound s.ri) : RingSound (ownSampleEvent c s).ri := by
  have hbeside := besidePorts_ownSampleEvent c s
  simp only [besidePorts, Ring.mk.injEq] at hbeside
  refine ⟨fun p => ?_, by rw [hbeside.2.2.1, hbeside.2.2.2.1]; exact h.quiet⟩
  cases hf : s.su.flight with
  | none =>
    have hsame : ownSampleEvent c s = s := by simp only [ownSampleEvent, hf]
    rw [hsame]; exact h.ports p
  | some f =>
    obtain ⟨o, -, ho⟩ := ownSampleEvent_port (c := c) hf
    change PortSound ((ownSampleEvent c s).port p)
    rw [ho]
    exact placeCopy_sound o (h.ports p)

theorem lateEvent_ringSound (h : RingSound s.ri) : RingSound (lateEvent c s).ri :=
  lateEvent_pres (P := fun s => RingSound s.ri) h ownSampleEvent_ringSound

/-- A relation that the parts of an epoch but for its late own sample event keep, before that event and after it. -/
theorem epochParts_around {R : State → State → Prop} {c : Settings} {k : Contacts} {tcs : Bool} {o : EpochOrder} {s : State}
    (refl : ∀ u, R u u) (trans : ∀ {u v w}, R u v → R v w → R u w)
    (contacts : R s (contactEpoch c k (clockEpoch k tcs s).su.epoch (clockEpoch k tcs s))) (ring : ∀ u, R u (ringEpoch u))
    (peers : ∀ u, R u (peerEpoch c u)) (choice : ∀ u, R u (choiceStage c u)) (supervision : ∀ r u, R u (supervisionEpoch r u))
    (conversions : ∀ u, R u (startConversions u)) : ∃ v, R s v ∧
    v.su.chans = s.su.chans ∧ v.su.flight = s.su.flight ∧ R (lateEvent c v) (epochParts c k tcs o s) := by
  have hstage : ∀ {f : State → State}, (∀ u, R u (f u)) → ∀ b u, R u (stageIf b f u) := fun h b u => by
    cases b
    · exact refl u
    · exact h u
  have hcounts : ∀ b b' u, R u (stageIf b ringEpoch (stageIf b' (peerEpoch c) u)) := fun b b' u =>
    trans (hstage peers b' u) (hstage ring b _)
  have hsu : ∀ b b' u, (stageIf b ringEpoch (stageIf b' (peerEpoch c) u)).su = u.su := fun b b' u => by
    rw [stageIf_keeps (·.su) _ _ (fun _ => by simp), stageIf_keeps (·.su) _ _ (fun _ => by simp)]
  have hcsu : (contactEpoch c k (clockEpoch k tcs s).su.epoch (clockEpoch k tcs s)).su = (clockEpoch k tcs s).su := by simp
  rw [epochParts_split]
  unfold beforeChoice afterChoice
  generalize contactEpoch c k (clockEpoch k tcs s).su.epoch (clockEpoch k tcs s) = z at contacts hcsu
  dsimp only
  cases o.late
  case beforeChoice =>
    exact ⟨z, contacts, by rw [hcsu]; rfl, by rw [hcsu]; rfl,
      trans (hcounts _ _ _) (trans (choice _) (trans (supervision _ _) (trans (hcounts _ _ _) (conversions _))))⟩
  case afterChoice =>
    refine ⟨choiceStage c (stageIf o.linksFirst ringEpoch (stageIf o.peersFirst (peerEpoch c) z)),
      trans contacts (trans (hcounts _ _ _) (choice _)), ?_, ?_,
      trans (supervision _ _) (trans (hcounts _ _ _) (conversions _))⟩
    · rw [choiceStage_su, hsu, hcsu]; rfl
    · rw [choiceStage_su, hsu, hcsu]; rfl
  case afterSupervision =>
    refine ⟨supervisionEpoch (chosenAt (choiceStage c (stageIf o.linksFirst ringEpoch (stageIf o.peersFirst (peerEpoch c) z))))
        (choiceStage c (stageIf o.linksFirst ringEpoch (stageIf o.peersFirst (peerEpoch c) z))),
      trans (trans contacts (trans (hcounts _ _ _) (choice _))) (supervision _ _), ?_, ?_,
      trans (hcounts _ _ _) (conversions _)⟩
    · rw [supervisionEpoch_su, choiceStage_su, hsu, hcsu]; rfl
    · rw [supervisionEpoch_su, choiceStage_su, hsu, hcsu]; rfl

/-- Before its late own sample event, and after it, an epoch leaves the ports without a new own frame. -/
theorem epochParts_late (c : Settings) (k : Contacts) (tcs : Bool) (o : EpochOrder) (s : State) : ∃ v, RingStep s v ∧
    v.su.chans = s.su.chans ∧ v.su.flight = s.su.flight ∧ RingStep (lateEvent c v) (epochParts c k tcs o s) :=
  epochParts_around .refl .trans (.of_ri (by simp [clockEpoch])) (fun _ => ringEpoch_step) (fun _ => .of_ri (by simp))
    (fun _ => .of_ri (by simp)) (fun _ _ => .of_ri (by simp)) fun _ => .of_ri rfl

theorem epochParts_ringSound {k : Contacts} {tcs : Bool} {o : EpochOrder} (h : RingSound s.ri) :
    RingSound (epochParts c k tcs o s).ri := by
  obtain ⟨v, hv, -, -, ht⟩ := epochParts_late c k tcs o s
  exact ht.sound (lateEvent_ringSound (hv.sound h))

end

/-! ### Every operation but the own sample event -/

/-- The steps of the ports at the operations after an epoch, but for the conversions' own. -/
theorem move_ringStep {s t : State} (h : Move s t) :
    RingStep s t ∨ ∃ c ph ch raw, Runs c s ∧ t = completeOp c ph ch raw s := by
  cases h with
  | complete ph ch raw hr => exact .inr ⟨_, ph, ch, raw, hr, rfl⟩
  | signal p present => exact .inl (.updPort (portStep_rx present))
  | probe p _ => exact .inl probeOp_step
  | signalLost p _ =>
    left
    unfold signalLostOp
    split
    · exact .refl s
    · exact enterDown_step (Nat.zero_le _)
  | echoDue p _ => exact .inl (echoDueOp_step _)
  | echoTimeout p _ => exact .inl echoTimeoutOp_step
  | receive p bytes _ => exact .inl receiveFrame_step
  | transmissionEnd p _ => exact .inl (.updPort (portStep_tx none))
  | confirm k =>
    exact .inl (confirmOp_pres (P := RingStep s) (.refl s) (fun _ => .of_ri rfl) (fun _ _ => .of_ri (by simp)) (fun _ _ => .of_ri rfl)
      (fun _ _ _ _ _ => .of_ri rfl) fun _ _ _ _ _ _ => startEpochs_step.of_same rfl)
  | loss =>
    exact .inl (referenceLossOp_pres (P := RingStep s) (.refl s) (fun _ => .of_ri rfl)
      (fun _ => cutResponse_step.of_same rfl) (fun _ => cutResponse_step.of_same rfl)
      fun _ _ => (lossRunning_step.trans cutResponse_step).of_same rfl)
  | configCheck k =>
    exact .inl (configCheckOp_pres (P := RingStep s) (.refl s) (fun c _ _ => startEpochs_step.of_same rfl)
      fun _ => .of_ri rfl)
  | reset k => exact .inl takeReset_step
  | responseEnd => exact .inl cutResponse_step
  | takeRecord => exact .inl (.of_ri rfl)
  | resetRequest => exact .inl (.of_ri (by unfold resetAct; split <;> rfl))
  | clearAlarms => exact .inl ⟨fun p => by cases p <;> exact .refl _, id⟩
  | clearCounters => exact .inl ⟨fun p => by cases p <;> exact portStep_zero, id⟩
  | _ => exact .inl (.of_ri (by simp))

theorem move_ringSound {s t : State} (h : Move s t) (hs : RingSound s.ri) : RingSound t.ri := by
  rcases move_ringStep h with hstep | ⟨c, ph, ch, raw, -, rfl⟩
  · exact hstep.sound hs
  · exact completeOp_pres (P := fun s => RingSound s.ri) hs hs fun _ => ownSampleEvent_ringSound

end Sys2Proof.Machine

/-! PROOFS. The arbiters' choice keeps the ports sound and the own frames in order, and so does every step (O58). -/
namespace Sys2Proof.Machine
open Sys2Proof

/-! ### The arbiter of one port (R53) -/

section
variable {c : Settings} {lt : Ticks} {q : PortState}

theorem sendTransit_kept (xs : List Transit) : ∀ q : PortState,
    (sendTransit lt q xs).own = q.own ∧ (sendTransit lt q xs).departed = q.departed := by
  induction xs with
  | nil => exact fun _ => ⟨rfl, rfl⟩
  | cons x rest ih =>
    intro q
    unfold sendTransit
    split
    · exact ih _
    · split
      · exact ih _
      · exact ⟨rfl, rfl⟩

theorem sendTransit_sound (xs : List Transit) : ∀ q : PortState, PortSound q → q.link = .up → xs.length ≤ 4 →
    PortSound (sendTransit lt q xs) := by
  induction xs with
  | nil =>
    intro q h hl _
    exact ⟨h.down, fun hd => absurd hl hd, h.hold, h.up, h.delay, h.echo, Nat.zero_le _, h.counters⟩
  | cons x rest ih =>
    intro q h hl hlen
    have hrest : rest.length ≤ 4 := by simp only [List.length_cons] at hlen; omega
    have hc := h.counters
    rw [forall_portNumbers] at hc
    unfold sendTransit
    split
    · refine ih _ ?_ hl hrest
      exact ⟨h.down, h.dark, h.hold, h.up, h.delay, h.echo, h.transit,
        forall_portNumbers.2 (by simp only [hc, bump_le, and_self])⟩
    · split
      · refine ih _ ?_ hl hrest
        exact ⟨h.down, h.dark, h.hold, h.up, h.delay, h.echo, h.transit,
          forall_portNumbers.2 (by simp only [hc, bump_le, and_self])⟩
      · exact ⟨h.down, fun hd => absurd hl hd, h.hold, h.up, h.delay, h.echo, hrest,
          forall_portNumbers.2 (by simp only [hc, bump_le, and_self])⟩

theorem departList_kept (n : SeqNo) (q : PortState) : ∃ k, departList n q = { q with
    departed := (if q.departed.any (overdue n) then q.departed.filter fun e => !overdue n e else q.departed) ++ [n]
    opened := q.opened || q.departed.any (overdue n)
    ctr := { q.ctr with ringOpenEvents := k } } ∧ (k = q.ctr.ringOpenEvents ∨ k = bump q.ctr.ringOpenEvents) := by
  unfold departList
  cases q.departed.any (overdue n)
  · exact ⟨_, by simp, .inl rfl⟩
  · cases ho : q.opened
    · exact ⟨bump q.ctr.ringOpenEvents, by simp, .inr rfl⟩
    · exact ⟨q.ctr.ringOpenEvents, by simp, .inl rfl⟩

/-- What an own frame that departs makes of its port (R56, R57). -/
theorem sendOwn_sound {o : OwnFrame} (h : PortSound q) (hl : q.link = .up) : PortSound (sendOwn lt o q) := by
  have hc := h.counters
  rw [forall_portNumbers] at hc
  unfold sendOwn
  obtain ⟨k, hk, hkle⟩ := departList_kept o.frame.seqNo { q with
    own := none
    tx := some ⟨bayBytes { o.frame with age := (lt - o.instant).toNat }, lt, bayTicks⟩
    ctr := { q.ctr with ownSent := bump q.ctr.ownSent } }
  have hle : k ≤ 65535 := by
    rcases hkle with rfl | rfl
    · simp only [hc]
    · exact bump_le _
  dsimp only
  rw [hk]
  exact ⟨fun hd => by simp [hl] at hd, fun hd => absurd hl hd, h.hold, h.up, h.delay, h.echo, h.transit,
    forall_portNumbers.2 (by simp only [hc, bump_le, hle, and_self])⟩

/-- The arbiter keeps a port sound. -/
theorem arbitratePort_sound (h : PortSound q) : PortSound (arbitratePort c lt q) := by
  unfold arbitratePort
  split
  · exact h
  · exact ⟨h.down, h.dark, h.hold, h.up, h.delay, h.echo, h.transit, h.counters⟩
  · split
    next hdue =>
      have hl : q.link ≠ .down := fun hl => by simp [(h.down hl).2.2.1] at hdue
      exact ⟨fun hd => absurd hd hl, h.dark, h.hold, h.up, h.delay, ⟨Nat.zero_le _, Nat.zero_le _, h.echo.2.2⟩, h.transit, h.counters⟩
    next =>
      split
      next hl =>
        unfold sendBay
        split
        · split
          · refine sendTransit_sound _ _ ?_ hl h.transit
            have hc := h.counters
            rw [forall_portNumbers] at hc
            exact ⟨fun hd => by simp [hl] at hd, fun hd => absurd hl hd, h.hold, h.up, h.delay, h.echo, h.transit,
              forall_portNumbers.2 (by simp only [hc, bump_le, and_self])⟩
          · exact sendOwn_sound h hl
        · exact sendTransit_sound _ _ h hl h.transit
      next => exact h

/-- The list and the slot at the arbiter: only a waiting own frame joins the list, and it leaves the slot. -/
theorem arbitratePort_frames :
    ((arbitratePort c lt q).departed = q.departed ∧ ((arbitratePort c lt q).own = q.own ∨ (arbitratePort c lt q).own = none)) ∨
    ∃ o, q.own = some o ∧ (arbitratePort c lt q).own = none ∧ (arbitratePort c lt q).departed =
      (if q.departed.any (overdue o.frame.seqNo) then q.departed.filter fun e => !overdue o.frame.seqNo e else q.departed) ++
        [o.frame.seqNo] := by
  unfold arbitratePort
  split
  · exact .inl ⟨rfl, .inl rfl⟩
  · exact .inl ⟨rfl, .inl rfl⟩
  · split
    · exact .inl ⟨rfl, .inl rfl⟩
    · split
      · unfold sendBay
        split
        next o ho =>
          split
          · obtain ⟨h1, h2⟩ := sendTransit_kept (lt := lt) q.transit
              { q with own := none, ctr := { q.ctr with agedDrops := bump q.ctr.agedDrops } }
            exact .inl ⟨h2, .inr h1⟩
          · refine .inr ⟨o, ho, ?_⟩
            unfold sendOwn
            obtain ⟨k, hk, -⟩ := departList_kept o.frame.seqNo { q with
              own := none
              tx := some ⟨bayBytes { o.frame with age := (lt - o.instant).toNat }, lt, bayTicks⟩
              ctr := { q.ctr with ownSent := bump q.ctr.ownSent } }
            dsimp only
            rw [hk]
            exact ⟨rfl, rfl⟩
        next ho =>
          obtain ⟨h1, h2⟩ := sendTransit_kept (lt := lt) q.transit q
          exact .inl ⟨h2, .inl h1⟩
      · exact .inl ⟨rfl, .inl rfl⟩

end

/-! ### The list of departed frames -/

/-- A list of departed sequences in order: at most 8, each at most 7 after any before it. -/
def ListInOrder (l : List SeqNo) : Prop := l.length ≤ 8 ∧ l.Pairwise fun e f => 1 ≤ (f - e).toNat ∧ (f - e).toNat ≤ 7

theorem ListInOrder.sublist {l l' : List SeqNo} (h : ListInOrder l) (hs : l'.Sublist l) : ListInOrder l' :=
  ⟨hs.length_le.trans h.1, h.2.sublist hs⟩

/-- Sequences at most 7 before a sequence, in order, are at most 7. -/
theorem listInOrder_short {l : List SeqNo} {n : SeqNo} (h : ListInOrder l) (hn : ∀ e ∈ l, 1 ≤ (n - e).toNat ∧ (n - e).toNat ≤ 7) :
    l.length ≤ 7 := by
  have hnodup : (l.map fun e => (n - e).toNat).Nodup := by
    refine List.Nodup.map_on (fun e _ f _ hef => ?_) (h.2.imp fun {e f} hef => ?_)
    · exact sub_right_inj.1 (BitVec.eq_of_toNat_eq hef)
    · rintro rfl
      simp at hef
  have hsub : (l.map fun e => (n - e).toNat).toFinset ⊆ Finset.Icc 1 7 := fun x hx => by
    obtain ⟨e, he, rfl⟩ := List.mem_map.1 (List.mem_toFinset.1 hx)
    exact Finset.mem_Icc.2 (hn e he)
  have hcard := Finset.card_le_card hsub
  rw [List.toFinset_card_of_nodup hnodup] at hcard
  simpa using hcard

/-- A sequence joins the list at its departure (R57): after the overdue ones have left it is in order again. -/
theorem listInOrder_departs {l : List SeqNo} {n : SeqNo} (h : ListInOrder l) (hn : n ∉ l) (hrecent : ∀ e ∈ l, (n - e).toNat ≤ 32767) :
    ListInOrder ((if l.any (overdue n) then l.filter fun e => !overdue n e else l) ++ [n]) := by
  have hkept : ∀ e ∈ (if l.any (overdue n) then l.filter fun e => !overdue n e else l), e ∈ l ∧ overdue n e = false := fun e he => by
    split at he
    next => simpa using List.mem_filter.1 he
    next hnone =>
      refine ⟨he, Bool.eq_false_iff.2 fun ho => hnone (List.any_eq_true.2 ⟨e, he, ho⟩)⟩
  have hsub : (if l.any (overdue n) then l.filter fun e => !overdue n e else l).Sublist l := by
    split
    · exact List.filter_sublist
    · exact .refl l
  have horder := h.sublist hsub
  generalize (if l.any (overdue n) then l.filter fun e => !overdue n e else l) = r at hkept horder
  have hclose : ∀ e ∈ r, 1 ≤ (n - e).toNat ∧ (n - e).toNat ≤ 7 := fun e he => by
    obtain ⟨hmem, hover⟩ := hkept e he
    have hle := hrecent e hmem
    have hne : (n - e).toNat ≠ 0 := fun h0 => hn (by
      have h0 : n - e = 0 := BitVec.eq_of_toNat_eq h0
      rwa [sub_eq_zero.1 h0])
    simp only [overdue, decide_eq_false_iff_not, not_and, not_le] at hover
    omega
  refine ⟨?_, List.pairwise_append.2 ⟨horder.2, List.pairwise_singleton _ _, fun e he f hf => ?_⟩⟩
  · have := listInOrder_short horder hclose
    simp only [List.length_append, List.length_singleton]
    omega
  · rw [List.mem_singleton.1 hf]
    exact hclose e he

end Sys2Proof.Machine

/-! PROOFS. The own frames stay in order (O58): at the arbiters' choice, at an epoch, at the own sample event and at every other
operation. -/
namespace Sys2Proof.Machine
open Sys2Proof

/-- What the order of the own frames rests on. -/
structure FramesSound (s : State) : Prop where
  mode : ModeSound s
  sampling : SamplingSound s.su
  ring : RingSound s.ri
  dark : StopsDark s
  frames : FramesInOrder s

/-- The conversions stand: the clock stands in the same epoch, with the same channels. -/
structure SameConversions (s t : State) : Prop where
  gen : t.su.gen = s.su.gen
  epoch : t.su.epoch = s.su.epoch
  chans : t.su.chans = s.su.chans
  lt : t.su.lt = s.su.lt
  phase : t.su.phase = s.su.phase

theorem SameConversions.of_su {s t : State} (h : t.su = s.su) : SameConversions s t :=
  ⟨by rw [h], by rw [h], by rw [h], by rw [h], by rw [h]⟩

theorem SameConversions.converting {s t : State} (h : SameConversions s t) : Converting t ↔ Converting s := by
  rw [Converting, h.chans]; rfl

theorem FramesInOrder.listInOrder {s : State} (h : FramesInOrder s) (p : Port) : ListInOrder (s.port p).departed := h.lists p

/-! ### The arbiters' choice -/

section
variable {s : State}

/-- The sequence of a waiting own frame is that of the present epoch, or while a channel converts that of the one before. -/
theorem waiting_recent (hf : FramesInOrder s) (hg : s.su.gen = .running) {p : Port} {o : OwnFrame} (ho : (s.port p).own = some o) :
    (Converting s ∧ o.frame.seqNo = s.su.epoch.setWidth 16 - 1) ∨ (¬ Converting s ∧ o.frame.seqNo = s.su.epoch.setWidth 16) := by
  obtain ⟨-, hconv, hdone⟩ := hf.waiting hg p o ho
  by_cases hc : Converting s
  · exact .inl ⟨hc, hconv hc⟩
  · exact .inr ⟨hc, hdone hc⟩

theorem waiting_before (hf : FramesInOrder s) (hr : ListsRecent s) (hg : s.su.gen = .running) {p : Port} {o : OwnFrame}
    (ho : (s.port p).own = some o) : ∀ e ∈ (s.port p).departed, (o.frame.seqNo - e).toNat ≤ 32767 := fun e he => by
  have hrecent := hr p e he
  rcases waiting_recent hf hg ho with ⟨hc, hn⟩ | ⟨hc, hn⟩ <;> rw [hn]
  · have hne : s.su.epoch.setWidth 16 ≠ e := fun h => hf.listed hg hc p (h ▸ he)
    generalize s.su.epoch.setWidth 16 = x at hrecent hne ⊢
    bv_omega
  · omega

/-- The order, and its recency, after the arbiters' choice. -/
theorem settled_frames {c : Settings} (hr : Runs c s) (hf : FramesInOrder s) (hl : ListsRecent s) {t : State}
    (hport : ∀ p, t.port p = arbitratePort c s.su.lt (s.port p)) (hepoch : t.su.epoch = s.su.epoch)
    (hchans : t.su.chans = s.su.chans) : FramesInOrder t ∧ ListsRecent t := by
  have hconv : Converting t ↔ Converting s := by rw [Converting, hchans]; rfl
  have hcases := fun p => arbitratePort_frames (c := c) (lt := s.su.lt) (q := s.port p)
  have hnone : ∀ p o, (t.port p).own = some o → (s.port p).own = some o ∧ (t.port p).departed = (s.port p).departed := fun p o ho => by
    rw [hport] at ho ⊢
    rcases hcases p with ⟨hd, hown⟩ | ⟨o', ho', hown, -⟩
    · rcases hown with hown | hown
      · exact ⟨hown ▸ ho, hd⟩
      · rw [hown] at ho; cases ho
    · rw [hown] at ho; cases ho
  have hmem : ∀ p, ∀ e ∈ (t.port p).departed, e ∈ (s.port p).departed ∨ ∃ o, (s.port p).own = some o ∧ e = o.frame.seqNo := fun p e he => by
    rw [hport] at he
    rcases hcases p with ⟨hd, -⟩ | ⟨o, ho, -, hd⟩
    · exact .inl (hd ▸ he)
    · rw [hd] at he
      rcases List.mem_append.1 he with he | he
      · left
        split at he
        · exact List.mem_of_mem_filter he
        · exact he
      · exact .inr ⟨o, ho, List.mem_singleton.1 he⟩
  refine ⟨⟨fun p => ?_, fun hg hc p hin => ?_, fun hg p o ho => ?_⟩, fun p e he => ?_⟩
  · rw [hport]
    rcases hcases p with ⟨hd, -⟩ | ⟨o, ho, -, hd⟩ <;> rw [hd]
    · exact hf.lists p
    · exact listInOrder_departs (hf.lists p) (hf.waiting hr.1 p o ho).1 (waiting_before hf hl hr.1 ho)
  · rw [hepoch] at hin
    rcases hmem p _ hin with hin | ⟨o, ho, he⟩
    · exact hf.listed hr.1 (hconv.1 hc) p hin
    · have := (hf.waiting hr.1 p o ho).2.1 (hconv.1 hc)
      rw [← he] at this
      generalize s.su.epoch.setWidth 16 = x at this
      bv_omega
  · obtain ⟨hown, hd⟩ := hnone p o ho
    rw [hd, hconv, hepoch]
    exact hf.waiting hr.1 p o hown
  · rw [hepoch]
    rcases hmem p e he with he | ⟨o, ho, rfl⟩
    · exact hl p e he
    · rcases waiting_recent hf hr.1 ho with ⟨-, hn⟩ | ⟨-, hn⟩ <;> rw [hn]
      · generalize s.su.epoch.setWidth 16 = x
        bv_omega
      · simp

end

/-! ### Operations that place no own frame -/

/-- The order is kept where no own frame is placed and the conversions stand, or where epochs are stopped. -/
theorem FramesInOrder.step {s t : State} (hf : FramesInOrder s) (hstep : RingStep s t)
    (h : t.su.gen = .stopped ∨ SameConversions s t) : FramesInOrder t := by
  have hlists : ∀ p, ListInOrder (t.port p).departed := fun p => (hf.listInOrder p).sublist (hstep.ports p).departed
  rcases h with hg | hsame
  · have hnot : t.su.gen ≠ .running := by simp [hg]
    exact ⟨hlists, fun h => absurd h hnot, fun h => absurd h hnot⟩
  · refine ⟨hlists, fun hg hc p hin => ?_, fun hg p o ho => ?_⟩
    · rw [hsame.epoch] at hin
      exact hf.listed (hsame.gen ▸ hg) (hsame.converting.1 hc) p ((hstep.ports p).departed.subset hin)
    · have hown : (s.port p).own = some o := by
        rcases (hstep.ports p).own with h | h
        · rwa [h] at ho
        · rw [h] at ho; cases ho
      obtain ⟨hnot, hrest⟩ := hf.waiting (hsame.gen ▸ hg) p o hown
      rw [hsame.converting, hsame.epoch]
      exact ⟨fun hin => hnot ((hstep.ports p).departed.subset hin), hrest⟩

/-- At a start of epochs no own frame waits and none has departed, as both ports were DOWN. -/
theorem startEpochs_frames {c : Settings} {k : Contacts} {s : State} (hring : RingSound s.ri) (hdark : ∀ p, (s.port p).link = .down) :
    FramesInOrder (startEpochs c k s) := by
  have hstep := startEpochs_step (c := c) (k := k) (s := s)
  have hempty : ∀ p, ((startEpochs c k s).port p).departed = [] ∧ ((startEpochs c k s).port p).own = none := fun p => by
    have hs := (hring.ports p).down (hdark p)
    have hown := ((hring.ports p).dark (by change (s.port p).link ≠ _; simp [hdark p])).1
    refine ⟨List.sublist_nil.1 (hs.2.2.2.2 ▸ (hstep.ports p).departed), ?_⟩
    rcases (hstep.ports p).own with h | h
    · exact h.trans hown
    · exact h
  exact ⟨fun p => by rw [(hempty p).1]; exact ⟨Nat.zero_le _, .nil⟩, fun _ _ p => by rw [(hempty p).1]; exact List.not_mem_nil,
    fun _ p o ho => by rw [(hempty p).2] at ho; cases ho⟩

/-! ### The own sample event and the epoch -/

theorem converting_of_channel {u : Sampling} {ph : Phase} {ch : Channel} (h : ((u.chans.get ph).get ch).isConverting = true) :
    ∃ ph ch, (u.chans.get ph).get ch = .converting := by
  refine ⟨ph, ch, ?_⟩
  cases hc : (u.chans.get ph).get ch <;> simp [hc, Chan.isConverting] at h ⊢

/-- The own sample event on sound ports: each frame that then waits is that of the epoch under conversion. -/
theorem ownSampleEvent_waiting (c : Settings) {s : State} (hring : RingSound s.ri) {f : Flight} (hf : s.su.flight = some f) :
    ∀ p, ((ownSampleEvent c s).port p).departed = (s.port p).departed ∧
      ∀ o, ((ownSampleEvent c s).port p).own = some o → o.frame.seqNo = f.epoch.setWidth 16 := fun p => by
  obtain ⟨o, ho, hport⟩ := ownSampleEvent_port (c := c) hf
  rw [hport]
  refine ⟨placeCopy_departed o _, fun x hx => ?_⟩
  rw [placeCopy_own o (hring.ports p) x hx, ho]

/-- With no channel IDLE, all six are DONE or one converts. -/
theorem allDone_iff_stands {x : PerPhase ChanPair} (h : ∀ ph ch, (x.get ph).get ch ≠ .idle) :
    allDone x = true ↔ ¬ ∃ ph ch, (x.get ph).get ch = .converting := by
  rw [allDone_iff]
  refine ⟨fun hd ⟨ph, ch, hc⟩ => by simpa [hc, Chan.isDone] using hd ph ch, fun hn ph ch => ?_⟩
  cases hc : (x.get ph).get ch with
  | idle => exact absurd hc (h ph ch)
  | converting => exact absurd ⟨ph, ch, hc⟩ hn
  | done r => rfl

theorem completeOp_frames {c : Settings} {ph : Phase} {ch : Channel} {raw : BitVec 16} {s : State} (hr : Runs c s) (h : FramesSound s) :
    FramesInOrder (completeOp c ph ch raw s) := by
  unfold completeOp
  split
  next hch =>
    have hconv : Converting s := converting_of_channel hch
    obtain ⟨hidle, f, hf, hfe, -⟩ := h.sampling.flight hr.1
    have hstands := allDone_iff_stands (complete_ne_idle (ph := ph) (ch := ch) (r := readRaw raw) hidle)
    have hnot := h.frames.listed hr.1 hconv
    dsimp only
    generalize hu : (s.updSu fun u => { u with chans := u.chans.upd (ChanPair.complete ch (readRaw raw)) ph }) = u
    have hugen : u.su.gen = s.su.gen ∧ u.su.epoch = s.su.epoch ∧ u.su.flight = s.su.flight ∧ u.ri = s.ri := by
      rw [← hu]; exact ⟨rfl, rfl, rfl, rfl⟩
    obtain ⟨hgen, hepoch, hflight, hri⟩ := hugen
    have hport : ∀ p, u.port p = s.port p := fun p => by rw [State.port, hri]; rfl
    rw [show s.su.chans.upd (ChanPair.complete ch (readRaw raw)) ph = u.su.chans by rw [← hu]; rfl] at hstands
    split
    next hall =>
      have hwait := ownSampleEvent_waiting c (hri ▸ h.ring : RingSound u.ri) (hflight.trans hf)
      have hstill : ¬ Converting (ownSampleEvent c u) := by
        rw [Converting, ownSampleEvent_chans]
        exact hstands.1 hall
      refine ⟨fun p => ?_, fun _ hc => absurd hc hstill, fun _ p o ho => ⟨?_, fun hc => absurd hc hstill, fun _ => ?_⟩⟩
      · rw [(hwait p).1, hport]
        exact h.frames.lists p
      · rw [(hwait p).1, (hwait p).2 o ho, hport, hfe]
        exact hnot p
      · rw [(hwait p).2 o ho, ownSampleEvent_epoch, hepoch, hfe]
    next hall =>
      have hstill : Converting u := not_not.1 fun hn => hall (hstands.2 hn)
      refine ⟨fun p => by rw [hport]; exact h.frames.lists p, fun _ _ p => by rw [hepoch, hport]; exact hnot p, fun _ p o ho => ?_⟩
      rw [hport] at ho
      obtain ⟨hin, hseq, -⟩ := h.frames.waiting hr.1 p o ho
      rw [hport, hepoch]
      exact ⟨hin, fun _ => hseq hconv, fun hn => absurd hstill hn⟩
  next => exact h.frames

theorem nextSequence (e : EpochNo) : (e + 1).setWidth 16 - 1 = e.setWidth 16 := by
  rw [BitVec.setWidth_add _ _ (by decide), show (1 : EpochNo).setWidth 16 = 1 from rfl, add_sub_cancel_right]

theorem epochParts_frames {c : Settings} {k : Contacts} {tcs : Bool} {o : EpochOrder} {s : State} (hr : Runs c s) (h : FramesSound s)
    (hl : ListsRecent s) : FramesInOrder (epochParts c k tcs o s) := by
  obtain ⟨v, hv, hchans, hflight, ht⟩ := epochParts_late c k tcs o s
  obtain ⟨-, f, hf, hfe, -⟩ := h.sampling.flight hr.1
  obtain ⟨z, y, hz, hparts, hy, -⟩ := epochParts_su c k tcs o s
  have hepoch : (epochParts c k tcs o s).su.epoch = s.su.epoch + 1 := by
    rw [hparts, startConversions_su, hy, lateEvent_epoch, hz]
    rfl
  have hconv : Converting (epochParts c k tcs o s) := ⟨.l1, .a, rfl⟩
  have hlate : ∀ p, ((lateEvent c v).port p).departed = (v.port p).departed ∧ ∀ x, ((lateEvent c v).port p).own = some x →
      x.frame.seqNo = s.su.epoch.setWidth 16 ∧ x.frame.seqNo ∉ (s.port p).departed := fun p => by
    unfold lateEvent
    split
    next hany =>
      have hc : Converting s := by rw [hchans] at hany; exact (anyConverting_iff _).1 hany
      obtain ⟨hdep, hown⟩ := ownSampleEvent_waiting c (hv.sound h.ring) (hflight.trans hf) p
      refine ⟨hdep, fun x hx => ?_⟩
      rw [hown x hx, hfe]
      exact ⟨rfl, h.frames.listed hr.1 hc p⟩
    next hany =>
      have hc : ¬ Converting s := fun hc => hany (by rw [hchans]; exact (anyConverting_iff _).2 hc)
      refine ⟨rfl, fun x hx => ?_⟩
      have hx : (s.port p).own = some x := by
        rcases (hv.ports p).own with h | h
        · rwa [h] at hx
        · rw [h] at hx; cases hx
      obtain ⟨hin, -, hseq⟩ := h.frames.waiting hr.1 p x hx
      exact ⟨hseq hc, hin⟩
  have hsub : ∀ p, ((epochParts c k tcs o s).port p).departed.Sublist (s.port p).departed := fun p =>
    (ht.ports p).departed.trans ((hlate p).1 ▸ (hv.ports p).departed)
  refine ⟨fun p => (h.frames.listInOrder p).sublist (hsub p), fun _ _ p hin => ?_, fun _ p x hx => ?_⟩
  · rw [hepoch] at hin
    have hrecent := hl p _ ((hsub p).subset hin)
    rw [← nextSequence] at hrecent
    generalize (s.su.epoch + 1).setWidth 16 = x at hrecent
    bv_omega
  · have hx : ((lateEvent c v).port p).own = some x := by
      rcases (ht.ports p).own with h | h
      · rwa [h] at hx
      · rw [h] at hx; cases hx
    obtain ⟨hseq, hin⟩ := (hlate p).2 x hx
    exact ⟨fun hmem => hin ((hsub p).subset hmem), fun _ => by rw [hepoch, nextSequence, hseq], fun hn => absurd hconv hn⟩

/-! ### Every operation, and every step -/

/-- Both links stand, or epochs run. -/
def LinksStand (s t : State) : Prop := (∃ c, Runs c s) ∨ ∀ p, (t.port p).link = (s.port p).link

theorem LinksStand.of_ri {s t : State} (h : t.ri = s.ri) : LinksStand s t := .inr fun p => by rw [State.port, h]; rfl

/-- What an operation after an epoch makes of the clock. -/
inductive ClockStep (s : State) : State → Prop
  | stands {t : State} : SameConversions s t → LinksStand s t → ClockStep s t
  | stopped {t : State} : t.su.gen = .stopped → (∀ p, (t.port p).link = .down) → ClockStep s t
  | starts {u : State} (c : Settings) (k : Contacts) : (ModeSound s → s.su.gen = .stopped) → u.ri = s.ri → u.pt = s.pt →
      u.cs.inUse = some c → ClockStep s (startEpochs c k u)
  | completes {c : Settings} (ph : Phase) (ch : Channel) (raw : BitVec 16) : Runs c s → ClockStep s (completeOp c ph ch raw s)

theorem ClockStep.of_same {s t : State} (hsu : t.su = s.su) (hri : t.ri = s.ri) : ClockStep s t := .stands (.of_su hsu) (.of_ri hri)

theorem takeReset_stops (k : ResetKind) (s : State) : (takeReset k s).su.gen = .stopped ∧ ∀ p, ((takeReset k s).port p).link = .down := by
  have hri : (takeReset k s).ri = .reset s.ri.east.rx s.ri.west.rx := by simp [takeReset]
  refine ⟨by simp [takeReset, Sampling.reset], fun p => ?_⟩
  rw [State.port, hri]
  cases p <;> rfl

theorem lossRunning_stops (s : State) : (lossRunning s).su.gen = .stopped ∧ ∀ p, ((lossRunning s).port p).link = .down :=
  ⟨by rw [lossRunning_su]; rfl, fun p => by rw [lossRunning_port]; rfl⟩

theorem stopped_of_not_running {s : State} (h : s.su.gen ≠ .running) : s.su.gen = .stopped := by
  cases hg : s.su.gen with
  | running => exact absurd hg h
  | stopped => rfl

theorem takeReset_clock (k : ResetKind) (s u : State) : ClockStep s (takeReset k u) :=
  .stopped (takeReset_stops k u).1 (takeReset_stops k u).2

theorem cutResponse_clock {s u : State} (hsu : u.su = s.su) (hri : u.ri = s.ri) : ClockStep s (cutResponse u) :=
  cutResponse_pres (P := ClockStep s) (.of_same hsu hri) fun _ _ => takeReset_clock _ _ _

theorem move_clock {s t : State} (hm : Move s t) : ClockStep s t := by
  cases hm with
  | complete ph ch raw hr => exact .completes ph ch raw hr
  | converterFailure =>
    exact .stands (by unfold converterFailureOp; split <;> exact ⟨rfl, rfl, rfl, rfl, rfl⟩) (.of_ri (by simp))
  | converterRecovery =>
    exact .stands (by unfold converterRecoveryOp; split <;> exact ⟨rfl, rfl, rfl, rfl, rfl⟩) (.of_ri (by simp))
  | signal p present => exact .stands (.of_su rfl) (.inr fun p' => by cases p <;> cases p' <;> rfl)
  | probe p hr => exact .stands (.of_su (by simp)) (.inl ⟨_, hr⟩)
  | signalLost p hr => exact .stands (.of_su (by simp)) (.inl ⟨_, hr⟩)
  | echoDue p hr => exact .stands (.of_su (by simp)) (.inl ⟨_, hr⟩)
  | echoTimeout p hr => exact .stands (.of_su (by simp)) (.inl ⟨_, hr⟩)
  | receive p bytes hr => exact .stands (.of_su (by simp)) (.inl ⟨_, hr⟩)
  | transmissionEnd p hr => exact .stands (.of_su (by simp)) (.inl ⟨_, hr⟩)
  | confirm k =>
    exact confirmOp_pres (P := ClockStep s) (.of_same rfl rfl) (fun _ => .of_same rfl rfl)
      (fun _ _ => .of_same (by simp) (by simp)) (fun _ _ => .of_same rfl rfl) (fun _ _ _ _ _ => .of_same rfl rfl)
      fun r c _ hc _ hin => .starts c k (fun h => stopped_of_not_running fun hg => by simp [(h.running_clock hg).2] at hc) rfl rfl hin
  | loss =>
    refine referenceLossOp_pres (P := ClockStep s) (.of_same rfl rfl) (fun _ => .of_same rfl rfl)
      (fun _ => cutResponse_clock rfl rfl) (fun _ => cutResponse_clock rfl rfl) fun r _ => ?_
    obtain ⟨hgen, hdown⟩ := lossRunning_stops (s.updSc unconfirm)
    exact cutResponse_pres (P := ClockStep s) (.stopped hgen hdown) fun _ _ => takeReset_clock _ _ _
  | configCheck k =>
    exact configCheckOp_pres (P := ClockStep s) (.of_same rfl rfl)
      (fun c hst _ => .starts c k (fun h => stopped_of_not_running fun hg => by
        obtain ⟨⟨r, hr⟩, -⟩ := h.running_iff.1 hg
        rw [hst] at hr; cases hr) rfl rfl rfl)
      fun _ => .of_same rfl rfl
  | reset k => exact takeReset_clock k s s
  | responseEnd => exact cutResponse_clock rfl rfl
  | resetRequest => exact .of_same (by unfold resetAct; split <;> rfl) (by unfold resetAct; split <;> rfl)
  | takeRecord => exact .of_same rfl rfl
  | clearAlarms => exact .stands (.of_su rfl) (.inr fun p => by cases p <;> rfl)
  | clearCounters => exact .stands ⟨rfl, rfl, rfl, rfl, rfl⟩ (.inr fun p => by cases p <;> rfl)
  | _ => exact .of_same (by simp) (by simp)

theorem move_framesInOrder {s t : State} (hm : Move s t) (h : FramesSound s) : FramesInOrder t := by
  rcases move_ringStep hm with hstep | ⟨c, ph, ch, raw, hr, rfl⟩
  · cases move_clock hm with
    | completes ph ch raw hr => exact completeOp_frames hr h
    | starts c k hg hri => exact startEpochs_frames (hri ▸ h.ring) fun p => by rw [State.port, hri]; exact h.dark (hg h.mode) p
    | stopped hg _ => exact h.frames.step hstep (.inl hg)
    | stands hsame _ => exact h.frames.step hstep (.inr hsame)
  · exact completeOp_frames hr h

/-- While epochs are stopped an operation leaves both ports DOWN. -/
theorem move_dark {s t : State} (hm : Move s t) (hs : StopsDark s) : StopsDark t := by
  have hrunning : ∀ {u : State}, u.su.gen = .running → StopsDark u := fun hu hg => by rw [hu] at hg; cases hg
  cases move_clock hm with
  | completes ph ch raw hr =>
    exact hrunning ((completeOp_pres (P := fun u => u.su.gen = s.su.gen) rfl rfl
      fun u hu => (ownSampleEvent_clock _ u).1.trans hu).trans hr.1)
  | starts c k hg hri _ hin => exact hrunning (startEpochs_runs k hin).1
  | stopped hg hdown => exact fun _ => hdown
  | stands hsame hlinks =>
    rcases hlinks with ⟨c, hr⟩ | hlinks
    · exact hrunning (hsame.gen.trans hr.1)
    · exact fun hg p => (hlinks p).trans (hs (hsame.gen.symm.trans hg) p)

/-! ### The move of time -/

theorem settle_cases (s : State) : settle s = s ∨ ∃ c, Runs c s ∧ settle s = arbitrateBoth c s := by
  cases h : s.running with
  | none => exact .inl (by simp [settle, h])
  | some c => exact .inr ⟨c, runs_of_running h, settle_eq (runs_of_running h)⟩

/-- A move of time keeps what holds before it and after the arbiters' choice, whatever LT and the phase are. -/
theorem lead_cases {P : State → Prop} {s t : State} (hl : Lead s t) (hs : P s) (hsettled : ∀ c, Runs c s → P (arbitrateBoth c s))
    (hpass : ∀ n u, P u → P (passTicks n u)) : P t := by
  have hsettle : P (settle s) := by
    rcases settle_cases s with h | ⟨c, hr, h⟩ <;> rw [h]
    exacts [hs, hsettled c hr]
  cases hl with
  | stay => exact hs
  | settled => exact hsettle
  | later n _ _ _ => exact hpass n _ hsettle

theorem lead_ringSound {s t : State} (hl : Lead s t) (hs : RingSound s.ri) : RingSound t.ri := by
  refine lead_cases (P := fun s => RingSound s.ri) hl hs (fun c _ => ⟨fun p => ?_, ?_⟩) fun _ _ h => h
  · change PortSound ((arbitrateBoth c s).port p)
    rw [arbitrateBoth_port]
    exact arbitratePort_sound (hs.ports p)
  · have h := besidePorts_arbitrateBoth c s
    simp only [besidePorts, Ring.mk.injEq] at h
    rw [h.2.2.1, h.2.2.2.1]
    exact hs.quiet

theorem lead_dark {s t : State} (hl : Lead s t) (hs : StopsDark s) : StopsDark t :=
  lead_cases (P := StopsDark) hl hs
    (fun c hr hg => by rw [arbitrateBoth_su, hr.1] at hg; cases hg) fun _ _ h => h

theorem lead_frames {s t : State} (hl : Lead s t) (hf : FramesInOrder s) (hr : ListsRecent s) : FramesInOrder t ∧ ListsRecent t :=
  lead_cases (P := fun t => FramesInOrder t ∧ ListsRecent t) hl ⟨hf, hr⟩
    (fun c hc => settled_frames hc hf hr (fun p => arbitrateBoth_port c p s) (by simp) (by simp))
    fun n u h => ⟨⟨h.1.lists, h.1.listed, h.1.waiting⟩, h.2⟩

theorem epochParts_dark {c : Settings} {k : Contacts} {tcs : Bool} {o : EpochOrder} {s : State} (hr : Runs c s) :
    StopsDark (epochParts c k tcs o s) := fun hg => by
  obtain ⟨z, y, hz, hparts, hy, -⟩ := epochParts_su c k tcs o s
  have hrun : (epochParts c k tcs o s).su.gen = .running := by
    rw [hparts, startConversions_su, hy]
    exact (lateEvent_gen c z).trans (by rw [hz]; exact hr.1)
  rw [hrun] at hg
  cases hg

/-- Settles O58: the ports by the moves of time, the epoch and the operations that make a step; the own frames by the same, the premise
being used before the first own frame of the step departs. -/
theorem ringStaysSound : Obligations.RingStaysSound := by
  refine ⟨fun s t => step_keeps (P := fun s => RingSound s.ri) (fun _ _ h => h) (fun _ _ => lead_ringSound)
      (fun _ _ _ _ _ _ => epochParts_ringSound) fun _ _ => move_ringSound,
    fun s t => step_keeps (P := StopsDark) (fun _ _ h => h) (fun _ _ => lead_dark)
      (fun _ _ _ _ _ hr _ => epochParts_dark hr) fun _ _ => move_dark, fun s t hm hsu hring hdark hrecent hframes h => ?_⟩
  obtain ⟨rest, u, v, hl, hf, hmoves⟩ := step_reaches h
  have hq : ModeSound { s with pending := rest } := hm.same (sameMode_of rfl rfl rfl)
  obtain ⟨huf, hur⟩ := lead_frames hl (s := { s with pending := rest }) ⟨hframes.lists, hframes.listed, hframes.waiting⟩ hrecent
  have hu : FramesSound u :=
    ⟨(lead_sameMode hl).sound hq, lead_sampling hl (by exact hsu), lead_ringSound hl (by exact hring), lead_dark hl (by exact hdark), huf⟩
  have hv : FramesSound v := by
    cases hf with
    | none => exact hu
    | epoch k tcs o hr =>
      exact ⟨epochParts_modeSound hu.mode hr, epochParts_sampling hu.sampling, epochParts_ringSound hu.ring, epochParts_dark hr,
        epochParts_frames hr hu hur⟩
  exact (hmoves.keep (P := FramesSound) (fun a b hab ha =>
    ⟨move_modeSound hab ha.mode, move_sampling hab ha.sampling, move_ringSound hab ha.ring, move_dark hab ha.dark,
      move_framesInOrder hab ha⟩) hv).frames

end Sys2Proof.Machine

/-! PROOFS. What every operation keeps of an entry of the peer table (O59). -/
namespace Sys2Proof.Machine
open Sys2Proof

/-! ### One entry -/

/-- An entry becomes another without a new slot: sound if it was, never newly in CONFLICT where it is the own one, its history the same or
emptied. -/
structure EntryStep (own : Prop) (e e' : PeerEntry) : Prop where
  sound : EntrySound e → EntrySound e'
  conflict : own → e.presence ≠ .conflict → e'.presence ≠ .conflict
  history : own → e'.history = e.history ∨ e'.history = []

theorem EntryStep.refl (own : Prop) (e : PeerEntry) : EntryStep own e e := ⟨id, fun _ => id, fun _ => .inl rfl⟩

theorem EntryStep.trans {own : Prop} {e f g : PeerEntry} (h : EntryStep own e f) (h' : EntryStep own f g) : EntryStep own e g :=
  ⟨h'.sound ∘ h.sound, fun ho => h'.conflict ho ∘ h.conflict ho, fun ho => by
    rcases h'.history ho with h1 | h1
    · exact h1 ▸ h.history ho
    · exact .inr h1⟩

theorem EntryStep.mono {own own' : Prop} {e f : PeerEntry} (h : EntryStep own e f) (ho : own' → own) : EntryStep own' e f :=
  ⟨h.sound, fun h' => h.conflict (ho h'), fun h' => h.history (ho h')⟩

theorem resetEntry_sound : EntrySound .reset :=
  ⟨by decide, .nil, by decide, fun _ => ⟨rfl, rfl, rfl, rfl⟩, nofun, ⟨nofun, nofun⟩, nofun⟩

section
variable {own : Prop} {e : PeerEntry}

theorem entryStep_fresh : EntryStep own e { e with fresh := upTo 4095 e.fresh } :=
  ⟨fun h => ⟨⟨min_le_right _ _, h.ranges.2⟩, h.ordered, h.counters, h.absent, h.inConflict, h.detail, h.live⟩, fun _ => id,
    fun _ => .inl rfl⟩

theorem entryStep_joining (hp : e.presence = .joining) : EntryStep own e { e with joinRun := 0 } :=
  ⟨fun h => ⟨⟨h.ranges.1, Nat.zero_le _, h.ranges.2.2⟩, h.ordered, h.counters, fun ha => by simp [hp] at ha,
    fun hc => by simp [hp] at hc, h.detail, h.live⟩, fun _ => id, fun _ => .inl rfl⟩

theorem counters_of {a b c d f a' b' c' d' f' : Nat} (h : ∀ n ∈ [a, b, c, d, f], n ≤ 65535)
    (ha : a' = a ∨ a' = bump a) (hb : b' = b ∨ b' = bump b)
    (hc : c' = c ∨ c' = bump c) (hd : d' = d ∨ d' = bump d) (hf : f' = f ∨ f' = bump f) : ∀ n ∈ [a', b', c', d', f'], n ≤ 65535 := by
  have hle : ∀ {x x' : Nat}, x ≤ 65535 → x' = x ∨ x' = bump x → x' ≤ 65535 := fun hx h => by
    rcases h with rfl | rfl
    exacts [hx, bump_le _]
  simp only [List.forall_mem_cons] at h ⊢
  exact ⟨hle h.1 ha, hle h.2.1 hb, hle h.2.2.1 hc, hle h.2.2.2.1 hd, hle h.2.2.2.2.1 hf, h.2.2.2.2.2⟩

theorem entryStep_stale (hp : e.presence = .live) : EntryStep own e (staleEntry e) :=
  ⟨fun h => ⟨h.ranges, h.ordered, counters_of h.counters (.inl rfl) (.inl rfl) (.inl rfl) (.inl rfl) (.inr rfl), nofun, nofun,
    ⟨fun hd => by simpa [hp] using h.detail.1 hd, nofun⟩, nofun⟩, fun _ _ => by simp [staleEntry], fun _ => .inl rfl⟩

theorem entryStep_absent (hp : e.presence = .stale ∨ e.presence = .joining) : EntryStep own e (absentEntry e) :=
  ⟨fun h => ⟨⟨h.ranges.1, Nat.zero_le _, Nat.zero_le _⟩, .nil, h.counters, fun _ => ⟨rfl, rfl, rfl, rfl⟩, nofun,
    ⟨fun hd => by have := h.detail.1 hd; rcases hp with hp | hp <;> simp [hp] at this, nofun⟩, nofun⟩,
    fun _ _ => by simp [absentEntry], fun _ => .inr rfl⟩

/-- The counters of frames that are not taken. -/
theorem entryStep_counted {d o k : Nat} (hd : d = e.duplicates ∨ d = bump e.duplicates) (ho : o = e.orders ∨ o = bump e.orders)
    (hk : k = e.conflicts ∨ k = bump e.conflicts) : EntryStep own e { e with duplicates := d, orders := o, conflicts := k } :=
  ⟨fun h => ⟨h.ranges, h.ordered, counters_of h.counters (.inl rfl) hd ho hk (.inl rfl), h.absent, h.inConflict, h.detail, h.live⟩,
    fun _ => id, fun _ => .inl rfl⟩

theorem entryStep_conflict (why : Misfit) (f : BayFrame) (k : EpochNo) (p : Port) (hown : ¬ own) :
    EntryStep own e (conflictEntry why f k p e) :=
  ⟨fun h => ⟨⟨h.ranges.1, Nat.zero_le _, Nat.zero_le _⟩, .nil,
    counters_of h.counters (.inl rfl) (.inl rfl) (.inl rfl) (.inr rfl) (.inl rfl), nofun,
    fun _ => ⟨rfl, rfl, rfl, rfl, rfl⟩, ⟨fun _ => rfl, fun _ => rfl⟩, nofun⟩, fun ho => absurd ho hown, fun ho => absurd ho hown⟩

theorem entryStep_restart : EntryStep own e (restartEntry e) := by
  unfold restartEntry
  split
  · exact .refl own e
  next hp =>
    exact ⟨fun h => ⟨⟨le_refl _, Nat.zero_le _, Nat.zero_le _⟩, .nil, h.counters, fun _ => ⟨rfl, rfl, rfl, rfl⟩, nofun,
      ⟨fun hd => absurd (h.detail.1 hd) hp, nofun⟩, nofun⟩, fun _ _ => by simp, fun _ => .inr rfl⟩

theorem entryStep_identity (t : Option Nat) (d : Option Decl) : EntryStep own e { e with tag := t, decl := d } :=
  ⟨fun h => ⟨h.ranges, h.ordered, h.counters, h.absent, h.inConflict, h.detail, h.live⟩, fun _ => id, fun _ => .inl rfl⟩

theorem entryStep_zero : EntryStep own e (zeroEntry e) :=
  ⟨fun h => ⟨h.ranges, h.ordered, by simp [zeroEntry], h.absent, h.inConflict, h.detail, h.live⟩, fun _ => id, fun _ => .inl rfl⟩

theorem entryStep_cleared (hp : e.presence = .conflict) : EntryStep own e (clearedEntry e) :=
  ⟨fun h => by
    obtain ⟨hh, hl, hj, hb, -⟩ := h.inConflict hp
    exact ⟨⟨le_refl _, Nat.zero_le _, h.ranges.2.2⟩, h.ordered, h.counters, fun _ => ⟨hh, hl, rfl, hb⟩, nofun, ⟨nofun, nofun⟩, nofun⟩,
    fun _ h => absurd hp h, fun _ => .inl rfl⟩

/-- The presence after an acceptance is neither ABSENT nor, from another, CONFLICT, and the joining run keeps its range (R72). -/
theorem acceptPresence_sound {p : Presence} {n : Nat} (hp : p ≠ .conflict) (hn : n ≤ 32) :
    (acceptPresence p n).1 ≠ .absent ∧ (acceptPresence p n).1 ≠ .conflict ∧ (acceptPresence p n).2 ≤ 32 := by
  cases p
  case conflict => exact absurd rfl hp
  case joining =>
    refine ⟨?_, ?_, min_le_right _ _⟩ <;> simp only [acceptPresence] <;> split <;> simp
  all_goals simp [acceptPresence, hn]

theorem joinHistory_length {h : List Slot} (x : Slot) (hl : h.length ≤ 32) : (joinHistory x h).length ≤ 32 := by
  unfold joinHistory
  split <;> simp <;> omega

theorem joinHistory_last (x : Slot) (h : List Slot) : (joinHistory x h).getLast? = some x := by
  unfold joinHistory
  simp

theorem joinHistory_ordered {h : List Slot} {x : Slot} (ho : h.IsChain fun x y => 0 < (y.instant - x.instant).toInt)
    (hx : ∀ y, h.getLast? = some y → 0 < (x.instant - y.instant).toInt) :
    (joinHistory x h).IsChain fun x y => 0 < (y.instant - x.instant).toInt := by
  unfold joinHistory
  refine List.isChain_append.2 ⟨?_, .singleton _, fun y hy z hz => ?_⟩
  · split
    · exact ho.drop 1
    · exact ho
  · obtain rfl : x = z := by simpa using hz
    refine hx y ?_
    split at hy
    · rw [Option.mem_def, List.getLast?_drop] at hy
      split at hy
      · cases hy
      · exact hy
    · exact hy

/-- An entry that accepts a slot (R70 to R72, R76). -/
theorem acceptedEntry_sound {e' : PeerEntry} {x : Slot} (h : EntrySound e) (hp : e.presence ≠ .conflict)
    (hx : ∀ y, e.history.getLast? = some y → 0 < (x.instant - y.instant).toInt)
    (hpres : (e'.presence, e'.joinRun) = acceptPresence e.presence e.joinRun) (hhist : e'.history = joinHistory x e.history)
    (hfresh : e'.fresh = 0) (hlast : e'.lastSeq.isSome = true) (hconf : e'.conflict = e.conflict)
    (hctr : [e'.accepted, e'.duplicates, e'.orders, e'.conflicts, e'.stales] =
      [bump e.accepted, e.duplicates, e.orders, e.conflicts, e.stales]) : EntrySound e' := by
  obtain ⟨ha, hc, hj⟩ := acceptPresence_sound hp h.ranges.2.1
  rw [← hpres] at ha hc hj
  refine ⟨⟨by simp [hfresh], hj, hhist ▸ joinHistory_length x h.ranges.2.2⟩, hhist ▸ joinHistory_ordered h.ordered hx,
    hctr ▸ counters_of h.counters (.inr rfl) (.inl rfl) (.inl rfl) (.inl rfl) (.inl rfl), fun hn => absurd hn ha,
    fun hn => absurd hn hc, ⟨fun hd => absurd (h.detail.1 (hconf ▸ hd)) hp, fun hn => absurd hn hc⟩, fun _ => hlast⟩

/-- The own entry at an own sample record (R76). -/
theorem feedEntry_sound {c : Settings} {x : Record} {r : RunState} (h : EntrySound e) (hp : e.presence ≠ .conflict)
    (hx : ∀ y, e.history.getLast? = some y → 0 < (x.instant - y.instant).toInt) : EntrySound (feedEntry c x r e) :=
  acceptedEntry_sound (x := ⟨x.epoch.setWidth 16, x.instant, x.cur, x.val, x.replica, r⟩) h hp hx rfl rfl rfl rfl rfl rfl

/-- A peer entry that accepts a frame (R70). -/
theorem acceptEntry_sound {f : BayFrame} {t : Ticks} {p : Port} (h : EntrySound e) (hp : e.presence ≠ .conflict)
    (hx : instantPasses e t = true) : EntrySound (acceptEntry f t p e) := by
  refine acceptedEntry_sound (x := frameSlot f t) h hp (fun y hy => ?_) rfl rfl rfl rfl rfl rfl
  rw [instantPasses, hy] at hx
  exact of_decide_eq_true hx

/-- What the peer table makes of an entry for which a frame is delivered (R64 to R70, R75). -/
def takenEntry (present : SectSet) (f : BayFrame) (t : Ticks) (p : Port) (k : EpochNo) (e : PeerEntry) : PeerEntry :=
  match judgeFrame present e f t with
  | .inConflict => { e with conflicts := bump e.conflicts }
  | .conflict why => conflictEntry why f k p e
  | .duplicate => { e with duplicates := bump e.duplicates }
  | .outOfOrder => { e with orders := bump e.orders }
  | .accepted => acceptEntry f t p e

theorem takeFrame_pt (c : Settings) (b : Bay) (f : BayFrame) (t : Ticks) (p : Port) (s : State) :
    (takeFrame c b f t p s).pt = (s.setEntry b (takenEntry c.present f t p s.su.epoch (s.entry b))).pt := by
  unfold takeFrame takenEntry
  dsimp only
  cases judgeFrame c.present (s.entry b) f t
  case accepted =>
    dsimp only
    split
    · rfl
    · simp
  all_goals rfl

/-- A frame that the peer table takes for a bay other than the own one (R64). -/
theorem takenEntry_step {present : SectSet} {f : BayFrame} {t : Ticks} {p : Port} {k : EpochNo} (hown : ¬ own) :
    EntryStep own e (takenEntry present f t p k e) := by
  unfold takenEntry
  cases hj : judgeFrame present e f t
  case inConflict => exact entryStep_counted (.inl rfl) (.inl rfl) (.inr rfl)
  case conflict why => exact entryStep_conflict why f k p hown
  case duplicate => exact entryStep_counted (.inr rfl) (.inl rfl) (.inl rfl)
  case outOfOrder => exact entryStep_counted (.inl rfl) (.inr rfl) (.inl rfl)
  case accepted =>
    refine ⟨fun hs => ?_, fun ho => absurd ho hown, fun ho => absurd ho hown⟩
    unfold judgeFrame at hj
    split at hj
    · cases hj
    next hp =>
      split at hj
      · cases hj
      · split at hj
        · cases hj
        · split at hj
          · cases hj
          next hpass => exact acceptEntry_sound hs hp (by simpa using hpass)

end
end Sys2Proof.Machine

/-! PROOFS. The peer table stays sound, its histories in order (O59). -/
namespace Sys2Proof.Machine
open Sys2Proof

/-! ### The table by its entries -/

/-- The own bay, or any while no configuration is in use. -/
def Own (s : State) (b : Bay) : Prop := ∀ c, s.cs.inUse = some c → b = c.bay

theorem peersSound_iff {s : State} : PeersSound s.pt ↔ s.pt.entries.length = 24 ∧ ∀ b, EntrySound (s.entry b) := by
  refine ⟨fun h => ⟨h.size, fun b => ?_⟩, fun ⟨hsize, h⟩ => ⟨hsize, fun e he => ?_⟩⟩
  · have hb : b.val < s.pt.entries.length := by rw [h.size]; exact b.2
    have hentry : s.entry b = s.pt.entries[b.val] := by simp [State.entry, Peers.entry, hb]
    rw [hentry]
    exact h.entries _ (List.getElem_mem hb)
  · obtain ⟨i, hi, rfl⟩ := List.getElem_of_mem he
    have hentry : s.entry ⟨i, hsize ▸ hi⟩ = s.pt.entries[i] := by simp [State.entry, Peers.entry, hi]
    exact hentry ▸ h _

/-- Every entry of the table steps, the own bays being given. -/
structure PeersStep (own : Bay → Prop) (s t : State) : Prop where
  size : t.pt.entries.length = s.pt.entries.length
  entries : ∀ b, EntryStep (own b) (s.entry b) (t.entry b)

section
variable {own : Bay → Prop} {s t u : State}

theorem PeersStep.refl (s : State) : PeersStep own s s := ⟨rfl, fun _ => .refl _ _⟩

theorem PeersStep.of_pt (h : t.pt = s.pt) : PeersStep own s t :=
  ⟨by rw [h], fun b => by rw [show t.entry b = s.entry b by rw [State.entry, h]; rfl]; exact .refl _ _⟩

theorem PeersStep.trans (h : PeersStep own s t) (h' : PeersStep own t u) : PeersStep own s u :=
  ⟨h'.size.trans h.size, fun b => (h.entries b).trans (h'.entries b)⟩

theorem PeersStep.of_same (h : PeersStep own u t) (hu : u.pt = s.pt) : PeersStep own s t := (PeersStep.of_pt hu).trans h

theorem PeersStep.sound (h : PeersStep own s t) (hs : PeersSound s.pt) : PeersSound t.pt := by
  rw [peersSound_iff] at hs ⊢
  exact ⟨h.size.trans hs.1, fun b => (h.entries b).sound (hs.2 b)⟩

theorem PeersStep.setEntry {b : Bay} {e : PeerEntry} (h : EntryStep (own b) (s.entry b) e) : PeersStep own s (s.setEntry b e) :=
  ⟨setEntry_length s b e, setEntry_entries (P := fun b e => EntryStep (own b) (s.entry b) e) (fun _ => .refl _ _) h⟩

theorem peerStaleOp_step (c : Settings) (b : Bay) : PeersStep own s (peerStaleOp c b s) := by
  unfold peerStaleOp
  dsimp only
  split
  next h => exact (PeersStep.setEntry (entryStep_stale h.2.1)).trans (.of_pt (by simp))
  next => exact .refl s

theorem peerAbsentOp_step (c : Settings) (b : Bay) : PeersStep own s (peerAbsentOp c b s) := by
  unfold peerAbsentOp
  dsimp only
  split
  next h => exact .setEntry (entryStep_absent h.2.1)
  next => exact .refl s

theorem joiningResetOp_step (c : Settings) (b : Bay) : PeersStep own s (joiningResetOp c b s) := by
  unfold joiningResetOp
  dsimp only
  split
  next h => exact .setEntry (entryStep_joining h.2.1)
  next => exact .refl s

theorem ageEntry_step (c : Settings) (b : Bay) : PeersStep own s (ageEntry c b s) :=
  (PeersStep.setEntry entryStep_fresh).trans
    ((joiningResetOp_step c b).trans ((peerStaleOp_step c b).trans (peerAbsentOp_step c b)))

theorem peerEpoch_step (c : Settings) : PeersStep own s (peerEpoch c s) :=
  peerEpoch_pres (P := PeersStep own s) (fun b _ h => h.trans (ageEntry_step c b)) (.refl s)

theorem startEpochs_peers (c : Settings) (k : Contacts) : PeersStep own s (startEpochs c k s) := by
  have hstart : PeersStep own s (startBlocks c k s) :=
    ⟨by rw [startBlocks_pt]; exact (setEntry_length _ _ _).trans (by simp), fun b => by
      rw [show (startBlocks c k s).entry b = (peerRestart c s).entry b by rw [State.entry, startBlocks_pt]; rfl]
      exact peerRestart_entries (P := fun b e => EntryStep (own b) (s.entry b) e) (fun _ => entryStep_restart)
        (fun _ h => h.trans (entryStep_identity _ _)) b⟩
  refine (hstart.trans (peerEpoch_step c)).trans (.of_pt ?_)
  rw [startEpochs_eq]
  simp [startConversions, quietEpoch]

theorem installedSource_number {c : Settings} {n : Nat} {b : Bay} (h : installedSource c n = some b) : bayNumber b = n := by
  unfold installedSource bayOf at h
  split at h
  next b' hb' =>
    split at hb'
    next hn =>
      split at h
      · obtain rfl := Option.some.inj h
        obtain rfl := Option.some.inj hb'
        simp only [bayNumber]
        omega
      · cases h
    next => cases hb'
  next => cases h

/-- A bay frame of another bay touches no own entry (R44, R52). -/
theorem takeBay_peers {c : Settings} {p : Port} {f : BayFrame} {a : Ticks} (hr : Runs c s) :
    PeersStep (Own s) s (takeBay c p f a s) := by
  unfold takeBay
  dsimp only
  split
  · split <;> exact .of_pt (by simp)
  next hsource =>
    split
    · exact .of_pt (by simp)
    · unfold deliver
      split
      · exact .of_pt (by simp)
      · split
        next b hb =>
          have hne : ¬ Own s b := fun ho => hsource (by rw [← ho c hr.2]; exact (installedSource_number hb).symm)
          refine PeersStep.trans (.of_pt (by simp)) (.trans (.setEntry (takenEntry_step ?_)) (.of_pt (takeFrame_pt _ _ _ _ _ _)))
          exact hne
        · exact .of_pt (by simp [raise])

end
end Sys2Proof.Machine

/-! PROOFS. Every step keeps the peer table (O59). -/
namespace Sys2Proof.Machine
open Sys2Proof

/-- What the peer table rests on. -/
structure TableSound (s : State) : Prop where
  mode : ModeSound s
  sampling : SamplingSound s.su
  peers : PeersSound s.pt
  own : OwnNotInConflict s
  order : OwnInOrder s

/-! ### The operations but for the own sample event -/

theorem takeReset_entries (k : ResetKind) (s : State) (b : Bay) : (takeReset k s).entry b = .reset := by
  have hpt : (takeReset k s).pt = .reset := by simp [takeReset]
  rw [State.entry, hpt, Peers.entry, Peers.reset, List.getElem?_replicate]
  split <;> rfl

theorem takeReset_peers {own : Bay → Prop} {s : State} (k : ResetKind) (hs : s.pt.entries.length = 24) :
    PeersStep own s (takeReset k s) := by
  have hpt : (takeReset k s).pt = .reset := by simp [takeReset]
  refine ⟨by rw [hpt, hs]; rfl, fun b => ?_⟩
  rw [takeReset_entries]
  exact ⟨fun _ => resetEntry_sound, fun _ _ => by decide, fun _ => .inr rfl⟩

theorem cutResponse_peers {own : Bay → Prop} {s u : State} (hs : s.pt.entries.length = 24) (h : u.pt = s.pt) :
    PeersStep own s (cutResponse u) :=
  cutResponse_pres (P := PeersStep own s) (.of_pt h) fun _ hv => hv.trans (takeReset_peers _ (hv.size.trans hs))

theorem move_peers {s t : State} (hm : Move s t) (hs : s.pt.entries.length = 24) :
    PeersStep (Own s) s t ∨ ∃ c ph ch raw, Runs c s ∧ t = completeOp c ph ch raw s := by
  cases hm with
  | complete ph ch raw hr => exact .inr ⟨_, ph, ch, raw, hr, rfl⟩
  | receive p bytes hr =>
    exact .inl (receiveFrame_pres (P := PeersStep (Own s) s) (.refl s) (fun _ _ _ h => h.trans (.of_pt rfl)) (fun _ _ => .of_pt rfl)
      (fun _ _ _ => .of_pt (by simp)) fun _ _ _ => takeBay_peers hr)
  | peerStale b _ => exact .inl (peerStaleOp_step _ b)
  | peerAbsent b _ => exact .inl (peerAbsentOp_step _ b)
  | joiningReset b _ => exact .inl (joiningResetOp_step _ b)
  | confirm k =>
    exact .inl (confirmOp_pres (P := PeersStep (Own s) s) (.refl s) (fun _ => .of_pt rfl) (fun _ _ => .of_pt (by simp))
      (fun _ _ => .of_pt rfl) (fun _ _ _ _ _ => .of_pt rfl) fun _ c _ _ _ _ => (startEpochs_peers c k).of_same rfl)
  | loss =>
    refine .inl (referenceLossOp_pres (P := PeersStep (Own s) s) (.refl s) (fun _ => .of_pt rfl)
      (fun _ => cutResponse_peers hs rfl) (fun _ => cutResponse_peers hs rfl) fun _ _ => cutResponse_peers hs ?_)
    exact (lossRunning_rest _).2.1
  | configCheck k =>
    exact .inl (configCheckOp_pres (P := PeersStep (Own s) s) (.refl s) (fun c _ _ => (startEpochs_peers c k).of_same rfl)
      fun _ => .of_pt rfl)
  | reset k => exact .inl (takeReset_peers k hs)
  | responseEnd => exact .inl (cutResponse_peers hs rfl)
  | resetRequest => exact .inl (.of_pt (by unfold resetAct; split <;> rfl))
  | clearPeer b hb => exact .inl (.setEntry (entryStep_cleared hb))
  | clearCounters =>
    refine .inl ⟨by simp [clearCountersAct, respond], fun b => ?_⟩
    have hentry : (clearCountersAct s).entry b = zeroEntry (s.entry b) := by
      simp only [State.entry, Peers.entry, clearCountersAct, respond, State.updMp_pt, List.getElem?_map]
      cases s.pt.entries[b.val]? <;> rfl
    rw [hentry]
    exact entryStep_zero
  | takeRecord => exact .inl (.of_pt rfl)
  | clearAlarms => exact .inl (.of_pt rfl)
  | _ => exact .inl (.of_pt (by simp))

/-- The in-use copy at an operation. -/
inductive CopyStep (s t : State) : Prop
  | stays : t.cs.inUse = s.cs.inUse → CopyStep s t
  | cleared : t.su.gen = .stopped → (∀ b, t.entry b = .reset) → CopyStep s t
  | first : t.su.gen = .running → (ModeSound s → s.cs.inUse = none ∧ s.su.gen = .stopped) → CopyStep s t

theorem takeReset_copy (k : ResetKind) (s u : State) : CopyStep s (takeReset k u) :=
  .cleared (takeReset_stops k u).1 (takeReset_entries k u)

theorem cutResponse_copy {s u : State} (h : u.cs.inUse = s.cs.inUse) : CopyStep s (cutResponse u) :=
  cutResponse_pres (P := CopyStep s) (.stays h) fun _ _ => takeReset_copy _ _ _

theorem move_copy {s t : State} (hm : Move s t) : CopyStep s t := by
  cases hm with
  | confirm k =>
    exact confirmOp_pres (P := CopyStep s) (.stays rfl) (fun _ => .stays rfl) (fun _ _ => .stays (by simp))
      (fun _ _ => .stays rfl) (fun _ _ _ _ _ => .stays rfl) fun _ c _ _ _ _ => .stays (by simp)
  | loss =>
    exact referenceLossOp_pres (P := CopyStep s) (.stays rfl) (fun _ => .stays rfl)
      (fun _ => cutResponse_copy rfl) (fun _ => cutResponse_copy rfl) fun _ _ => cutResponse_copy (by rw [(lossRunning_kept _).1]; rfl)
  | configCheck k =>
    refine configCheckOp_pres (P := CopyStep s) (.stays rfl)
      (fun c hst _ => .first (startEpochs_runs k rfl).1 fun h => ⟨?_, ?_⟩) fun _ => .stays rfl
    · cases hin : s.cs.inUse with
      | none => rfl
      | some x =>
        obtain ⟨r, hr⟩ := h.copy_iff.1 (by rw [hin]; rfl)
        rw [hst] at hr; cases hr
    · refine stopped_of_not_running fun hg => ?_
      obtain ⟨⟨r, hr⟩, -⟩ := h.running_iff.1 hg
      rw [hst] at hr; cases hr
  | reset k => exact takeReset_copy k s s
  | responseEnd => exact cutResponse_copy rfl
  | resetRequest => exact .stays (by unfold resetAct; split <;> rfl)
  | takeRecord => exact .stays rfl
  | clearAlarms => exact .stays rfl
  | clearCounters => exact .stays rfl
  | commitDone l => exact .stays (by unfold commitDoneOp; split <;> rfl)
  | stage offset data h => exact .stays rfl
  | commit => exact .stays rfl
  | _ => exact .stays (by simp)

/-! ### The own entry -/

/-- The instant of the present epoch. -/
theorem epoch_instant {u : Sampling} (h : SamplingSound u) : u.lt - BitVec.ofNat 32 u.phase = u.epoch * 10000 := by
  rw [h.time, add_sub_cancel_right]

/-- What an operation that places no own sample makes of the own entry. -/
theorem PeersStep.own {s t : State} (h : PeersStep (Own s) s t) (hs : TableSound s) (hcopy : CopyStep s t) : OwnNotInConflict t := by
  have hkept : ∀ b, Own s b → (t.entry b).presence ≠ .conflict := fun b hb => (h.entries b).conflict hb (hs.own b hb)
  cases hcopy with
  | stays hin => exact fun b hb => hkept b (fun c hc => hb c (hin ▸ hc))
  | cleared _ hreset => exact fun b _ => by rw [hreset]; decide
  | first _ hnone => exact fun b _ => hkept b fun c hc => by rw [(hnone hs.mode).1] at hc; cases hc

theorem PeersStep.order {s t : State} (h : PeersStep (Own s) s t) (hs : TableSound s)
    (hsame : SameConversions s t) (hcopy : CopyStep s t) : OwnInOrder t := fun c x hr hx => by
  cases hcopy with
  | cleared hg _ => exact absurd hr.1 (by simp [hg])
  | first hg hnone =>
    have := (hnone hs.mode).2
    rw [← hsame.gen, hg] at this
    cases this
  | stays hin =>
    have hrs : Runs c s := ⟨hsame.gen ▸ hr.1, hin ▸ hr.2⟩
    have hown : Own s c.bay := fun c' hc' => by rw [hrs.2] at hc'; rw [Option.some.inj hc']
    rcases (h.entries c.bay).history hown with hh | hh <;> rw [hh] at hx
    · dsimp only
      rw [hsame.converting, hsame.lt, hsame.phase]
      exact hs.order c x hrs hx
    · cases hx

/-- The own entry at an own sample event (R76). -/
theorem ownSampleEvent_own {c : Settings} {s : State} {f : Flight} (hf : s.su.flight = some f) (hsize : s.pt.entries.length = 24) :
    (ownSampleEvent c s).pt.entries.length = 24 ∧
      (ownSampleEvent c s).entry c.bay = feedEntry c (makeRecord c f s.su.chans) f.declared (s.entry c.bay) := by
  have hpt : (ownSampleEvent c s).pt = (feedOwn c (makeRecord c f s.su.chans) f.declared
      (takeRecordSu (makeRecord c f s.su.chans) s)).pt := by
    simp only [ownSampleEvent, hf]
    simp [evaluateInstant]
  have hsame : (takeRecordSu (makeRecord c f s.su.chans) s).pt = s.pt := by simp
  rw [State.entry, hpt]
  refine ⟨(setEntry_length _ _ _).trans (by rw [hsame, hsize]), (setEntry_entry _ _ _ (by rw [hsame, hsize])).trans ?_⟩
  rw [State.entry, hsame]
  rfl

/-- An own sample whose instant is that of the epoch after the newest slot's joins the own history. -/
theorem ownSampleEvent_table {c : Settings} {s : State} {f : Flight} (hf : s.su.flight = some f) (hp : PeersSound s.pt)
    (hc : (s.entry c.bay).presence ≠ .conflict)
    (hlast : ∀ y, (s.entry c.bay).history.getLast? = some y → y.instant = f.instant - 10000) :
    PeersSound (ownSampleEvent c s).pt ∧ ((ownSampleEvent c s).entry c.bay).presence ≠ .conflict ∧
      ∀ x, ((ownSampleEvent c s).entry c.bay).history.getLast? = some x → x.instant = f.instant := by
  obtain ⟨hsize, hown⟩ := ownSampleEvent_own (c := c) hf hp.size
  rw [peersSound_iff] at hp ⊢
  have hsound := hp.2 c.bay
  refine ⟨⟨hsize, fun b => ?_⟩, ?_, fun x hx => ?_⟩
  · by_cases hb : b = c.bay
    · rw [hb, hown]
      refine feedEntry_sound hsound hc fun y hy => ?_
      rw [hlast y hy, makeRecord, sub_sub_cancel]
      decide
    · rw [(ownSampleEvent_peers c s).1 b hb]
      exact hp.2 b
  · rw [hown]
    exact (acceptPresence_sound hc hsound.ranges.2.1).2.1
  · rw [hown, feedEntry, joinHistory_last] at hx
    exact Option.some.inj hx ▸ rfl

theorem ownNotInConflict_of {s : State} {c : Settings} (hin : s.cs.inUse = some c) (h : (s.entry c.bay).presence ≠ .conflict) :
    OwnNotInConflict s := fun b hb => by rw [hb c hin]; exact h

theorem own_of_runs {c : Settings} {s : State} (h : Runs c s) : Own s c.bay := fun c' hc' => by rw [h.2] at hc'; rw [Option.some.inj hc']

theorem completeOp_table {c : Settings} {ph : Phase} {ch : Channel} {raw : BitVec 16} {s : State} (hr : Runs c s) (h : TableSound s) :
    PeersSound (completeOp c ph ch raw s).pt ∧ OwnNotInConflict (completeOp c ph ch raw s) ∧ OwnInOrder (completeOp c ph ch raw s) := by
  unfold completeOp
  split
  next hch =>
    have hconv : Converting s := converting_of_channel hch
    obtain ⟨hidle, f, hf, -, hfi⟩ := h.sampling.flight hr.1
    have hstands := allDone_iff_stands (complete_ne_idle (ph := ph) (ch := ch) (r := readRaw raw) hidle)
    have hown := own_of_runs hr
    have hlast : ∀ y, (s.entry c.bay).history.getLast? = some y → y.instant = f.instant - 10000 := fun y hy => by
      rw [hfi]; exact (h.order c y hr hy).1 hconv
    dsimp only
    generalize hu : (s.updSu fun u => { u with chans := u.chans.upd (ChanPair.complete ch (readRaw raw)) ph }) = u
    obtain ⟨hclock, hpt, hcs⟩ : (u.su.lt = s.su.lt ∧ u.su.phase = s.su.phase ∧ u.su.gen = s.su.gen ∧ u.su.flight = s.su.flight) ∧
        u.pt = s.pt ∧ u.cs = s.cs := by
      rw [← hu]; exact ⟨⟨rfl, rfl, rfl, rfl⟩, rfl, rfl⟩
    obtain ⟨hlt, hphase, hgen, hflight⟩ := hclock
    have hentry : u.entry = s.entry := funext fun b => by rw [State.entry, hpt]; rfl
    rw [show s.su.chans.upd (ChanPair.complete ch (readRaw raw)) ph = u.su.chans by rw [← hu]; rfl] at hstands
    split
    next hall =>
      obtain ⟨hsound, hnot, hnew⟩ := ownSampleEvent_table (c := c) (hflight.trans hf) (hpt ▸ h.peers)
        (by rw [hentry]; exact h.own _ hown) (by rw [hentry]; exact hlast)
      have hin : (ownSampleEvent c u).cs.inUse = some c := by rw [ownSampleEvent_cs, hcs, hr.2]
      refine ⟨hsound, ownNotInConflict_of hin hnot, fun c' x hr' hx => ?_⟩
      obtain rfl : c' = c := Option.some.inj (hr'.2.symm.trans hin)
      have hstill : ¬ Converting (ownSampleEvent c' u) := by
        rw [Converting, ownSampleEvent_chans]
        exact hstands.1 hall
      refine ⟨fun hc => absurd hc hstill, fun _ => ?_⟩
      rw [hnew x hx, hfi, ownSampleEvent_lt, ownSampleEvent_phase, hlt, hphase]
    next hall =>
      have hstill : Converting u := not_not.1 fun hn => hall (hstands.2 hn)
      refine ⟨hpt ▸ h.peers, ownNotInConflict_of (by rw [hcs, hr.2]) (by rw [hentry]; exact h.own _ hown), fun c' x hr' hx => ?_⟩
      have hrs : Runs c' s := ⟨hr.1, hcs ▸ hr'.2⟩
      refine ⟨fun _ => ?_, fun hn => absurd hstill hn⟩
      rw [hentry] at hx
      rw [hlt, hphase]
      exact (h.order c' x hrs hx).1 hconv
  next => exact ⟨h.peers, h.own, h.order⟩

theorem epochParts_table {c : Settings} {k : Contacts} {tcs : Bool} {o : EpochOrder} {s : State} (hr : Runs c s) (h : TableSound s) :
    PeersSound (epochParts c k tcs o s).pt ∧ OwnNotInConflict (epochParts c k tcs o s) ∧ OwnInOrder (epochParts c k tcs o s) := by
  obtain ⟨v, hv, hchans, hflight, ht⟩ := epochParts_around (R := PeersStep (Own s)) (c := c) (k := k) (tcs := tcs) (o := o) (s := s)
    .refl .trans (.of_pt (by simp [clockEpoch])) (fun _ => .of_pt (by simp)) (fun _ => peerEpoch_step c)
    (fun _ => .of_pt (by simp)) (fun _ _ => .of_pt (by simp)) fun _ => .of_pt rfl
  obtain ⟨-, f, hf, hfe, hfi⟩ := h.sampling.flight hr.1
  obtain ⟨z, y, hz, hparts, hy, -⟩ := epochParts_su c k tcs o s
  have hown := own_of_runs hr
  have hin : (epochParts c k tcs o s).cs.inUse = some c := by simpa using hr.2
  have hconv : Converting (epochParts c k tcs o s) := ⟨.l1, .a, rfl⟩
  have hvhist : ∀ x, (v.entry c.bay).history.getLast? = some x → (s.entry c.bay).history.getLast? = some x := fun x hx => by
    rcases (hv.entries c.bay).history hown with hh | hh <;> rw [hh] at hx
    exacts [hx, by cases hx]
  have hvnot := (hv.entries c.bay).conflict hown (h.own _ hown)
  have hlate : PeersSound (lateEvent c v).pt ∧ ((lateEvent c v).entry c.bay).presence ≠ .conflict ∧
      ∀ x, ((lateEvent c v).entry c.bay).history.getLast? = some x → x.instant = f.instant := by
    unfold lateEvent
    split
    next hany =>
      have hc : Converting s := by rw [hchans] at hany; exact (anyConverting_iff _).1 hany
      exact ownSampleEvent_table (hflight.trans hf) (hv.sound h.peers) hvnot fun y hy => by
        rw [hfi]; exact (h.order c y hr (hvhist y hy)).1 hc
    next hany =>
      have hc : ¬ Converting s := fun hc => hany (by rw [hchans]; exact (anyConverting_iff _).2 hc)
      exact ⟨hv.sound h.peers, hvnot, fun x hx => by rw [hfi]; exact (h.order c x hr (hvhist x hx)).2 hc⟩
  obtain ⟨hsound, hnot, hlast⟩ := hlate
  refine ⟨ht.sound hsound, ownNotInConflict_of hin ((ht.entries c.bay).conflict hown hnot), fun c' x hr' hx => ?_⟩
  obtain rfl : c' = c := Option.some.inj (hr'.2.symm.trans hin)
  refine ⟨fun _ => ?_, fun hn => absurd hconv hn⟩
  have hx' : ((lateEvent c' v).entry c'.bay).history.getLast? = some x := by
    rcases (ht.entries c'.bay).history hown with hh | hh <;> rw [hh] at hx
    exacts [hx, by cases hx]
  have hepoch : (epochParts c' k tcs o s).su.epoch = s.su.epoch + 1 := by
    rw [hparts, startConversions_su, hy, lateEvent_epoch, hz]
    rfl
  rw [hlast x hx', hfi, epoch_instant h.sampling, epoch_instant (epochParts_sampling h.sampling), hepoch, add_mul, one_mul,
    add_sub_cancel_right]

/-! ### Every step -/

/-- A start of epochs leaves the own history empty. -/
theorem startEpochs_order {c : Settings} {k : Contacts} {s u : State} (h : TableSound s) (hpt : u.pt = s.pt) (hin : u.cs.inUse = some c)
    (hcopy : CopyStep s (startEpochs c k u)) : OwnInOrder (startEpochs c k u) := fun c' x hr hx => by
  obtain ⟨hg, hinUse⟩ := startEpochs_runs k hin
  obtain rfl : c' = c := Option.some.inj (hr.2.symm.trans hinUse)
  have hown : Own s c'.bay := by
    cases hcopy with
    | stays hsame => exact fun d hd => own_of_runs hr d (hsame.trans hd)
    | cleared hstop _ => exact absurd hg (by simp [hstop])
    | first _ hnone => exact fun d hd => by rw [(hnone h.mode).1] at hd; cases hd
  have hentry : u.entry c'.bay = s.entry c'.bay := by rw [State.entry, hpt]; rfl
  obtain ⟨-, hstarted⟩ := startEpochs_entries c' k u c'.bay
  obtain ⟨hempty, -⟩ := hstarted (hentry ▸ h.own _ hown)
  rw [hempty] at hx
  cases hx

theorem move_table {s t : State} (hm : Move s t) (h : TableSound s) : TableSound t := by
  have hmode := move_modeSound hm h.mode
  have hsu := move_sampling hm h.sampling
  have hcomplete : ∀ {c ph ch raw}, Runs c s → t = completeOp c ph ch raw s → TableSound t := fun hr ht => by
    obtain ⟨h1, h2, h3⟩ := completeOp_table hr h
    rw [← ht] at h1 h2 h3
    exact ⟨hmode, hsu, h1, h2, h3⟩
  rcases move_peers hm h.peers.size with hstep | ⟨c, ph, ch, raw, hr, ht⟩
  · have hown := hstep.own h (move_copy hm)
    refine ⟨hmode, hsu, hstep.sound h.peers, hown, ?_⟩
    cases move_clock hm with
    | completes ph ch raw hr => exact (hcomplete hr rfl).order
    | stopped hg _ => exact fun c x hr => absurd hr.1 (by simp [hg])
    | stands hsame _ => exact hstep.order h hsame (move_copy hm)
    | starts c k _ _ hpt hin => exact startEpochs_order h hpt hin (move_copy hm)
  · exact hcomplete hr ht

theorem lead_table {s t : State} (hl : Lead s t) (h : TableSound s) : TableSound t := by
  have hpt := lead_pt hl
  have hsu := lead_sampling hl h.sampling
  have hentry : t.entry = s.entry := funext fun b => by rw [State.entry, hpt]; rfl
  obtain ⟨hcs, hgen, hepoch, hchans⟩ : t.cs = s.cs ∧ t.su.gen = s.su.gen ∧ t.su.epoch = s.su.epoch ∧ t.su.chans = s.su.chans := by
    cases hl <;> simp [passTicks]
  refine ⟨h.mode.same (lead_sameMode hl), hsu, hpt ▸ h.peers, fun b hb => ?_, fun c x hr hx => ?_⟩
  · rw [hentry]
    exact h.own b fun c hc => hb c (hcs ▸ hc)
  · have hconv : Converting t ↔ Converting s := by rw [Converting, hchans]; rfl
    have horder := h.order c x ⟨hgen ▸ hr.1, hcs ▸ hr.2⟩ (hentry ▸ hx)
    dsimp only at horder ⊢
    rwa [hconv, epoch_instant hsu, hepoch, ← epoch_instant h.sampling]

/-- Settles O59. -/
theorem peersStaySound : Obligations.PeersStaySound := by
  intro s t hm hsu hp ho horder h
  have := step_keeps (P := TableSound) (fun s rest h => ⟨h.mode.same (sameMode_of rfl rfl rfl), h.sampling, h.peers, h.own, h.order⟩)
    (fun _ _ => lead_table) (fun _ _ _ _ _ hr h => by
      obtain ⟨h1, h2, h3⟩ := epochParts_table hr h
      exact ⟨epochParts_modeSound h.mode hr, epochParts_sampling h.sampling, h1, h2, h3⟩) (fun _ _ => move_table)
    ⟨hm, hsu, hp, ho, horder⟩ h
  exact ⟨this.peers, this.own, this.order⟩

end Sys2Proof.Machine

/-! PROOFS. A port at an epoch, and the operations of one port: signals, holds, echoes that fall due, and echoes lost (section 3). -/

namespace Sys2Proof.Machine

open Sys2Proof

/-! ### A port at an epoch -/

/-- A port whose slot is offered an own frame, if one is (R42). -/
def offered : Option OwnFrame → PortState → PortState
  | none, q => q
  | some o, q => placeCopy o q

theorem offered_eq (o : Option OwnFrame) (q : PortState) : offered o q = { q with own := (offered o q).own, ctr := (offered o q).ctr } := by
  cases o with
  | none => rfl
  | some o =>
    rw [offered, placeCopy]
    split <;> rfl

theorem offered_of_not_up (o : Option OwnFrame) {q : PortState} (h : q.link ≠ .up) : offered o q = q := by
  cases o with
  | none => rfl
  | some o => exact if_neg h

/-- The counts of a port at its epoch and the own frame that it is offered do not touch each other. -/
theorem portAtEpoch_offered (lt : Ticks) (o : Option OwnFrame) (q : PortState) :
    portAtEpoch lt (offered o q) = offered o (portAtEpoch lt q) := by
  by_cases hl : q.link = .up
  · cases o with
    | none => rfl
    | some o =>
      have hf : ∀ x y, forgetCut lt { q with own := x, ctr := y } = { forgetCut lt q with own := x, ctr := y } := fun x y => by
        unfold forgetCut
        rw [show PortState.cutOff { q with own := x, ctr := y } lt bayTicks = q.cutOff lt bayTicks from rfl]
        split <;> rfl
      have hlink : (forgetCut lt q).link = .up := by rw [forgetCut_eq]; exact hl
      have hown : (forgetCut lt q).own = q.own ∧ (forgetCut lt q).ctr = q.ctr := by rw [forgetCut_eq]; exact ⟨rfl, rfl⟩
      have hpair : offered (some o) q = { q with
          own := some o, ctr := if q.own.isSome then { q.ctr with ownOverruns := bump q.ctr.ownOverruns } else q.ctr } := if_pos hl
      rw [hpair, portAtEpoch, portAtEpoch, hf]
      generalize forgetCut lt q = z at hlink hown
      obtain ⟨ho, hc⟩ := hown
      have hdown : ¬ z.link = .down := by rw [hlink]; decide
      simp only [hdown, if_false, offered, placeCopy]
      split <;> simp only [hlink, ho, hc]
  · have hnot : (portAtEpoch lt q).link ≠ .up := by
      have hlink : (forgetCut lt q).link = q.link := by rw [forgetCut_eq]
      unfold portAtEpoch
      dsimp only
      split
      · split
        · split
          · exact nofun
          · rwa [hlink]
        · rwa [hlink]
      · split <;> rwa [hlink]
    rw [offered_of_not_up o hl, offered_of_not_up o hnot]

theorem lateEvent_port (c : Settings) (s : State) : ∃ o, ∀ p, (lateEvent c s).port p = offered o (s.port p) := by
  unfold lateEvent
  split
  · cases hf : s.su.flight with
    | none => exact ⟨none, fun p => by simp only [ownSampleEvent, hf]; rfl⟩
    | some f =>
      obtain ⟨o, -, ho⟩ := ownSampleEvent_port (c := c) hf
      exact ⟨some o, ho⟩
  · exact ⟨none, fun _ => rfl⟩

theorem stageLate_port (b : Bool) (c : Settings) (s : State) :
    ∃ o, (b = false → o = none) ∧ ∀ p, (stageIf b (lateEvent c) s).port p = offered o (s.port p) := by
  cases b with
  | false => exact ⟨none, fun _ => rfl, fun _ => rfl⟩
  | true =>
    obtain ⟨o, ho⟩ := lateEvent_port c s
    exact ⟨o, nofun, ho⟩

/-- A port at the place of the links' counts in an epoch. -/
def linkStage (b : Bool) (lt : Ticks) (q : PortState) : PortState := if b then portAtEpoch lt q else q

theorem stageRing_port (b : Bool) (s : State) (p : Port) : (stageIf b ringEpoch s).port p = linkStage b s.su.lt (s.port p) := by
  cases b with
  | false => rfl
  | true => exact ringEpoch_port p s

theorem stagePeers_port (b : Bool) (c : Settings) (s : State) (p : Port) : (stageIf b (peerEpoch c) s).port p = s.port p := by
  cases b with
  | false => rfl
  | true => rw [stageIf, if_pos rfl, State.port, peerEpoch_ri]; rfl

theorem stagePeers_lt (b : Bool) (c : Settings) (s : State) : (stageIf b (peerEpoch c) s).su.lt = s.su.lt :=
  stageIf_keeps (·.su.lt) _ _ (fun _ => by simp) s

theorem stageRing_lt (b : Bool) (s : State) : (stageIf b ringEpoch s).su.lt = s.su.lt :=
  stageIf_keeps (·.su.lt) _ _ (fun _ => by simp) s

theorem stageLate_lt (b : Bool) (c : Settings) (s : State) : (stageIf b (lateEvent c) s).su.lt = s.su.lt :=
  stageIf_keeps (·.su.lt) _ _ (fun _ => lateEvent_lt ..) s

/-- A port at an epoch: its counts, and the own frame of a late own sample event. -/
theorem epochParts_port (c : Settings) (k : Contacts) (tcs : Bool) (o : EpochOrder) (s : State) : ∃ x lt, ∀ p,
    (epochParts c k tcs o s).port p = offered x (portAtEpoch lt (s.port p)) := by
  rw [epochParts_split]
  unfold beforeChoice afterChoice
  have hz : ∀ p, (contactEpoch c k (clockEpoch k tcs s).su.epoch (clockEpoch k tcs s)).port p = s.port p := fun p => by
    rw [State.port, contactEpoch_ri]; rfl
  generalize contactEpoch c k (clockEpoch k tcs s).su.epoch (clockEpoch k tcs s) = z at hz
  obtain ⟨x, hx, hlate⟩ := stageLate_port (decide (o.late = .beforeChoice)) c z
  have hlt := stageLate_lt (decide (o.late = .beforeChoice)) c z
  generalize stageIf (decide (o.late = .beforeChoice)) (lateEvent c) z = u at hlate hlt
  have hchoice : ∀ p (v : State), (choiceStage c v).port p = v.port p := fun p v => by rw [State.port, choiceStage_ri]; rfl
  have hsuper : ∀ p r (v : State), (supervisionEpoch r v).port p = v.port p := fun p r v => by rw [State.port, supervisionEpoch_ri]; rfl
  have hstart : ∀ p (v : State), (startConversions v).port p = v.port p := fun _ _ => rfl
  have hv : ∀ p, (choiceStage c (stageIf o.linksFirst ringEpoch (stageIf o.peersFirst (peerEpoch c) u))).port p =
      linkStage o.linksFirst z.su.lt (offered x (s.port p)) := fun p => by
    rw [hchoice, stageRing_port, stagePeers_lt, stagePeers_port, hlate, hz, hlt]
  have hvlt : (choiceStage c (stageIf o.linksFirst ringEpoch (stageIf o.peersFirst (peerEpoch c) u))).su.lt = z.su.lt := by
    rw [choiceStage_su, stageRing_lt, stagePeers_lt, hlt]
  generalize choiceStage c (stageIf o.linksFirst ringEpoch (stageIf o.peersFirst (peerEpoch c) u)) = v at hv hvlt
  dsimp only
  obtain ⟨y, hy, hlate'⟩ := stageLate_port (decide (o.late = .afterChoice)) c v
  have hlt' := stageLate_lt (decide (o.late = .afterChoice)) c v
  generalize stageIf (decide (o.late = .afterChoice)) (lateEvent c) v = w at hlate' hlt'
  obtain ⟨a, ha, hlate''⟩ := stageLate_port (decide (o.late = .afterSupervision)) c (supervisionEpoch (chosenAt w) w)
  have hlt'' := stageLate_lt (decide (o.late = .afterSupervision)) c (supervisionEpoch (chosenAt w) w)
  have hport : ∀ p, (startConversions (stageIf (!o.linksFirst) ringEpoch (stageIf (!o.peersFirst) (peerEpoch c)
      (stageIf (decide (o.late = .afterSupervision)) (lateEvent c) (supervisionEpoch (chosenAt w) w))))).port p =
      offered a (offered y (offered x (portAtEpoch z.su.lt (s.port p)))) := fun p => by
    rw [hstart, stageRing_port, stagePeers_lt, stagePeers_port, hlate'', hlt'', supervisionEpoch_su, hlt', hvlt, hsuper, hlate', hv]
    cases o.linksFirst <;> simp only [linkStage, Bool.not_true, Bool.not_false, if_true, Bool.false_eq_true, if_false, portAtEpoch_offered]
  simp only [hport]
  cases ho : o.late with
  | beforeChoice =>
    obtain rfl := hy (by rw [ho]; decide)
    obtain rfl := ha (by rw [ho]; decide)
    exact ⟨x, z.su.lt, fun _ => rfl⟩
  | afterChoice =>
    obtain rfl := hx (by rw [ho]; decide)
    obtain rfl := ha (by rw [ho]; decide)
    exact ⟨y, z.su.lt, fun _ => rfl⟩
  | afterSupervision =>
    obtain rfl := hx (by rw [ho]; decide)
    obtain rfl := hy (by rw [ho]; decide)
    exact ⟨a, z.su.lt, fun _ => rfl⟩

theorem epochParts_runs {c d : Settings} {k : Contacts} {tcs : Bool} {o : EpochOrder} {s : State} (h : Runs c s) :
    Runs c (epochParts d k tcs o s) := by
  obtain ⟨z, y, hz, hparts, hy, -⟩ := epochParts_su d k tcs o s
  refine ⟨?_, by simpa using h.2⟩
  rw [hparts, startConversions_su, hy, lateEvent_gen, hz]
  exact h.1

theorem settle_runs {c : Settings} {s : State} (h : Runs c s) : Runs c (settle s) := runs_next h (by simp) (by simp)

/-- EPOCH on one port: what the tick that is left made of it, its counts, and the own frame that it is offered. -/
theorem exec_epoch_port {c : Settings} {s : State} (k : Contacts) (tcs : Bool) (o : EpochOrder) (h : Runs c s) :
    ∃ t, exec (.epoch k tcs o) s = .next t ∧ Runs c t ∧ ∃ x lt, ∀ p, t.port p = offered x (portAtEpoch lt ((settle s).port p)) := by
  rw [settle_eq h]
  exact ⟨_, exec_epoch k tcs o h, epochParts_runs (settle_eq h ▸ settle_runs h), epochParts_port c k tcs o _⟩

/-- A DOWN port at its epoch (R36). -/
theorem portAtEpoch_down {q : PortState} (h : q.link = .down) (lt : Ticks) :
    (portAtEpoch lt q).rx = q.rx ∧ (portAtEpoch lt q).hold = q.hold - 1 ∧
    (q.hold ≠ 1 ∨ q.rx = false → (portAtEpoch lt q).link = .down) ∧
    (q.hold = 1 → q.rx = true → (portAtEpoch lt q).link = .probing ∧ (portAtEpoch lt q).losses = 0 ∧
      (portAtEpoch lt q).echoDue = true) := by
  obtain ⟨hlink, hhold, hrx⟩ : (forgetCut lt q).link = q.link ∧ (forgetCut lt q).hold = q.hold ∧ (forgetCut lt q).rx = q.rx := by
    rw [forgetCut_eq]; exact ⟨rfl, rfl, rfl⟩
  unfold portAtEpoch
  dsimp only
  rw [← hlink] at h
  rw [← hhold, ← hrx, if_pos h]
  generalize forgetCut lt q = z at h
  split
  next hpos =>
    split
    next hend =>
      exact ⟨rfl, hend.1.symm, fun hn => absurd hend.2 (hn.elim (fun h1 => by omega) fun h2 => by simp [h2]), fun _ _ => ⟨rfl, rfl, rfl⟩⟩
    next hend => exact ⟨rfl, rfl, fun _ => h, fun h1 hrx => absurd ⟨by omega, hrx⟩ hend⟩
  next hpos => exact ⟨rfl, by omega, fun _ => h, fun h1 => absurd (h1 ▸ Nat.one_pos) hpos⟩

/-- A PROBING or UP port at its epoch (R37). -/
theorem portAtEpoch_counts {q : PortState} (h : q.link ≠ .down) (lt : Ticks) : portAtEpoch lt q = { forgetCut lt q with
    interval := min (q.interval + 1) 64
    echoDue := q.echoDue || decide (q.outstanding = none ∧ intervalOf q.link ≤ min (q.interval + 1) 64) } := by
  unfold portAtEpoch
  rw [forgetCut_eq]
  dsimp only
  rw [if_neg h, echoInterval_intervalOf, upTo]
  split
  next hdue => rw [decide_eq_true hdue, Bool.or_true]
  next hdue => rw [decide_eq_false hdue, Bool.or_false]

/-! ### Receive signals and holds -/

theorem exec_signalPresent {c : Settings} {p : Port} {m : Nat} {s : State} (hr : Runs c s) (hm : m < 10000) :
    exec (.receiveSignalPresent p m) s = .next (probeOp p ((atMoment m s).updPort p fun q => { q with rx := true })) := by
  refine congrArg Host.Outcome.next ((whileRunning_eq (c := c) ?_).trans ?_)
  · rw [advanceTo_atMoment hr.1 hm]; exact setRx_runs (atMoment_runs hr)
  · rw [advanceTo_atMoment hr.1 hm]; rfl

/-- A DOWN port without a hold and with its signal present enters PROBING. -/
theorem probeOp_enters {p : Port} {s : State} (hl : (s.port p).link = .down) (hh : (s.port p).hold = 0) (hrx : (s.port p).rx = true) :
    probeOp p s = s.updPort p fun q => { q with link := .probing, losses := 0, echoDue := true } := by
  unfold probeOp
  dsimp only
  rw [if_pos ⟨hl, hh, hrx⟩]
  exact State.updPort_congr _ _ _ _ (by rw [← hh])

theorem probeOp_stays {p : Port} {s : State} (hh : (s.port p).hold ≠ 0) : probeOp p s = s := by
  unfold probeOp
  dsimp only
  rw [if_neg fun h => hh h.2.1]

theorem updPort_departs {c : Settings} {p : Port} {s : State} (hr : Runs c s) (f : PortState → PortState)
    (h : (f (s.port p)).echoDue = true) : RequestDeparts c p (s.updPort p f) :=
  requestDeparts_of hr (by rw [State.port_updPort]; exact h)

/-- Settles O14. -/
theorem portEntersProbing : Obligations.PortEntersProbing := by
  refine ⟨fun c p m s hr _ hm hl hh => ?_, fun c p m s hr _ hm hh => ?_, fun c p s hr hl hh hrx => ?_, fun c k tcs o p s hr hl => ?_⟩
  · obtain ⟨hlink, hhold, -⟩ := atMoment_link hr m p
    refine ⟨?_, updPort_departs (atMoment_runs hr) _ rfl⟩
    rw [exec_signalPresent hr hm, probeOp_enters (by rw [State.port_updPort]; exact hlink.trans hl)
      (by rw [State.port_updPort]; exact hhold.trans hh) (by rw [State.port_updPort]), State.updPort_updPort]
  · obtain ⟨-, hhold, -⟩ := atMoment_link hr m p
    rw [exec_signalPresent hr hm, probeOp_stays (by rw [State.port_updPort]; exact fun h => hh (hhold.symm.trans h))]
  · exact ⟨congrArg Host.Outcome.next ((whileRunning_eq hr).trans (probeOp_enters hl hh hrx)), updPort_departs hr _ rfl⟩
  · obtain ⟨t, ht, hrt, x, lt, hport⟩ := exec_epoch_port k tcs o hr
    have hkeeps := (arbitratePort_keeps c s.su.lt (s.port p)).1
    rw [← settle_port hr] at hkeeps
    obtain ⟨hlink, hhold, hrx, -⟩ := hkeeps
    obtain ⟨erx, ehold, edown, eprobe⟩ := portAtEpoch_down (hlink.trans hl) lt
    have hp : t.port p = portAtEpoch lt ((settle s).port p) := by
      rw [hport]
      refine offered_of_not_up x fun hup => ?_
      by_cases hend : ((settle s).port p).hold = 1 ∧ ((settle s).port p).rx = true
      · rw [(eprobe hend.1 hend.2).1] at hup; cases hup
      · rw [edown (by rw [← Bool.not_eq_true]; exact not_and_or.1 hend)] at hup; cases hup
    rw [hhold, hrx] at edown eprobe
    refine ⟨t, ht, by rw [hp, erx, hrx], by rw [hp, ehold, hhold], fun hn => by rw [hp]; exact edown hn, fun h1 h2 => ?_⟩
    obtain ⟨elink, elosses, edue⟩ := eprobe h1 h2
    rw [← hp] at elink elosses edue
    exact ⟨elink, elosses, edue, requestDeparts_of hrt edue⟩

/-- Settles O15. -/
theorem signalLossTakesPortDown : Obligations.SignalLossTakesPortDown := by
  intro c p m s hr _ hm hl
  have hlink : ((atMoment m s).port p).link ≠ .down := fun h => hl ((atMoment_link hr m p).1.symm.trans h)
  have hexec : exec (.receiveSignalLost p m) s = .next (enterDown p 0 ((atMoment m s).updPort p fun q => { q with rx := false })) := by
    refine congrArg Host.Outcome.next ((whileRunning_eq (c := c) ?_).trans ?_)
    · rw [advanceTo_atMoment hr.1 hm]; exact setRx_runs (atMoment_runs hr)
    · rw [advanceTo_atMoment hr.1 hm]
      exact if_neg (by rw [setRx, State.port_updPort]; exact hlink)
  have hquiet := besidePorts_atMoment hr m
  refine ⟨_, hexec, ?_⟩
  dsimp only
  generalize atMoment m s = u at hlink hquiet
  have hdown : enterDown p 0 (u.updPort p fun q => { q with rx := false }) =
      raise (linkDownAlarm p) ((u.updPort p fun q => { q with rx := false }).updPort p (downPort 0 u.su.lt)) := by
    rw [enterDown, State.port_updPort, decide_eq_true hlink]; rfl
  have hbeside : besidePorts (enterDown p 0 (u.updPort p fun q => { q with rx := false })) = besidePorts s := by
    rw [besidePorts_enterDown, besidePorts_updPort, hquiet]
  simp only [besidePorts, Ring.mk.injEq, true_and] at hbeside
  refine ⟨?_, by simp, hbeside.1, hbeside.2.1, hbeside.2.2, ?_⟩
  · rw [hdown]; cases p <;> rfl
  · rw [enterDown_port, State.port_updPort, downPort_up (by exact hlink), echoNow_eq]
    rfl

/-! ### Echoes that fall due, and echoes lost -/

/-- A port of the station whose echo was lost with its counter stopped at n: below three losses in a row it keeps its link state and asks
again when its interval stands, and the third takes it DOWN (R37, R41). -/
structure EchoLost (c : Settings) (p : Port) (n : Nat) (lost q : PortState) (s t : State) : Prop where
  other : t.port (otherPort p) = s.port (otherPort p)
  frame : t = { s with ri := t.ri, mp := t.mp }
  keeps : q.losses < 2 → q.interval < intervalOf q.link → t.port p = lost ∧ t.mp = s.mp
  due : q.losses < 2 → intervalOf q.link ≤ q.interval → t.port p = { lost with echoDue := true } ∧ t.mp = s.mp ∧ RequestDeparts c p t
  down : q.losses = 2 → t.port p = wentDown 256 n s.su.lt lost ∧
    t.mp = { s.mp with flags := s.mp.flags ||| BitVec.twoPow 19 (linkDownBit p) }

/-- The port of a loss as R41 gives it, before the third. -/
def lossCounted (n : Nat) (q : PortState) : PortState :=
  { q with
    echoCounter := n, outstanding := none, losses := q.losses + 1
    ctr := { q.ctr with echoLosses := min (q.ctr.echoLosses + 1) 65535 } }

theorem lostPort_eq (n : Nat) {q : PortState} (h : q.losses ≤ 2) : lostPort n q = lossCounted n q := by
  rw [lostPort, lossCounted, upTo, Nat.min_eq_left (by omega)]
  rfl

section
variable {c : Settings} {p : Port} {s t : State}

theorem echoDueOp_due {l : Link} (hl : (s.port p).link ≠ .down) (ho : (s.port p).outstanding = none)
    (hi : intervalOf l ≤ (s.port p).interval) : echoDueOp l p s = s.updPort p fun q => { q with echoDue := true } :=
  if_pos ⟨hl, ho, by rwa [echoInterval_intervalOf]⟩

theorem echoDueOp_early {l : Link} (hi : (s.port p).interval < intervalOf l) : echoDueOp l p s = s :=
  if_neg fun h => by rw [echoInterval_intervalOf] at h; omega

theorem enterDown_up {hold : Nat} (h : (s.port p).link ≠ .down) : enterDown p hold s =
    { s.updPort p (wentDown hold ((s.port p).echoNow s.su.lt) s.su.lt) with
      mp := { s.mp with flags := s.mp.flags ||| BitVec.twoPow 19 (linkDownBit p) } } := by
  rw [enterDown, decide_eq_true h, State.updPort_congr _ _ _ _ (downPort_up h hold s.su.lt)]
  cases p <;> rfl

theorem echoDueOp_other {l : Link} : (echoDueOp l p s).port (otherPort p) = s.port (otherPort p) := by
  unfold echoDueOp
  dsimp only
  split
  · exact State.port_updPort_other ..
  · rfl

theorem echoLoss_other {n : Nat} : (echoLoss n p s).port (otherPort p) = s.port (otherPort p) := by
  rw [echoLoss_eq]
  split
  · rw [enterDown_other, State.port_updPort_other]
  · rw [echoDueOp_other, State.port_updPort_other]

theorem echoLoss_lost (hr : Runs c s) (n : Nat) (hl : (s.port p).link ≠ .down) :
    EchoLost c p n (lossCounted n (s.port p)) (s.port p) s (echoLoss n p s) := by
  have hearly : (s.port p).losses < 2 →
      echoLoss n p s = echoDueOp (s.port p).link p (s.updPort p (lossCounted n)) := fun h => by
    rw [echoLoss_eq, lostPort_eq n (by omega), if_neg (by simp only [lossCounted]; omega),
      State.updPort_congr _ _ _ _ (lostPort_eq n (by omega))]
  have hkeeps : (s.port p).losses < 2 → (s.port p).interval < intervalOf (s.port p).link →
      echoLoss n p s = s.updPort p (lossCounted n) := fun h hi => by
    rw [hearly h, echoDueOp_early (by rw [State.port_updPort]; exact hi)]
  have hdue : (s.port p).losses < 2 → intervalOf (s.port p).link ≤ (s.port p).interval →
      echoLoss n p s = s.updPort p fun q => { lossCounted n q with echoDue := true } := fun h hi => by
    rw [hearly h, echoDueOp_due (by rw [State.port_updPort]; exact hl) (by rw [State.port_updPort]; rfl)
      (by rw [State.port_updPort]; exact hi), State.updPort_updPort]
  refine ⟨echoLoss_other, ?_, fun h hi => ?_, fun h hi => ?_, fun h => ?_⟩
  · refine state_ext ?_ ?_ rfl ?_ ?_ ?_ ?_ ?_ ?_ ?_ ?_ ?_ ?_ <;> simp
  · rw [hkeeps h hi]
    exact ⟨State.port_updPort .., rfl⟩
  · rw [hdue h hi]
    exact ⟨State.port_updPort .., rfl, updPort_departs hr _ rfl⟩
  · rw [echoLoss_eq, if_pos (by rw [lostPort_eq n h.le]; simp only [lossCounted]; omega), State.updPort_congr _ _ _ _ (lostPort_eq n h.le),
      enterDown_up (by rw [State.port_updPort]; exact hl)]
    refine ⟨(State.port_updPort ..).trans ?_, rfl⟩
    rw [State.port_updPort]
    rfl

/-- What a port brought before its loss stays. -/
theorem EchoLost.before {n : Nat} {lost q : PortState} {f : PortState → PortState} (h : EchoLost c p n lost q (s.updPort p f) t) :
    EchoLost c p n lost q s t :=
  ⟨h.other.trans (State.port_updPort_other ..), h.frame, h.keeps, h.due, h.down⟩

/-- The timeout of an outstanding echo (R38, R41). -/
theorem echoTimeoutOp_lost (hr : Runs c s) (ho : (s.port p).outstanding.isSome = true) (hl : (s.port p).link ≠ .down) :
    EchoLost c p 40000 (lossCounted 40000 { s.port p with overflow := true }) (s.port p) s (echoTimeoutOp p s) := by
  have hloss := echoLoss_lost (s := s.updPort p fun q => { q with overflow := true }) (p := p) hr 40000
    (by rw [State.port_updPort]; exact hl)
  rw [State.port_updPort] at hloss
  obtain ⟨n, hn⟩ := Option.isSome_iff_exists.1 ho
  rw [show echoTimeoutOp p s = echoLoss 40000 p (s.updPort p fun q => { q with overflow := true }) by simp only [echoTimeoutOp, hn]; rfl]
  exact ⟨hloss.before.other, hloss.before.frame, hloss.keeps, hloss.due, hloss.down⟩

end

theorem exec_echoTimeout {c : Settings} {p : Port} {s : State} {n : BitVec 8} (hr : Runs c s) (ho : (s.port p).outstanding = some n) :
    exec (.echoTimeout p) s = .next (echoTimeoutOp p (advanceToTimeout p s)) := by
  refine congrArg Host.Outcome.next ((whileRunning_eq hr).trans ?_)
  simp only [ho]

/-- Settles O16. -/
theorem echoDueAndTimeout : Obligations.EchoDueAndTimeout := by
  refine ⟨fun c p s hr hint ho => ?_, fun c k tcs o p s hr hl => ?_, fun c p s n hr ho hl => ?_⟩
  · refine ⟨congrArg Host.Outcome.next ((whileRunning_eq hr).trans (echoDueOp_due ?_ ho ?_)), updPort_departs hr _ rfl⟩
    · rcases hint with ⟨h, -⟩ | ⟨h, -⟩ <;> rw [h] <;> decide
    · rcases hint with ⟨h, hi⟩ | ⟨h, hi⟩ <;> rw [h] <;> exact hi
  · obtain ⟨t, ht, hrt, x, lt, hport⟩ := exec_epoch_port k tcs o hr
    obtain ⟨hlink, -⟩ := (arbitratePort_keeps c s.su.lt (s.port p)).1
    rw [← settle_port hr] at hlink
    refine ⟨t, ht, ?_⟩
    have hp := hport p
    rw [offered_eq, portAtEpoch_counts (fun h => hl (hlink.symm.trans h)), forgetCut_eq] at hp
    generalize (settle s).port p = q at hp
    have hdeparts : (t.port p).echoDue = true → RequestDeparts c p t := requestDeparts_of hrt
    rw [hp] at hdeparts ⊢
    refine ⟨rfl, rfl, rfl, rfl, fun hn => ?_, fun hd => ?_⟩
    · obtain ⟨hdue, hint⟩ := not_or.1 hn
      exact ⟨rfl, by simp only [decide_eq_false hint, Bool.or_false]; exact Bool.not_eq_true _ ▸ hdue, rfl⟩
    · have hdue : (q.echoDue || decide (q.outstanding = none ∧ intervalOf q.link ≤ min (q.interval + 1) 64)) = true := by
        simpa using hd
      exact ⟨rfl, hdue, rfl, hdeparts hdue⟩
  · have hadvance : advanceToTimeout p s =
        atMoment (min (s.su.phase + (40000 - min (s.su.lt - (s.port p).echoStart).toNat 40000)) 9999) s := by
      rw [advanceToTimeout, advanceBy, advanceTo_eq hr.1, echoNow_eq, ho]
      rfl
    refine ⟨_, exec_echoTimeout hr ho, ?_⟩
    rw [hadvance]
    generalize min (s.su.phase + (40000 - min (s.su.lt - (s.port p).echoStart).toNat 40000)) 9999 = m
    have hlost : EchoLost .. := echoTimeoutOp_lost (c := c) (p := p) (atMoment_runs hr) (s := atMoment m s) (by
      rw [atMoment_port hr]
      split
      · simp [ho]
      · exact (arbitratePort_keeps c s.su.lt (s.port p)).2.2 (by simp [ho]))
      fun h => hl ((atMoment_link hr m p).1.symm.trans h)
    have hlt : (echoTimeoutOp p (atMoment m s)).su.lt = (atMoment m s).su.lt := by rw [hlost.frame]
    exact ⟨hlost.other, hlost.frame, hlost.keeps, hlost.due, fun h => by rw [hlt]; exact hlost.down h⟩

end Sys2Proof.Machine

/-! PROOFS. Frames received at a port: echo requests and answers, own frames that return, and frames that are dropped (section 3). -/

namespace Sys2Proof.Machine

open Sys2Proof

/-! ### What a reception comes to -/

section
variable {c : Settings} {p : Port} {bytes : List Byte} {s : State}

theorem exec_reception {m : Nat} (hr : Runs c s) (hm : m < 10000) :
    ∀ i ∈ [Instr.bayFrameReceived p bytes m, .echoRequestReceived p bytes m, .echoAnswerReceived p bytes m],
      exec i s = .next (receiveFrame c p bytes (atMoment m s)) := by
  have hexec : whileRunning (fun c s => receiveFrame c p bytes (advanceTo m s)) s = receiveFrame c p bytes (atMoment m s) := by
    rw [whileRunning_eq hr, advanceTo_atMoment hr.1 hm]
  intro i hi
  fin_cases hi <;> exact congrArg Host.Outcome.next hexec

/-- A port takes in a reception that is complete at the present, of some ticks (R34, R35). -/
def TakesIn (p : Port) (ticks : Nat) (s : State) : Prop :=
  (s.port p).takesFrames = true ∧ (s.port p).cutOff s.su.lt ticks = false

theorem reception_failed (h : TakesIn p (frameTicks bytes) s) (hf : checkFrame bytes = none) : receiveFrame c p bytes s =
    s.updPort p fun q => { q with ctr := { q.ctr with checkFailures := bump q.ctr.checkFailures } } := by
  simp only [receiveFrame, h.1, h.2, Bool.not_false, Bool.and_self, if_true, hf]

theorem reception_request {n : BitVec 8} (h : TakesIn p 48 s) (hf : checkFrame bytes = some (.request n)) :
    receiveFrame c p bytes s = takeRequest p n (s.su.lt - 48) s := by
  simp only [receiveFrame, frameTicks_request hf, h.1, h.2, Bool.not_false, Bool.and_self, if_true, hf]
  rfl

theorem reception_answer {n : BitVec 8} {turn : Nat} (h : TakesIn p 48 s) (hf : checkFrame bytes = some (.answer n turn)) :
    receiveFrame c p bytes s = takeAnswer p n turn (s.su.lt - 48) s := by
  simp only [receiveFrame, frameTicks_answer hf, h.1, h.2, Bool.not_false, Bool.and_self, if_true, hf]
  rfl

theorem reception_bay {f : BayFrame} (h : TakesIn p 128 s) (hf : checkFrame bytes = some (.bay f)) (hl : (s.port p).link = .up) :
    receiveFrame c p bytes s = takeBay c p f (s.su.lt - 128) s := by
  simp only [receiveFrame, frameTicks_bay hf, h.1, h.2, Bool.not_false, Bool.and_self, if_true, hf, hl]
  rfl

theorem reception_notUp {f : BayFrame} (h : TakesIn p 128 s) (hf : checkFrame bytes = some (.bay f)) (hl : (s.port p).link ≠ .up) :
    receiveFrame c p bytes s = s.updPort p fun q => { q with ctr := { q.ctr with notUpDrops := bump q.ctr.notUpDrops } } := by
  simp only [receiveFrame, frameTicks_bay hf, h.1, h.2, Bool.not_false, Bool.and_self, if_true, hf, hl, if_false]

theorem reception_discarded (h : ¬ TakesIn p (frameTicks bytes) s) : receiveFrame c p bytes s = s := by
  refine if_neg fun hin => h ?_
  rwa [Bool.and_eq_true, Bool.not_eq_true'] at hin

/-- Whether a reception is taken in at a moment goes by the port before it. -/
theorem takesIn_atMoment (hr : Runs c s) (m ticks : Nat) : TakesIn p ticks (atMoment m s) ↔
    (s.port p).takesFrames = true ∧ Uncut (s.port p) (atMoment m s).su.lt ticks := by
  obtain ⟨hlink, hhold, hrx, -, -, -, hcut⟩ := atMoment_link hr m p
  rw [TakesIn, PortState.takesFrames, hlink, hhold, hrx, uncut_iff, PortState.cutOff, hcut]
  rfl

theorem takesIn_of (hr : Runs c s) {m ticks : Nat} (h : (s.port p).link ≠ .down ∨ ((s.port p).hold ≠ 0 ∧ (s.port p).rx = true))
    (hcut : Uncut (s.port p) (atMoment m s).su.lt ticks) : TakesIn p ticks (atMoment m s) :=
  (takesIn_atMoment hr m ticks).2 ⟨takesFrames_of h, hcut⟩

theorem takesIn_up {ticks : Nat} (h : (s.port p).link ≠ .down) (hcut : Uncut (s.port p) s.su.lt ticks) : TakesIn p ticks s :=
  ⟨takesFrames_of (.inl h), uncut_iff.1 hcut⟩

end

/-! ### Frames that are dropped -/

/-- Settles O21. -/
theorem badFrameIsDropped : Obligations.BadFrameIsDropped := by
  intro c p bytes m s hr _ hm
  dsimp only
  have hticks : (if bytes.length ≤ 8 then 48 else 128) = frameTicks bytes := rfl
  rw [hticks]
  refine ⟨fun hf hl hcut i hi => ?_, fun f hf hl hcut => ?_, fun h i hi => ?_⟩
  · rw [exec_reception hr hm i hi, reception_failed (takesIn_of hr hl hcut) hf]
    rfl
  · have hnot : (s.port p).link ≠ .up := by rcases hl with h | ⟨h, -⟩ <;> rw [h] <;> decide
    have hin : (s.port p).link ≠ .down ∨ ((s.port p).hold ≠ 0 ∧ (s.port p).rx = true) :=
      hl.imp (fun h => by rw [h]; decide) And.right
    rw [exec_reception hr hm _ (List.mem_cons_self ..), reception_notUp (takesIn_of hr hin hcut) hf
      fun hup => hnot ((atMoment_link hr m p).1.symm.trans hup)]
    rfl
  · rw [exec_reception hr hm i hi, reception_discarded]
    rw [takesIn_atMoment hr]
    rintro ⟨htakes, hcut⟩
    rcases h with h | ⟨hl, h⟩
    · exact h hcut
    · rw [PortState.takesFrames, hl] at htakes
      rcases h with h | h <;> rw [h] at htakes <;> simp at htakes

/-! ### Echo requests -/

/-- The answer goes first of all that a free transmitter finds (R53). -/
theorem arbitratePort_answer {c : Settings} {lt : Ticks} {q : PortState} {a : EchoAnswer} (htx : q.tx = none) (ha : q.answer = some a) :
    arbitratePort c lt q = sendAnswer c lt a q := by
  simp only [arbitratePort, htx, ha]

/-- Settles O17. -/
theorem echoRequestIsAnswered : Obligations.EchoRequestIsAnswered := by
  intro c p bytes n m s hr _ hm hf hl hcut
  have hexec := exec_reception (p := p) (bytes := bytes) hr hm (.echoRequestReceived p bytes m) (by simp)
  rw [reception_request (takesIn_of hr hl hcut) hf] at hexec
  have hru := atMoment_runs (m := m) hr
  dsimp only
  generalize atMoment m s = u at hexec hru
  have hrt : Runs c (u.updPort p fun q => { q with answer := some ⟨n, u.su.lt - 48⟩ }) := hru
  refine ⟨hexec, fun htx => ?_, fun htx => ?_⟩
  · rw [settle_port hrt, arbitratePort_answer (a := ⟨n, u.su.lt - 48⟩) htx (by rw [State.port_updPort]), sendAnswer]
    dsimp only
    rw [State.updPort_su, sub_sub_cancel]
    rfl
  · rw [settle_port hrt, arbitratePort_busy _ _ _ htx]

/-! ### Echo answers -/

theorem exec_answer {c : Settings} {p : Port} {bytes : List Byte} {n : BitVec 8} {turn m : Nat} {s : State} (hr : Runs c s)
    (hm : m < 10000) (hf : checkFrame bytes = some (.answer n turn)) (hin : TakesIn p 48 (atMoment m s)) :
    exec (.echoAnswerReceived p bytes m) s = .next (takeAnswer p n turn ((atMoment m s).su.lt - 48) (atMoment m s)) := by
  rw [exec_reception (p := p) (bytes := bytes) hr hm _ (by simp), reception_answer hin hf]

section
variable {c : Settings} {p : Port} {n : BitVec 8} {turn : Nat} {arrival : Ticks} {s t : State}

theorem takeAnswer_other (h : (s.port p).outstanding ≠ some n) : takeAnswer p n turn arrival s = staleEcho p s := if_neg h

theorem takeAnswer_late (h : (s.port p).outstanding = some n) (hlate : 40000 < (arrival - (s.port p).echoStart).toNat) :
    takeAnswer p n turn arrival s = staleEcho p (echoTimeoutOp p s) := (if_pos h).trans (if_pos hlate)

theorem takeAnswer_good {count : Nat} (h : (s.port p).outstanding = some n) (hcount : count = (arrival - (s.port p).echoStart).toNat)
    (hle : count ≤ 40000) (hgood : 0 ≤ echoDelay count turn ∧ echoDelay count turn ≤ 4000) : takeAnswer p n turn arrival s =
      goodEcho count (echoDelay count turn).toNat p (s.updPort p fun q => { q with turnaround := turn }) := by
  subst hcount
  exact (if_pos h).trans ((if_neg (not_lt.2 hle)).trans (if_pos hgood))

theorem takeAnswer_bad {count : Nat} (h : (s.port p).outstanding = some n) (hcount : count = (arrival - (s.port p).echoStart).toNat)
    (hle : count ≤ 40000) (hbad : ¬ (0 ≤ echoDelay count turn ∧ echoDelay count turn ≤ 4000)) : takeAnswer p n turn arrival s =
      echoLoss count p (s.updPort p fun q => { q with turnaround := turn }) := by
  subst hcount
  exact (if_pos h).trans ((if_neg (not_lt.2 hle)).trans (if_neg hbad))

theorem goodEcho_eq {count d : Nat} (hl : (s.port p).link ≠ .down) : goodEcho count d p s = s.updPort p fun q => { q with
    echoCounter := count, outstanding := none, delay := some d, losses := 0, link := .up
    echoDue := q.echoDue || decide (intervalOf q.link ≤ q.interval)
    ctr := { q.ctr with goodEchoes := min (q.ctr.goodEchoes + 1) 65535 } } := by
  have hup : (if (s.port p).link = .probing then Link.up else (s.port p).link) = .up := by
    cases h : (s.port p).link <;> simp_all
  unfold goodEcho
  dsimp only
  by_cases hi : intervalOf (s.port p).link ≤ (s.port p).interval
  · rw [echoDueOp_due (by rw [State.port_updPort]; dsimp only; rw [hup]; decide) (by rw [State.port_updPort])
      (by rw [State.port_updPort]; exact hi), State.updPort_updPort]
    refine State.updPort_congr _ _ _ _ ?_
    rw [hup, decide_eq_true hi, Bool.or_true]
    rfl
  · rw [echoDueOp_early (by rw [State.port_updPort]; exact not_le.1 hi)]
    refine State.updPort_congr _ _ _ _ ?_
    rw [hup, decide_eq_false hi, Bool.or_false]
    rfl

/-- A port after it counted a stale echo (R40). -/
def staleCounted (q : PortState) : PortState := { q with ctr := { q.ctr with staleEchoes := min (q.ctr.staleEchoes + 1) 65535 } }

theorem staleEcho_eq (p : Port) (s : State) : staleEcho p s = s.updPort p staleCounted := rfl

/-- An answer that comes too late counts as stale after its echo was lost. -/
theorem EchoLost.stale {count : Nat} {lost q : PortState} (hr : Runs c s) (h : EchoLost c p count lost q s t) :
    EchoLost c p count (staleCounted lost) q s (staleEcho p t) := by
  have hrt : Runs c t := by rw [h.frame]; exact hr
  rw [staleEcho_eq]
  refine ⟨(State.port_updPort_other ..).trans h.other, ?_, fun hl hi => ?_, fun hl hi => ?_, fun hl => ?_⟩
  · rw [h.frame]; rfl
  · obtain ⟨hp, hmp⟩ := h.keeps hl hi
    exact ⟨(State.port_updPort ..).trans (congrArg staleCounted hp), hmp⟩
  · obtain ⟨hp, hmp, -⟩ := h.due hl hi
    exact ⟨(State.port_updPort ..).trans (congrArg staleCounted hp), hmp, updPort_departs hrt _ (by rw [hp]; rfl)⟩
  · obtain ⟨hp, hmp⟩ := h.down hl
    exact ⟨(State.port_updPort ..).trans (congrArg staleCounted hp), hmp⟩

end

/-- Settles O18. -/
theorem echoAnswerMeasuresLink : Obligations.EchoAnswerMeasuresLink := by
  refine ⟨fun c p bytes n turn count d m s hr _ hm hf hl hcut ho hcount hle hd hturn hmax => ?_,
    fun c p bytes n turn count m s hr _ hm hf hl hcut ho hcount hle hbad => ?_,
    fun c p bytes n turn m s hr _ hm hf hl hcut ho hlate => ?_, fun c p bytes n turn m s hr _ hm hf hl hcut ho => ?_⟩
  · have hlink := fun h => hl ((atMoment_link hr m p).1.symm.trans h)
    have hdelay : echoDelay count turn = d := by rw [echoDelay]; omega
    refine ⟨?_, fun hdue => requestDeparts_of (atMoment_runs hr) hdue⟩
    rw [exec_answer hr hm hf (takesIn_up hlink hcut), takeAnswer_good ho hcount hle (by rw [hdelay]; omega), hdelay, Int.toNat_natCast,
      goodEcho_eq (by rw [State.port_updPort]; exact hlink), State.updPort_updPort]
  · have hlink := fun h => hl ((atMoment_link hr m p).1.symm.trans h)
    have hrs := atMoment_runs (m := m) hr
    have hexec := exec_answer hr hm hf (takesIn_up hlink hcut)
    rw [takeAnswer_bad ho hcount hle (by rw [echoDelay]; omega)] at hexec
    have hloss := echoLoss_lost (s := (atMoment m s).updPort p fun q => { q with turnaround := turn }) (p := p) hrs count
      (by rw [State.port_updPort]; exact hlink)
    rw [State.port_updPort] at hloss
    exact ⟨_, hexec, hloss.before.other, hloss.before.frame, hloss.keeps, hloss.due, hloss.down⟩
  · have hlink := fun h => hl ((atMoment_link hr m p).1.symm.trans h)
    have hrs := atMoment_runs (m := m) hr
    have hexec := exec_answer hr hm hf (takesIn_up hlink hcut)
    rw [takeAnswer_late ho hlate] at hexec
    have hloss := (echoTimeoutOp_lost hrs (by rw [ho]; rfl) hlink).stale hrs
    exact ⟨_, hexec, hloss.other, hloss.frame, hloss.keeps, hloss.due, hloss.down⟩
  · rw [exec_answer hr hm hf (takesIn_of hr hl hcut), takeAnswer_other ho]
    rfl

/-! ### Frames of the own bay number -/

theorem exec_bay {c : Settings} {p : Port} {bytes : List Byte} {f : BayFrame} {m : Nat} {s : State} (hr : Runs c s)
    (hm : m < 10000) (hf : checkFrame bytes = some (.bay f)) (hl : (s.port p).link = .up)
    (hcut : Uncut (s.port p) (atMoment m s).su.lt 128) :
    exec (.bayFrameReceived p bytes m) s = .next (takeBay c p f ((atMoment m s).su.lt - 128) (atMoment m s)) := by
  rw [exec_reception (p := p) (bytes := bytes) hr hm _ (by simp), reception_bay (takesIn_of hr (.inl (by rw [hl]; decide)) hcut) hf
    ((atMoment_link hr m p).1.trans hl)]

/-- Settles O20. -/
theorem ownFrameReturns : Obligations.OwnFrameReturns := by
  intro c p bytes f m s hr _ hm hf hl hcut hsource
  have hexec := exec_bay hr hm hf hl hcut
  have hsc : (atMoment m s).sc = s.sc := by simp
  dsimp only
  generalize (atMoment m s).su.lt - 128 = arrival at hexec
  generalize atMoment m s = u at hexec hsc
  refine ⟨fun htag => ⟨_, hexec, ?_⟩, fun htag => ⟨_, hexec, ?_⟩⟩
  · rw [show takeBay c p f arrival u = ownReturn p f.seqNo (u.updPort p fun q =>
      { q with ctr := { q.ctr with framesReceived := bump q.ctr.framesReceived } }) from (if_pos hsource).trans (if_pos htag),
      ownReturn]
    dsimp only
    refine ⟨by cases p <;> rfl, by simp [bump], by simp, fun e => ?_⟩
    simp
  · rw [show takeBay c p f arrival u = duplicateBay p (u.updPort p fun q =>
      { q with ctr := { q.ctr with framesReceived := bump q.ctr.framesReceived } }) from (if_pos hsource).trans (if_neg htag),
      duplicateBay, ← hsc]
    cases p <;> rfl

end Sys2Proof.Machine

/-! PROOFS. The end of a transmission, and the arbiters' choice at each tick (section 3.7). -/

namespace Sys2Proof.Machine

open Sys2Proof

/-! ### The order of R53 at one port -/

section
variable {c : Settings} {lt : Ticks} {q : PortState}

theorem arbitratePort_idle (htx : q.tx = none) (ha : q.answer = none) (he : q.echoDue = false) (hl : q.link ≠ .up) :
    arbitratePort c lt q = q := by
  simp only [arbitratePort, htx, ha, he, hl, Bool.false_eq_true, if_false]

theorem arbitratePort_up (htx : q.tx = none) (ha : q.answer = none) (he : q.echoDue = false) (hl : q.link = .up) :
    arbitratePort c lt q = sendBay lt q := by
  simp only [arbitratePort, htx, ha, he, hl, Bool.false_eq_true, if_false, if_true]

theorem sendBay_own {o : OwnFrame} (h : q.own = some o) : sendBay lt q =
    if (lt - o.instant).toNat > 4000000 then
      sendTransit lt { q with own := none, ctr := { q.ctr with agedDrops := bump q.ctr.agedDrops } } q.transit
    else sendOwn lt o q := by
  simp only [sendBay, h]

theorem sendBay_transit (h : q.own = none) : sendBay lt q = sendTransit lt q q.transit := by
  simp only [sendBay, h]

theorem arbitratePort_queue (htx : q.tx = none) (ha : q.answer = none) (he : q.echoDue = false) (hl : q.link = .up) (ho : q.own = none) :
    arbitratePort c lt q = sendTransit lt q q.transit := by
  rw [arbitratePort_up htx ha he hl, sendBay_transit ho]

/-- The transit queue's choice goes by the queue that it is given. -/
theorem sendTransit_queue (l m : List Transit) : ∀ q, sendTransit lt { q with transit := m } l = sendTransit lt q l := by
  induction l with
  | nil => exact fun _ => rfl
  | cons x rest ih =>
    intro q
    unfold sendTransit
    split
    · exact ih { q with ctr := { q.ctr with latencyDrops := bump q.ctr.latencyDrops } }
    · split
      · exact ih { q with ctr := { q.ctr with agedDrops := bump q.ctr.agedDrops } }
      · rfl

/-- The direction at the departure of an own frame (R57). -/
theorem departList_eq (n : SeqNo) (q : PortState) : departList n q = { q with
    departed := q.departed.filter (fun e => !overdue n e) ++ [n]
    opened := q.opened || q.departed.any (overdue n)
    ctr := { q.ctr with
      ringOpenEvents := if q.departed.any (overdue n) && !q.opened then bump q.ctr.ringOpenEvents else q.ctr.ringOpenEvents } } := by
  unfold departList
  cases hany : q.departed.any (overdue n) with
  | true => cases ho : q.opened <;> rfl
  | false =>
    have hkept : q.departed.filter (fun e => !overdue n e) = q.departed := by
      rw [List.filter_eq_self]
      intro e he
      rw [Bool.eq_false_of_not_eq_true (List.any_eq_false.1 hany e he)]
      rfl
    simp only [Bool.false_eq_true, if_false, hkept, Bool.or_false, Bool.false_and]

theorem opensRing_iff : opensRing lt q = true ↔ q.tx = none ∧ q.answer = none ∧ q.echoDue = false ∧ q.link = .up ∧ ∃ o, q.own = some o ∧
    (lt - o.instant).toNat ≤ 4000000 ∧ ∃ e ∈ q.departed, 8 ≤ (o.frame.seqNo - e).toNat ∧ (o.frame.seqNo - e).toNat ≤ 32767 := by
  have hany : ∀ n, q.departed.any (overdue n) = true ↔ ∃ e ∈ q.departed, 8 ≤ (n - e).toNat ∧ (n - e).toNat ≤ 32767 := fun n => by
    simp only [List.any_eq_true, overdue, decide_eq_true_eq]
  unfold opensRing
  split
  next o htx ha ho =>
    simp only [Bool.and_eq_true, Bool.not_eq_true', decide_eq_true_eq, hany, htx, ha, ho, true_and, Option.some.injEq, and_assoc,
      exists_eq_left']
  next hno =>
    refine ⟨nofun, ?_⟩
    rintro ⟨htx, ha, -, -, o, ho, -⟩
    exact absurd ho (hno o htx ha)

end

/-! ### The order of R53 at a tick -/

theorem exec_transmissionEnd {c : Settings} {p : Port} {s : State} (hr : Runs c s) :
    (∀ x, ((settle s).port p).tx = some x → exec (.transmissionEnd p) s = .next (transmissionEndOp p (advanceToEnd x s))) ∧
    (((settle s).port p).tx = none → exec (.transmissionEnd p) s = .next s) := by
  rw [settle_eq hr]
  refine ⟨fun x hx => congrArg Host.Outcome.next ((whileRunning_eq hr).trans ?_),
    fun hx => congrArg Host.Outcome.next ((whileRunning_eq hr).trans ?_)⟩ <;> simp only [hx]

theorem settle_opens {c : Settings} {s : State} (hr : Runs c s) : settle s =
    { s with
      ri := { s.ri with east := (settle s).port .east, west := (settle s).port .west }
      mp := { s.mp with
        flags := if opensRing s.su.lt (s.port .east) || opensRing s.su.lt (s.port .west) then s.mp.flags ||| BitVec.twoPow 19 5
          else s.mp.flags } } := by
  rw [settle_port hr, settle_port hr, settle_eq hr, arbitrateBoth_flags]
  cases opensRing s.su.lt (s.port .east) || opensRing s.su.lt (s.port .west) <;> rfl

/-- Settles O22. -/
theorem transmissionEnds : Obligations.TransmissionEnds := by
  refine ⟨fun c p s hr => ⟨fun x hx => ?_, (exec_transmissionEnd hr).2⟩, fun c k tcs o s hr => ?_, fun c s hr => ?_, fun c p s hr => ?_⟩
  · rw [(exec_transmissionEnd hr).1 x hx, advanceToEnd, advanceBy, advanceTo_eq hr.1]
    rfl
  · rw [exec_epoch k tcs o hr, exec_epoch k tcs o (settle_runs hr), settle_eq hr, arbitrateBoth_again]
  · have hform := settle_opens hr
    refine ⟨?_, fun h => ?_, fun h => ?_⟩
    · rw [hform]; rfl
    · obtain ⟨p, hp⟩ := h
      have hopens := opensRing_iff.2 hp
      have hor : (opensRing s.su.lt (s.port .east) || opensRing s.su.lt (s.port .west)) = true := by
        cases p <;> rw [hopens] <;> simp
      rw [hform, hor]
      rfl
    · have hno : ∀ p, opensRing s.su.lt (s.port p) = false := fun p => Bool.eq_false_of_not_eq_true fun hp => h p (opensRing_iff.1 hp)
      rw [hform, hno, hno]
      rfl
  · have hafter : ∀ f, (settle (s.updPort p f)).port p = arbitratePort c s.su.lt (f (s.port p)) := fun f => by
      rw [settle_port (show Runs c (s.updPort p f) from hr), State.port_updPort]; rfl
    have hqueue : ∀ q : PortState, q.tx = none → q.answer = none → q.echoDue = false → q.link = .up → q.own = none → ∀ rest,
        arbitratePort c s.su.lt { q with transit := rest } = sendTransit s.su.lt q rest := fun q htx ha he hl ho rest =>
      (arbitratePort_queue (by exact htx) (by exact ha) (by exact he) (by exact hl) (by exact ho)).trans (sendTransit_queue rest rest q)
    dsimp only
    simp only [hafter]
    rw [settle_port hr]
    generalize s.port p = q
    generalize s.su.lt = lt at hqueue ⊢
    refine ⟨arbitratePort_busy c lt q, fun a htx ha => arbitratePort_answer htx ha,
      fun htx ha he => arbitratePort_due c lt q htx ha he, fun htx ha he => ⟨fun hidle => ?_, fun o hl ho => ?_, fun y rest hl ho ht => ?_⟩⟩
    · by_cases hl : q.link = .up
      · obtain ⟨ho, ht⟩ := hidle.resolve_left (not_not.2 hl)
        rw [arbitratePort_up htx ha he hl, sendBay_transit ho, ht, sendTransit, ← ht]
      · exact arbitratePort_idle htx ha he hl
    · rw [arbitratePort_up htx ha he hl, sendBay_own ho]
      refine ⟨fun hage => ?_, fun hage => ?_⟩
      · rw [if_neg (not_lt.2 hage), sendOwn, departList_eq]
        rfl
      · rw [if_pos hage]
        exact (arbitratePort_queue (by exact htx) (by exact ha) (by exact he) (by exact hl) rfl).symm
    · rw [arbitratePort_up htx ha he hl, sendBay_transit ho, ht, sendTransit]
      refine ⟨fun hlate => ?_, fun hin hage => ?_, fun hin hage => ?_⟩
      · exact (if_pos hlate).trans
          (hqueue { q with ctr := { q.ctr with latencyDrops := bump q.ctr.latencyDrops } } htx ha he hl ho rest).symm
      · exact (if_neg (not_lt.2 hin)).trans ((if_pos hage).trans
          (hqueue { q with ctr := { q.ctr with agedDrops := bump q.ctr.agedDrops } } htx ha he hl ho rest).symm)
      · exact (if_neg (not_lt.2 hin)).trans (if_neg (not_lt.2 hage))

end Sys2Proof.Machine

/-! PROOFS. A step with no command waiting (section 1.1 and log 1). -/

namespace Sys2Proof.Machine

open Sys2Proof

/-! ### What ends at a tick -/

/-- A port whose echo is lost at its counter's end (R38, R41). -/
def timedOut (lt : Ticks) (q : PortState) : PortState :=
  let lost := lostPort echoLimit { q with overflow := true }
  if lost.losses ≥ 3 then downPort 256 lt lost
  else { lost with echoDue := q.echoDue || decide (q.link ≠ .down ∧ intervalOf q.link ≤ q.interval) }

/-- A port once the echo whose counter runs out is lost. -/
def echoTicked (lt : Ticks) (q : PortState) : PortState :=
  if q.outstanding.isSome && q.echoNow lt == echoLimit then timedOut lt q else q

/-- A port once the transmission that has its ticks has ended. -/
def linkTicked (lt : Ticks) (q : PortState) : PortState :=
  match q.tx with
  | some x => if (lt - x.start).toNat ≥ x.ticks then { q with tx := none } else q
  | none => q

section
variable {p : Port} {s : State}

theorem echoDueOp_port (l : Link) : (echoDueOp l p s).port p = { s.port p with
    echoDue := (s.port p).echoDue || decide ((s.port p).link ≠ .down ∧ (s.port p).outstanding = none ∧
      intervalOf l ≤ (s.port p).interval) } := by
  unfold echoDueOp
  rw [echoInterval_intervalOf]
  dsimp only
  split
  next h => rw [State.port_updPort, decide_eq_true (p := _ ∧ _) h, Bool.or_true]
  next h => rw [decide_eq_false (p := _ ∧ _) h, Bool.or_false]

theorem echoTimeoutOp_port (ho : (s.port p).outstanding.isSome = true) :
    (echoTimeoutOp p s).port p = timedOut s.su.lt (s.port p) := by
  obtain ⟨n, hn⟩ := Option.isSome_iff_exists.1 ho
  rw [show echoTimeoutOp p s = echoLoss echoLimit p (s.updPort p fun q => { q with overflow := true }) by
    simp only [echoTimeoutOp, hn], echoLoss_eq, State.port_updPort, timedOut]
  split
  · rw [enterDown_port, State.port_updPort, State.port_updPort]; rfl
  · rw [echoDueOp_port, State.port_updPort, State.port_updPort]
    simp only [lostPort, true_and]

theorem echoTimeoutOp_other : (echoTimeoutOp p s).port (otherPort p) = s.port (otherPort p) := by
  unfold echoTimeoutOp
  split
  · rw [echoLoss_other, State.port_updPort_other]
  · rfl

theorem tickEcho_port : (tickEcho p s).port p = echoTicked s.su.lt (s.port p) := by
  unfold tickEcho echoTicked
  split
  next h => exact echoTimeoutOp_port (Bool.and_eq_true _ _ ▸ h).1
  next => rfl

theorem tickEcho_other : (tickEcho p s).port (otherPort p) = s.port (otherPort p) := by
  unfold tickEcho
  split
  · exact echoTimeoutOp_other
  · rfl

theorem tickTransmission_port : (tickTransmission p s).port p = linkTicked s.su.lt (s.port p) := by
  unfold tickTransmission linkTicked
  cases (s.port p).tx with
  | none => rfl
  | some x =>
    dsimp only
    split
    · exact State.port_updPort ..
    · rfl

theorem tickTransmission_other : (tickTransmission p s).port (otherPort p) = s.port (otherPort p) := by
  unfold tickTransmission
  split
  · split
    · exact State.port_updPort_other ..
    · rfl
  · rfl

end

/-- What ends at a tick, East before West (log 4). -/
def tickEnds (s : State) : State := tickTransmission .west (tickTransmission .east (tickEcho .west (tickEcho .east s)))

theorem tickEnds_port (p : Port) (s : State) : (tickEnds s).port p = linkTicked s.su.lt (echoTicked s.su.lt (s.port p)) := by
  have hlt : ∀ p (u : State), (tickEcho p u).su.lt = u.su.lt := fun p u => by simp
  have hlt' : ∀ p (u : State), (tickTransmission p u).su.lt = u.su.lt := fun p u => by simp
  unfold tickEnds
  cases p with
  | east =>
    rw [show Port.east = otherPort .west from rfl, tickTransmission_other, show otherPort .west = Port.east from rfl,
      tickTransmission_port, show Port.east = otherPort .west from rfl, tickEcho_other, show otherPort .west = Port.east from rfl,
      tickEcho_port, hlt, hlt]
  | west =>
    rw [tickTransmission_port, show Port.west = otherPort .east from rfl, tickTransmission_other, show otherPort .east = Port.west from rfl,
      tickEcho_port, show Port.west = otherPort .east from rfl, tickEcho_other, hlt', hlt, hlt]

theorem linkTicked_eq (lt : Ticks) (q : PortState) : linkTicked lt q = { q with tx := (linkTicked lt q).tx } := by
  unfold linkTicked
  cases q.tx with
  | none => rfl
  | some x => dsimp only; split <;> rfl

theorem timedOut_tx (lt : Ticks) (q : PortState) : (timedOut lt q).tx = q.tx ∨ (timedOut lt q).tx = none := by
  unfold timedOut
  dsimp only
  split
  · exact .inr rfl
  · exact .inl rfl

/-- The counter of an outstanding request stands at its end (R38). -/
theorem echoNow_end {q : PortState} {n : BitVec 8} {lt : Ticks} (ho : q.outstanding = some n) :
    (q.outstanding.isSome && q.echoNow lt == echoLimit) = true ↔ 40000 ≤ (lt - q.echoStart).toNat := by
  rw [echoNow_eq, ho]
  simp only [Option.isSome_some, if_true, Bool.true_and, beq_iff_eq, echoLimit]
  omega

/-- What R41 gives of a lost echo, its counter at its end. -/
theorem timedOut_lost {q : PortState} (hl : q.link ≠ .down) (lt : Ticks) :
    (timedOut lt q).outstanding = none ∧ (timedOut lt q).echoCounter = 40000 ∧ (timedOut lt q).overflow = true ∧
    (timedOut lt q).ctr.echoLosses = min (q.ctr.echoLosses + 1) 65535 ∧
    (q.losses < 2 → (timedOut lt q).link = q.link ∧ (timedOut lt q).losses = q.losses + 1) ∧
    (q.losses = 2 → (timedOut lt q).link = .down ∧ (timedOut lt q).hold = 256) := by
  have hlosses : (lostPort echoLimit { q with overflow := true }).losses = min (q.losses + 1) 3 := rfl
  unfold timedOut
  dsimp only
  split
  next h =>
    rw [downPort_up (q := lostPort echoLimit { q with overflow := true }) hl]
    exact ⟨rfl, rfl, rfl, rfl, fun h2 => by omega, fun _ => ⟨rfl, rfl⟩⟩
  next h => exact ⟨rfl, rfl, rfl, rfl, fun h2 => ⟨rfl, hlosses.trans (by omega)⟩, fun h2 => by omega⟩

section
variable {p : Port} {s : State}

theorem tickEcho_early (h : (s.port p).outstanding = none ∨ (s.su.lt - (s.port p).echoStart).toNat < 40000) : tickEcho p s = s := by
  refine if_neg fun hend => ?_
  cases ho : (s.port p).outstanding with
  | none => rw [ho] at hend; cases hend
  | some n =>
    have hle := (echoNow_end ho).1 hend
    exact h.elim (fun h => by rw [ho] at h; cases h) fun h => by omega

theorem tickTransmission_early (h : ∀ x, (s.port p).tx = some x → (s.su.lt - x.start).toNat < x.ticks) : tickTransmission p s = s := by
  unfold tickTransmission
  split
  next x hx => exact if_neg (not_le.2 (h x hx))
  next => rfl

theorem echoLoss_flags {n : Nat} : (echoLoss n p s).mp.flags = s.mp.flags ∨
    (echoLoss n p s).mp.flags = s.mp.flags ||| BitVec.twoPow 19 (linkDownBit p) := by
  rw [echoLoss_eq]
  split
  · rw [enterDown, raiseIf_mp]
    split
    · right; cases p <;> rfl
    · exact .inl rfl
  · left; simp

theorem tickEcho_flags : (tickEcho p s).mp.flags = s.mp.flags ∨
    (tickEcho p s).mp.flags = s.mp.flags ||| BitVec.twoPow 19 (linkDownBit p) := by
  unfold tickEcho echoTimeoutOp
  split
  · split
    · exact echoLoss_flags
    · exact .inl rfl
  · exact .inl rfl

theorem tickEcho_keeps_flag {i : Nat} (h : s.mp.flags.getLsbD i = true) : (tickEcho p s).mp.flags.getLsbD i = true := by
  rcases tickEcho_flags (p := p) (s := s) with hf | hf <;> rw [hf]
  · exact h
  · rw [BitVec.getLsbD_or, h, Bool.true_or]

theorem tickEcho_down {c : Settings} {n : BitVec 8} (hr : Runs c s) (ho : (s.port p).outstanding = some n)
    (hend : 40000 ≤ (s.su.lt - (s.port p).echoStart).toNat) (hl : (s.port p).link ≠ .down) (hlosses : (s.port p).losses = 2) :
    (tickEcho p s).mp.flags.getLsbD (linkDownBit p) = true := by
  have htick : tickEcho p s = echoTimeoutOp p s := if_pos ((echoNow_end ho).2 hend)
  rw [htick, ((echoTimeoutOp_lost hr (by rw [ho]; rfl) hl).down hlosses).2]
  cases p <;> simp [linkDownBit]

end

/-- What ends at the tick that a running station has come to. -/
theorem tickEnds_ends {c : Settings} {u : State} (hr : Runs c u) : TickEnds u (tickEnds u) where
  ended p x hx hend := by
    have htx : (echoTicked u.su.lt (u.port p)).tx = some x ∨ (echoTicked u.su.lt (u.port p)).tx = none := by
      unfold echoTicked
      split
      · rw [← hx]; exact timedOut_tx _ _
      · exact .inl hx
    rw [tickEnds_port, linkTicked]
    rcases htx with h | h <;> simp only [h]
    exact congrArg PortState.tx (if_pos hend)
  lost p n := by
    intro q ho hend hl
    have hport : (tickEnds u).port p = linkTicked u.su.lt (timedOut u.su.lt q) := by
      rw [tickEnds_port, echoTicked, if_pos ((echoNow_end ho).2 hend)]
    obtain ⟨hout, hcount, hover, hlosses, hkeeps, hdown⟩ := timedOut_lost hl u.su.lt
    rw [hport, linkTicked_eq]
    refine ⟨hout, hcount, hover, hlosses, hkeeps, fun h2 => ⟨(hdown h2).1, (hdown h2).2, ?_⟩⟩
    have hflags : (tickEnds u).mp.flags = (tickEcho .west (tickEcho .east u)).mp.flags := by
      have hmp : ∀ p (v : State), (tickTransmission p v).mp = v.mp := fun p v => by unfold tickTransmission; split; split; all_goals rfl
      rw [tickEnds, hmp, hmp]
    rw [hflags]
    cases p with
    | east => exact tickEcho_keeps_flag (tickEcho_down hr ho hend hl h2)
    | west =>
      have hsame : (tickEcho .east u).port .west = q := tickEcho_other
      have hlt : (tickEcho .east u).su.lt = u.su.lt := by simp
      exact tickEcho_down (runs_next hr (by simp) (by simp)) (by rw [hsame]; exact ho) (by rw [hsame, hlt]; exact hend)
        (by rw [hsame]; exact hl) (by rw [hsame]; exact h2)
  quiet htx hecho := by
    rw [tickEnds, tickEcho_early (hecho .east), tickEcho_early (hecho .west), tickTransmission_early (htx .east),
      tickTransmission_early (htx .west)]
  rest := by
    refine state_ext ?_ ?_ rfl ?_ ?_ ?_ ?_ ?_ ?_ (mp_flags ?_ ?_ ?_ ?_ ?_) ?_ ?_ ?_ <;> simp [tickEnds]

/-! ### A tick while epochs run -/

theorem step_idle {s : State} (h : s.pending = []) : step s = .next (tick s) := by
  simp only [step, h]

theorem tick_held {s : State} (h : s.held = true) : tick s = s := if_pos h

theorem tick_running {c : Settings} {s : State} (h : s.held = false) (hr : Runs c s) :
    tick s = tickEnds (clockTick c (settle s)) := by
  rw [settle_eq hr]
  simp only [tick, h, running_of hr, Bool.false_eq_true, if_false]
  rfl

theorem tick_stopped {s : State} (h : s.held = false) (hg : s.su.gen = .stopped) : tick s = tickStopped s := by
  have hr : s.running = none := by simp [State.running, hg]
  simp only [tick, h, hr, Bool.false_eq_true, if_false]

/-- The tick of a running station before the next epoch is due. -/
theorem clockTick_within {c : Settings} {s : State} (h : s.su.phase + 1 < 10000) :
    clockTick c (settle s) = atMoment (s.su.phase + 1) s := by
  have hsu : (settle s).su = s.su := by simp
  rw [clockTick, if_neg (by rw [hsu]; exact not_le.2 h), atMoment, if_neg (by omega), Nat.add_sub_cancel_left, passTicks,
    State.updSu, hsu]

theorem settle_kept {s t : State} (h : ∃ r f, t = { s with su := t.su, ri := r, mp := { s.mp with flags := f } }) :
    t.ciu = s.ciu ∧ t.pt = s.pt ∧ t.au = s.au ∧ t.ze = s.ze ∧ t.tu = s.tu ∧ t.sc = s.sc ∧ t.cs = s.cs ∧ t.pins = s.pins ∧
    t.free = s.free ∧ t.pending = s.pending := by
  obtain ⟨r, f, h⟩ := h
  rw [h]
  exact ⟨rfl, rfl, rfl, rfl, rfl, rfl, rfl, rfl, rfl, rfl⟩

theorem idleTick_within {c : Settings} {s : State} (hp : s.pending = []) (hh : s.held = false) (hr : Runs c s)
    (hphase : s.su.phase + 1 < 10000) : ∃ t, step s = .next t ∧ TickEnds (atMoment (s.su.phase + 1) s) t ∧
      t.su = { s.su with lt := s.su.lt + 1, phase := s.su.phase + 1 } ∧
      t.ciu = s.ciu ∧ t.pt = s.pt ∧ t.au = s.au ∧ t.ze = s.ze ∧ t.tu = s.tu ∧ t.sc = s.sc ∧ t.cs = s.cs ∧ t.pins = s.pins ∧
      t.free = s.free ∧ t.pending = s.pending ∧
      (∀ p x, ((settle s).port p).tx = some x → x.ticks ≤ (s.su.lt + 1 - x.start).toNat → (t.port p).tx = none) ∧
      ((∀ p x, ((settle s).port p).tx = some x → (s.su.lt + 1 - x.start).toNat < x.ticks) →
        (∀ p, ((settle s).port p).outstanding = none ∨ (s.su.lt + 1 - ((settle s).port p).echoStart).toNat < 40000) →
        t.ri = (settle s).ri ∧ t.mp = (settle s).mp) := by
  have hends := tickEnds_ends (atMoment_runs (m := s.su.phase + 1) hr)
  have hsu : (atMoment (s.su.phase + 1) s).su = { s.su with lt := s.su.lt + 1, phase := s.su.phase + 1 } := by
    rw [atMoment_su (Nat.le_succ _), show s.su.phase.succ - s.su.phase = 1 by omega]
    rfl
  have hri : (atMoment (s.su.phase + 1) s).ri = (settle s).ri ∧ (atMoment (s.su.phase + 1) s).mp = (settle s).mp := by
    rw [atMoment, if_neg (by omega)]
    exact ⟨rfl, rfl⟩
  have hport : ∀ p, (atMoment (s.su.phase + 1) s).port p = (settle s).port p := fun p => by rw [State.port, hri.1]; rfl
  have hlt : (atMoment (s.su.phase + 1) s).su.lt = s.su.lt + 1 := by rw [hsu]
  obtain ⟨r, hform⟩ := atMoment_form (s.su.phase + 1) s
  refine ⟨tickEnds (atMoment (s.su.phase + 1) s), by rw [step_idle hp, tick_running hh hr, clockTick_within hphase], hends, ?_⟩
  generalize tickEnds (atMoment (s.su.phase + 1) s) = t at hends
  generalize atMoment (s.su.phase + 1) s = u at hends hsu hri hport hlt hform
  have hrest := hends.rest
  have htsu : t.su = u.su := by rw [hrest]
  obtain ⟨k1, k2, k3, k4, k5, k6, k7, k8, k9, k10⟩ := settle_kept (s := s) (t := t) ⟨t.ri, t.mp.flags, by rw [hrest, hform]⟩
  refine ⟨htsu.trans hsu, k1, k2, k3, k4, k5, k6, k7, k8, k9, k10, fun p x hx hend => ?_, fun htx hecho => ?_⟩
  · exact hends.ended p x (by rw [hport]; exact hx) (by rw [hlt]; exact hend)
  · rw [hends.quiet (fun p x hx => by rw [hlt]; exact htx p x (hport p ▸ hx)) fun p => by rw [hport, hlt]; exact hecho p]
    exact hri

/-! ### A tick while epochs are stopped -/

theorem waiting_iff {u : Controller} : (!u.confirmed && decide (u.wait < waitLimit)) = true ↔ u.confirmed = false ∧ u.wait < 40000000 := by
  rw [Bool.and_eq_true, Bool.not_eq_true', decide_eq_true_eq, waitLimit]

theorem waitOp_start {s : State} (hst : s.sc.station = .start) (hheld : s.held = false) (hp : s.sc.powerUp = powerUpLimit)
    (hc : s.sc.confirmed = false) : waitOp s = raise .clock (s.updSc fun u => { u with wait := waitLimit }) :=
  if_pos ⟨hst, by simp [hheld], hp, by simp [hc]⟩

theorem tickStart_timed {s : State} (hh : s.held = false) : StartTimed s (tickStart s) where
  elsewhere h := if_neg h
  counts h hlt := by
    rw [tickStart, if_pos h, if_pos (by rw [powerUpLimit]; omega)]
    exact if_neg (by simp only [State.updSc, powerUpLimit]; omega)
  ends h he := by
    rw [tickStart, if_pos h, if_pos (by rw [powerUpLimit]; omega)]
    refine congrArg Host.Outcome.next ?_
    dsimp only
    rw [if_pos (by simp only [State.updSc, powerUpLimit]; omega), powerUpOp_start h hh, powerUpOp_start (by exact h) (by exact hh)]
    rfl
  waits h hpow hc hlt := by
    rw [tickStart, if_pos h, if_neg (by rw [hpow]; decide), if_pos (waiting_iff.2 ⟨hc, by omega⟩)]
    exact if_neg (by simp only [State.updSc, waitLimit]; omega)
  waitEnds h hpow hc he := by
    rw [tickStart, if_pos h, if_neg (by rw [hpow]; decide), if_pos (waiting_iff.2 ⟨hc, by omega⟩)]
    refine congrArg Host.Outcome.next ?_
    dsimp only
    rw [if_pos (by simp only [State.updSc, waitLimit]; omega), waitOp_start h hh hpow hc,
      waitOp_start (by exact h) (by exact hh) (by exact hpow) (by exact hc)]
    rfl
  stands h hpow hor := by
    rw [tickStart, if_pos h, if_neg (by rw [hpow]; decide)]
    refine if_neg fun hw => ?_
    obtain ⟨hc, hlt⟩ := waiting_iff.1 hw
    rcases hor with h1 | h1
    · rw [h1] at hc; cases hc
    · omega

theorem leaveStart_held (s : State) : (leaveStart s).held = s.held := by
  unfold leaveStart
  split <;> rfl

theorem tickStart_held (s : State) : (tickStart s).held = s.held := by
  have hpow : ∀ u : State, (powerUpOp u).held = u.held := fun u => by
    unfold powerUpOp
    split
    · exact leaveStart_held _
    · rfl
  have hwait : ∀ u : State, (waitOp u).held = u.held := fun u => by
    unfold waitOp
    split <;> rfl
  unfold tickStart
  dsimp only
  split
  · split
    · split
      · exact hpow _
      · rfl
    · split
      · split
        · exact hwait _
        · rfl
      · rfl
  · rfl

/-- A confirmation reads neither the run nor the count that its last cycle leaves anew. -/
theorem confirmOp_run {k : Contacts} {s : State} {n g : Nat} (hh : s.held = false) (hc : s.sc.confirmed = false)
    (h : s.sc.lastCycle = some n) :
    confirmOp k (s.updSc fun u => { u with goodRun := g, lastCycle := some n }) = confirmOp k s := by
  have hsc : (s.updSc fun u => { u with goodRun := g, lastCycle := some n }).updSc confirmed = s.updSc confirmed := by
    simp only [State.updSc, confirmed, h]
  have hno : (s.held || s.sc.confirmed) = false := by rw [hh, hc]; rfl
  have hno' : ((s.updSc fun u => { u with goodRun := g, lastCycle := some n }).held ||
    (s.updSc fun u => { u with goodRun := g, lastCycle := some n }).sc.confirmed) = false := hno
  rw [confirmOp, confirmOp, hno, hno', if_neg Bool.false_ne_true, if_neg Bool.false_ne_true, hsc]

/-- A good cycle of an UNCONFIRMED monitor (R162). -/
theorem measureCycle_good {k : Contacts} {s : State} {n : Nat} (hh : s.held = false) (hc : s.sc.confirmed = false)
    (hl : s.sc.lastCycle = some n) (hn : n ≤ 64) : measureCycle k (some n) s =
      let t := s.updSc fun u => { u with goodRun := upTo 1024 u.goodRun, lastCycle := some n }
      if t.sc.goodRun = 1024 then confirmOp k t else t := by
  have hedge : edgeInTime (some n) = some n := by simp [edgeInTime, hn]
  have hgood : cycleGood n n = true := by simp [cycleGood]
  simp only [measureCycle, hh, hedge, hl, hgood, hc, Bool.false_eq_true, if_false, if_true]

/-- The first cycle of a monitor leaves its count to compare the next with (R162). -/
theorem measureCycle_first {k : Contacts} {s : State} (hh : s.held = false) (hc : s.sc.confirmed = false) (hl : s.sc.lastCycle = none) :
    measureCycle k (some nominalCycle) s = s.updSc fun u => { u with goodRun := 0, lastCycle := some 16 } := by
  have hedge : edgeInTime (some nominalCycle) = some 16 := by decide
  simp only [measureCycle, hh, hedge, hl, hc, Bool.false_eq_true, if_false]

/-- The cycle that an idle tick measures, of a station that is not held. -/
def cycleTick (s : State) : State :=
  if s.sc.confirmed then s else measureCycle s.pins.contacts (some (s.sc.lastCycle.getD nominalCycle)) s

theorem cycleTick_ticked {u : State} (hh : u.held = false) : MonitorTicked u (cycleTick u) where
  confirmed h := if_pos h
  first hc hl := by
    rw [cycleTick, if_neg (by simp [hc]), hl]
    exact measureCycle_first hh hc hl
  run hc n hl hn hrun := by
    have hmeasure := measureCycle_good (k := u.pins.contacts) hh hc hl hn
    rw [cycleTick, hc, hl]
    refine hmeasure.trans ((if_neg ?_).trans ?_)
    · simp only [State.updSc, upTo]; omega
    · simp only [State.updSc, upTo, ← hl]
      rw [Nat.min_eq_left (by omega)]
  done hc n hl hn hrun := by
    have hmeasure := measureCycle_good (k := u.pins.contacts) hh hc hl hn
    rw [cycleTick, hc, hl]
    refine congrArg Host.Outcome.next ?_
    refine .trans ?_ (hmeasure.trans (if_pos ?_)).symm
    · exact (confirmOp_run hh hc hl).symm
    · simp only [State.updSc, upTo]; omega

/-- Settles O2. -/
theorem idleStepIsOneTick : Obligations.IdleStepIsOneTick := by
  refine ⟨fun s hp hh => ?_, fun s hp hh hg => ?_, fun s c hp hh hr hphase => ?_,
    fun s c hp hh hr hphase => idleTick_within hp hh hr hphase⟩
  · rw [step_idle hp, tick_held hh]
  · exact ⟨tickStart s, cycleTick (tickStart s), by rw [step_idle hp, tick_stopped hh hg]; rfl, tickStart_timed hh,
      cycleTick_ticked ((tickStart_held s).trans hh)⟩
  · refine ⟨_, _, exec_epoch _ _ _ hr, step_idle hp, ?_⟩
    have hclock : clockTick c (settle s) = epochParts c s.pins.contacts s.pins.tcs ⟨.beforeChoice, true, true⟩ (arbitrateBoth c s) := by
      rw [settle_eq hr, clockTick, if_pos (by rw [arbitrateBoth_su]; exact hphase)]
      simp only [arbitrateBoth_pins]
      rfl
    rw [tick_running hh hr, hclock]
    exact tickEnds_ends (epochParts_runs (settle_eq hr ▸ settle_runs hr))

end Sys2Proof.Machine

/-! PROOFS. The freshness of the entries and its marks (sections 4.5 and 4.6). -/

namespace Sys2Proof.Machine

open Sys2Proof

/-! ### An entry at an epoch -/

/-- A part of an epoch that leaves the entry of b, and takes no flag down. -/
structure EntryKept (b : Bay) (s t : State) : Prop where
  entry : t.entry b = s.entry b
  size : s.pt.entries.length = 24 → t.pt.entries.length = 24
  chans : t.su.chans = s.su.chans
  flags : ∀ i, s.mp.flags.getLsbD i = true → t.mp.flags.getLsbD i = true

section
variable {b : Bay} {s t u : State}

theorem EntryKept.refl (s : State) : EntryKept b s s := ⟨rfl, id, rfl, fun _ h => h⟩

theorem EntryKept.trans (h : EntryKept b s t) (h' : EntryKept b t u) : EntryKept b s u :=
  ⟨h'.entry.trans h.entry, h'.size ∘ h.size, h'.chans.trans h.chans, fun i hi => h'.flags i (h.flags i hi)⟩

theorem EntryKept.of_grows {F : State → State} (hpt : (F s).pt = s.pt) (hchans : (F s).su.chans = s.su.chans) (h : Grows F) :
    EntryKept b s (F s) := ⟨by rw [State.entry, hpt]; rfl, by rw [hpt]; exact id, hchans, h s⟩

theorem EntryKept.stageIf {f : State → State} {x : Bool} (h : ∀ s, EntryKept b s (f s)) : EntryKept b s (stageIf x f s) := by
  cases x
  · exact .refl s
  · exact h s

end

theorem lateEvent_entryKept {c : Settings} {b : Bay} {s : State}
    (h : b ≠ c.bay ∨ ∀ ph ch, (s.su.chans.get ph).get ch ≠ .converting) : EntryKept b s (lateEvent c s) := by
  by_cases hany : anyConverting s.su.chans = true
  · have hb : b ≠ c.bay := h.resolve_right fun hno => by
      obtain ⟨ph, ch, hc⟩ := (anyConverting_iff _).1 hany
      exact hno ph ch hc
    refine ⟨(lateEvent_peers c s).1 b hb, fun hsize => ?_, lateEvent_chans c s, lateEvent_grows c s⟩
    rw [lateEvent, if_pos hany]
    cases hf : s.su.flight with
    | none => simpa only [ownSampleEvent, hf] using hsize
    | some f => exact (ownSampleEvent_own hf hsize).1
  · rw [lateEvent, if_neg hany]
    exact .refl s

theorem contactEpoch_chans (c : Settings) (k : Contacts) (tcs : Bool) (s : State) :
    (contactEpoch c k (clockEpoch k tcs s).su.epoch (clockEpoch k tcs s)).su.chans = s.su.chans := by simp [clockEpoch]

theorem contactEpoch_table (c : Settings) (k : Contacts) (tcs : Bool) (s : State) :
    (contactEpoch c k (clockEpoch k tcs s).su.epoch (clockEpoch k tcs s)).pt = s.pt := by simp

/-- The entry of a bay at an epoch whose late own sample event, if any, is not of that bay: it ages, and the flags that come of it stay. -/
theorem epochParts_aged {c : Settings} (k : Contacts) (tcs : Bool) (o : EpochOrder) {s : State} {b : Bay}
    (hlate : b ≠ c.bay ∨ ∀ ph ch, (s.su.chans.get ph).get ch ≠ .converting) : ∃ u, u.entry b = s.entry b ∧
    (s.pt.entries.length = 24 → u.pt.entries.length = 24) ∧ (epochParts c k tcs o s).entry b = (peerEpoch c u).entry b ∧
    ∀ i, (peerEpoch c u).mp.flags.getLsbD i = true → (epochParts c k tcs o s).mp.flags.getLsbD i = true := by
  have hz := contactEpoch_chans c k tcs s
  have hpt := contactEpoch_table c k tcs s
  rw [epochParts_split]
  unfold beforeChoice afterChoice
  generalize contactEpoch c k (clockEpoch k tcs s).su.epoch (clockEpoch k tcs s) = z at hz hpt
  have hentry : z.entry b = s.entry b := by rw [State.entry, hpt]; rfl
  have late : ∀ {x : Bool} {u v : State}, u.su.chans = s.su.chans → EntryKept b u v → EntryKept b u (stageIf x (lateEvent c) v) :=
    fun {x u v} hu hv => by
      cases x
      · exact hv
      · exact hv.trans (lateEvent_entryKept (by rwa [hv.chans, hu]))
  have ring : ∀ (x : Bool) (u : State), EntryKept b u (stageIf x ringEpoch u) := fun x u =>
    .stageIf fun v => .of_grows (by simp) (by simp) ringEpoch_grows
  have choice : ∀ u, EntryKept b u (choiceStage c u) := fun u => .of_grows (by simp) (by simp) (choiceStage_grows c)
  have supervised : ∀ u, EntryKept b u (supervisionEpoch (chosenAt u) u) := fun u =>
    .of_grows (F := supervisionEpoch (chosenAt u)) (by simp) (by simp) (supervisionEpoch_grows _)
  dsimp only
  have hu := late (x := decide (o.late = .beforeChoice)) hz (.refl z)
  generalize stageIf (decide (o.late = .beforeChoice)) (lateEvent c) z = u at hu
  have hlast : ∀ {v w : State}, v.su.chans = s.su.chans → EntryKept b v w → EntryKept b v
      (stageIf (decide (o.late = .afterSupervision)) (lateEvent c) (supervisionEpoch
        (chosenAt (stageIf (decide (o.late = .afterChoice)) (lateEvent c) (choiceStage c (stageIf o.linksFirst ringEpoch w))))
        (stageIf (decide (o.late = .afterChoice)) (lateEvent c) (choiceStage c (stageIf o.linksFirst ringEpoch w))))) :=
    fun hv hw => late hv ((late hv ((hw.trans (ring _ _)).trans (choice _))).trans (supervised _))
  cases o.peersFirst with
  | true =>
    have hend := (hlast (by rw [peerEpoch_su, hu.chans, hz]) (.refl (peerEpoch c u))).trans (ring (!o.linksFirst) _)
    exact ⟨u, hu.entry.trans hentry, fun h => hu.size (by rwa [hpt]), hend.entry, hend.flags⟩
  | false =>
    have hv := hlast hz hu
    have hend := ring (!o.linksFirst) (peerEpoch c (stageIf (decide (o.late = .afterSupervision)) (lateEvent c) (supervisionEpoch
        (chosenAt (stageIf (decide (o.late = .afterChoice)) (lateEvent c) (choiceStage c (stageIf o.linksFirst ringEpoch u))))
        (stageIf (decide (o.late = .afterChoice)) (lateEvent c) (choiceStage c (stageIf o.linksFirst ringEpoch u))))))
    exact ⟨_, hv.entry.trans hentry, fun h => hv.size (by rwa [hpt]), hend.entry, hend.flags⟩

theorem mem_allBays (b : Bay) : b ∈ allBays := by
  revert b
  decide

/-! ### The alarm of an entry that goes STALE -/

theorem ageEntry_grows (c : Settings) (b : Bay) : Grows (ageEntry c b) := by
  intro s i h
  have hstale : ∀ u : State, u.mp.flags.getLsbD i = true → (peerStaleOp c b u).mp.flags.getLsbD i = true := fun u hu => by
    unfold peerStaleOp
    dsimp only
    split
    · exact raiseIf_grows _ _ _ _ hu
    · exact hu
  have habsent : ∀ u : State, (peerAbsentOp c b u).mp = u.mp := fun u => by unfold peerAbsentOp; dsimp only; split <;> rfl
  have hjoin : ∀ u : State, (joiningResetOp c b u).mp = u.mp := fun u => by unfold joiningResetOp; dsimp only; split <;> rfl
  unfold ageEntry
  dsimp only
  rw [habsent]
  exact hstale _ (by rw [hjoin]; exact h)

/-- A LIVE peer entry that reaches its mark, and did not declare ISOLATED, sets PEER STALE (R73). -/
theorem ageEntry_stale {c : Settings} {b : Bay} {s : State} (hsize : s.pt.entries.length = 24) (hb : b ≠ c.bay)
    (hl : (s.entry b).presence = .live) (hn : 24 ≤ upTo 4095 (s.entry b).fresh) (hd : (s.entry b).declared ≠ some .isolated) :
    (ageEntry c b s).mp.flags.getLsbD 9 = true := by
  have habsent : ∀ u : State, (peerAbsentOp c b u).mp = u.mp := fun u => by unfold peerAbsentOp; dsimp only; split <;> rfl
  have hentry := setEntry_entry s b { s.entry b with fresh := upTo 4095 (s.entry b).fresh } hsize
  unfold ageEntry
  dsimp only
  rw [habsent]
  generalize s.setEntry b { s.entry b with fresh := upTo 4095 (s.entry b).fresh } = u at hentry
  have hjoin : joiningResetOp c b u = u := if_neg fun h => by rw [hentry, hl] at h; cases h.2.1
  rw [hjoin, peerStaleOp, if_pos ⟨hb, by rw [hentry]; exact hl, by rw [hentry]; exact hn⟩, hentry, decide_eq_true hd, raiseIf_mp,
    if_pos rfl]
  simp [withFlag, Alarm.bit]

theorem peerEpoch_stale {c : Settings} {b : Bay} {s : State} (hsize : s.pt.entries.length = 24) (hb : b ≠ c.bay)
    (hl : (s.entry b).presence = .live) (hn : 24 ≤ upTo 4095 (s.entry b).fresh) (hd : (s.entry b).declared ≠ some .isolated) :
    (peerEpoch c s).mp.flags.getLsbD 9 = true := by
  have key : ∀ (l : List Bay) (u : State), u.pt.entries.length = 24 → u.entry b = s.entry b → b ∈ l →
      (l.foldl (fun s b => ageEntry c b s) u).mp.flags.getLsbD 9 = true := by
    intro l
    induction l with
    | nil => exact fun _ _ _ h => nomatch h
    | cons x xs ih =>
      intro u hu he hmem
      rw [List.foldl_cons]
      by_cases hx : x = b
      · subst hx
        exact foldl_pres (P := fun t => t.mp.flags.getLsbD 9 = true) (fun t a ht => ageEntry_grows c a t 9 ht) _
          (ageEntry_stale hu hb (he ▸ hl) (he ▸ hn) (he ▸ hd))
      · obtain ⟨-, hother, hlen⟩ := ageEntry_entry c x u hu
        exact ih _ hlen ((hother b (Ne.symm hx)).trans he) ((List.mem_cons.1 hmem).resolve_left (Ne.symm hx))
  exact key allBays s hsize rfl (mem_allBays b)

/-! ### The marks -/

section
variable {c : Settings} {b : Bay} {e : PeerEntry}

/-- The three marks that an entry of some freshness may reach (R72, R73, R74). -/
def joinMark (c : Settings) (b : Bay) (e : PeerEntry) : PeerEntry :=
  if b ≠ c.bay ∧ e.presence = .joining ∧ e.fresh ≥ 4 then { e with joinRun := 0 } else e

@[inherit_doc joinMark]
def staleMark (c : Settings) (b : Bay) (e : PeerEntry) : PeerEntry :=
  if b ≠ c.bay ∧ e.presence = .live ∧ e.fresh ≥ 24 then staleEntry e else e

@[inherit_doc joinMark]
def absentMark (c : Settings) (b : Bay) (e : PeerEntry) : PeerEntry :=
  if b ≠ c.bay ∧ (e.presence = .stale ∨ e.presence = .joining) ∧ e.fresh ≥ 4000 then absentEntry e else e

theorem agedEntry_marks (c : Settings) (b : Bay) (e : PeerEntry) :
    agedEntry c b e = absentMark c b (staleMark c b (joinMark c b { e with fresh := min (e.fresh + 1) 4095 })) := rfl

theorem joinMark_none (h : b = c.bay ∨ e.presence ≠ .joining ∨ e.fresh < 4) : joinMark c b e = e :=
  if_neg fun ⟨hb, hp, hn⟩ => h.elim hb fun h => h.elim (· hp) (not_lt.2 hn)

theorem staleMark_none (h : b = c.bay ∨ e.presence ≠ .live ∨ e.fresh < 24) : staleMark c b e = e :=
  if_neg fun ⟨hb, hp, hn⟩ => h.elim hb fun h => h.elim (· hp) (not_lt.2 hn)

theorem absentMark_none (h : b = c.bay ∨ (e.presence ≠ .stale ∧ e.presence ≠ .joining) ∨ e.fresh < 4000) : absentMark c b e = e :=
  if_neg fun ⟨hb, hp, hn⟩ => h.elim hb fun h => h.elim (fun hno => hp.elim hno.1 hno.2) (not_lt.2 hn)

/-- An entry ages alone: the own one, and a peer's that reaches no mark. -/
theorem agedEntry_counts (h : b = c.bay ∨ e.presence = .absent ∨ e.presence = .conflict ∨
    (e.presence = .live ∧ min (e.fresh + 1) 4095 < 24) ∨ (e.presence = .joining ∧ min (e.fresh + 1) 4095 < 4) ∨
    (e.presence = .stale ∧ min (e.fresh + 1) 4095 < 4000)) : agedEntry c b e = { e with fresh := min (e.fresh + 1) 4095 } := by
  have hjoin : b = c.bay ∨ e.presence ≠ .joining ∨ min (e.fresh + 1) 4095 < 4 := by
    rcases h with h | h | h | ⟨h, -⟩ | ⟨-, h⟩ | ⟨h, -⟩ <;> simp [h]
  have hlive : b = c.bay ∨ e.presence ≠ .live ∨ min (e.fresh + 1) 4095 < 24 := by
    rcases h with h | h | h | ⟨-, h⟩ | ⟨h, -⟩ | ⟨h, -⟩ <;> simp [h]
  have hgone : b = c.bay ∨ (e.presence ≠ .stale ∧ e.presence ≠ .joining) ∨ min (e.fresh + 1) 4095 < 4000 := by
    rcases h with h | h | h | ⟨h, -⟩ | ⟨-, h⟩ | ⟨-, h⟩
    case inr.inr.inr.inr.inl => exact .inr (.inr (h.trans (by decide)))
    all_goals simp [h]
  rw [agedEntry_marks, joinMark_none hjoin, staleMark_none hlive, absentMark_none hgone]

theorem agedEntry_stale (hb : b ≠ c.bay) (hp : e.presence = .live) (h : 24 ≤ min (e.fresh + 1) 4095)
    (h' : min (e.fresh + 1) 4095 < 4000) : agedEntry c b e = staleEntry { e with fresh := min (e.fresh + 1) 4095 } := by
  rw [agedEntry_marks, joinMark_none (.inr (.inl (by simp [hp]))),
    show staleMark c b { e with fresh := min (e.fresh + 1) 4095 } = _ from if_pos ⟨hb, hp, h⟩]
  exact absentMark_none (.inr (.inr h'))

theorem agedEntry_joining (hb : b ≠ c.bay) (hp : e.presence = .joining) (h : 4 ≤ min (e.fresh + 1) 4095)
    (h' : min (e.fresh + 1) 4095 < 4000) : agedEntry c b e = { e with fresh := min (e.fresh + 1) 4095, joinRun := 0 } := by
  rw [agedEntry_marks, show joinMark c b { e with fresh := min (e.fresh + 1) 4095 } = _ from if_pos ⟨hb, hp, h⟩,
    staleMark_none (.inr (.inl (by simp [hp])))]
  exact absentMark_none (.inr (.inr h'))

theorem agedEntry_absent (hb : b ≠ c.bay) (hp : e.presence = .stale ∨ e.presence = .joining) (h : 4000 ≤ min (e.fresh + 1) 4095) :
    agedEntry c b e = absentEntry { e with fresh := min (e.fresh + 1) 4095 } := by
  have hlive : e.presence ≠ .live := by rcases hp with hp | hp <;> simp [hp]
  rw [agedEntry_marks]
  rcases hp with hp | hp
  · rw [joinMark_none (.inr (.inl (by simp [hp]))), staleMark_none (.inr (.inl (by exact hlive)))]
    exact if_pos ⟨hb, .inl hp, h⟩
  · rw [show joinMark c b { e with fresh := min (e.fresh + 1) 4095 } = _ from
      if_pos ⟨hb, hp, Nat.le_trans (by decide) h⟩,
      staleMark_none (.inr (.inl (by exact hlive)))]
    exact if_pos ⟨hb, .inr hp, h⟩

end

/-- Settles O23. -/
theorem freshnessMarks : Obligations.FreshnessMarks := by
  refine ⟨fun c b s hr hb hp hf => ?_, fun c b s hr hb hp hf => ?_, fun c b s hr hb hp hf => ?_, fun c k tcs o s hr hsize => ?_⟩
  · refine ⟨_, congrArg Host.Outcome.next ((whileRunning_eq hr).trans (if_pos ⟨hb, hp, hf⟩)), ?_, ?_⟩
    · cases decide ((s.entry b).declared ≠ some .isolated) <;> rfl
    · by_cases hd : (s.entry b).declared = some .isolated
      · rw [if_pos hd, decide_eq_false (not_not.2 hd)]; rfl
      · rw [if_neg hd, decide_eq_true hd]; rfl
  · exact congrArg Host.Outcome.next ((whileRunning_eq hr).trans (if_pos ⟨hb, hp, hf⟩))
  · exact congrArg Host.Outcome.next ((whileRunning_eq hr).trans (if_pos ⟨hb, hp, hf⟩))
  · refine ⟨_, exec_epoch k tcs o hr, fun b => ?_⟩
    have haged : (b ≠ c.bay ∨ ∀ ph ch, (s.su.chans.get ph).get ch ≠ .converting) →
        (epochParts c k tcs o (arbitrateBoth c s)).entry b = agedEntry c b (s.entry b) ∧
        (b ≠ c.bay → (s.entry b).presence = .live → 24 ≤ min ((s.entry b).fresh + 1) 4095 →
          (s.entry b).declared ≠ some .isolated → (epochParts c k tcs o (arbitrateBoth c s)).mp.flags.getLsbD 9 = true) := fun h => by
      obtain ⟨u, hu, hlen, he, hflags⟩ := epochParts_aged (c := c) (s := arbitrateBoth c s) k tcs o (by rwa [arbitrateBoth_su])
      have hentry : u.entry b = s.entry b := by rw [hu, State.entry, arbitrateBoth_pt]; rfl
      have hlen' := hlen (by rwa [arbitrateBoth_pt])
      refine ⟨by rw [he, peerEpoch_entry c u hlen', hentry], fun hb hp hn hd => hflags 9 ?_⟩
      exact peerEpoch_stale hlen' hb (hentry ▸ hp) (hentry ▸ hn) (hentry ▸ hd)
    refine ⟨fun hb hno => ?_, fun hb => ?_⟩
    · exact (haged (.inr hno)).1.trans (agedEntry_counts (.inl hb))
    · obtain ⟨he, hflag⟩ := haged (.inl hb)
      exact ⟨fun h => he.trans (agedEntry_counts (.inr h)),
        fun hp h h' => ⟨he.trans (agedEntry_stale hb hp h h'), hflag hb hp h⟩,
        fun hp h h' => he.trans (agedEntry_joining hb hp h h'), fun hp h => he.trans (agedEntry_absent hb hp h)⟩

end Sys2Proof.Machine

/-! PROOFS. A peer's frame is forwarded, delivered and judged (sections 3.5, 3.6 and 4.2 to 4.5). -/

namespace Sys2Proof.Machine

open Sys2Proof

/-! ### Forwarding -/

section
variable {c : Settings} {p : Port} {x : Transit} {s : State}

theorem queueTransit_down (h : (s.port p).link ≠ .up) : queueTransit p x s = s := if_neg h

theorem queueTransit_room (h : (s.port p).link = .up) (h' : (s.port p).transit.length < 4) :
    queueTransit p x s = s.updPort p fun q => { q with transit := q.transit ++ [x] } := (if_pos h).trans (if_pos h')

theorem queueTransit_full (h : (s.port p).link = .up) (h' : 4 ≤ (s.port p).transit.length) : queueTransit p x s =
    raise .transitOverflow ((s.updPort p fun q =>
      { q with ctr := { q.ctr with transitOverflows := bump q.ctr.transitOverflows } }).updRi fun r => { r with overflowQuiet := 0 }) :=
  (if_pos h).trans (if_neg (not_lt.2 h'))

/-- A frame on a free transmitter's port with nothing else to send goes at the tick at which it is queued (R50, R53). -/
theorem arbitratePort_forwards {lt : Ticks} {q : PortState} {f : BayFrame} {d : Nat} (htx : q.tx = none) (ha : q.answer = none)
    (he : q.echoDue = false) (hl : q.link = .up) (ho : q.own = none) (ht : q.transit = [⟨f, lt - 128, d⟩])
    (hage : f.age + d + 128 ≤ 4000000) : arbitratePort c lt q = { q with
      transit := [], tx := some ⟨bayBytes { f with age := f.age + d + 128 }, lt, 128⟩
      ctr := { q.ctr with forwarded := min (q.ctr.forwarded + 1) 65535 } } := by
  have hold : outgoingAge lt ⟨f, lt - 128, d⟩ = f.age + d + 128 := by
    simp only [outgoingAge, sub_sub_cancel]; rfl
  have hsince : ¬ since lt (lt - 128) > 2000 := by
    simp only [since, sub_sub_cancel]; decide
  rw [arbitratePort_queue htx ha he hl ho, ht, sendTransit, if_neg hsince, hold, if_neg (not_lt.2 hage)]
  rfl

end

/-- What the forwarding leaves of a station at whose port a frame arrives. -/
structure Forwarded (p : Port) (u v : State) : Prop where
  port : v.port p = u.port p
  quiet : v.ri.unexpectedQuiet = u.ri.unexpectedQuiet ∧ v.ri.unexpectedDetail = u.ri.unexpectedDetail
  form : v = { u with ri := v.ri, mp := { u.mp with flags := v.mp.flags } }

theorem queueTransit_forwarded (p : Port) (x : Transit) (s : State) : Forwarded p s (queueTransit (otherPort p) x s) := by
  by_cases hl : (s.port (otherPort p)).link = .up
  · rcases Nat.lt_or_ge (s.port (otherPort p)).transit.length 4 with h | h
    · rw [queueTransit_room hl h]
      refine ⟨State.port_updPort_other' .., ?_, rfl⟩
      cases p <;> exact ⟨rfl, rfl⟩
    · rw [queueTransit_full hl h]
      refine ⟨?_, ?_, rfl⟩
      · cases p <;> rfl
      · cases p <;> exact ⟨rfl, rfl⟩
  · rw [queueTransit_down hl]
    exact ⟨rfl, ⟨rfl, rfl⟩, rfl⟩

/-! ### Delivery -/

theorem takeFrame_grows (c : Settings) (b : Bay) (f : BayFrame) (t : Ticks) (p : Port) : Grows (takeFrame c b f t p) := by
  intro s i h
  unfold takeFrame
  dsimp only
  cases judgeFrame c.present (s.entry b) f t
  case conflict why => exact raise_grows _ _ _ h
  case accepted =>
    dsimp only
    split
    · exact h
    · exact TripOnly.grows (backtripRequest_tripOnly _ _ _ _) _ i h
  all_goals exact h

/-- What the delivery leaves of the ring but for the port of the frame. -/
structure DeliveredOn (p : Port) (v t : State) : Prop where
  other : t.port (otherPort p) = v.port (otherPort p)
  overflow : t.ri.overflowQuiet = v.ri.overflowQuiet
  flags : ∀ i, v.mp.flags.getLsbD i = true → t.mp.flags.getLsbD i = true
  runs : ∀ c, Runs c v → Runs c t

section
variable {c : Settings} {p : Port} {x : Transit} {v : State}

theorem deliver_foreign (h : x.frame.scheme ≠ c.scheme) : deliver c p x v =
    v.updPort p fun q => { q with ctr := { q.ctr with foreignFrames := bump q.ctr.foreignFrames } } := if_pos h

theorem deliver_unexpected (h : x.frame.scheme = c.scheme) (hi : installedSource c x.frame.source = none) : deliver c p x v =
    raise .unexpectedBay ((v.updPort p fun q => { q with ctr := { q.ctr with unexpectedBays := bump q.ctr.unexpectedBays } }).updRi
      fun r => { r with unexpectedQuiet := 0, unexpectedDetail := some x.frame.source }) := by
  rw [deliver, if_neg (not_not.2 h)]
  simp only [hi]

theorem deliver_installed {b : Bay} (h : x.frame.scheme = c.scheme) (hi : installedSource c x.frame.source = some b) :
    deliver c p x v = takeFrame c b x.frame (frameInstant x) p v := by
  rw [deliver, if_neg (not_not.2 h)]
  simp only [hi]

theorem deliver_on : DeliveredOn p v (deliver c p x v) := by
  have hruns : ∀ d, Runs d v → Runs d (deliver c p x v) := fun d hr => runs_next hr (by simp) (by simp)
  by_cases h : x.frame.scheme = c.scheme
  · cases hi : installedSource c x.frame.source with
    | none =>
      rw [deliver_unexpected h hi] at hruns ⊢
      exact ⟨by cases p <;> rfl, by cases p <;> rfl, fun i hf => raise_grows _ _ _ hf, hruns⟩
    | some b =>
      rw [deliver_installed h hi] at hruns ⊢
      exact ⟨by rw [State.port, takeFrame_ri]; rfl, by rw [takeFrame_ri], takeFrame_grows _ _ _ _ _ v, hruns⟩
  · rw [deliver_foreign h] at hruns ⊢
    exact ⟨State.port_updPort_other .., by cases p <;> rfl, fun _ hf => hf, hruns⟩

end

theorem installedSource_some {c : Settings} {b : Bay} {n : Nat} (hb : bayNumber b = n) (h : c.hasBay b = true) :
    installedSource c n = some b := by
  rw [← hb, installedSource, bayOf_number]
  exact if_pos h

theorem installedSource_none {c : Settings} {n : Nat} (h : ∀ b, bayNumber b = n → c.hasBay b = false) : installedSource c n = none := by
  unfold installedSource
  cases hb : bayOf n with
  | none => rfl
  | some b =>
    have hn : bayNumber b = n := by
      unfold bayOf at hb
      split at hb
      · cases hb
        simp only [bayNumber]
        omega
      · cases hb
    exact if_neg (by rw [h b hn]; decide)

/-! ### The peer table's judgement (R64) -/

section
variable {present : SectSet} {c : Settings} {e : PeerEntry} {f : BayFrame} {t : Ticks}

theorem judgeFrame_conflicted (h : e.presence = .conflict) : judgeFrame present e f t = .inConflict := if_pos h

theorem judgeFrame_misfit (hp : e.presence ≠ .conflict) (h : ¬ Fits c e f) :
    ∃ why, misfit c.present e f = some why ∧ judgeFrame c.present e f t = .conflict why := by
  obtain ⟨why, hw⟩ := Option.ne_none_iff_exists'.1 fun hn => h ((misfit_none_iff c e f).1 hn)
  exact ⟨why, hw, by simp only [judgeFrame, if_neg hp, hw]⟩

theorem judgeFrame_fits (hp : e.presence ≠ .conflict) (h : Fits c e f) : judgeFrame c.present e f t =
    if !sequencePasses e f.seqNo then .duplicate else if !instantPasses e t then .outOfOrder else .accepted := by
  simp only [judgeFrame, if_neg hp, (misfit_none_iff c e f).2 h]

theorem judgeFrame_duplicate (hp : e.presence ≠ .conflict) (h : Fits c e f) (hn : ¬ Newer e f.seqNo) :
    judgeFrame c.present e f t = .duplicate := by
  rw [judgeFrame_fits hp h, if_pos]
  rw [Bool.eq_false_of_not_eq_true fun hs => hn ((sequencePasses_iff e f.seqNo).1 hs)]
  rfl

theorem judgeFrame_outOfOrder (hp : e.presence ≠ .conflict) (h : Fits c e f) (hn : Newer e f.seqNo) (hl : ¬ Later e t) :
    judgeFrame c.present e f t = .outOfOrder := by
  rw [judgeFrame_fits hp h, (sequencePasses_iff e f.seqNo).2 hn,
    Bool.eq_false_of_not_eq_true fun hs => hl ((instantPasses_iff e t).1 hs)]
  rfl

theorem judgeFrame_accepted (hp : e.presence ≠ .conflict) (h : Fits c e f) (hn : Newer e f.seqNo) (hl : Later e t) :
    judgeFrame c.present e f t = .accepted := by
  rw [judgeFrame_fits hp h, (sequencePasses_iff e f.seqNo).2 hn, (instantPasses_iff e t).2 hl]
  rfl

theorem misfit_tag {why : Misfit} (h : misfit present e f = some why) : why = .tag ↔ e.tag ≠ none ∧ e.tag ≠ some f.tag := by
  rw [← Option.isSome_iff_ne_none]
  unfold misfit at h
  split at h
  next htag => exact ⟨fun _ => htag, fun _ => (Option.some.inj h).symm⟩
  next htag =>
    refine ⟨fun hw => ?_, fun hn => absurd hn htag⟩
    rw [hw] at h
    split at h
    · cases h
    · split at h <;> cases h

theorem misfit_declaration {why : Misfit} (h : misfit present e f = some why) :
    why = .declaration ↔ (e.tag = none ∨ e.tag = some f.tag) ∧ e.decl ≠ none ∧ e.decl ≠ some f.decl := by
  have htag : (e.tag = none ∨ e.tag = some f.tag) ↔ ¬ (e.tag.isSome = true ∧ e.tag ≠ some f.tag) := by
    rw [Option.isSome_iff_ne_none]
    tauto
  rw [htag, ← Option.isSome_iff_ne_none]
  unfold misfit at h
  split at h
  next hno =>
    refine ⟨fun hw => ?_, fun hd => absurd hno hd.1⟩
    rw [hw] at h
    cases h
  next hno =>
    split at h
    next hd => exact ⟨fun _ => ⟨hno, hd⟩, fun _ => (Option.some.inj h).symm⟩
    next hd =>
      refine ⟨fun hw => ?_, fun hn => absurd hn.2 hd⟩
      rw [hw] at h
      split at h <;> cases h

/-- What an accepted frame that fits makes of its entry (R70 to R72). -/
theorem acceptEntry_fits {p : Port} (h : Fits c e f) : acceptEntry f t p e = { e with
    presence := (acceptPresence e.presence e.joinRun).1, joinRun := (acceptPresence e.presence e.joinRun).2, tag := some f.tag
    decl := some f.decl, lastSeq := some f.seqNo, fresh := 0, declared := some f.declared, backtrip := f.backtrip, lastPort := some p
    history := (if e.history.length ≥ 32 then e.history.drop 1 else e.history) ++
      [⟨f.seqNo, t, f.cur, f.val, f.replica, f.declared⟩]
    accepted := min (e.accepted + 1) 65535 } := by
  have htag : e.tag.getD f.tag = f.tag := by
    cases hx : e.tag with
    | none => rfl
    | some x => exact h.1 x hx
  have hdecl : e.decl.getD f.decl = f.decl := by
    cases hx : e.decl with
    | none => rfl
    | some x => exact h.2.1 x hx
  rw [acceptEntry, htag, hdecl]
  rfl

end

theorem acceptPresence_stated (e : PeerEntry) :
    (e.presence = .absent ∨ e.presence = .stale →
      (acceptPresence e.presence e.joinRun).1 = .joining ∧ (acceptPresence e.presence e.joinRun).2 = 1) ∧
    (e.presence = .joining → (acceptPresence e.presence e.joinRun).2 = min (e.joinRun + 1) 32 ∧
      (acceptPresence e.presence e.joinRun).1 = if 32 ≤ e.joinRun + 1 then .live else .joining) ∧
    (e.presence = .live → (acceptPresence e.presence e.joinRun).1 = .live ∧ (acceptPresence e.presence e.joinRun).2 = e.joinRun) := by
  refine ⟨fun h => ?_, fun h => ?_, fun h => ?_⟩
  · rcases h with h | h <;> rw [h] <;> exact ⟨rfl, rfl⟩
  · rw [h]; exact ⟨rfl, rfl⟩
  · rw [h]; exact ⟨rfl, rfl⟩

/-! ### What a delivered frame leaves -/

section
variable {c : Settings} {b : Bay} {f : BayFrame} {inst : Ticks} {p : Port} {v : State}

theorem takeFrame_form (c : Settings) (b : Bay) (f : BayFrame) (inst : Ticks) (p : Port) (v : State) : takeFrame c b f inst p v =
    { v with
      pt := (takeFrame c b f inst p v).pt, tu := (takeFrame c b f inst p v).tu
      mp := { v.mp with flags := (takeFrame c b f inst p v).mp.flags } } := by
  refine state_ext ?_ ?_ ?_ rfl ?_ ?_ rfl ?_ ?_ (mp_flags ?_ ?_ ?_ ?_ ?_) ?_ ?_ ?_ <;> simp

theorem takeFrame_entries (hb : b.val < v.pt.entries.length) :
    (takeFrame c b f inst p v).entry b = takenEntry c.present f inst p v.su.epoch (v.entry b) ∧
    ∀ b', b' ≠ b → (takeFrame c b f inst p v).entry b' = v.entry b' := by
  refine ⟨?_, fun b' hne => ?_⟩
  · rw [State.entry, takeFrame_pt]
    exact (Peers.entry_set ..).trans (if_pos hb)
  · rw [State.entry, takeFrame_pt]
    exact setEntry_entry_ne v _ hne

theorem takeFrame_tu (h : judgeFrame c.present (v.entry b) f inst ≠ .accepted ∨ f.backtrip = noSects) :
    (takeFrame c b f inst p v).tu = v.tu := by
  unfold takeFrame
  dsimp only
  cases hj : judgeFrame c.present (v.entry b) f inst
  case accepted =>
    have hempty : SectSet.isEmpty f.backtrip = true := by rw [h.resolve_left (not_not.2 hj)]; rfl
    dsimp only
    rw [if_pos hempty]
    rfl
  all_goals rfl

end

/-! ### A frame of another bay at an UP port -/

theorem takeBay_hops {c : Settings} {p : Port} {f : BayFrame} {a : Ticks} {u : State} (hs : f.source ≠ bayNumber c.bay)
    (h : 23 ≤ f.hops) : takeBay c p f a u = u.updPort p fun q => { q with ctr := { q.ctr with
      framesReceived := bump q.ctr.framesReceived, hopDrops := bump q.ctr.hopDrops } } := by
  refine (if_neg hs).trans ((if_pos (Nat.lt_succ_of_le h)).trans ?_)
  rw [State.updPort_updPort]

/-- A port once it has counted a frame (R43). -/
def frameCounted (q : PortState) : PortState := { q with ctr := { q.ctr with framesReceived := min (q.ctr.framesReceived + 1) 65535 } }

theorem takeBay_delivers {c : Settings} {p : Port} {f : BayFrame} {a : Ticks} {d : Nat} {u : State} (hs : f.source ≠ bayNumber c.bay)
    (h : f.hops < 23) (hd : (u.port p).delay = some d) : takeBay c p f a u =
    deliver c p ⟨{ f with hops := f.hops + 1 }, a, d⟩
      (queueTransit (otherPort p) ⟨{ f with hops := f.hops + 1 }, a, d⟩ (u.updPort p frameCounted)) := by
  refine (if_neg hs).trans ((if_neg (not_lt.2 h)).trans ?_)
  rw [hd]
  rfl

/-- What the frame of another bay that the peer table takes leaves, but for its entry. -/
structure TakenFrom (p : Port) (b : Bay) (s u t : State) : Prop where
  form : t = { u with ri := t.ri, pt := t.pt, tu := t.tu, mp := { s.mp with flags := t.mp.flags } }
  port : t.port p = frameCounted (u.port p)
  quiet : t.ri.unexpectedQuiet = s.ri.unexpectedQuiet ∧ t.ri.unexpectedDetail = s.ri.unexpectedDetail
  others : ∀ b', b' ≠ b → t.entry b' = s.entry b'

/-- The state at the moment of a reception, beside what moves there. -/
structure MomentOf (s u : State) : Prop where
  form : u = { s with su := u.su, ri := u.ri, mp := { s.mp with flags := u.mp.flags } }
  quiet : u.ri.unexpectedQuiet = s.ri.unexpectedQuiet ∧ u.ri.unexpectedDetail = s.ri.unexpectedDetail

theorem atMoment_of {c : Settings} {s : State} (hr : Runs c s) (m : Nat) : MomentOf s (atMoment m s) := by
  have hbeside := besidePorts_atMoment hr m
  simp only [besidePorts, Ring.mk.injEq, true_and] at hbeside
  obtain ⟨r, hform⟩ := atMoment_form m s
  refine ⟨?_, hbeside.2⟩
  generalize atMoment m s = u at hform
  rw [hform]

theorem Forwarded.counted {p : Port} {s u v : State} (hu : MomentOf s u) (hv : Forwarded p (u.updPort p frameCounted) v) :
    v = { u with ri := v.ri, mp := { s.mp with flags := v.mp.flags } } ∧ v.port p = frameCounted (u.port p) ∧
    v.ri.unexpectedQuiet = s.ri.unexpectedQuiet ∧ v.ri.unexpectedDetail = s.ri.unexpectedDetail := by
  have hquiet : ∀ f, (u.updPort p f).ri.unexpectedQuiet = u.ri.unexpectedQuiet ∧
      (u.updPort p f).ri.unexpectedDetail = u.ri.unexpectedDetail := fun f => by cases p <;> exact ⟨rfl, rfl⟩
  refine ⟨?_, hv.port.trans (State.port_updPort ..), hv.quiet.1.trans ((hquiet _).1.trans hu.quiet.1),
    hv.quiet.2.trans ((hquiet _).2.trans hu.quiet.2)⟩
  have hmp : u.mp = { s.mp with flags := u.mp.flags } := by rw [hu.form]
  have hform := hv.form
  rw [State.updPort_mp, hmp] at hform
  exact hform

theorem takeFrame_from {c : Settings} {p : Port} {b : Bay} {f : BayFrame} {inst : Ticks} {s u v : State} (hu : MomentOf s u)
    (hv : Forwarded p (u.updPort p frameCounted) v) (hb : b.val < s.pt.entries.length) :
    TakenFrom p b s u (takeFrame c b f inst p v) ∧
    (takeFrame c b f inst p v).entry b = takenEntry c.present f inst p u.su.epoch (s.entry b) := by
  obtain ⟨hform, hport, hquiet⟩ := hv.counted hu
  have hpt : v.pt = s.pt := by rw [hform, hu.form]
  have hsu : v.su = u.su := by rw [hform]
  have hentry : ∀ b, v.entry b = s.entry b := fun b => by rw [State.entry, hpt]; rfl
  obtain ⟨hown, hothers⟩ := takeFrame_entries (c := c) (f := f) (inst := inst) (p := p) (hpt ▸ hb)
  have hri : (takeFrame c b f inst p v).ri = v.ri := takeFrame_ri ..
  have htaken := takeFrame_form c b f inst p v
  refine ⟨⟨?_, by rw [State.port, hri]; exact hport, by rw [hri]; exact hquiet, fun b' hne => (hothers b' hne).trans (hentry b')⟩, ?_⟩
  · generalize takeFrame c b f inst p v = t at htaken hri
    rw [hform] at htaken
    rw [htaken]
  · rw [hown, hsu, hentry]

theorem TakenFrom.alone {p : Port} {b : Bay} {s u t : State} (h : TakenFrom p b s u t) (htu : t.tu = u.tu) :
    t = { u with ri := t.ri, pt := t.pt, mp := { s.mp with flags := t.mp.flags } } := by
  have hform := h.form
  rw [htu] at hform
  exact hform

/-- What each judgement makes of the entry (R64 to R71), the frame delivered on the state v and its forwarding done. -/
theorem takeFrame_judged {c : Settings} {p : Port} {b : Bay} {f : BayFrame} {inst : Ticks} {s u v : State} (hu : MomentOf s u)
    (hepoch : u.su.epoch = s.su.epoch) (hv : Forwarded p (u.updPort p frameCounted) v) (hb : b.val < s.pt.entries.length)
    (hsource : bayNumber b = f.source) :
    let t := takeFrame c b f inst p v
    let e := s.entry b
    let only := t = { u with ri := t.ri, pt := t.pt, mp := { s.mp with flags := t.mp.flags } } ∧
      t.port p = frameCounted (u.port p) ∧ t.ri.unexpectedQuiet = s.ri.unexpectedQuiet ∧
      t.ri.unexpectedDetail = s.ri.unexpectedDetail ∧ ∀ b', b' ≠ b → t.entry b' = s.entry b'
    (e.presence = .conflict → only ∧ t.entry b = { e with conflicts := min (e.conflicts + 1) 65535 }) ∧
    (e.presence ≠ .conflict → ¬ Fits c e f → only ∧ t.mp.flags.getLsbD 10 = true ∧
      ∃ why, misfit c.present e f = some why ∧ t.entry b = conflictEntry why f s.su.epoch p e) ∧
    (e.presence ≠ .conflict → Fits c e f → ¬ Newer e f.seqNo →
      only ∧ t.entry b = { e with duplicates := min (e.duplicates + 1) 65535 }) ∧
    (e.presence ≠ .conflict → Fits c e f → Newer e f.seqNo → ¬ Later e inst →
      only ∧ t.entry b = { e with orders := min (e.orders + 1) 65535 }) ∧
    (e.presence ≠ .conflict → Fits c e f → Newer e f.seqNo → Later e inst →
      (f.backtrip = noSects → only) ∧
      (f.backtrip ≠ noSects →
        t = { u with ri := t.ri, pt := t.pt, tu := t.tu, mp := { s.mp with flags := t.mp.flags } } ∧
        t.port p = frameCounted (u.port p) ∧ (∀ b', b' ≠ b → t.entry b' = s.entry b') ∧
        backtripRequest c f.source f.declared f.backtrip { t with tu := s.tu } = t) ∧
      t.entry b = acceptEntry f inst p e) := by
  have hvtu : v.tu = u.tu := by rw [(hv.counted hu).1]
  have hutu : u.tu = s.tu := by rw [hu.form]
  have hventry : v.entry b = s.entry b := by
    rw [State.entry, (hv.counted hu).1, State.entry]
    show u.pt.entry b = s.pt.entry b
    rw [hu.form]
  obtain ⟨hfrom, hentry⟩ := takeFrame_from (c := c) (f := f) (inst := inst) hu hv hb
  have halone : judgeFrame c.present (s.entry b) f inst ≠ .accepted ∨ f.backtrip = noSects →
      (takeFrame c b f inst p v).tu = u.tu := fun h => (takeFrame_tu (by rwa [hventry])).trans hvtu
  have honly := fun h => (⟨hfrom.alone (halone h), hfrom.port, hfrom.quiet.1, hfrom.quiet.2, hfrom.others⟩ : _ ∧ _ ∧ _ ∧ _ ∧ _)
  rw [takenEntry, hepoch] at hentry
  intro t e only
  refine ⟨fun hp => ?_, fun hp hno => ?_, fun hp hfit hno => ?_, fun hp hfit hnew hno => ?_, fun hp hfit hnew hlater => ?_⟩
  · have hj := judgeFrame_conflicted (e := s.entry b) (present := c.present) (f := f) (t := inst) hp
    exact ⟨honly (.inl (by rw [hj]; nofun)), by rw [hj] at hentry; exact hentry⟩
  · obtain ⟨why, hwhy, hj⟩ := judgeFrame_misfit (e := s.entry b) (t := inst) hp hno
    refine ⟨honly (.inl (by rw [hj]; nofun)), ?_, why, hwhy, by rw [hj] at hentry; exact hentry⟩
    have hflag : t = raise .peerConflict (v.setEntry b (conflictEntry why f v.su.epoch p (v.entry b))) := by
      simp only [t, takeFrame, hventry]
      rw [hj]
    rw [hflag]
    simp [raise, withFlag, Alarm.bit]
  · have hj := judgeFrame_duplicate (e := s.entry b) (t := inst) hp hfit hno
    exact ⟨honly (.inl (by rw [hj]; nofun)), by rw [hj] at hentry; exact hentry⟩
  · have hj := judgeFrame_outOfOrder (e := s.entry b) (t := inst) hp hfit hnew hno
    exact ⟨honly (.inl (by rw [hj]; nofun)), by rw [hj] at hentry; exact hentry⟩
  · have hj := judgeFrame_accepted (e := s.entry b) (t := inst) hp hfit hnew hlater
    refine ⟨fun hno => honly (.inr hno), fun hset => ⟨hfrom.form, hfrom.port, hfrom.others, ?_⟩, by rw [hj] at hentry; exact hentry⟩
    have hback := (takeFrame_backtrip c b f inst p v (by rwa [hventry]) hset hsource).2
    rwa [hvtu, hutu] at hback

/-- Settles O19. -/
theorem peerFrameIsTaken : Obligations.PeerFrameIsTaken := by
  intro c p bytes f d m s hr hphase hm hf hl hd hcut hsource
  have hexec := exec_bay hr hm hf hl hcut
  have hu := atMoment_of hr m
  have hepoch : (atMoment m s).su.epoch = s.su.epoch := by rw [atMoment_su hphase]
  have hrun := atMoment_runs (m := m) hr
  have hdelay : ((atMoment m s).port p).delay = some d := by
    obtain ⟨-, -, -, hdelay, -⟩ := atMoment_link hr m p
    exact hdelay.trans hd
  dsimp only
  generalize atMoment m s = u at hexec hu hepoch hdelay hrun
  refine ⟨fun hhops => ?_, fun hhops => ⟨_, hexec, ?_⟩⟩
  · rw [hexec, takeBay_hops hsource hhops]
    exact congrArg Host.Outcome.next (State.updPort_congr _ _ _ _ rfl)
  rw [takeBay_delivers hsource hhops hdelay]
  have hother : (u.updPort p frameCounted).port (otherPort p) = u.port (otherPort p) := State.port_updPort_other ..
  generalize hx : (⟨{ f with hops := f.hops + 1 }, u.su.lt - 128, d⟩ : Transit) = x
  have hframe : x.frame = { f with hops := f.hops + 1 } := by rw [← hx]
  have hv := queueTransit_forwarded p x (u.updPort p frameCounted)
  have hdown := queueTransit_down (s := u.updPort p frameCounted) (p := otherPort p) (x := x)
  have hroom := queueTransit_room (s := u.updPort p frameCounted) (p := otherPort p) (x := x)
  have hfull := queueTransit_full (s := u.updPort p frameCounted) (p := otherPort p) (x := x)
  rw [hother] at hdown hroom hfull
  generalize queueTransit (otherPort p) x (u.updPort p frameCounted) = v at hv hdown hroom hfull
  obtain ⟨hform, hport, hquiet⟩ := hv.counted hu
  have hon := deliver_on (c := c) (p := p) (x := x) (v := v)
  have hroom' : (u.port (otherPort p)).link = .up → (u.port (otherPort p)).transit.length < 4 →
      (deliver c p x v).port (otherPort p) =
        { u.port (otherPort p) with transit := (u.port (otherPort p)).transit ++ [x] } := fun h h' => by
    rw [hon.other, hroom h h', State.port_updPort, hother]
  refine ⟨fun h => ?_, hroom', fun h h' => ?_, fun h htx ha he ho ht hage => ?_, fun hscheme => ?_, fun hscheme hno => ?_,
    fun b hb hscheme hhas hsize => ?_⟩
  · rw [hon.other, hdown h, hother]
  · refine ⟨hon.other.trans ?_, hon.overflow.trans ?_, hon.flags 6 ?_⟩ <;> rw [hfull h h']
    · rw [← hother]; cases p <;> rfl
    · cases p <;> rfl
    · simp [raise, withFlag, Alarm.bit]
  · have hrt : Runs c (deliver c p x v) := hon.runs c (by rw [hform]; exact hrun)
    have hlt : (deliver c p x v).su.lt = u.su.lt := by rw [deliver_su, hform]
    rw [settle_port hrt, hlt, hroom' h (by rw [ht]; decide),
      arbitratePort_forwards (f := { f with hops := f.hops + 1 }) (d := d) (by exact htx) (by exact ha) (by exact he) (by exact h)
        (by exact ho) (by simp only [ht, List.nil_append, ← hx]) (by exact hage)]
    rw [← ht]
  · rw [deliver_foreign (by rw [hframe]; exact hscheme)]
    refine ⟨?_, by rw [State.port_updPort, hport]; rfl⟩
    rw [hform]
    rfl
  · rw [deliver_unexpected (by rw [hframe]; exact hscheme) (by rw [hframe]; exact installedSource_none hno)]
    refine ⟨?_, ?_, rfl, by rw [hframe]; rfl, by simp [raise, withFlag, Alarm.bit]⟩
    · rw [hform]
      rfl
    · have hcounts := State.port_updPort v p fun q => { q with ctr := { q.ctr with unexpectedBays := bump q.ctr.unexpectedBays } }
      rw [hport] at hcounts
      refine .trans ?_ hcounts
      cases p <;> rfl
  · rw [deliver_installed (by rw [hframe]; exact hscheme) (by rw [hframe]; exact installedSource_some hb hhas)]
    have hinst : frameInstant x = u.su.lt - 128 - BitVec.ofNat 32 d - BitVec.ofNat 32 f.age := by rw [← hx]; rfl
    rw [hinst, hframe]
    generalize u.su.lt - 128 - BitVec.ofNat 32 d - BitVec.ofNat 32 f.age = inst
    obtain ⟨hconflict, hmisfit, hdup, horder, haccept⟩ := takeFrame_judged (c := c) (f := { f with hops := f.hops + 1 }) (inst := inst)
      hu hepoch hv hsize hb
    refine ⟨hconflict, fun hp hno => ?_, hdup, horder, fun hp hfit hnew hlater => ?_⟩
    · obtain ⟨honly, hflag, why, hwhy, hentry⟩ := hmisfit hp hno
      exact ⟨honly, hflag, why, hentry, misfit_tag hwhy, misfit_declaration hwhy⟩
    · obtain ⟨hempty, hset, hentry⟩ := haccept hp hfit hnew hlater
      obtain ⟨habsent, hjoining, hlive⟩ := acceptPresence_stated (s.entry b)
      exact ⟨hempty, hset, _, _, hentry.trans (acceptEntry_fits (by exact hfit)), habsent, hjoining, hlive⟩

end Sys2Proof.Machine

/-! PROOFS. A history aligned at an instant (section 5). -/

namespace Sys2Proof.Machine

open Sys2Proof

/-- The rounded quotient is nearest, a tie going away from zero (R8, R92). -/
theorem roundDiv_nearest (n : Int) {d : Nat} (hd : 0 < d) : 2 * ((d : Int) * roundDiv n d - n).natAbs ≤ d ∧
    (2 * ((d : Int) * roundDiv n d - n).natAbs = d → n.natAbs < ((d : Int) * roundDiv n d).natAbs) := by
  have hle : 2 * d * ((2 * n.natAbs + d) / (2 * d)) ≤ 2 * n.natAbs + d := Nat.mul_div_le _ _
  have hlt : 2 * n.natAbs + d < 2 * d * ((2 * n.natAbs + d) / (2 * d) + 1) := Nat.lt_mul_div_succ _ (by omega)
  unfold roundDiv
  dsimp only
  generalize (2 * n.natAbs + d) / (2 * d) = q at hle hlt
  rw [Nat.mul_add, Nat.mul_one] at hlt
  have hprod : 2 * d * q = 2 * (d * q) := Nat.mul_assoc 2 d q
  rw [hprod] at hle hlt
  have hcast : (d : Int) * (q : Int) = ((d * q : Nat) : Int) := (Nat.cast_mul d q).symm
  generalize d * q = m at *
  split
  · rw [mul_neg, hcast]
    constructor <;> omega
  · rw [hcast]
    constructor <;> omega

section
variable {tau : Ticks}

theorem atOrBefore_iff {t : Ticks} : atOrBefore t tau = true ↔ 0 ≤ (tau - t).toInt := decide_eq_true_iff

theorem bracket_none {h : List Slot} (hall : ∀ y ∈ h, (tau - y.instant).toInt < 0) : bracket tau h = none := by
  induction h with
  | nil => rfl
  | cons x rest ih =>
    have hx : ¬ atOrBefore x.instant tau = true := fun hx => absurd (atOrBefore_iff.1 hx) (not_le.2 (hall x (List.mem_cons_self ..)))
    rw [bracket, ih fun y hy => hall y (List.mem_cons_of_mem _ hy)]
    exact if_neg hx

/-- The newest slot at or before τ, and the slot that follows it (R87). -/
theorem bracket_found {older newer : List Slot} {x : Slot} (hx : 0 ≤ (tau - x.instant).toInt)
    (hall : ∀ y ∈ newer, (tau - y.instant).toInt < 0) : bracket tau (older ++ x :: newer) = some (x, newer.head?) := by
  induction older with
  | nil =>
    rw [List.nil_append, bracket, bracket_none hall]
    exact if_pos (atOrBefore_iff.2 hx)
  | cons y rest ih => rw [List.cons_append, bracket, ih]

theorem alignHistory_none {h : List Slot} (hall : ∀ y ∈ h, (tau - y.instant).toInt < 0) :
    alignHistory tau h = notValid .tooOld none := by
  rw [alignHistory, bracket_none hall]

/-- The result of the bracket that a history gives (R89 to R92). -/
theorem alignHistory_exact {h : List Slot} {x : Slot} {y : Option Slot} (hb : bracket tau h = some (x, y)) (hx : x.instant = tau) :
    alignHistory tau h = exactResult x := by
  rw [alignHistory, hb]
  exact if_pos hx

theorem alignHistory_late {h : List Slot} {x : Slot} (hb : bracket tau h = some (x, none)) (hx : x.instant ≠ tau) :
    alignHistory tau h = notValid .late (some x) := by
  rw [alignHistory, hb]
  exact if_neg hx

theorem alignHistory_between {h : List Slot} {x y : Slot} (hb : bracket tau h = some (x, some y)) (hx : x.instant ≠ tau) :
    alignHistory tau h = if 25000 < (y.instant - x.instant).toInt then notValid .gap (some x) else interpolatedResult x y tau := by
  rw [alignHistory, hb]
  exact if_neg hx

/-- A bracket gives the replica and the declared state of its first slot, whatever its outcome (R94). -/
theorem alignHistory_first {h : List Slot} {x : Slot} {y : Option Slot} (hb : bracket tau h = some (x, y)) :
    (alignHistory tau h).replica = some x.replica ∧ (alignHistory tau h).declared = some x.declared := by
  by_cases hx : x.instant = tau
  · rw [alignHistory_exact hb hx]
    exact ⟨rfl, rfl⟩
  · cases y with
    | none =>
      rw [alignHistory_late hb hx]
      exact ⟨rfl, rfl⟩
    | some y =>
      rw [alignHistory_between hb hx]
      split <;> exact ⟨rfl, rfl⟩

end

theorem exactResult_phases (x : Slot) (q : Phase) : (exactResult x).ok.get q = decide (x.val.get q = .valid) ∧
    (exactResult x).cur.get q = if x.val.get q = .valid then x.cur.get q else 0 := by
  rw [exactResult, perPhase_of_get, perPhase_of_get, Slot.isValid]
  simp only [decide_eq_true_eq, and_self]

theorem notValid_phases (o : AlignOutcome) (x : Option Slot) (q : Phase) :
    (notValid o x).ok.get q = false ∧ (notValid o x).cur.get q = 0 := by cases q <;> exact ⟨rfl, rfl⟩

theorem interpolatedResult_phases {x y : Slot} {tau : Ticks} (h : 0 < (y.instant - x.instant).toInt) (q : Phase) :
    let r := interpolatedResult x y tau
    let span := (y.instant - x.instant).toInt
    (r.ok.get q = true ↔ x.val.get q = .valid ∧ y.val.get q = .valid) ∧ (r.ok.get q = false → r.cur.get q = 0) ∧
    (r.ok.get q = true → ∃ d : Int, r.cur.get q = x.cur.get q + d ∧
      let num := (y.cur.get q - x.cur.get q) * (tau - x.instant).toInt
      2 * (span * d - num).natAbs ≤ span.natAbs ∧
      (2 * (span * d - num).natAbs = span.natAbs → num.natAbs < (span * d).natAbs)) := by
  have hspan : (((y.instant - x.instant).toInt.toNat : Nat) : Int) = (y.instant - x.instant).toInt := Int.toNat_of_nonneg h.le
  have hnat : (y.instant - x.instant).toInt.natAbs = (y.instant - x.instant).toInt.toNat := by omega
  intro r span
  have hok : r.ok.get q = (x.isValid q && y.isValid q) := perPhase_of_get _ q
  have hcur : r.cur.get q = if x.isValid q && y.isValid q then
      interpolate (x.cur.get q) (y.cur.get q) x.instant y.instant tau else 0 := perPhase_of_get _ q
  rw [hok, hcur]
  refine ⟨by simp only [Slot.isValid, Bool.and_eq_true, decide_eq_true_eq], fun hno => if_neg (by rw [hno]; decide), fun hyes => ?_⟩
  have hnear := roundDiv_nearest ((y.cur.get q - x.cur.get q) * (tau - x.instant).toInt)
    (d := (y.instant - x.instant).toInt.toNat) (by omega)
  rw [hspan] at hnear
  refine ⟨_, if_pos hyes, ?_⟩
  dsimp only
  rw [show span = (y.instant - x.instant).toInt from rfl, hnat]
  exact hnear

/-- R87 to R94 of a history with a slot at or before τ. -/
theorem alignHistory_stated (tau : Ticks) (older newer : List Slot) (x : Slot) (hx : 0 ≤ (tau - x.instant).toInt)
    (hall : ∀ y ∈ newer, (tau - y.instant).toInt < 0) :
    let r := alignHistory tau (older ++ x :: newer)
    r.replica = some x.replica ∧ r.declared = some x.declared ∧
    (x.instant = tau → r.outcome = .exact ∧
      ∀ q, r.ok.get q = decide (x.val.get q = .valid) ∧ r.cur.get q = if x.val.get q = .valid then x.cur.get q else 0) ∧
    (x.instant ≠ tau → newer = [] → r.outcome = .late ∧ ∀ q, r.ok.get q = false ∧ r.cur.get q = 0) ∧
    ∀ y rest, x.instant ≠ tau → newer = y :: rest →
      let span := (y.instant - x.instant).toInt
      (25000 < span → r.outcome = .gap ∧ ∀ q, r.ok.get q = false ∧ r.cur.get q = 0) ∧
      (0 < span → span ≤ 25000 → r.outcome = .interpolated ∧ ∀ q,
        (r.ok.get q = true ↔ x.val.get q = .valid ∧ y.val.get q = .valid) ∧ (r.ok.get q = false → r.cur.get q = 0) ∧
        (r.ok.get q = true → ∃ d : Int, r.cur.get q = x.cur.get q + d ∧
          let num := (y.cur.get q - x.cur.get q) * (tau - x.instant).toInt
          2 * (span * d - num).natAbs ≤ span.natAbs ∧
          (2 * (span * d - num).natAbs = span.natAbs → num.natAbs < (span * d).natAbs))) := by
  have hb := bracket_found (older := older) hx hall
  obtain ⟨hreplica, hdeclared⟩ := alignHistory_first hb
  refine ⟨hreplica, hdeclared, fun h => ?_, fun h hn => ?_, fun y rest h hn => ?_⟩
  · rw [alignHistory_exact hb h]
    exact ⟨rfl, exactResult_phases x⟩
  · subst hn
    rw [alignHistory_late hb h]
    exact ⟨rfl, notValid_phases _ _⟩
  · subst hn
    have hr := alignHistory_between hb h
    refine ⟨fun hgap => ?_, fun hpos hle => ?_⟩
    · rw [hr, if_pos hgap]
      exact ⟨rfl, notValid_phases _ _⟩
    · rw [hr, if_neg (not_lt.2 hle)]
      exact ⟨rfl, interpolatedResult_phases hpos⟩

end Sys2Proof.Machine

/-! PROOFS. The own sample event: the record, the own entry, the own frame and what the Trip Unit takes of it (sections 1.2, 3.7, 4.6). -/

namespace Sys2Proof.Machine

open Sys2Proof

/-! ### The record of the channels -/

theorem makeRecord_get (c : Settings) (f : Flight) (chans : PerPhase ChanPair) (q : Phase) :
    ((makeRecord c f chans).val.get q, (makeRecord c f chans).cur.get q) = testPhase c (chans.get q) := by cases q <;> rfl

theorem chan_of_done {x : Chan} (h : x.isDone = true) : ∃ n, x = .done n := by
  cases x with
  | done n => exact ⟨n, rfl⟩
  | idle => cases h
  | converting => cases h

theorem testPhase_done {c : Settings} {x : ChanPair} (h : ∀ ch, (x.get ch).isDone = true) : (testPhase c x).1 ≠ .missing := by
  obtain ⟨n, hn⟩ := chan_of_done (h .a)
  obtain ⟨m, hm⟩ := chan_of_done (h .b)
  simp only [ChanPair.get] at hn hm
  simp only [testPhase, hn, hm]
  split <;> exact fun h => nomatch h

/-! ### The own entry and the own frame -/

/-- What the own entry becomes by a record of its own (R76). -/
theorem feedEntry_fed {c : Settings} {f : Flight} {x : Record} (he : x.epoch = f.epoch) (hi : x.instant = f.instant)
    (hr : x.replica = f.replica) (e : PeerEntry) : OwnFed c f x e (feedEntry c x f.declared e) := by
  obtain ⟨habsent, hjoining, hlive⟩ := acceptPresence_stated e
  refine ⟨?_, fun h => habsent (.inl h), hjoining, hlive⟩
  rw [feedEntry, he, hi, hr]
  rfl

section
variable {c : Settings} {f : Flight} {s : State}

/-- The own frame of the epoch under conversion, with its instant (R42). -/
def ownFrameOf (c : Settings) (f : Flight) (x : Record) (tu : TripUnit) : OwnFrame :=
  ⟨{ source := bayNumber c.bay, scheme := c.scheme, tag := c.tag, seqNo := f.epoch.setWidth 16, hops := 0, age := 0
     decl := ⟨c.kind, some c.side1, c.side2⟩, declared := f.declared, replica := f.replica
     val := x.val, cur := x.cur
     backtrip := if tu.trip = .asserted ∧ tu.bf = .failed ∧ f.declared = .service then tu.backtrip else noSects },
    f.instant⟩

theorem ownSampleEvent_places (hf : s.su.flight = some f) (p : Port) :
    (ownSampleEvent c s).port p = placeCopy (ownFrameOf c f (makeRecord c f s.su.chans) s.tu) (s.port p) := by
  have hplace : ∀ (o : OwnFrame) (u : State), (placeOwn o u).port p = placeCopy o (u.port p) := fun o u => by cases p <;> rfl
  have hri : ∀ u : State, u.ri = s.ri → u.port p = s.port p := fun u hu => by rw [State.port, hu]; rfl
  have htu : (feedOwn c (makeRecord c f s.su.chans) f.declared (takeRecordSu (makeRecord c f s.su.chans) s)).tu = s.tu := by simp
  have hframe : ownFrameOf c f (makeRecord c f s.su.chans) s.tu =
      ⟨makeOwnFrame c (makeRecord c f s.su.chans) f.declared (offeredSet f.declared
        (feedOwn c (makeRecord c f s.su.chans) f.declared (takeRecordSu (makeRecord c f s.su.chans) s))), f.instant⟩ := by
    rw [offeredSet, htu]
    rfl
  rw [hframe, ← hri (feedOwn c (makeRecord c f s.su.chans) f.declared (takeRecordSu (makeRecord c f s.su.chans) s)) (by simp), ← hplace]
  simp only [ownSampleEvent, hf]
  simp [State.port, evaluateInstant]

theorem ownSampleEvent_feeds (hf : s.su.flight = some f) (hb : c.bay.val < s.pt.entries.length) :
    (ownSampleEvent c s).entry c.bay = feedEntry c (makeRecord c f s.su.chans) f.declared (s.entry c.bay) := by
  have hpt : (ownSampleEvent c s).pt =
      s.pt.set c.bay (feedEntry c (makeRecord c f s.su.chans) f.declared (s.entry c.bay)) := by
    rw [ownSampleEvent_eq hf, tripEvaluation_pt]
    unfold beforeTrip
    simp [feedOwn, State.setEntry, State.entry]
  rw [State.entry, hpt]
  exact (Peers.entry_set ..).trans (if_pos hb)

theorem takeRecordSu_window (r : Record) (s : State) : (takeRecordSu r s).su.record = some r ∧
    (takeRecordSu r s).su.peak = joinPeak ⟨r.cur, r.val⟩ s.su.peak := by
  simp only [takeRecordSu, converterRecoveryOp, clearRunOp, converterFailureOp]
  split <;> split <;> exact ⟨rfl, rfl⟩

theorem ownSampleEvent_records (hf : s.su.flight = some f) : (ownSampleEvent c s).su.record = some (makeRecord c f s.su.chans) ∧
    (ownSampleEvent c s).su.peak =
      joinPeak ⟨(makeRecord c f s.su.chans).cur, (makeRecord c f s.su.chans).val⟩ s.su.peak := by
  rw [ownSampleEvent_su hf]
  exact takeRecordSu_window _ s

/-- The Trip Unit takes the verdicts last (R99, R146). -/
theorem ownSampleEvent_trip (hf : s.su.flight = some f) :
    tripEvaluation c f.epoch { ownSampleEvent c s with tu := s.tu } = ownSampleEvent c s := by
  have htu : (beforeTrip c f s).tu = s.tu := by unfold beforeTrip; simp
  rw [ownSampleEvent_eq hf, ← htu]
  exact (tripEvaluation_tripOnly c f.epoch (beforeTrip c f s)).again

theorem ownSampleEvent_latest (hf : s.su.flight = some f) :
    (ownSampleEvent c s).au.latest = some ⟨f.epoch, f.instant - BitVec.ofNat 32 (c.delay * 10000)⟩ := by
  rw [ownSampleEvent_eq hf, tripEvaluation_au]
  unfold beforeTrip
  simp
  rfl

end

end Sys2Proof.Machine

/-! PROOFS. The last completion of an epoch: the record, the own frames, the standings and the blocking of the evaluation (sections 5.1,
5.3, 6.2 and 6.6). -/

namespace Sys2Proof.Machine

open Sys2Proof

/-! ### Standings (R100 to R102) -/

theorem usedDecl_none {e : PeerEntry} : usedDecl e = none ↔ e.decl = none ∨ e.presence = .conflict := by
  unfold usedDecl
  split
  next h => exact ⟨fun _ => .inr h, fun _ => rfl⟩
  next h => exact ⟨.inl, fun hor => hor.resolve_right h⟩

theorem usableState_iff {r : Option RunState} : usableState r = true ↔ r = some .listen ∨ r = some .service ∨ r = some .test := by
  cases r with
  | none => simp [usableState]
  | some r => cases r <;> simp [usableState]

/-- An installed bay's standing, by its entry and its aligned result. -/
theorem standingOf_stated (e : PeerEntry) (a : Aligned) :
    let isolated := a.declared = some .isolated ∨ (a.outcome = .tooOld ∧ e.declared = some .isolated)
    (standingOf e a = .undeclared ↔ e.decl = none ∨ e.presence = .conflict) ∧
    (e.decl ≠ none → e.presence ≠ .conflict → (standingOf e a = .isolated ↔ isolated) ∧
      (¬ isolated → (standingOf e a = .usable ↔ e.presence = .live ∧
        (a.declared = some .listen ∨ a.declared = some .service ∨ a.declared = some .test) ∧
        (a.outcome = .exact ∨ a.outcome = .interpolated)))) := by
  intro isolated
  refine ⟨standing_undeclared.trans usedDecl_none, fun hd hc => ?_⟩
  have hused : ¬ usedDecl e = none := fun h => (usedDecl_none.1 h).elim hd hc
  rw [standingOf, if_neg hused, ← usableState_iff (r := a.declared)]
  by_cases hi : isolated
  · rw [if_pos hi]
    exact ⟨iff_of_true rfl hi, fun hn => absurd hi hn⟩
  · rw [if_neg hi]
    split
    next hu => exact ⟨iff_of_false nofun hi, fun _ => iff_of_true rfl hu⟩
    next hu => exact ⟨iff_of_false nofun hi, fun _ => iff_of_false nofun hu⟩

/-! ### Blocking (R111 to R113) -/

section
variable {c : Settings} {f : Flight} {s t : State} {k : EpochNo} {p : PerSect (PerPhase ZoneState)} {q : PerPhase ZoneState}

/-- What holds of some bay of the last topology is what holds of some installed bay at its standing. -/
theorem exists_recorded {P : Bay → Standing → Prop} :
    (∃ y ∈ (makeTopology c k (computingInstant c f.instant) (foundAt c f s t) p q).bays, P y.bay y.standing) ↔
      ∃ v ∈ (foundAt c f s t).views, P v.bay v.standing := by
  simp only [makeTopology, List.mem_map, exists_exists_and_eq_and]

theorem found_view {v : BayView} (hv : v ∈ (foundAt c f s t).views) : c.hasBay v.bay = true ∧
    v = viewBay (computingInstant c f.instant) v.bay (t.entry v.bay) := mem_viewBays.1 hv

theorem found_of_installed {b : Bay} (hb : c.hasBay b = true) :
    viewBay (computingInstant c f.instant) b (t.entry b) ∈ (foundAt c f s t).views := mem_viewBays.2 ⟨hb, rfl⟩

theorem anyUndeclared_iff : anyUndeclared (foundAt c f s t).views = true ↔
    ∃ v ∈ (foundAt c f s t).views, v.standing = .undeclared := by
  simp only [anyUndeclared, List.any_eq_true, decide_eq_true_eq]

/-- An UNUSABLE bay's view holds the declaration of its entry. -/
theorem unusable_decl {v : BayView} (hv : v ∈ (foundAt c f s t).views) (h : v.standing = .unusable) : v.decl = (t.entry v.bay).decl := by
  obtain ⟨-, hview⟩ := found_view hv
  have hst : v.standing = standingOf (t.entry v.bay) (alignHistory (computingInstant c f.instant) (t.entry v.bay).history) := by
    rw [hview]; rfl
  have hdecl : v.decl = usedDecl (t.entry v.bay) := by rw [hview]; rfl
  rw [hdecl]
  exact usedDecl_of (by rw [← hst, h]; decide)

theorem memberNotValid_iff {ph : Phase} {m : Member} (hb : c.hasBay m.bay = true) :
    memberNotValid (foundAt c f s t).views ph m = true ↔
      (alignHistory (computingInstant c f.instant) (t.entry m.bay).history).ok.get ph = false := by
  simp only [memberNotValid, List.any_eq_true, Bool.and_eq_true, decide_eq_true_eq, Bool.not_eq_true']
  constructor
  · rintro ⟨v, hv, hm, hok⟩
    obtain ⟨-, hview⟩ := found_view hv
    rw [hview, hm] at hok
    exact hok
  · exact fun hok => ⟨_, found_of_installed hb, rfl, hok⟩

/-- A declaration with a side in a zone. -/
def sidesIn (z : SectSet) : Option Decl → Bool
  | some d => sideIn z d.side1 || sideIn z d.side2
  | none => false

theorem sidesIn_iff {z : SectSet} {d : Option Decl} : sidesIn z d = true ↔
    ∃ x side, d = some x ∧ (x.side1 = some side ∨ x.side2 = some side) ∧ z.get side = true := by
  cases d with
  | none => exact iff_of_false nofun nofun
  | some d =>
    rw [sidesIn, Bool.or_eq_true, sideIn_iff, sideIn_iff]
    constructor
    · rintro (⟨x, hx, hg⟩ | ⟨x, hx, hg⟩)
      exacts [⟨d, x, rfl, .inl hx, hg⟩, ⟨d, x, rfl, .inr hx, hg⟩]
    · rintro ⟨_, x, ⟨⟩, hx | hx, hg⟩
      exacts [.inl ⟨x, hx, hg⟩, .inr ⟨x, hx, hg⟩]

theorem zoneBlockedAt_eq (views : List BayView) (members : List Member) (z : SectSet) (ph : Phase) : zoneBlockedAt views members z ph =
    (anyUndeclared views || (views.any fun v => decide (v.standing = .unusable) && sidesIn z v.decl) ||
      members.any (memberNotValid views ph)) := rfl

/-- A zone phase is blocked by an UNDECLARED bay, by an UNUSABLE one with a side in the zone, and by a member whose phase is NOT VALID. -/
theorem zoneBlockedAt_iff {z : FoundZone} (hz : z ∈ (foundAt c f s t).zones) {ph : Phase} :
    zoneBlockedAt (foundAt c f s t).views z.members z.sections ph = true ↔
      (∃ v ∈ (foundAt c f s t).views, v.standing = .undeclared) ∨
      (∃ v ∈ (foundAt c f s t).views, v.standing = .unusable ∧ ∃ d side, (t.entry v.bay).decl = some d ∧
        (d.side1 = some side ∨ d.side2 = some side) ∧ z.sections.get side = true) ∨
      ∃ m ∈ z.members, (alignHistory (computingInstant c f.instant) (t.entry m.bay).history).ok.get ph = false := by
  have hmember : ∀ m ∈ z.members, memberNotValid (foundAt c f s t).views ph m = true ↔
      (alignHistory (computingInstant c f.instant) (t.entry m.bay).history).ok.get ph = false := fun m hm => by
    rw [found_members hz] at hm
    obtain ⟨b, sg⟩ := m
    exact memberNotValid_iff (mem_membersOf.1 hm).1
  rw [zoneBlockedAt_eq, Bool.or_eq_true, Bool.or_eq_true, anyUndeclared_iff, List.any_eq_true, List.any_eq_true, or_assoc]
  refine or_congr Iff.rfl (or_congr ?_ ?_)
  · refine exists_congr fun v => and_congr_right fun hv => ?_
    rw [Bool.and_eq_true, decide_eq_true_eq]
    refine and_congr_right fun hst => ?_
    rw [sidesIn_iff, unusable_decl hv hst]
  · exact exists_congr fun m => and_congr_right fun hm => hmember m hm

theorem checkBlockedAt_iff {ph : Phase} : checkBlockedAt (foundAt c f s t).views (foundAt c f s t).chk ph = true ↔
      (∃ v ∈ (foundAt c f s t).views, v.standing = .undeclared) ∨
      (∃ v ∈ (foundAt c f s t).views, v.standing = .unusable ∧ ∃ d, (t.entry v.bay).decl = some d ∧ d.kind = .feeder) ∨
      ∃ m ∈ (foundAt c f s t).chk, (alignHistory (computingInstant c f.instant) (t.entry m.bay).history).ok.get ph = false := by
  rw [checkBlockedAt, Bool.or_eq_true, Bool.or_eq_true, anyUndeclared_iff, List.any_eq_true, List.any_eq_true, or_assoc]
  refine or_congr Iff.rfl (or_congr ?_ ?_)
  · refine exists_congr fun v => and_congr_right fun hv => ?_
    rw [Bool.and_eq_true, decide_eq_true_eq, decide_eq_true_eq]
    refine and_congr_right fun hst => ?_
    rw [unusable_decl hv hst, Option.map_eq_some_iff]
  · exact exists_congr fun m => and_congr_right fun hm => memberNotValid_iff (checkMembers_installed hm)

end

/-- What the last topology records of the evaluation of flight f (R85, R100 to R102, R111 to R113). -/
theorem Evaluated.recorded {c : Settings} {f : Flight} {s t : State} (h : Evaluated c f s t) :
    let tau := f.instant - BitVec.ofNat 32 (c.delay * 10000)
    let al (b : Bay) := alignHistory tau (t.entry b).history
    ∃ tp, t.ze.topo = some tp ∧ tp.epoch = f.epoch ∧ tp.tau = tau ∧ tp.bays.map BayTopo.bay = allBays.filter c.hasBay ∧
      (∀ y ∈ tp.bays,
        let e := t.entry y.bay
        let isolated := (al y.bay).declared = some .isolated ∨ ((al y.bay).outcome = .tooOld ∧ e.declared = some .isolated)
        y.outcome = (al y.bay).outcome ∧
        (y.standing = .undeclared ↔ e.decl = none ∨ e.presence = .conflict) ∧
        (e.decl ≠ none → e.presence ≠ .conflict → (y.standing = .isolated ↔ isolated) ∧
          (¬ isolated → (y.standing = .usable ↔ e.presence = .live ∧
            ((al y.bay).declared = some .listen ∨ (al y.bay).declared = some .service ∨ (al y.bay).declared = some .test) ∧
            ((al y.bay).outcome = .exact ∨ (al y.bay).outcome = .interpolated))))) ∧
      (∀ z ∈ tp.zones, ∀ q, ((z.phases.get q).blocked = true → (z.phases.get q).operate = false) ∧
        ((z.phases.get q).blocked = true ↔ (∃ y ∈ tp.bays, y.standing = .undeclared) ∨
          (∃ y ∈ tp.bays, y.standing = .unusable ∧ ∃ d side, (t.entry y.bay).decl = some d ∧
            (d.side1 = some side ∨ d.side2 = some side) ∧ z.sections.get side = true) ∨
          ∃ y ∈ z.members, (al y.bay).ok.get q = false)) ∧
      ∀ q, ((tp.chk.get q).blocked = true → (tp.chk.get q).operate = false) ∧
        ((tp.chk.get q).blocked = true ↔ (∃ y ∈ tp.bays, y.standing = .undeclared) ∨
          (∃ y ∈ tp.bays, y.standing = .unusable ∧ ∃ d, (t.entry y.bay).decl = some d ∧ d.kind = .feeder) ∨
          ∃ y ∈ tp.chkMembers, (al y.bay).ok.get q = false) := by
  intro tau al
  have hoperates : ∀ {b : Bool} {z : ZoneState}, b = true → operates c b z = false := fun hb => by
    rw [hb]; exact Bool.eq_false_of_not_eq_true fun ho => absurd (operates_iff.1 ho).1 (by decide)
  refine ⟨_, h.topo, rfl, rfl, ?_, fun y hy => ?_, fun z hz q => ?_, fun q => ?_⟩
  · rw [makeTopology, List.map_map]
    exact (List.map_map ..).trans (List.map_id _)
  · obtain ⟨-, hst, hout, -⟩ := mem_topoBays hy
    have hst' : y.standing = standingOf (t.entry y.bay) (al y.bay) := hst
    obtain ⟨hundeclared, hothers⟩ := standingOf_stated (t.entry y.bay) (al y.bay)
    rw [hst']
    exact ⟨hout, hundeclared, hothers⟩
  · obtain ⟨w, hw, rfl⟩ := List.mem_map.1 hz
    rw [zoneTopo, perPhase_of_get]
    refine ⟨hoperates, ?_⟩
    rw [exists_recorded (P := fun _ st => st = .undeclared), exists_recorded (P := fun b st => st = .unusable ∧
      ∃ d side, (t.entry b).decl = some d ∧ (d.side1 = some side ∨ d.side2 = some side) ∧ w.sections.get side = true)]
    exact zoneBlockedAt_iff hw
  · rw [show (makeTopology c f.epoch (computingInstant c f.instant) (foundAt c f s t) t.ze.sects t.ze.check).chk.get q = _ from
      perPhase_of_get ..]
    refine ⟨hoperates, ?_⟩
    rw [exists_recorded (P := fun _ st => st = .undeclared), exists_recorded (P := fun b st => st = .unusable ∧
      ∃ d, (t.entry b).decl = some d ∧ d.kind = .feeder)]
    exact checkBlockedAt_iff

end Sys2Proof.Machine

/-! PROOFS. The last completion of an epoch and the late finalisation (sections 1.2 and 1.6). -/

namespace Sys2Proof.Machine

open Sys2Proof

/-! ### The own frame at the ports (R42, R49, R53, R56) -/

section
variable {c : Settings} {lt : Ticks} {q : PortState} {o : OwnFrame}

theorem placeCopy_up (h : q.link = .up) : placeCopy o q = { q with
    own := some o
    ctr := { q.ctr with ownOverruns := if q.own.isSome then min (q.ctr.ownOverruns + 1) 65535 else q.ctr.ownOverruns } } := by
  rw [placeCopy, if_pos h]
  cases q.own.isSome <;> rfl

theorem placeCopy_down (h : q.link ≠ .up) : placeCopy o q = q := if_neg h

theorem arbitratePort_sendsOwn (htx : q.tx = none) (ha : q.answer = none) (he : q.echoDue = false) (hl : q.link = .up)
    (ho : q.own = some o) (hage : (lt - o.instant).toNat ≤ 4000000) :
    (arbitratePort c lt q).own = none ∧
    (arbitratePort c lt q).tx = some ⟨bayBytes { o.frame with age := (lt - o.instant).toNat }, lt, 128⟩ ∧
    (arbitratePort c lt q).ctr.ownSent = min (q.ctr.ownSent + 1) 65535 := by
  rw [arbitratePort_up htx ha he hl, sendBay_own ho, if_neg (not_lt.2 hage), sendOwn, departList_eq]
  exact ⟨rfl, rfl, rfl⟩

end

/-! ### The last completion -/

section
variable {c : Settings} {ph : Phase} {ch : Channel} {m : Nat} {f : Flight} {s : State} {raw : BitVec 16}

theorem afterCompletion_at (hm : m < 10000) :
    afterCompletion ph ch raw m s = (atMoment m s).updSu fun u =>
      { u with chans := u.chans.upd (ChanPair.complete ch (readRaw raw)) ph } := by
  rw [afterCompletion, Nat.min_eq_left (by omega)]

/-- The last completion is the own sample event on the channels as they then stand. -/
theorem exec_lastCompletion (raw : BitVec 16) (h : CompletesLast c ph ch m f s) : exec (.conversionComplete ph ch raw m) s =
    .next (ownSampleEvent c (afterCompletion ph ch raw m s)) := by
  obtain ⟨hr, -, hc, -, -, hd⟩ := h
  rw [exec_conversionComplete raw m hr hc, if_pos (afterCompletion_allDone raw m hc hd)]

theorem ownSampleEvent_kept (c : Settings) (s : State) : (ownSampleEvent c s).cs = s.cs ∧ (ownSampleEvent c s).ciu = s.ciu ∧
    (ownSampleEvent c s).pins = s.pins ∧ (ownSampleEvent c s).free = s.free ∧ (ownSampleEvent c s).pending = s.pending :=
  ⟨by simp, by simp, by simp, by simp, by simp⟩

end

/-! ### The late finalisation (R5) -/

/-- What the parts of an epoch beside its late event leave of the record and of the own entry, which ages alone (R72). -/
structure OwnAged (b : Bay) (s t : State) : Prop where
  record : t.su.record = s.su.record
  size : s.pt.entries.length = 24 → t.pt.entries.length = 24
  entry : s.pt.entries.length = 24 → t.entry b = { s.entry b with fresh := (t.entry b).fresh }

section
variable {b : Bay} {s t u : State}

theorem OwnAged.refl (s : State) : OwnAged b s s := ⟨rfl, id, fun _ => rfl⟩

theorem OwnAged.trans (h : OwnAged b s t) (h' : OwnAged b t u) : OwnAged b s u where
  record := h'.record.trans h.record
  size := h'.size ∘ h.size
  entry hs := by
    have he := h.entry hs
    have he' := h'.entry (h.size hs)
    rw [he] at he'
    exact he'

theorem OwnAged.of_same (hr : t.su.record = s.su.record) (hpt : t.pt = s.pt) : OwnAged b s t := by
  have he : t.entry b = s.entry b := by rw [State.entry, hpt]; rfl
  exact ⟨hr, by rw [hpt]; exact id, fun _ => by rw [he]⟩

theorem peerEpoch_ownAged (c : Settings) (s : State) : OwnAged c.bay s (peerEpoch c s) where
  record := by rw [peerEpoch_su]
  size hs := (peerEpoch_pres (P := fun t => t.pt.entries.length = 24) (fun a t ht => (ageEntry_entry c a t ht).2.2) hs)
  entry hs := by
    rw [peerEpoch_entry c s hs, agedEntry_counts (.inl rfl)]

end

theorem lateEpoch_feeds {c : Settings} {s : State} {f : Flight} (k : Contacts) (tcs : Bool) (o : EpochOrder) (hr : Runs c s)
    (hf : s.su.flight = some f) (hc : Converting s) (hsize : s.pt.entries.length = 24) :
    ∃ t x, exec (.epoch k tcs o) s = .next t ∧ t.su.record = some x ∧ x.epoch = f.epoch ∧
      OwnFed c f x (s.entry c.bay) { t.entry c.bay with fresh := 0 } := by
  obtain ⟨v, hv, hchans, hflight, ht⟩ := epochParts_around (R := OwnAged c.bay) (c := c) (k := k) (tcs := tcs) (o := o)
    (s := arbitrateBoth c s) .refl .trans (.of_same (by simp [clockEpoch]) (by simp)) (fun _ => .of_same (by simp) (by simp))
    (peerEpoch_ownAged c) (fun _ => .of_same (by simp) (by simp)) (fun _ _ => .of_same (by simp) (by simp)) fun _ => .of_same rfl rfl
  have hsame : (arbitrateBoth c s).pt = s.pt ∧ (arbitrateBoth c s).su = s.su := ⟨by simp, by simp⟩
  rw [hsame.2] at hchans hflight
  have hsize' : (arbitrateBoth c s).pt.entries.length = 24 := by rwa [hsame.1]
  have hlate : lateEvent c v = ownSampleEvent c v := if_pos (by rw [hchans]; exact (anyConverting_iff _).2 hc)
  have hfv : v.su.flight = some f := hflight.trans hf
  obtain ⟨hlen, hown⟩ := ownSampleEvent_own (c := c) hfv (hv.size hsize')
  rw [hlate] at ht
  have he := ht.entry hlen
  rw [hown, hv.entry hsize', show (arbitrateBoth c s).entry c.bay = s.entry c.bay by rw [State.entry, hsame.1]; rfl] at he
  refine ⟨_, _, exec_epoch k tcs o hr, ht.record.trans (ownSampleEvent_records hfv).1, rfl, ?_⟩
  rw [he]
  have hfed := feedEntry_fed (c := c) (f := f) (x := makeRecord c f v.su.chans) rfl rfl rfl (s.entry c.bay)
  exact ⟨hfed.form, hfed.absent, hfed.joining, hfed.live⟩

/-- Settles O6. -/
theorem lastConversionMakesRecord : Obligations.LastConversionMakesRecord := by
  refine ⟨fun c ph ch raw m s f h hb => ?_, fun c k tcs o s f hr hf hc hsize => lateEpoch_feeds k tcs o hr hf hc hsize,
    fun tau l hall => alignHistory_none hall, alignHistory_stated⟩
  have hexec := exec_lastCompletion raw h
  obtain ⟨t', hexec', hevaluated⟩ := lastCompletion_evaluated raw h
  obtain rfl : ownSampleEvent c (afterCompletion ph ch raw m s) = t' := Host.Outcome.next.inj (hexec.symm.trans hexec')
  obtain ⟨hr, hf, hch, hphase, hm, hdone⟩ := h
  have hall := (allDone_iff _).1 (afterCompletion_allDone raw m hch hdone)
  have hat := afterCompletion_at (ph := ph) (ch := ch) (raw := raw) (s := s) hm
  have hkept := atMoment_of hr m
  have hport : ∀ p, (afterCompletion ph ch raw m s).port p = (atMoment m s).port p := fun p => by rw [hat]; rfl
  have hform : afterCompletion ph ch raw m s = { s with
      su := (afterCompletion ph ch raw m s).su, ri := (atMoment m s).ri, mp := { s.mp with flags := (atMoment m s).mp.flags } } := by
    rw [hat, State.updSu, hkept.form]
  have hpeak : (afterCompletion ph ch raw m s).su.peak = s.su.peak := by
    rw [hat]
    simp only [State.updSu, atMoment_su hphase]
  have hflight : (afterCompletion ph ch raw m s).su.flight = some f := by rw [afterCompletion_flight, hf]
  have hrun : Runs c (afterCompletion ph ch raw m s) := by
    rw [hat]
    exact atMoment_runs hr
  clear hexec' hat
  generalize afterCompletion ph ch raw m s = u at hexec hevaluated hall hport hform hpeak hflight hrun
  have htu : u.tu = s.tu := by rw [hform]
  have hpt : u.pt = s.pt := by rw [hform]
  have hentry : ∀ b, u.entry b = s.entry b := fun b => by rw [State.entry, hpt]; rfl
  obtain ⟨hrecord, hwindow⟩ := ownSampleEvent_records (c := c) hflight
  have hfeeds := ownSampleEvent_feeds (c := c) hflight (by rwa [hpt])
  have htrip := ownSampleEvent_trip (c := c) hflight
  have hplaced : ∀ p, (ownSampleEvent c u).port p =
      placeCopy (ownFrameOf c f (makeRecord c f u.su.chans) s.tu) ((atMoment m s).port p) := fun p => by
    rw [ownSampleEvent_places hflight, hport, htu]
  obtain ⟨kcs, kciu, kpins, kfree, kpending⟩ := ownSampleEvent_kept c u
  obtain ⟨tp, htopo, hepoch, htau, hbays, hstandings, hzones, hcheck⟩ := hevaluated.recorded
  have hrt : Runs c (ownSampleEvent c u) := runs_next hrun (ownSampleEvent_clock c u).1 kcs
  refine ⟨ownSampleEvent c u, makeRecord c f u.su.chans, tp, hexec, hrecord, rfl, rfl, rfl, fun q => ⟨?_, ?_⟩, ?_, ?_, fun b hne => ?_,
    ownSampleEvent_latest hflight, ?_, ?_, ?_, ?_, ?_, ?_, fun p => ⟨fun hup => ?_, fun hup htx ha he hage => ?_, fun hdown => ?_⟩,
    htopo, hepoch, htau, hbays, hstandings, hzones, hcheck⟩
  · rw [makeRecord_get, ownSampleEvent_chans]
  · have hvalid := testPhase_done (c := c) (hall q)
    rw [← makeRecord_get c f] at hvalid
    exact hvalid
  · rw [hwindow, hpeak]
    rfl
  · rw [hfeeds, hentry]
    exact feedEntry_fed rfl rfl rfl _
  · rw [(ownSampleEvent_peers c u).1 b hne, hentry]
  · rw [← htu]
    exact htrip
  · rw [kcs, hform]
  · rw [kciu, hform]
  · rw [kpins, hform]
  · rw [kfree, hform]
  · rw [kpending, hform]
  · exact (hplaced p).trans (placeCopy_up hup)
  · rw [settle_port hrt, hplaced p]
    have hsent := arbitratePort_sendsOwn (c := c) (lt := (ownSampleEvent c u).su.lt)
      (q := placeCopy (ownFrameOf c f (makeRecord c f u.su.chans) s.tu) ((atMoment m s).port p))
      (o := ownFrameOf c f (makeRecord c f u.su.chans) s.tu) (by rw [placeCopy_up hup]; exact htx)
      (by rw [placeCopy_up hup]; exact ha) (by rw [placeCopy_up hup]; exact he) (by rw [placeCopy_up hup]; exact hup)
      (by rw [placeCopy_up hup]) hage
    obtain ⟨hown, hsending, hcount⟩ := hsent
    refine ⟨hown, hsending, hcount.trans ?_⟩
    rw [placeCopy_up hup]
  · rw [hplaced p, placeCopy_down hdown]

end Sys2Proof.Machine
